-- ==== Sys2Proof/Word.lean ====
section
/-! DEFINITION. The word types of AMPSEQ (00_scope.md R15, R16): a byte, a byte string, a 32-bit command word. -/

namespace Sys2Proof

/-- One byte: a register byte, a stage byte, a device address (R10), a preset index (R33). -/
abbrev Byte := BitVec 8

/-- `bytes[n]` of R16: byte `b[0]` comes first on the bus (R52). -/
abbrev Bytes := List Byte

/-- One command word (R67). -/
abbrev Word32 := BitVec 32

/-- A 16-bit info value (R76) or payload length (R67). -/
abbrev Half := BitVec 16

/-- An offset into the staging buffer: `stage_addr` has 12 bits (R106), so it is below `STAGE_BYTES`. -/
abbrev StageIx := BitVec 12

end Sys2Proof
end

