-- ==== Sys2Proof/Config.lean ====
section
/-! DEFINITION. What is fixed for a run (00_scope.md R9 to R13, 10_state.md R47): the timing constants and sizes
the spec gives, the types of the parameters it leaves OPEN, the one free value, and the test fixture. -/

namespace Sys2Proof

namespace Config

/-! ### Timing constants, in microseconds (R12) -/

def tPuA : Nat := 1000
def tPuB : Nat := 1000
def tPuC : Nat := 10000
def tPuD : Nat := 15000
def tStop : Nat := 170000
/-- `T_STOP_CHIP`: derived in R12; no rule uses it. -/
def tStopChip : Nat := 130000
def tSdRstPd : Nat := 5
def tStart : Nat := 170000
def tOsc : Nat := 50000
def tRstHold : Nat := 11000
def tRstPost : Nat := 15000

/-! ### Sizes (R13) -/

def stageBytes : Nat := 4096
def eqBlobBytes : Nat := 360
def drcMainBytes : Nat := 24
def drcTkoBytes : Nat := 12
def maxRdata : Nat := 20
def numVol : Nat := 4

/-- The unconstrained draws of R36 and R64 (stage bytes unwritten or raced) and of R24 (bytes of a read that the
Device's script leaves ungiven): draw number `n` is `freeByte n`. It has no body, so no proof can see a value. -/
opaque freeByte : Nat → Byte

end Config

/-- The widths a register may have (R10). -/
inductive Width where
  | w1 | w4 | w8 | w12 | w16 | w20
deriving DecidableEq, Repr

/-- The width in bytes. -/
def Width.bytes : Width → Nat
  | .w1 => 1 | .w4 => 4 | .w8 => 8 | .w12 => 12 | .w16 => 16 | .w20 => 20

/-- One named EQ preset (R9). The name has no role in the block (91_not_in_source.md N22). -/
structure Preset where
  name : String
  blob : Bytes
deriving DecidableEq, Repr

/-- The `PlatformConfig` record `cfg` (R9). The phone and scan lines are carried and never driven (R34). -/
structure PlatformConfig where
  masterVol : Option Byte
  drcMain : Option Bytes
  drcTko : Option Bytes
  drcEnable : Bool
  eqEnable : Bool
  presets : List Preset
  initialPresetIndex : Byte
  rstPin : Option Nat
  pdPin : Option Nat
  rstActiveHigh : Bool
  pdActiveHigh : Bool
  phonePin : Option Nat
  phoneActiveHigh : Bool
  scanPin : Option Nat
  scanActiveHigh : Bool
  initMux : Option Bytes
deriving DecidableEq, Repr

/-- `num_presets` (R9). -/
def PlatformConfig.numPresets (c : PlatformConfig) : Nat := c.presets.length

/-- A control register the block writes with one fixed value: `X_ADDR` and its value string (R11). -/
structure CtlReg where
  addr : Byte
  val : Bytes
deriving DecidableEq, Repr

/-- A control register the block switches: `X_ADDR` and its ON and OFF strings (R11). -/
structure SwitchReg where
  addr : Byte
  on : Bytes
  off : Bytes
deriving DecidableEq, Repr

/-- The device control-register parameters of R11, in the order of its table. `vol[0]` is master (D38). -/
structure ControlRegs where
  oscTrim : CtlReg
  clockCtrl : CtlReg
  serialFmt : CtlReg
  sysCtrl : CtlReg
  errCtrl : CtlReg
  inputMux : CtlReg
  chSrc : CtlReg
  pwmMux : CtlReg
  volCfg : CtlReg
  startStop : CtlReg
  sdGroup : CtlReg
  modLimit : CtlReg
  exitSd : CtlReg
  stop : CtlReg
  vol : Vector CtlReg 4
  softMute : SwitchReg
  eqCtrl : SwitchReg
  drcCtrl : SwitchReg
deriving DecidableEq, Repr

/-- The parameters of a run (R47, "Open parameters" of 92_eei_decisions.md). `otherRegs` gives `REGMAP` outside the
30 coefficient addresses, where R10 leaves it open. -/
structure Params where
  cfg : PlatformConfig
  regs : ControlRegs
  otherRegs : List (Byte × Width)
  numHosts : Nat
deriving DecidableEq, Repr

namespace Config

/-! ### The fixture

TP of 95_test_vectors.md: `cfg` as it stands there, and control registers "with any admitted values", chosen here at
addresses that no rule names. DESIGN CHOICE (log 2): no statement rests on it. -/

def fixtureCfg : PlatformConfig where
  masterVol := none
  drcMain := some ((List.range 24).map (BitVec.ofNat 8))
  drcTko := some ((List.range 12).map fun i => BitVec.ofNat 8 (0x80 + i))
  drcEnable := true
  eqEnable := true
  presets := [⟨"flat", (List.range 360).map (BitVec.ofNat 8)⟩,
              ⟨"rock", (List.range 360).map fun i => BitVec.ofNat 8 (255 + 360 * 256 - i)⟩]
  initialPresetIndex := 0
  rstPin := some 0
  pdPin := some 1
  rstActiveHigh := true
  pdActiveHigh := true
  phonePin := none
  phoneActiveHigh := true
  scanPin := none
  scanActiveHigh := true
  initMux := none

def fixtureRegs : ControlRegs where
  oscTrim := ⟨0x80, [0x01]⟩
  clockCtrl := ⟨0x81, [0x02]⟩
  serialFmt := ⟨0x82, [0x03]⟩
  sysCtrl := ⟨0x83, [0x04]⟩
  errCtrl := ⟨0x84, [0x05]⟩
  inputMux := ⟨0x85, [0x00, 0x01, 0x02, 0x03]⟩
  chSrc := ⟨0x86, [0x10, 0x11, 0x12, 0x13]⟩
  pwmMux := ⟨0x87, [0x20, 0x21, 0x22, 0x23]⟩
  volCfg := ⟨0x88, [0x06]⟩
  startStop := ⟨0x89, [0x07]⟩
  sdGroup := ⟨0x8A, [0x08]⟩
  modLimit := ⟨0x8B, [0x09]⟩
  exitSd := ⟨0x8C, [0x0A]⟩
  stop := ⟨0x8D, [0x0B]⟩
  vol := #v[⟨0x90, [0x50]⟩, ⟨0x91, [0x51]⟩, ⟨0x92, [0x52]⟩, ⟨0x93, [0x53]⟩]
  softMute := ⟨0x94, [0x77], [0x00]⟩
  eqCtrl := ⟨0x95, [0x80, 0, 0, 1], [0x00, 0, 0, 1]⟩
  drcCtrl := ⟨0x96, [0, 0, 0, 3], [0, 0, 0, 0]⟩

def fixtureOtherRegs : List (Byte × Width) :=
  [(0x07, .w1), (0x60, .w12), (0x61, .w16),
   (0x80, .w1), (0x81, .w1), (0x82, .w1), (0x83, .w1), (0x84, .w1),
   (0x85, .w4), (0x86, .w4), (0x87, .w4), (0x88, .w1), (0x89, .w1),
   (0x8A, .w1), (0x8B, .w1), (0x8C, .w1), (0x8D, .w1),
   (0x90, .w1), (0x91, .w1), (0x92, .w1), (0x93, .w1), (0x94, .w1),
   (0x95, .w4), (0x96, .w4)]

def fixture : Params := ⟨fixtureCfg, fixtureRegs, fixtureOtherRegs, 1⟩

end Config

end Sys2Proof
end

