-- ==== Sys2Proof/Machine/RegisterMap.lean ====
section
/-! DEFINITION. The device register space: the coefficient address tables (42_commit_arbiter.md R114, R115, R126),
`REGMAP` and `DescriptorFor` (00_scope.md R10, 41_transport.md R107) and the protected set (20_memory.md R59). -/

namespace Sys2Proof.Machine

/-- The two coefficient banks, each with an enable-control register of its own (R121). -/
inductive Kind where
  | eq | drc
deriving DecidableEq, Repr

/-- `EQ_ADDR[0..17]` (R114), a lookup and not arithmetic: "a fixed chip quirk". -/
def eqAddrs : List Byte :=
  [0x29, 0x2A, 0x2B, 0x2C, 0x2D, 0x2E, 0x2F, 0x30, 0x31, 0x32, 0x33, 0x34, 0x35, 0x36,
   0x58, 0x59, 0x5C, 0x5D]

/-- The main sub-table addresses `0x3A + j`, `j = 0 .. 5` (R115). -/
def drcMainAddrs : List Byte := [0x3A, 0x3B, 0x3C, 0x3D, 0x3E, 0x3F]

/-- The TKO sub-table addresses `0x40 + j`, `j = 0 .. 5` (R115). -/
def drcTkoAddrs : List Byte := [0x40, 0x41, 0x42, 0x43, 0x44, 0x45]

/-- The DRC image's addresses in its order: main, then TKO (R116). -/
def drcAddrs : List Byte := drcMainAddrs ++ drcTkoAddrs

/-- The coefficient addresses of one bank, in image order (R116). -/
def Kind.addrs : Kind → List Byte
  | .eq => eqAddrs
  | .drc => drcAddrs

/-- The patch marker set `PM`: 30 addresses in ascending order (R126, C1). -/
def patchMarkers : List Byte := eqAddrs.take 14 ++ drcMainAddrs ++ drcTkoAddrs ++ eqAddrs.drop 14

/-- One of the 30 coefficient addresses (R58). -/
def isCoefficient (a : Byte) : Bool := eqAddrs.contains a || drcAddrs.contains a

/-- The width R10 fixes for a coefficient address. -/
def coefficientWidth (a : Byte) : Option Width :=
  if eqAddrs.contains a then some .w20
  else if drcMainAddrs.contains a then some .w8
  else if drcTkoAddrs.contains a then some .w4
  else none

/-- `REGMAP(a)` in bytes, `none` where it is undefined (R10): normative for the 30 coefficient addresses, undefined
above 0xF9, and the parameter's entry elsewhere. `DescriptorFor(a)` (R107) is this lookup, `none` being NotFound. -/
def regmap (p : Params) (a : Byte) : Option Nat :=
  match coefficientWidth a with
  | some w => some w.bytes
  | none => if 0xF9 < a.toNat then none else (p.otherRegs.lookup a).map Width.bytes

/-- The protected set `P` (R59): the 30 coefficient addresses, `EQ_CTRL_ADDR` and `DRC_CTRL_ADDR`. -/
def isProtected (p : Params) (a : Byte) : Bool :=
  isCoefficient a || a == p.regs.eqCtrl.addr || a == p.regs.drcCtrl.addr

/-- The enable-control register of a bank (R121). -/
def switchOf (p : Params) : Kind → SwitchReg
  | .eq => p.regs.eqCtrl
  | .drc => p.regs.drcCtrl

/-- `CtrlVal(kind, on)` (R121): the address and the bytes of an enable-control write. -/
def ctrlVal (p : Params) (k : Kind) (on : Bool) : Byte × Bytes :=
  let r := switchOf p k
  (r.addr, if on then r.on else r.off)

end Sys2Proof.Machine
end

