-- ==== Sys2Proof/Syntax.lean ====
section
/-! DEFINITION. The commands of AMPSEQ-CMD32 (30_encoding.md R69): one constructor per row of the opcode table. -/

namespace Sys2Proof

/-- A command with its operands (R67, R68): `a` is the 8-bit operand `A`, `l` the 16-bit payload length `L`,
`e` the enable flag in bit 8 of the word. -/
inductive Instr where
  /-- BRINGUP (R95). -/
  | bringup
  /-- SHUTDOWN (R96). -/
  | shutdown
  /-- RST_PULSE (R97). -/
  | rstPulse
  /-- SUSPEND (R98). -/
  | suspend
  /-- RESUME (R99). -/
  | resume
  /-- REG_READ (R109): `a` a register address, `l` its width. -/
  | regRead (a : Byte) (l : Half)
  /-- REG_WRITE (R110): `a` a register address, `l` its width; the payload is `stage[0..l)`. -/
  | regWrite (a : Byte) (l : Half)
  /-- SET_ENABLED (R124). -/
  | setEnabled (e : Bool)
  /-- SELECT_PRESET (R125): `a` a preset index. -/
  | selectPreset (a : Byte)
  /-- PATCH_APPLY (R130): `l` the text length; the text is `stage[0..l)`. -/
  | patchApply (l : Half)
  /-- STATUS (R139). -/
  | status
deriving DecidableEq, Repr

end Sys2Proof
end

