-- ==== Sys2Proof/WellFormed.lean ====
section
/-! DEFINITION. Well-formedness: of a command, and of a parameter set (00_scope.md R14, with R10 and R13). -/

namespace Sys2Proof

/-- Every operand of a command is typed by its field (R68), and both values of a flag are legal (R71), so each
constructor is well-formed at every operand. -/
def Instr.wellFormed : Instr → Bool
  | .bringup => true
  | .shutdown => true
  | .rstPulse => true
  | .suspend => true
  | .resume => true
  | .regRead _ _ => true
  | .regWrite _ _ => true
  | .setEnabled _ => true
  | .selectPreset _ => true
  | .patchApply _ => true
  | .status => true

open Machine (regmap isCoefficient)

/-- The addresses and value strings of R11. -/
def ControlRegs.entries (r : ControlRegs) : List CtlReg :=
  [r.oscTrim, r.clockCtrl, r.serialFmt, r.sysCtrl, r.errCtrl, r.inputMux, r.chSrc, r.pwmMux,
   r.volCfg, r.startStop, r.sdGroup, r.modLimit, r.exitSd, r.stop] ++ r.vol.toList ++
  [⟨r.softMute.addr, r.softMute.on⟩, ⟨r.softMute.addr, r.softMute.off⟩,
   ⟨r.eqCtrl.addr, r.eqCtrl.on⟩, ⟨r.eqCtrl.addr, r.eqCtrl.off⟩,
   ⟨r.drcCtrl.addr, r.drcCtrl.on⟩, ⟨r.drcCtrl.addr, r.drcCtrl.off⟩]

namespace Params

/-- R14 item 1: every `X_ADDR` has a `REGMAP` entry. -/
def addressesMapped (p : Params) : Bool := p.regs.entries.all fun e => (regmap p e.addr).isSome

/-- R14 item 2: every value string has its register's width. -/
def valuesFit (p : Params) : Bool := p.regs.entries.all fun e => regmap p e.addr == some e.val.length

/-- R14 item 3. -/
def inputMuxIsFour (p : Params) : Bool := regmap p p.regs.inputMux.addr == some 4

/-- R14 item 4. -/
def volumesAreOne (p : Params) : Bool := p.regs.vol.toList.all fun e => regmap p e.addr == some 1

/-- R14 item 5: `EQ_ON` and `EQ_OFF` differ in bit 7 of byte 0 and nowhere else (D34). -/
def eqHighBit (p : Params) : Bool :=
  match p.regs.eqCtrl.on, p.regs.eqCtrl.off with
  | b :: bs, c :: cs => (b ^^^ c == 0x80) && bs == cs
  | _, _ => false

/-- R14 item 6. -/
def drcDiffers (p : Params) : Bool := p.regs.drcCtrl.on != p.regs.drcCtrl.off

/-- R14 item 7. -/
def controlsApart (p : Params) : Bool :=
  !isCoefficient p.regs.eqCtrl.addr && !isCoefficient p.regs.drcCtrl.addr

/-- R14 item 8. -/
def presetsCounted (p : Params) : Bool := decide (p.cfg.numPresets ≤ 255)

/-- R13: `NUM_HOSTS` is at least 1. -/
def hasHost (p : Params) : Bool := decide (1 ≤ p.numHosts)

/-- R10: a register-map entry names a valid address, at most 0xF9. -/
def mapInRange (p : Params) : Bool := p.otherRegs.all fun e => decide (e.1.toNat ≤ 0xF9)

/-- A parameter set is admitted (R14, R166): a run exists only with such a set. -/
def admitted (p : Params) : Bool :=
  p.hasHost && p.addressesMapped && p.valuesFit && p.inputMuxIsFour && p.volumesAreOne && p.eqHighBit &&
  p.drcDiffers && p.controlsApart && p.presetsCounted && p.mapInRange

end Params

end Sys2Proof
end

