-- ==== Sys2Proof/Decode.lean ====
section
/-! DEFINITION. Decoding and encoding of command words (30_encoding.md R67 to R73, R80). -/

namespace Sys2Proof

/-- Why a word is illegal (R72). Both cases complete with IllegalCommand. -/
inductive DecodeError where
  /-- `OPC` is not in the opcode map. -/
  | unknownOpcode (opc : Byte)
  /-- `OPC` is listed, and a must-be-zero bit is set. -/
  | reservedBits (opc : Byte)
deriving DecidableEq, Repr

/-! ### Fields (R68) -/

def opcField (w : Word32) : Byte := w.extractLsb' 0 8
def aField (w : Word32) : Byte := w.extractLsb' 8 8
def lField (w : Word32) : Half := w.extractLsb' 16 16
def eField (w : Word32) : Bool := w.getLsbD 8

/-- A row of the opcode map (R69). -/
structure Row where
  value : Word32
  mask : Word32
deriving DecidableEq, Repr

/-- A word matches a row (R70). -/
def Row.matchesWord (r : Row) (w : Word32) : Bool := w &&& r.mask == r.value

/-! ### The rows of R69 -/

def rowBringup : Row := ⟨0x00000001, 0xFFFFFFFF⟩
def rowShutdown : Row := ⟨0x00000002, 0xFFFFFFFF⟩
def rowRstPulse : Row := ⟨0x00000003, 0xFFFFFFFF⟩
def rowSuspend : Row := ⟨0x00000004, 0xFFFFFFFF⟩
def rowResume : Row := ⟨0x00000005, 0xFFFFFFFF⟩
def rowRegRead : Row := ⟨0x00000010, 0x000000FF⟩
def rowRegWrite : Row := ⟨0x00000011, 0x000000FF⟩
def rowSetEnabled : Row := ⟨0x00000020, 0xFFFFFEFF⟩
def rowSelectPreset : Row := ⟨0x00000021, 0xFFFF00FF⟩
def rowPatchApply : Row := ⟨0x00000022, 0x0000FFFF⟩
def rowStatus : Row := ⟨0x00000030, 0xFFFFFFFF⟩

/-- The opcode map, in the order of R69. -/
def opcodeRows : List Row :=
  [rowBringup, rowShutdown, rowRstPulse, rowSuspend, rowResume, rowRegRead, rowRegWrite,
   rowSetEnabled, rowSelectPreset, rowPatchApply, rowStatus]

/-- The row of a command. -/
def Instr.row : Instr → Row
  | .bringup => rowBringup
  | .shutdown => rowShutdown
  | .rstPulse => rowRstPulse
  | .suspend => rowSuspend
  | .resume => rowResume
  | .regRead _ _ => rowRegRead
  | .regWrite _ _ => rowRegWrite
  | .setEnabled _ => rowSetEnabled
  | .selectPreset _ => rowSelectPreset
  | .patchApply _ => rowPatchApply
  | .status => rowStatus

/-- Why a word that matches no row is illegal (R72): its opcode is listed or not. -/
def illegalReason (w : Word32) : DecodeError :=
  if opcodeRows.any fun r => opcField r.value == opcField w then .reservedBits (opcField w)
  else .unknownOpcode (opcField w)

/-- Decode (R70): the unique row that matches, with its operands (R68); total on all 2^32 words. -/
def decode (w : Word32) : Except DecodeError Instr :=
  if rowBringup.matchesWord w then .ok .bringup
  else if rowShutdown.matchesWord w then .ok .shutdown
  else if rowRstPulse.matchesWord w then .ok .rstPulse
  else if rowSuspend.matchesWord w then .ok .suspend
  else if rowResume.matchesWord w then .ok .resume
  else if rowRegRead.matchesWord w then .ok (.regRead (aField w) (lField w))
  else if rowRegWrite.matchesWord w then .ok (.regWrite (aField w) (lField w))
  else if rowSetEnabled.matchesWord w then .ok (.setEnabled (eField w))
  else if rowSelectPreset.matchesWord w then .ok (.selectPreset (aField w))
  else if rowPatchApply.matchesWord w then .ok (.patchApply (lField w))
  else if rowStatus.matchesWord w then .ok .status
  else .error (illegalReason w)

/-- `zext_32(v)` shifted into its field: `v << n` (R80). -/
def fieldAt {k : Nat} (v : BitVec k) (n : Nat) : Word32 := v.setWidth 32 <<< n

/-- The word of a command (R69, R80): the row's match with `A`, `L` or `e` in its field. -/
def encode : Instr → Word32
  | .bringup => rowBringup.value
  | .shutdown => rowShutdown.value
  | .rstPulse => rowRstPulse.value
  | .suspend => rowSuspend.value
  | .resume => rowResume.value
  | .regRead a l => rowRegRead.value ||| fieldAt a 8 ||| fieldAt l 16
  | .regWrite a l => rowRegWrite.value ||| fieldAt a 8 ||| fieldAt l 16
  | .setEnabled e => rowSetEnabled.value ||| fieldAt (BitVec.ofBool e) 8
  | .selectPreset a => rowSelectPreset.value ||| fieldAt a 8
  | .patchApply l => rowPatchApply.value ||| fieldAt l 16
  | .status => rowStatus.value

/-- The command word of `nbits` given bits of the opcode table; the bits above them are 0. A command is exactly one
32-bit word, handed over by value (R50, R73), so no byte order enters. -/
def tableWord (nbits w : Nat) : Word32 := BitVec.ofNat 32 (w % 2 ^ nbits)

/-- What the decoder reads from a word of the opcode table. -/
def decodeTableWord (nbits w : Nat) : Option Instr :=
  if nbits ≤ 32 then
    match decode (tableWord nbits w) with
    | .ok i => some i
    | .error _ => none
  else none

end Sys2Proof
end

