-- ==== Sys2Proof/Machine/State.lean ====
section
/-! DEFINITION. The machine's state (10_state.md R28), the events of its trace (00_scope.md R8), and reset
(10_state.md R46, 70_reset_and_hazards.md R161). -/

namespace Sys2Proof.Machine

/-- DeviceState (R29). -/
inductive DeviceState where
  | uninitialized | resetting | poweringUp | configuring | running | muted | shuttingDown | off
deriving DecidableEq, Repr

/-- The status codes (30_encoding.md R77) by name. -/
inductive Status where
  | ok | transportError | configurationError | patchParseError | sequenceError | lengthMismatchError
  | indexError | notFound | illegalCommand | stateError | protectedAddress
deriving DecidableEq, Repr

/-- An error as it is raised or logged: its status code and its info value (R76, R78). -/
structure Err where
  code : Status
  info : Half
deriving DecidableEq, Repr

/-- The level the block last drove on a line, or Z: not driven since reset (R34). -/
inductive PinLevel where
  | z | low | high
deriving DecidableEq, Repr

/-- The two GPIO lines the block drives (R105). -/
inductive Line where
  | rst | pd
deriving DecidableEq, Repr

/-- The direction of a transaction (R8). -/
inductive Dir where
  | read | write
deriving DecidableEq, Repr

/-- An event of the trace (R8); `t` is its stamp in microseconds. -/
inductive Event where
  /-- `Pin(line, level, t)` -/
  | pin (line : Line) (level : Bool) (t : Nat)
  /-- `Xfer(dir, addr, bytes, result, t)`; `ok` is the result -/
  | xfer (dir : Dir) (addr : Byte) (bytes : Bytes) (ok : Bool) (t : Nat)
  /-- `State(ds, t)` -/
  | state (ds : DeviceState) (t : Nat)
  /-- `Log(code, info, t)` -/
  | log (e : Err) (t : Nat)
  /-- `Grant(h, word, t)` -/
  | grant (h : Nat) (word : Word32) (t : Nat)
  /-- `Resp(h, status, info, data, t)` -/
  | resp (h : Nat) (status : Status) (info : Half) (data : Bytes) (t : Nat)
  /-- `Reset(t)` -/
  | reset (t : Nat)
deriving DecidableEq, Repr

/-- A response (30_encoding.md R74). -/
structure Response where
  status : Status
  info : Half
  data : Bytes
deriving DecidableEq, Repr

/-- What the block holds for one host: `pending[h]`, `resp[h]` (R37, R40), and the model's own record of the stage
offsets written since the host issued its outstanding command, the races of 20_memory.md R64 (log 6). -/
structure HostPort where
  pending : Option Word32
  resp : Option Response
  raced : List StageIx
deriving DecidableEq, Repr

/-- A host with no command and no response. -/
def HostPort.idle : HostPort := ⟨none, none, []⟩

/-- The Device's answer to one transaction (R23, R24, R103): success with the bytes a read returns, failure, or no
answer ever. -/
inductive Answer where
  | ok (data : Bytes)
  | fail
  | silent
deriving DecidableEq, Repr

/-- What another agent does between two micro-steps of the block (00_scope.md R7). -/
inductive Act where
  /-- Time advances `now` by `d` (R22). -/
  | tick (d : Nat)
  /-- A host writes the staging buffer (20_memory.md R53). -/
  | stageWrite (i : StageIx) (v : Byte)
  /-- Host `h` issues a word (42_commit_arbiter.md R131). -/
  | issue (h : Nat) (w : Word32)
  /-- A block reset (70_reset_and_hazards.md R161). -/
  | reset
deriving DecidableEq, Repr

/-- What the other agents are going to do, as plain data (log 3, 4, 5). Any finite behaviour of theirs is some value of
it, so a claim about every state is a claim about every behaviour. -/
structure Env where
  /-- The k-th entry holds the acts that fall before the k-th micro-step from now on. -/
  world : List (List Act)
  /-- The free choices of the next grants (R132). -/
  picks : List Nat
  /-- The Device's answers to the next transactions, and to all after those. -/
  device : List Answer
  thereafter : Answer
  /-- How many free bytes have been drawn (`Config.freeByte`). -/
  draws : Nat
deriving DecidableEq, Repr

/-- The locals of the running command's rule (R42): no command reads another's. -/
structure Scratch where
  /-- The byte string read so far: `v`, `T`, `tmp` or `b` of the rules. -/
  buf : Bytes
  /-- The blocks ParsePatch assembled (R128). -/
  blocks : List (Byte × Bytes)
  /-- The `ok` of Bracket (R122). -/
  ok : Bool
  /-- The response data (R75). -/
  data : Bytes
  /-- A transaction is outstanding and the Device never answers it (R103). -/
  outstanding : Bool
deriving DecidableEq, Repr

/-- The locals at the start of a command. -/
def Scratch.empty : Scratch := ⟨[], [], true, [], false⟩

/-- The state: the record of R28, `now` and the trace (R46), and the model's own `params` (log 2), `scratch` (log 10)
and `env`. -/
structure State where
  /-- `ds` (R29) -/
  ds : DeviceState
  /-- `eq_enabled` (R32) -/
  eqEnabled : Bool
  /-- `eq_preset` (R33) -/
  eqPreset : Byte
  /-- `pin_rst` (R34) -/
  pinRst : PinLevel
  /-- `pin_pd` (R34) -/
  pinPd : PinLevel
  /-- `snap_valid` (R35) -/
  snapValid : Bool
  /-- `snap[0..3]` (R35) -/
  snap : Vector Byte 4
  /-- `stage` (R36): the written bytes, in the canonical form of `Stage.wf` -/
  stage : List Host.Cell
  /-- `lock` (R37): FREE is `none` -/
  lock : Option Nat
  /-- `pending[h]` and `resp[h]` (R37, R40), one entry per host -/
  hosts : List HostPort
  /-- `seq_pc` (R38) -/
  seqPc : Nat
  /-- `cur` (R39) -/
  cur : Word32
  /-- `first_err` (R41) -/
  firstErr : Option Err
  /-- `wait_until` (R43) -/
  waitUntil : Nat
  /-- `now`, the Time agent's (R17, R43) -/
  now : Nat
  /-- `tr` (R8), oldest event first -/
  trace : List Event
  /-- the parameters of the run (R47) -/
  params : Params
  /-- the running command's locals -/
  scratch : Scratch
  /-- what the other agents are going to do -/
  env : Env
deriving DecidableEq, Repr

/-- Why the machine stops with a fault. No error of the spec does (60_exceptions.md R160). -/
inductive Fault where
  /-- Raised by a meaning run while the lock is FREE or names no host of the block: there is no command to run and no
  one to answer. `step` never calls a meaning so from a state whose lock is well-formed. Safe: the spec gives such a
  state no behaviour (R37, R157). -/
  | noGrantedHost
deriving DecidableEq, Repr

/-- Why a step is refused. -/
inductive Refusal where
  /-- Raised by an arm of `exec` whose instruction has no meaning. No arm does. Safe. -/
  | notModelled (mnemonic : String)
  /-- Raised by `step` on a parameter set that breaks R14: no run of the block exists with it (R166, I15). Safe. -/
  | parametersNotAdmitted
deriving DecidableEq, Repr

/-- The other agents at rest: nobody acts, and the Device answers every transaction `ok` with no byte given, so that
each byte a read returns is a free draw (log 3, 16). -/
def Env.quiet : Env := ⟨[], [], [], .ok [], 0⟩

/-- The state after power-on reset with parameters `p` (R46, R161, R164). -/
def State.powerOn (p : Params) : State where
  ds := .uninitialized
  eqEnabled := true
  eqPreset := p.cfg.initialPresetIndex
  pinRst := .z
  pinPd := .z
  snapValid := false
  snap := #v[0, 0, 0, 0]
  stage := []
  lock := none
  hosts := List.replicate p.numHosts .idle
  seqPc := 0
  cur := 0
  firstErr := none
  waitUntil := 0
  now := 0
  trace := []
  params := p
  scratch := .empty
  env := .quiet

/-- The machine right after reset: power-on with the fixture's parameters (log 2). -/
def State.reset : State := State.powerOn Config.fixture

end Sys2Proof.Machine
end

