-- ==== Sys2Proof/Machine/Errors.lean ====
section
/-! DEFINITION. Status codes (30_encoding.md R77), state codes (10_state.md R29) and the info value each error class
carries (30_encoding.md R76, 60_exceptions.md R141 to R146). -/

namespace Sys2Proof.Machine

/-- The 3-bit code of a DeviceState (R29). -/
def DeviceState.code : DeviceState → BitVec 3
  | .uninitialized => 0
  | .resetting => 1
  | .poweringUp => 2
  | .configuring => 3
  | .running => 4
  | .muted => 5
  | .shuttingDown => 6
  | .off => 7

/-- The 4-bit status code (R77). Codes 0xB to 0xF belong to no status: they are never produced. -/
def Status.code : Status → BitVec 4
  | .ok => 0x0
  | .transportError => 0x1
  | .configurationError => 0x2
  | .patchParseError => 0x3
  | .sequenceError => 0x4
  | .lengthMismatchError => 0x5
  | .indexError => 0x6
  | .notFound => 0x7
  | .illegalCommand => 0x8
  | .stateError => 0x9
  | .protectedAddress => 0xA

/-! ### The errors, each with its info value (R76) -/

/-- TransportError: the address of the failed transaction. -/
def Err.transport (a : Byte) : Err := ⟨.transportError, a.setWidth 16⟩

/-- ConfigurationError of the DRC tables. -/
def Err.configDrc : Err := ⟨.configurationError, 0x0100⟩

/-- ConfigurationError of EQ preset `i`. -/
def Err.configEq (i : Byte) : Err := ⟨.configurationError, 0x0200 + i.setWidth 16⟩

/-- ConfigurationError of the init-mux override. -/
def Err.configMux : Err := ⟨.configurationError, 0x0300⟩

/-- PatchParseError: the first marker address missing or malformed. -/
def Err.patchParse (a : Byte) : Err := ⟨.patchParseError, a.setWidth 16⟩

/-- SequenceError of power-up, of shutdown, and of the reset pulse (R145). -/
def Err.seqPowerUp : Err := ⟨.sequenceError, 0x0001⟩
def Err.seqShutdown : Err := ⟨.sequenceError, 0x0002⟩
def Err.seqPulse : Err := ⟨.sequenceError, 0x0003⟩

/-- LengthMismatchError: the `L` field. -/
def Err.length (l : Half) : Err := ⟨.lengthMismatchError, l⟩

/-- IndexError: the `A` field. -/
def Err.index (a : Byte) : Err := ⟨.indexError, a.setWidth 16⟩

/-- NotFound: the `A` field. -/
def Err.notFound (a : Byte) : Err := ⟨.notFound, a.setWidth 16⟩

/-- IllegalCommand: `w[15:0]`. -/
def Err.illegal (w : Word32) : Err := ⟨.illegalCommand, w.extractLsb' 0 16⟩

/-- StateError: the `ds` code at the time of the check. -/
def Err.state (d : DeviceState) : Err := ⟨.stateError, d.code.setWidth 16⟩

/-- ProtectedAddress: the `A` field. -/
def Err.protected (a : Byte) : Err := ⟨.protectedAddress, a.setWidth 16⟩

end Sys2Proof.Machine
end

