-- ==== Sys2Proof/Machine/Ops.lean ====
section
/-! DEFINITION. The named operations of the block and of the agents around it: the primitives of 00_scope.md R19 to
R27, the staging buffer (20_memory.md R53), the acts of hosts and Time, block reset (70_reset_and_hazards.md R161),
grant, completion and abort (42_commit_arbiter.md R131 to R134, 60_exceptions.md R148). -/

namespace Sys2Proof.Machine

/-! ### Trace, state, pins, time, log -/

/-- Append an event to the trace (R8). -/
def emit (e : Event) (s : State) : State := { s with trace := s.trace ++ [e] }

/-- `SetState(d)` (R26). -/
def setState (d : DeviceState) (s : State) : State := emit (.state d s.now) { s with ds := d }

/-- `PinsBound` (R20). -/
def pinsBound (p : Params) : Bool := p.cfg.rstPin.isSome && p.cfg.pdPin.isSome

/-- `Lvl(line, asserted)` (R19): an active-low line is 0 when asserted. -/
def lineLevel (p : Params) (line : Line) (asserted : Bool) : Bool :=
  match line with
  | .rst => asserted == p.cfg.rstActiveHigh
  | .pd => asserted == p.cfg.pdActiveHigh

/-- A driven level as a pin level (R34). -/
def PinLevel.driven (level : Bool) : PinLevel := if level then .high else .low

/-- `Gpio(line, level)` (R21): drive the line, record its level, append the Pin event. It never fails (D6). -/
def gpio (line : Line) (level : Bool) (s : State) : State :=
  emit (.pin line level s.now)
    (match line with
     | .rst => { s with pinRst := .driven level }
     | .pd => { s with pinPd := .driven level })

/-- `Wait(d)` (R22): the block's next micro-step is stamped no earlier than `now + d`. -/
def wait (d : Nat) (s : State) : State := { s with waitUntil := s.now + d }

/-- `Log(code, info)` (R25): a record in the trace; the first of a command is kept in `first_err` (R41). -/
def logErr (e : Err) (s : State) : State :=
  emit (.log e s.now) { s with firstErr := s.firstErr.or (some e) }

/-! ### The staging buffer (R36, R53): a list of written cells, addresses strictly rising -/

/-- The byte a host last wrote at offset `i`; `none` where no host has written since reset (R36). -/
def Stage.read (m : List Host.Cell) (i : Nat) : Option Byte := m.lookup i

/-- A host writes `v` at offset `i` (R53), keeping the addresses rising. -/
def Stage.write (m : List Host.Cell) (i : Nat) (v : Byte) : List Host.Cell :=
  match m with
  | [] => [(i, v)]
  | c :: rest =>
    if i < c.1 then (i, v) :: c :: rest
    else if i = c.1 then (i, v) :: rest
    else c :: Stage.write rest i v

/-- The canonical form: addresses strictly rising, all inside the buffer. An unlisted address has no value, so no entry
can equal what it reads as. -/
def Stage.wf (m : List Host.Cell) : Bool :=
  decide (m.Pairwise fun c d => c.1 < d.1) && m.all fun c => decide (c.1 < Config.stageBytes)

/-- `n` unconstrained bytes (R24, R36, R64): the next `n` draws. -/
def drawBytes (n : Nat) (s : State) : Bytes × State :=
  ((List.range n).map fun j => Config.freeByte (s.env.draws + j),
   { s with env := { s.env with draws := s.env.draws + n } })

/-- The stage offsets raced for the running command (R64). -/
def racedNow (s : State) : List StageIx :=
  match s.lock with
  | none => []
  | some h => ((s.hosts[h]?).map HostPort.raced).getD []

/-- The value the running command reads at stage offset `i`; `none` where it is unconstrained, because no host has
written the byte since reset (R36) or a host wrote it after the command's issue (R64). -/
def stageValue (s : State) (i : Nat) : Option Byte :=
  if (racedNow s).any fun r => r.toNat == i then none else Stage.read s.stage i

/-- One byte of the stage as the running command reads it. -/
def stageByte (i : Nat) (s : State) : Byte × State :=
  match stageValue s i with
  | some b => (b, s)
  | none => (Config.freeByte s.env.draws, { s with env := { s.env with draws := s.env.draws + 1 } })

/-- `StageRead(i, n)` (R27): `stage[i..i+n)`. -/
def stageRead : Nat → Nat → State → Bytes × State
  | _, 0, s => ([], s)
  | i, n + 1, s =>
    let r := stageByte i s
    let q := stageRead (i + 1) n r.2
    (r.1 :: q.1, q.2)

/-! ### Acts of the other agents -/

/-- Time advances (R17, R22): `now` never decreases and never wraps. -/
def tick (d : Nat) (s : State) : State := { s with now := s.now + d }

/-- A host command is outstanding from its issue to its Resp (R64, R131, R134). -/
def outstandingAt (s : State) (h : Nat) (p : HostPort) : Bool := p.pending.isSome || s.lock == some h

/-- The stage write port (R53). Every outstanding command now reads that offset as an unconstrained draw (R64). -/
def hostStageWrite (i : StageIx) (v : Byte) (s : State) : State :=
  { s with
    stage := Stage.write s.stage i.toNat v
    hosts := s.hosts.mapIdx fun h p => if outstandingAt s h p then { p with raced := i :: p.raced } else p }

/-- Host `h` may issue (R131): it exists, has nothing pending and does not hold the lock. -/
def issueReady (s : State) (h : Nat) : Bool :=
  match s.hosts[h]? with
  | none => false
  | some p => p.pending.isNone && s.lock != some h

/-- Issue (R131). Where the step is not enabled `cmd_ready[h]` is low and nothing is taken (log 12). -/
def issue (h : Nat) (w : Word32) (s : State) : State :=
  if issueReady s h then { s with hosts := s.hosts.set h ⟨some w, none, []⟩ } else s

/-- Block reset after power-on (R161, R162): every field of R28 to its reset value, `now` and the trace kept, and
`Reset(now)` appended. The parameters are not read again (R164); the other agents go on. -/
def blockReset (s : State) : State :=
  { State.powerOn s.params with
    now := s.now
    trace := s.trace ++ [.reset s.now]
    env := s.env }

/-- One act of another agent. -/
def applyAct (a : Act) (s : State) : State :=
  match a with
  | .tick d => tick d s
  | .stageWrite i v => hostStageWrite i v s
  | .issue h w => issue h w s
  | .reset => blockReset s

/-- Acts in order. -/
def applyActs (acts : List Act) (s : State) : State := acts.foldl (fun s a => applyAct a s) s

/-- The acts that fall before the next micro-step. -/
def actsNow (s : State) : List Act := s.env.world.headD []

/-- The world moves past the acts of the next micro-step. -/
def nextSlot (s : State) : State := { s with env := { s.env with world := s.env.world.tail } }

/-- The other agents act before the block's next micro-step. -/
def agentsAct (s : State) : State := applyActs (actsNow s) (nextSlot s)

/-- Time has passed `wait_until` (R43): a micro-step is enabled only when `now >= wait_until` (log 4). -/
def awaitTime (s : State) : State := { s with now := max s.now s.waitUntil }

/-- The state in which the block's next micro-step is taken, if nothing resets the block before it. -/
def settled (s : State) : State := awaitTime (agentsAct s)

/-- What stands between two micro-steps of a command. -/
inductive Boundary where
  /-- The next micro-step is enabled. -/
  | ready (s : State)
  /-- A block reset came: the running command is abandoned (R162). -/
  | abandoned (s : State)

/-- The boundary before a micro-step: the other agents act, and then, unless one reset the block, time has passed
`wait_until`. -/
def boundary (s : State) : Boundary :=
  if (actsNow s).contains .reset then .abandoned (agentsAct s) else .ready (settled s)

/-- Take one micro-step: `k` after the boundary; nothing more of the command after a block reset (R162). -/
def microStep (s : State) (k : State → State) : State :=
  match boundary s with
  | .ready s' => k s'
  | .abandoned s' => s'

/-! ### The transport (R23, R24, R103) -/

/-- The outcome of one transaction, with the state after it. -/
inductive Reply where
  /-- `ok`, with the bytes of a read. -/
  | ok (data : Bytes) (s : State)
  | fail (s : State)
  /-- The Device has not answered: it never will. -/
  | waiting (s : State)

/-- The answer the Device gives to the next transaction (R103). -/
def nextAnswer (s : State) : Answer := s.env.device.headD s.env.thereafter

/-- `s` with that answer drawn. -/
def drawn (s : State) : State := { s with env := { s.env with device := s.env.device.tail } }

/-- `s` with a transaction outstanding that the Device never answers (R103). -/
def awaiting (s : State) : State := { s with scratch := { s.scratch with outstanding := true } }

/-- One transaction (R103): the Device's answer is drawn, unless an earlier one is still outstanding. -/
def transact (s : State) : Reply :=
  if s.scratch.outstanding then .waiting s
  else
    match nextAnswer s with
    | .ok data => .ok data (drawn s)
    | .fail => .fail (drawn s)
    | .silent => .waiting (awaiting (drawn s))

/-- `MemWrite(a, n, v)` (R23), with `n = len(v)`. -/
def memWrite (a : Byte) (v : Bytes) (s : State) : Reply :=
  match transact s with
  | .ok _ s' => .ok [] (emit (.xfer .write a v true s'.now) s')
  | .fail s' => .fail (emit (.xfer .write a v false s'.now) s')
  | .waiting s' => .waiting s'

/-- The `n` bytes of a read: those the Device's answer gives, in bus order, and free draws for any it does not. -/
def readBytes (n : Nat) (data : Bytes) (s : State) : Bytes × State :=
  let d := drawBytes (n - data.length) s
  (data.take n ++ d.1, d.2)

/-- `MemRead(a, n)` (R24): on `fail` the Xfer event has no bytes. -/
def memRead (a : Byte) (n : Nat) (s : State) : Reply :=
  match transact s with
  | .ok data s' =>
    let r := readBytes n data s'
    .ok r.1 (emit (.xfer .read a r.1 true s'.now) r.2)
  | .fail s' => .fail (emit (.xfer .read a [] false s'.now) s')
  | .waiting s' => .waiting s'

/-! ### Grant, completion, abort -/

/-- The hosts with a pending command (R132), each with its word. -/
def candidates (s : State) : List (Nat × Word32) :=
  s.hosts.zipIdx.filterMap fun q => q.1.pending.map fun w => (q.2, w)

/-- The command the block grants next: the schedule's choice among the pending hosts (R132), none if no host waits. -/
def nextCommand (s : State) : Option (Nat × Word32) :=
  (candidates s)[s.env.picks.headD 0 % (candidates s).length]?

/-- Grant (R132): the lock and the word to host `h`, `first_err` and `seq_pc` cleared, and the Grant event. -/
def grant (h : Nat) (w : Word32) (s : State) : State :=
  emit (.grant h w s.now)
    { s with
      lock := some h
      cur := w
      hosts := s.hosts.modify h fun p => { p with pending := none }
      firstErr := none
      seqPc := 0
      scratch := .empty
      env := { s.env with picks := s.env.picks.tail } }

/-- The response of the running command (R75, R134): the first error logged, or OK with the data. -/
def responseOf (s : State) : Response :=
  match s.firstErr with
  | some e => ⟨e.code, e.info, []⟩
  | none => ⟨.ok, 0, s.scratch.data⟩

/-- Completion (R134), the return of every command whether it raised or not (R150): the response, the Resp event, and
the lock released. The command's locals go with it (R42). -/
def complete (s : State) : State :=
  match s.lock with
  | none => s
  | some h =>
    let r := responseOf s
    emit (.resp h r.status r.info r.data s.now)
      { s with
        hosts := s.hosts.modify h fun p => { p with resp := some r }
        lock := none
        scratch := .empty }

/-- Abort entry, `raise E(info)` (R27, R148): the recovery step of the raising rule if it names one (R149), then
`Log(E, info)`, then completion, each a micro-step. Nothing before the raise is undone (R152). -/
def abort (recovery : Option DeviceState) (e : Err) (s : State) : State :=
  match recovery with
  | none => microStep s fun s => microStep (logErr e s) complete
  | some d => microStep s fun s => microStep (setState d s) fun s => microStep (logErr e s) complete

end Sys2Proof.Machine
end

