-- ==== Sys2Proof/Machine/Flags.lean ====
section
/-! DEFINITION. The three status flags (10_state.md R45): `eq_enabled`, `snap_valid` and the response status, and what
is computed from them: the enable value of a closing write (42_commit_arbiter.md R121, R122), the STATUS bytes
(43_status.md R140), the response word (30_encoding.md R74). The block has no condition codes. -/

namespace Sys2Proof.Machine

/-- `eq_enabled <- e` (R124). -/
def setEqEnabled (e : Bool) (s : State) : State := { s with eqEnabled := e }

/-- `snap_valid <- 1` (R98). -/
def markSnap (s : State) : State := { s with snapValid := true }

/-- `zext_8` of one bit. -/
def flagByte (b : Bool) : Byte := (BitVec.ofBool b).setWidth 8

/-- `CtrlVal(kind, eq_enabled)` (R122): the closing write of a bracket is ON only if `eq_enabled = 1` (D20). -/
def closingValue (k : Kind) (s : State) : Bytes := (ctrlVal s.params k s.eqEnabled).2

/-- The data of STATUS (R139, R140). -/
def statusData (s : State) : Bytes :=
  [s.ds.code.setWidth 8, flagByte s.eqEnabled ||| flagByte s.snapValid <<< 1, s.eqPreset, 0x00]

/-- `resp_word` (R74): `info` in bits 31:16, `status` in bits 3:0, bits 15:4 zero. -/
def Response.word (r : Response) : Word32 := r.info.setWidth 32 <<< 16 ||| r.status.code.setWidth 32

end Sys2Proof.Machine
end

