-- ==== Sys2Proof/Machine/Operands.lean ====
section
/-! DEFINITION. The operand forms of 30_encoding.md R71 with their checks, in the order of 60_exceptions.md R147, and
the admissibility table of 40_power_sequencer.md R94. Each check gives the error of the first form that fails. -/

namespace Sys2Proof.Machine

/-! ### Admissible states (R94) -/

/-- BRINGUP and RESUME. -/
def dsForBringup : List DeviceState := [.uninitialized, .off]

/-- Every other command but STATUS. -/
def dsForRunning : List DeviceState := [.running]

/-! ### Operands -/

/-- `A` as a register address and `L` as its width (R71, R109): NotFound, then LengthMismatchError; else the width. -/
def registerOperand (p : Params) (a : Byte) (l : Half) : Except Err Nat :=
  match regmap p a with
  | none => .error (.notFound a)
  | some w => if l.toNat = w then .ok w else .error (.length l)

/-- The same for a raw write (R71, R110): after these two, ProtectedAddress. -/
def writableOperand (p : Params) (a : Byte) (l : Half) : Except Err Nat :=
  match registerOperand p a l with
  | .error e => .error e
  | .ok w => if isProtected p a then .error (.protected a) else .ok w

/-- `A` as a preset index (R71, R125): IndexError, then ConfigurationError for a stored blob that is not 360 bytes;
else the blob. -/
def presetOperand (p : Params) (a : Byte) : Except Err Bytes :=
  match p.cfg.presets[a.toNat]? with
  | none => .error (.index a)
  | some q => if q.blob.length = Config.eqBlobBytes then .ok q.blob else .error (.configEq a)

/-- `L` as a text length (R71, R130): `1 <= L <= STAGE_BYTES`. -/
def textOperand (l : Half) : Except Err Nat :=
  if 1 ≤ l.toNat ∧ l.toNat ≤ Config.stageBytes then .ok l.toNat else .error (.length l)

end Sys2Proof.Machine
end

