-- ==== Sys2Proof/Machine/Images.lean ====
section
/-! DEFINITION. Coefficient images (42_commit_arbiter.md R114 to R119). -/

namespace Sys2Proof.Machine

/-- An image: the writes of one bank commit, in order (R116). -/
abbrev Image := List (Byte × Bytes)

/-- `b[i..i+n)` (R16). -/
def slice (b : Bytes) (i n : Nat) : Bytes := (b.drop i).take n

/-- `LoadEq(blob)` (R117): `none` is LengthMismatchError, with no image. -/
def loadEq (blob : Bytes) : Option Image :=
  if blob.length = Config.eqBlobBytes then some (eqAddrs.zipIdx.map fun q => (q.1, slice blob (20 * q.2) 20)) else none

/-- `LoadDrc(main, tko)` (R118): both channels get the same bytes (D17). `none` is LengthMismatchError. -/
def loadDrc (main tko : Bytes) : Option Image :=
  if main.length = Config.drcMainBytes ∧ tko.length = Config.drcTkoBytes then
    some (drcMainAddrs.zipIdx.map (fun q => (q.1, slice main (8 * (q.2 % 3)) 8)) ++
          drcTkoAddrs.zipIdx.map (fun q => (q.1, slice tko (4 * (q.2 % 3)) 4)))
  else none

end Sys2Proof.Machine
end

