-- ==== Sys2Proof/Machine/Patch.lean ====
section
/-! DEFINITION. The text patch (42_commit_arbiter.md R126 to R128): its lexical rules and ParsePatch. -/

namespace Sys2Proof.Machine

/-- `IsHex(c)` (R127). -/
def isHex (c : Byte) : Bool :=
  (0x30 ≤ c.toNat && c.toNat ≤ 0x39) || (0x41 ≤ c.toNat && c.toNat ≤ 0x46) ||
  (0x61 ≤ c.toNat && c.toNat ≤ 0x66)

/-- `HexVal(c)` (R127): the digit's value, 0 to 15, for a hex digit `c`. -/
def hexVal (c : Byte) : Nat :=
  if c.toNat ≤ 0x39 then c.toNat - 0x30
  else if c.toNat ≤ 0x46 then c.toNat - 0x41 + 10
  else c.toNat - 0x61 + 10

/-- `IsWS(c)` (R127). -/
def isWS (c : Byte) : Bool := c == 0x20 || c == 0x09 || c == 0x0A || c == 0x0D

/-- Two digits as a byte: `HexVal(c) * 16 + HexVal(d)` (R128). -/
def hexByte (c d : Byte) : Byte := BitVec.ofNat 8 (hexVal c * 16 + hexVal d)

/-- A marker for `a` stands at the head of the text (R127): `X`, upper case, and the two digits of `a`. -/
def markerHere (a : Byte) (t : Bytes) : Bool :=
  match t with
  | x :: c :: d :: _ => x == 0x58 && isHex c && isHex d && hexVal c == a.toNat / 16 && hexVal d == a.toNat % 16
  | _ => false

/-- The text after the first marker for `a` (R127, R128); `none` where no marker stands. -/
def afterMarker (a : Byte) : Bytes → Option Bytes
  | [] => none
  | c :: t => if markerHere a (c :: t) then some (t.drop 2) else afterMarker a t

/-- One byte token (R127): one or more whitespace bytes, then exactly two hex digits. Gives the byte and the text after
it; `none` is malformed. -/
def byteToken (t : Bytes) : Option (Byte × Bytes) :=
  if t.head?.any isWS then
    match t.dropWhile isWS with
    | c :: d :: rest => if isHex c && isHex d && !rest.head?.any isHex then some (hexByte c d, rest) else none
    | _ => none
  else none

/-- A run of `n` byte tokens (R128): the bytes, `none` where one is malformed. What follows the run is ignored. -/
def byteTokens : Nat → Bytes → Option Bytes
  | 0, _ => some []
  | n + 1, t =>
    match byteToken t with
    | none => none
    | some (b, rest) => (byteTokens n rest).map (b :: ·)

/-- The block of address `a` (R128): its first marker, then `REGMAP(a)` tokens. -/
def patchBlock (a : Byte) (t : Bytes) : Option Bytes :=
  match afterMarker a t, coefficientWidth a with
  | some rest, some w => byteTokens w.bytes rest
  | _, _ => none

/-- The blocks of some addresses, in their order, or the first address that is missing or malformed. -/
def patchBlocks (t : Bytes) : List Byte → Except Byte Image
  | [] => .ok []
  | a :: rest =>
    match patchBlock a t with
    | none => .error a
    | some b =>
      match patchBlocks t rest with
      | .error e => .error e
      | .ok bs => .ok ((a, b) :: bs)

/-- `ParsePatch(T)` (R128): the 30 blocks by address, or the first failing address in ascending order. -/
def parsePatch (t : Bytes) : Except Byte Image := patchBlocks t patchMarkers

/-- The block ParsePatch read for address `a`. -/
def blockOf (img : Image) (a : Byte) : Bytes := (img.lookup a).getD []

end Sys2Proof.Machine
end

