-- ==== Sys2Proof/Machine/Micro.lean ====
section
/-! DEFINITION. The micro-steps a command's rule is made of (00_scope.md R6, R18). A rule of 40 to 43 is a list of
them, and `seq_pc` (10_state.md R38) is an index into it. A `goto` only ever leads forward, over some statements. -/

namespace Sys2Proof.Machine

/-- Where the bytes of a MemWrite come from. -/
inductive Source where
  /-- Bytes the rule gives. -/
  | lit (v : Bytes)
  /-- The bytes the rule has read (`v <- StageRead(0, w)`, R110). -/
  | buf
  /-- The block ParsePatch read for an address (`blk[a]`, R128). -/
  | block (a : Byte)
  /-- `CtrlVal(kind, eq_enabled)`: the closing write of a bracket (R122). -/
  | closing (k : Kind)
deriving DecidableEq, Repr

/-- What the rule does when its write fails: the four policies of 41_transport.md R104. -/
inductive OnFail where
  /-- Log, and go on (R85; the release write of R129). -/
  | log
  /-- Log, and go to the statement after the next `n` (the mute write of R129). -/
  | logSkip (n : Nat)
  /-- Log, `ok <- false`, and go to the statement after the next `n` (the disable and image writes, R122). -/
  | logFail (n : Nat)
  /-- `raise TransportError(a)` (R110, R124). -/
  | raise
  /-- `SetState(d)` and then `raise TransportError(a)`: the one recovery step (R82, R149). -/
  | raiseTo (d : DeviceState)
deriving DecidableEq, Repr

/-- One statement of a rule (R6, R18). -/
inductive Micro where
  /-- `if ds not in allowed: raise StateError(ds)` (R94). -/
  | require (allowed : List DeviceState)
  /-- `raise E(info)` (R27). -/
  | raise (e : Err)
  /-- `Log(code, info)` (R25). -/
  | log (e : Err)
  /-- `SetState(d)` (R26). -/
  | setState (d : DeviceState)
  /-- `if ds = Muted: SetState(Running)` (R129). -/
  | unmute
  /-- `Gpio(line, Lvl(line, asserted))` (R19, R21). -/
  | gpio (line : Line) (asserted : Bool)
  /-- `Wait(d)` (R22). -/
  | wait (d : Nat)
  /-- `r <- MemWrite(a, len, v)` with what a failure does (R23). -/
  | write (a : Byte) (v : Source) (onFail : OnFail)
  /-- `(r, b) <- MemRead(a, n); if r = fail: raise TransportError(a)`, the bytes added to the buffer (R24). -/
  | read (a : Byte) (n : Nat)
  /-- `StageRead(0, n)` into the buffer (R27). -/
  | loadStage (n : Nat)
  /-- `res <- ParsePatch(T); if res = PatchParseError(a): raise PatchParseError(a)` (R128, R130). -/
  | parse
  /-- `ok <- true` (R122). -/
  | begin
  /-- `if ok` over the next `n` statements (R125, R129). -/
  | ifOk (n : Nat)
  /-- `snap <- tmp` (R98). -/
  | saveSnap
  /-- `snap_valid <- 1` (R98). -/
  | markSnap
  /-- `eq_enabled <- e` (R124). -/
  | setEnabled (e : Bool)
  /-- `eq_preset <- i` (R125). -/
  | setPreset (i : Byte)
  /-- `data <- b` (R109). -/
  | answerBuf
  /-- `data <- [ds, flags, eq_preset, 0]` (R139). -/
  | answerStatus
deriving DecidableEq, Repr

end Sys2Proof.Machine
end

