-- ==== Sys2Proof/Machine/Sequencer.lean ====
section
/-! DEFINITION. The sequencer: what one micro-step does, and the run of a rule from `seq_pc` to its completion
(42_commit_arbiter.md R133, R134; 10_state.md R38, R43). -/

namespace Sys2Proof.Machine

/-- Where control goes after a micro-step (R38). -/
inductive Effect where
  /-- To the statement after the next `n`; `n = 0` is the next statement. -/
  | go (n : Nat) (s : State)
  /-- `Log(e)`, a micro-step of its own, and then to the statement after the next `n`. -/
  | logged (e : Err) (n : Nat) (s : State)
  /-- To the recovery step, if any, and completion (R148). -/
  | raised (recovery : Option DeviceState) (e : Err) (s : State)
  /-- Nowhere: the Device has not answered (R103). -/
  | waiting (s : State)

/-- `ok <- b` of Bracket (R122). -/
def setOk (b : Bool) (s : State) : State := { s with scratch := { s.scratch with ok := b } }

/-- Replace the bytes the rule has read. -/
def setBuf (b : Bytes) (s : State) : State := { s with scratch := { s.scratch with buf := b } }

/-- Keep the blocks ParsePatch assembled (R128). -/
def setBlocks (img : Image) (s : State) : State := { s with scratch := { s.scratch with blocks := img } }

/-- `data <- b` (R75). -/
def setData (b : Bytes) (s : State) : State := { s with scratch := { s.scratch with data := b } }

/-- `snap <- tmp` (R98): `snap[k]` is the byte read from `VOL_ADDR[k]`. -/
def saveSnap (s : State) : State :=
  let b := s.scratch.buf
  { s with snap := #v[b.getD 0 0, b.getD 1 0, b.getD 2 0, b.getD 3 0] }

/-- `eq_preset <- i` (R125). -/
def setPreset (i : Byte) (s : State) : State := { s with eqPreset := i }

/-- The bytes a write sends. -/
def Source.bytes (s : State) : Source → Bytes
  | .lit v => v
  | .buf => s.scratch.buf
  | .block a => blockOf s.scratch.blocks a
  | .closing k => closingValue k s

/-- What a failed write does (R104). -/
def onFailure (a : Byte) (f : OnFail) (s : State) : Effect :=
  match f with
  | .log => .logged (.transport a) 0 s
  | .logSkip n => .logged (.transport a) n s
  | .logFail n => .logged (.transport a) n (setOk false s)
  | .raise => .raised none (.transport a) s
  | .raiseTo d => .raised (some d) (.transport a) s

/-- One micro-step, at its boundary's end. -/
def perform (m : Micro) (s : State) : Effect :=
  match m with
  | .require allowed => if allowed.contains s.ds then .go 0 s else .raised none (.state s.ds) s
  | .raise e => .raised none e s
  | .log e => .go 0 (logErr e s)
  | .setState d => .go 0 (setState d s)
  | .unmute => .go 0 (if s.ds = .muted then setState .running s else s)
  | .gpio line asserted => .go 0 (gpio line (lineLevel s.params line asserted) s)
  | .wait d => .go 0 (wait d s)
  | .write a v onFail =>
    match memWrite a (v.bytes s) s with
    | .ok _ s' => .go 0 s'
    | .fail s' => onFailure a onFail s'
    | .waiting s' => .waiting s'
  | .read a n =>
    match memRead a n s with
    | .ok b s' => .go 0 (setBuf (s'.scratch.buf ++ b) s')
    | .fail s' => .raised none (.transport a) s'
    | .waiting s' => .waiting s'
  | .loadStage n =>
    let r := stageRead 0 n s
    .go 0 (setBuf r.1 r.2)
  | .parse =>
    match parsePatch s.scratch.buf with
    | .ok img => .go 0 (setBlocks img s)
    | .error a => .raised none (.patchParse a) s
  | .begin => .go 0 (setOk true s)
  | .ifOk n => .go (if s.scratch.ok then 0 else n) s
  | .saveSnap => .go 0 (saveSnap s)
  | .markSnap => .go 0 (markSnap s)
  | .setEnabled e => .go 0 (setEqEnabled e s)
  | .setPreset i => .go 0 (setPreset i s)
  | .answerBuf => .go 0 (setData s.scratch.buf s)
  | .answerStatus => .go 0 (setData (statusData s) s)

/-- `pc <- pc + n` (R18, R38). -/
def advance (n : Nat) (s : State) : State := { s with seqPc := s.seqPc + n }

/-- Run a rule's statements in order, the first `k` of them passed over by a `goto`, to completion (R133, R134). A block
reset at any boundary abandons the rest (R162); a transaction that is never answered stops the run where it stands.

R38 numbers nothing, and the steps that are no statement of the list have no index here: `seq_pc` stays at a failed write
during its Log, and after a raise it is already the rule's length during the recovery step, the Log and the completion.
DESIGN CHOICE (log 8). -/
def run : List Micro → Nat → State → State
  | [], _, s => microStep s complete
  | _ :: rest, k + 1, s => run rest k s
  | m :: rest, 0, s =>
    microStep s fun s =>
      match perform m s with
      | .go n s => run rest n (advance (n + 1) s)
      | .logged e n s => microStep s fun s => run rest n (advance (n + 1) (logErr e s))
      | .raised r e s => abort r e (advance (rest.length + 1) s)
      | .waiting s => s

/-- The lock is held by a host of the block. -/
def lockHeld (s : State) : Bool :=
  match s.lock with
  | none => false
  | some h => decide (h < s.hosts.length)

/-- Run the granted command's rule from `seq_pc` on. Every meaning is one call of this. -/
def runRule (rule : List Micro) (s : State) : Host.Outcome State Fault Refusal :=
  if lockHeld s then .next (run (rule.drop s.seqPc) 0 s) else .fault .noGrantedHost

end Sys2Proof.Machine
end

