-- ==== Sys2Proof/Machine/Commit.lean ====
section
/-! DEFINITION. The commit bracket and the mute guard as statements (42_commit_arbiter.md R122, R129), shared by
bring-up, SELECT_PRESET and PATCH_APPLY. -/

namespace Sys2Proof.Machine

/-- The image writes of a bracket (R122): a failure breaks off the loop, so the writes left are passed over. -/
def imageWrites : List (Byte × Source) → List Micro
  | [] => []
  | (a, v) :: rest => .write a v (.logFail rest.length) :: imageWrites rest

/-- The closing write of a bracket (R122): always attempted, with the value `eq_enabled` selects. -/
def closingWrite (p : Params) (k : Kind) : Micro := .write (switchOf p k).addr (.closing k) (.logFail 0)

/-- `Bracket(kind, img)` (R122): disable, image writes, closing write. A failed disable write passes over the image. -/
def bracket (p : Params) (k : Kind) (img : List (Byte × Source)) : List Micro :=
  [.begin, .write (ctrlVal p k false).1 (.lit (ctrlVal p k false).2) (.logFail img.length)] ++
  imageWrites img ++ [closingWrite p k]

/-- An image whose bytes the rule gives. -/
def litImage (img : Image) : List (Byte × Source) := img.map fun q => (q.1, .lit q.2)

/-- The image of a bank in the patch: `(a, blk[a])` in image order (R128). -/
def patchImage (k : Kind) : List (Byte × Source) := k.addrs.map fun a => (a, .block a)

/-- Both brackets of the mute guard (R129): EQ only after a DRC bracket that was ok. -/
def guardedBrackets (p : Params) : List Micro :=
  bracket p .drc (patchImage .drc) ++ [.ifOk (bracket p .eq (patchImage .eq)).length] ++
  bracket p .eq (patchImage .eq)

/-- `MuteGuard(drcimg, eqimg)` (R129): a failed mute write goes to `release`; the release write is always attempted. -/
def muteGuard (p : Params) : List Micro :=
  [.write p.regs.softMute.addr (.lit p.regs.softMute.on) (.logSkip (1 + (guardedBrackets p).length)),
   .setState .muted] ++
  guardedBrackets p ++
  [.write p.regs.softMute.addr (.lit p.regs.softMute.off) .log, .unmute]

end Sys2Proof.Machine
end

