-- ==== Sys2Proof/Machine/Arb.lean ====
section
/-! DEFINITION. ARB's three commands (42_commit_arbiter.md R124, R125, R130). -/

namespace Sys2Proof.Machine

/-- SET_ENABLED (R124): the EQ write, the DRC write, then `eq_enabled`; a failed write raises at once. -/
def setEnabledRule (p : Params) (e : Bool) : List Micro :=
  [.require dsForRunning,
   .write (ctrlVal p .eq e).1 (.lit (ctrlVal p .eq e).2) .raise,
   .write (ctrlVal p .drc e).1 (.lit (ctrlVal p .drc e).2) .raise,
   .setEnabled e]

/-- SELECT_PRESET (R125): `eq_preset` is written only if the bracket was ok. -/
def selectPresetRule (p : Params) (a : Byte) : List Micro :=
  .require dsForRunning ::
  (match presetOperand p a with
   | .error e => [.raise e]
   | .ok blob => bracket p .eq (litImage ((loadEq blob).getD [])) ++ [.ifOk 1, .setPreset a])

/-- PATCH_APPLY (R130): the text from the stage, the parse, then the mute guard. -/
def patchApplyRule (p : Params) (l : Half) : List Micro :=
  .require dsForRunning ::
  (match textOperand l with
   | .error e => [.raise e]
   | .ok n => [.loadStage n, .parse] ++ muteGuard p)

/-- SET_ENABLED: switch EQ and DRC on or off together (R124). -/
def execSetEnabled (e : Bool) (s : State) : Host.Outcome State Fault Refusal :=
  runRule (setEnabledRule s.params e) s

/-- SELECT_PRESET: commit a named EQ preset (R125). -/
def execSelectPreset (a : Byte) (s : State) : Host.Outcome State Fault Refusal :=
  runRule (selectPresetRule s.params a) s

/-- PATCH_APPLY: parse a text patch and commit it under the mute guard (R130). -/
def execPatchApply (l : Half) (s : State) : Host.Outcome State Fault Refusal :=
  runRule (patchApplyRule s.params l) s

end Sys2Proof.Machine
end

