-- ==== Sys2Proof/Machine/Pseq.lean ====
section
/-! DEFINITION. PSEQ (40_power_sequencer.md): the pin sequences, bring-up, and the five lifecycle commands. -/

namespace Sys2Proof.Machine

/-! ### Pin sequences -/

/-- `PowerUp()` (R81): with unbound pins an explicit no-op that logs. -/
def powerUp (p : Params) : List Micro :=
  if pinsBound p then
    [.gpio .pd true, .wait Config.tPuA,
     .gpio .rst true, .wait Config.tPuB,
     .setState .poweringUp,
     .gpio .pd false, .wait Config.tPuC,
     .gpio .rst false, .wait Config.tPuD]
  else [.log .seqPowerUp]

/-- `PowerDown()` (R82): the tail of SHUTDOWN and SUSPEND. -/
def powerDown (p : Params) : List Micro :=
  if pinsBound p then
    [.setState .shuttingDown,
     .write p.regs.stop.addr (.lit p.regs.stop.val) (.raiseTo .running),
     .wait Config.tStop,
     .gpio .rst true, .wait Config.tSdRstPd,
     .gpio .pd true,
     .setState .off]
  else [.raise .seqShutdown]

/-- `ResetPulse()` (R83). The PD line is not driven. -/
def resetPulse (p : Params) : List Micro :=
  if pinsBound p then
    [.setState .resetting,
     .gpio .rst true, .wait Config.tRstHold,
     .gpio .rst false, .wait Config.tRstPost,
     .setState .uninitialized]
  else [.raise .seqPulse]

/-! ### Bring-up -/

/-- `CW(a, v)` (R85): a best-effort configuration write. -/
def cw (a : Byte) (v : Bytes) : Micro := .write a (.lit v) .log

/-- `CW` of a control register's one value. -/
def cwReg (r : CtlReg) : Micro := cw r.addr r.val

/-- `ConfigGroup1()` (R87). -/
def configGroup1 (p : Params) : List Micro :=
  [cwReg p.regs.oscTrim, .wait Config.tOsc,
   cwReg p.regs.clockCtrl, cwReg p.regs.serialFmt, cwReg p.regs.sysCtrl, cwReg p.regs.errCtrl,
   cwReg p.regs.inputMux, cwReg p.regs.chSrc, cwReg p.regs.pwmMux]

/-- `LoadDrc(cfg.drc_main, cfg.drc_tko)` (R88, R118); `none` where a table is absent or of the wrong length. -/
def platformDrc (p : Params) : Option Image :=
  match p.cfg.drcMain, p.cfg.drcTko with
  | some main, some tko => loadDrc main tko
  | _, _ => none

/-- `DrcAtBringup()` (R88). -/
def drcAtBringup (p : Params) : List Micro :=
  match platformDrc p with
  | none => [.log .configDrc]
  | some img => bracket p .drc (litImage img)

/-- `LoadEq(cfg.presets[i].blob)` (R89, R117); `none` where there is no such preset or its blob is not 360 bytes. -/
def platformEq (p : Params) (i : Byte) : Option Image :=
  match p.cfg.presets[i.toNat]? with
  | none => none
  | some q => loadEq q.blob

/-- `EqAtBringup()` (R89) for the preset `i` that `eq_preset` names. -/
def eqAtBringup (p : Params) (i : Byte) : List Micro :=
  match platformEq p i with
  | none => [.log (.configEq i)]
  | some img => bracket p .eq (litImage img)

/-- `InitMuxOverride()` (R90). -/
def initMuxOverride (p : Params) : List Micro :=
  match p.cfg.initMux with
  | none => []
  | some v => if v.length = 4 then [cw p.regs.inputMux.addr v] else [.log .configMux]

/-- `ConfigGroup2()` (R91): the startup wait stands even if the exit-shutdown write failed. -/
def configGroup2 (p : Params) : List Micro :=
  [cwReg p.regs.volCfg, cwReg p.regs.startStop, cwReg p.regs.sdGroup, cwReg p.regs.modLimit,
   cwReg p.regs.exitSd, .wait Config.tStart]

/-- The master volume of `RunningEntry` (R92): the custom one, else the default. -/
def masterVolume (p : Params) : Bytes :=
  match p.cfg.masterVol with
  | some v => [v]
  | none => p.regs.vol[0].val

/-- `RunningEntry()` (R92). -/
def runningEntry (p : Params) : List Micro :=
  [cw p.regs.vol[0].addr (masterVolume p), cwReg p.regs.vol[1], cwReg p.regs.vol[2], cwReg p.regs.vol[3],
   cw p.regs.softMute.addr p.regs.softMute.off]

/-- `BringupBody()` (R86) with the preset `i` of `eq_preset`. -/
def bringupBody (p : Params) (i : Byte) : List Micro :=
  [.setState .resetting] ++ powerUp p ++
  [.setState .configuring] ++ configGroup1 p ++
  (if p.cfg.drcEnable then drcAtBringup p else []) ++
  (if p.cfg.eqEnable then eqAtBringup p i else []) ++
  initMuxOverride p ++ configGroup2 p ++
  [.setState .running] ++ runningEntry p

/-! ### The rules of the lifecycle commands -/

/-- BRINGUP (R95). -/
def bringupRule (p : Params) (i : Byte) : List Micro := .require dsForBringup :: bringupBody p i

/-- SHUTDOWN (R96). -/
def shutdownRule (p : Params) : List Micro := .require dsForRunning :: powerDown p

/-- RST_PULSE (R97). -/
def rstPulseRule (p : Params) : List Micro := .require dsForRunning :: resetPulse p

/-- The snapshot of SUSPEND (R98): `VOL_ADDR[0..3]` read in order, then `snap` and `snap_valid` written. -/
def takeSnapshot (p : Params) : List Micro :=
  [.read p.regs.vol[0].addr 1, .read p.regs.vol[1].addr 1, .read p.regs.vol[2].addr 1,
   .read p.regs.vol[3].addr 1, .saveSnap, .markSnap]

/-- SUSPEND (R98): the pins are checked before any read (C10). -/
def suspendRule (p : Params) : List Micro :=
  .require dsForRunning ::
  (if pinsBound p then takeSnapshot p ++ powerDown p else [.raise .seqShutdown])

/-- The restore writes of RESUME (R99). -/
def restoreSnapshot (p : Params) (snap : Vector Byte 4) : List Micro :=
  [cw p.regs.vol[0].addr [snap[0]], cw p.regs.vol[1].addr [snap[1]],
   cw p.regs.vol[2].addr [snap[2]], cw p.regs.vol[3].addr [snap[3]]]

/-- RESUME (R99). -/
def resumeRule (s : State) : List Micro :=
  .require dsForBringup ::
  (bringupBody s.params s.eqPreset ++ (if s.snapValid then restoreSnapshot s.params s.snap else []))

/-! ### Meanings -/

/-- BRINGUP: bring the chip to Running (R95). -/
def execBringup (s : State) : Host.Outcome State Fault Refusal := runRule (bringupRule s.params s.eqPreset) s

/-- SHUTDOWN: stop the chip and power it down (R96). -/
def execShutdown (s : State) : Host.Outcome State Fault Refusal := runRule (shutdownRule s.params) s

/-- RST_PULSE: pulse the chip's reset line (R97). -/
def execRstPulse (s : State) : Host.Outcome State Fault Refusal := runRule (rstPulseRule s.params) s

/-- SUSPEND: snapshot the volumes, then shut down (R98). -/
def execSuspend (s : State) : Host.Outcome State Fault Refusal := runRule (suspendRule s.params) s

/-- RESUME: bring the chip up and write the snapshot back (R99). -/
def execResume (s : State) : Host.Outcome State Fault Refusal := runRule (resumeRule s) s

end Sys2Proof.Machine
end

