-- ==== Sys2Proof/Machine/StatusRead.lean ====
section
/-! DEFINITION. STATUS (43_status.md R139), and the one-statement rule of an illegal word (30_encoding.md R72). -/

namespace Sys2Proof.Machine

/-- STATUS (R139): admissible in every `ds`; no transaction, no pin. -/
def statusRule : List Micro := [.answerStatus]

/-- STATUS: report the block's lifecycle and EQ/DRC status (R139). -/
def execStatus (s : State) : Host.Outcome State Fault Refusal := runRule statusRule s

/-- An illegal word raises IllegalCommand at once, and has no other effect (R72, R132). -/
def illegalRule (w : Word32) : List Micro := [.raise (.illegal w)]

/-- What the block does with a granted word that decodes to no command (R70, R72). -/
def execIllegal (w : Word32) (s : State) : Host.Outcome State Fault Refusal := runRule (illegalRule w) s

end Sys2Proof.Machine
end

