-- ==== Sys2Proof/Machine/Xport.lean ====
section
/-! DEFINITION. XPORT's two host register commands (41_transport.md R109, R110). -/

namespace Sys2Proof.Machine

/-- REG_READ (R109): the checks, one MemRead, and the bytes as response data. -/
def regReadRule (p : Params) (a : Byte) (l : Half) : List Micro :=
  .require dsForRunning ::
  (match registerOperand p a l with
   | .error e => [.raise e]
   | .ok w => [.read a w, .answerBuf])

/-- REG_WRITE (R110): the checks, the payload from the stage, and one MemWrite. -/
def regWriteRule (p : Params) (a : Byte) (l : Half) : List Micro :=
  .require dsForRunning ::
  (match writableOperand p a l with
   | .error e => [.raise e]
   | .ok w => [.loadStage w, .write a .buf .raise])

/-- REG_READ: read one whole device register (R109). -/
def execRegRead (a : Byte) (l : Half) (s : State) : Host.Outcome State Fault Refusal :=
  runRule (regReadRule s.params a l) s

/-- REG_WRITE: write one whole device register from the stage (R110). -/
def execRegWrite (a : Byte) (l : Half) (s : State) : Host.Outcome State Fault Refusal :=
  runRule (regWriteRule s.params a l) s

end Sys2Proof.Machine
end

