-- ==== Sys2Proof/Machine/Dispatch.lean ====
section
/-! DEFINITION. One arm per command: its meaning. -/

namespace Sys2Proof.Machine

def exec (i : Instr) (s : State) : Host.Outcome State Fault Refusal :=
  match i with
  | .bringup => Sys2Proof.Machine.execBringup s
  | .shutdown => Sys2Proof.Machine.execShutdown s
  | .rstPulse => Sys2Proof.Machine.execRstPulse s
  | .suspend => Sys2Proof.Machine.execSuspend s
  | .resume => Sys2Proof.Machine.execResume s
  | .regRead a l => Sys2Proof.Machine.execRegRead a l s
  | .regWrite a l => Sys2Proof.Machine.execRegWrite a l s
  | .setEnabled e => Sys2Proof.Machine.execSetEnabled e s
  | .selectPreset a => Sys2Proof.Machine.execSelectPreset a s
  | .patchApply l => Sys2Proof.Machine.execPatchApply l s
  | .status => Sys2Proof.Machine.execStatus s

end Sys2Proof.Machine
end

