-- ==== Sys2Proof/Machine/Fetch.lean ====
section
/-! DEFINITION. How the block takes a command word (42_commit_arbiter.md R131, R132): decode and run, and the placing
of a word as the one pending command. The block fetches nothing (20_memory.md R50): words arrive by value. -/

namespace Sys2Proof.Machine

/-- Decode the granted word and run its command; an illegal word raises IllegalCommand (R70, R72, R132). -/
def execWord (w : Word32) (s : State) : Host.Outcome State Fault Refusal :=
  match decode w with
  | .ok i => exec i s
  | .error _ => execIllegal w s

/-- The hosts with `w` pending for host `h` and nothing pending for any other; host `h` has no response (R131). -/
def placeWord (h : Nat) (w : Word32) (hosts : List HostPort) : List HostPort :=
  hosts.mapIdx fun j p => if j = h then ⟨some w, none, []⟩ else { p with pending := none }

/-- `s` with `w` the one pending command, on a free lock, and nobody acting before its grant. -/
def placeCommand (h : Nat) (w : Word32) (s : State) : State :=
  { s with
    lock := none
    hosts := placeWord h w s.hosts
    env := { s.env with world := [] :: s.env.world } }

end Sys2Proof.Machine
end

