-- ==== Sys2Proof/Machine/Step.lean ====
section
/-! DEFINITION. One step of the machine. -/

namespace Sys2Proof.Machine

/-- One step. While no command runs, the other agents act and then the block grants a pending command, if there is one,
and runs it (R132, R163); while one runs, its rule goes on from `seq_pc` (R133). No run exists with parameters that are
not admitted (R166). -/
def step (s : State) : Host.Outcome State Fault Refusal :=
  if s.params.admitted then
    match s.lock with
    | some _ => execWord s.cur s
    | none =>
      match nextCommand (agentsAct s) with
      | none => .next (agentsAct s)
      | some (h, w) => execWord w (grant h w (settled s))
  else .refused .parametersNotAdmitted

/-- `s` with a command word of the opcode table as the one pending command, host 0's, on a free lock, and with no act of
another agent before its grant: the next step grants and runs it. It stands for host 0's issue (R131, log 11). -/
def State.withFetchWord (s : State) (nbits w : Nat) : State := placeCommand 0 (tableWord nbits w) s

end Sys2Proof.Machine
end

