-- ==== Sys2Proof/Machine/Assembler.lean ====
section
/-! DEFINITION. The assembler (30_encoding.md R79, R80): a line of text, the line it denotes, and what it assembles to,
the stage writes that come first and one command word. Text is a byte string of ASCII codes. -/

namespace Sys2Proof.Machine

/-- A line of a program (R79), the pseudo-instructions EQDRC_ON and EQDRC_OFF among them (R80). -/
inductive AsmLine where
  | bringup | shutdown | rstPulse | suspend | resume | status
  | regRead (a : Byte)
  | regWrite (a : Byte) (payload : Bytes)
  | setEnabled (e : Bool)
  | selectPreset (i : Byte)
  | patchApply (text : Bytes)
  | eqdrcOn | eqdrcOff
deriving DecidableEq, Repr

/-- The command a line assembles to (R80). REG_READ takes `L` from `REGMAP`, 0 where there is no entry; a payload's
length must fit the `L` field and the stage, else the line does not assemble. -/
def AsmLine.command (p : Params) : AsmLine → Option Instr
  | .bringup => some .bringup
  | .shutdown => some .shutdown
  | .rstPulse => some .rstPulse
  | .suspend => some .suspend
  | .resume => some .resume
  | .status => some .status
  | .regRead a => some (.regRead a (BitVec.ofNat 16 ((regmap p a).getD 0)))
  | .regWrite a b =>
    if b.length ≤ Config.stageBytes then some (.regWrite a (BitVec.ofNat 16 b.length)) else none
  | .setEnabled e => some (.setEnabled e)
  | .selectPreset i => some (.selectPreset i)
  | .patchApply t => if t.length ≤ Config.stageBytes then some (.patchApply (BitVec.ofNat 16 t.length)) else none
  | .eqdrcOn => some (.setEnabled true)
  | .eqdrcOff => some (.setEnabled false)

/-- The payload a line puts into the stage from offset 0 (R80). -/
def AsmLine.payload : AsmLine → Bytes
  | .regWrite _ b => b
  | .patchApply t => t
  | _ => []

/-- What host `h` does to run a line (R79, R80): the stage writes in order, then the issue of the word. -/
def AsmLine.acts (p : Params) (h : Nat) (l : AsmLine) : Option (List Act) :=
  (l.command p).map fun i =>
    (l.payload.zipIdx.map fun q => .stageWrite (BitVec.ofNat 12 q.2) q.1) ++ [.issue h (encode i)]

/-! ### Text (R79) -/

/-- Split at blanks and commas; runs of them part once. -/
def asmWords (t : Bytes) : List Bytes :=
  (t.splitOnP fun c => isWS c || c == 0x2C).filter fun w => !w.isEmpty

/-- A hex byte without its optional `0x`. -/
def asmDigits (w : Bytes) : Bytes := if w.take 2 = [0x30, 0x78] then w.drop 2 else w

/-- A byte in hex, with or without `0x`, of one or two digits. -/
def asmHex (w : Bytes) : Option Byte :=
  let d := asmDigits w
  if d.all isHex && !d.isEmpty && decide (d.length ≤ 2) then
    some (BitVec.ofNat 8 (d.foldl (fun n c => 16 * n + hexVal c) 0))
  else none

/-- A decimal number from 0 to 255. -/
def asmDecimal (w : Bytes) : Option Byte :=
  if !w.isEmpty && w.all fun c => 0x30 ≤ c.toNat && c.toNat ≤ 0x39 then
    let n := w.foldl (fun n c => 10 * n + (c.toNat - 0x30)) 0
    if n ≤ 255 then some (BitVec.ofNat 8 n) else none
  else none

/-- A repeat count, `xN` with `N` decimal from 1 to 255: the form `00 x20` of P3 in 95_test_vectors.md. R79 does not
define it; that the byte before it stands `N` times is read from P3's comment. DEDUCED (log 21). -/
def asmCount (w : Bytes) : Option Nat :=
  match w with
  | [] => none
  | c :: d =>
    if c = 0x78 then (asmDecimal d).bind fun n => if n = 0 then none else some n.toNat else none

/-- The payload words of a REG_WRITE line (R79): bytes in hex, each with the repeat count that may follow it. There may
be none, and the line then assembles with `L = 0`: R79 does not say that a payload may be empty. DESIGN CHOICE
(log 18). -/
def asmBytes : List Bytes → Option Bytes
  | [] => some []
  | [w] => (asmHex w).map fun b => [b]
  | w :: x :: rest =>
    match asmHex w, asmCount x with
    | some b, some n => (asmBytes rest).map (List.replicate n b ++ ·)
    | some b, none => (asmBytes (x :: rest)).map (b :: ·)
    | none, _ => none

/-- The mnemonics of R79 and R80, in ASCII, upper case. -/
def mnBringup : Bytes := [0x42, 0x52, 0x49, 0x4E, 0x47, 0x55, 0x50]
def mnShutdown : Bytes := [0x53, 0x48, 0x55, 0x54, 0x44, 0x4F, 0x57, 0x4E]
def mnRstPulse : Bytes := [0x52, 0x53, 0x54, 0x5F, 0x50, 0x55, 0x4C, 0x53, 0x45]
def mnSuspend : Bytes := [0x53, 0x55, 0x53, 0x50, 0x45, 0x4E, 0x44]
def mnResume : Bytes := [0x52, 0x45, 0x53, 0x55, 0x4D, 0x45]
def mnStatus : Bytes := [0x53, 0x54, 0x41, 0x54, 0x55, 0x53]
def mnRegRead : Bytes := [0x52, 0x45, 0x47, 0x5F, 0x52, 0x45, 0x41, 0x44]
def mnRegWrite : Bytes := [0x52, 0x45, 0x47, 0x5F, 0x57, 0x52, 0x49, 0x54, 0x45]
def mnSetEnabled : Bytes := [0x53, 0x45, 0x54, 0x5F, 0x45, 0x4E, 0x41, 0x42, 0x4C, 0x45, 0x44]
def mnSelectPreset : Bytes := [0x53, 0x45, 0x4C, 0x45, 0x43, 0x54, 0x5F, 0x50, 0x52, 0x45, 0x53, 0x45, 0x54]
def mnPatchApply : Bytes := [0x50, 0x41, 0x54, 0x43, 0x48, 0x5F, 0x41, 0x50, 0x50, 0x4C, 0x59]
def mnEqdrcOn : Bytes := [0x45, 0x51, 0x44, 0x52, 0x43, 0x5F, 0x4F, 0x4E]
def mnEqdrcOff : Bytes := [0x45, 0x51, 0x44, 0x52, 0x43, 0x5F, 0x4F, 0x46, 0x46]

/-- A line without payload text, from its words (R79). -/
def asmSimple (ws : List Bytes) : Option AsmLine :=
  match ws with
  | [m] =>
    if m = mnBringup then some .bringup
    else if m = mnShutdown then some .shutdown
    else if m = mnRstPulse then some .rstPulse
    else if m = mnSuspend then some .suspend
    else if m = mnResume then some .resume
    else if m = mnStatus then some .status
    else if m = mnEqdrcOn then some .eqdrcOn
    else if m = mnEqdrcOff then some .eqdrcOff
    else none
  | m :: x :: rest =>
    if m = mnRegWrite then
      match asmHex x, asmBytes rest with
      | some a, some b => some (.regWrite a b)
      | _, _ => none
    else if rest = [] then
      if m = mnRegRead then (asmHex x).map .regRead
      else if m = mnSetEnabled then
        if x = [0x30] then some (.setEnabled false) else if x = [0x31] then some (.setEnabled true) else none
      else if m = mnSelectPreset then (asmDecimal x).map .selectPreset
      else none
    else none
  | [] => none

/-- Only blanks, or a comment (R79). -/
def asmBlank (t : Bytes) : Bool :=
  match t.dropWhile isWS with
  | [] => true
  | c :: _ => c == 0x3B

/-- A quoted text, from after its opening quote; only blanks or a comment may follow it. A `;` between the quotes is
text and begins no comment, which R79 leaves open. DESIGN CHOICE (log 18). -/
def asmQuoted (t : Bytes) : Option Bytes :=
  if t.contains 0x22 && asmBlank ((t.dropWhile (· != 0x22)).drop 1) then some (t.takeWhile (· != 0x22)) else none

/-- A text given beside the program under a name (R79). -/
def asmNamed (texts : List (Bytes × Bytes)) (t : Bytes) : Option Bytes :=
  match asmWords (t.takeWhile (· != 0x3B)) with
  | [name] => texts.lookup name
  | _ => none

/-- The operand of PATCH_APPLY (R79): `"text"`, or `@name`. -/
def asmText (texts : List (Bytes × Bytes)) (t : Bytes) : Option Bytes :=
  match t.dropWhile isWS with
  | [] => none
  | c :: rest => if c = 0x22 then asmQuoted rest else if c = 0x40 then asmNamed texts rest else none

/-- A line of text (R79): `none` where it is no line, `some none` where it is blank or holds a comment alone. R79 lists
neither among its lines; that both are taken, and stand for no line, is a DESIGN CHOICE (log 18). -/
def asmParse (texts : List (Bytes × Bytes)) (t : Bytes) : Option (Option AsmLine) :=
  if asmBlank t then some none
  else
    let body := t.dropWhile isWS
    let m := body.takeWhile fun c => !isWS c && c != 0x3B
    if m = mnPatchApply then (asmText texts (body.drop m.length)).map fun x => some (.patchApply x)
    else (asmSimple (asmWords (t.takeWhile (· != 0x3B)))).map some

/-- A program: its lines in order (R79), those that are blank or hold a comment alone left out (log 18); `none` where a
line is none. -/
def asmProgram (texts : List (Bytes × Bytes)) (lines : List Bytes) : Option (List AsmLine) :=
  (lines.mapM (asmParse texts)).map fun ls => ls.filterMap id

/-- A program under way at its host: the lines not yet issued, and whether one has been issued. -/
structure AsmRun where
  left : List AsmLine
  begun : Bool
deriving DecidableEq, Repr

/-- Host `h` has the response of the command it issued last (R79): the issue took the one before away (R131), so the
response it finds is that command's. A command that a block reset abandons leaves none (R162). -/
def hasResponse (s : State) (h : Nat) : Bool := ((s.hosts[h]?).bind HostPort.resp).isSome

/-- Host `h`'s turn in a program (R79): it issues the first line where it may (R131), and every later line once it has
the response of the line before. Where it has none it waits, for good after a reset has abandoned that command. Gives
the program and the state after the turn; `none` where the line does not assemble. -/
def hostTurn (h : Nat) (r : AsmRun) (s : State) : Option (AsmRun × State) :=
  match r.left with
  | [] => some (r, s)
  | l :: rest =>
    if issueReady s h && (!r.begun || hasResponse s h) then
      (l.acts s.params h).map fun a => (⟨rest, true⟩, applyActs a s)
    else some (r, s)

end Sys2Proof.Machine
end

