-- ==== Sys2Proof/Machine/FieldDecode.lean ====
section
/-! DEFINITION. The two field decodes the spec gives (41_transport.md R111, R112). No command computes them; they say
what the bytes the block writes stand for. The other decodes have no table in any source (R113) and are not modelled. -/

namespace Sys2Proof.Machine

/-- A volume byte as twice its gain in dB (R111): `2 × dB = 48 - v`, the one signed quantity (R179). -/
def volumeHalfDb (v : Byte) : Int := 48 - (v.toNat : Int)

/-- The `FS` field of a clock-control byte (R112): `v[7:5]`. -/
def clockFs (v : Byte) : BitVec 3 := v.extractLsb' 5 3

/-- The `RATIO` field of a clock-control byte (R112): `v[4:2]`. -/
def clockRatio (v : Byte) : BitVec 3 := v.extractLsb' 2 3

/-- The one sample rate the source names (R112). -/
inductive SampleRate where
  /-- "44.1/48k" -/
  | r44k1or48k
deriving DecidableEq, Repr

/-- The two MCLK ratios the source names (R112). -/
inductive MclkRatio where
  /-- "256fs" -/
  | fs256
  /-- "512fs" -/
  | fs512
deriving DecidableEq, Repr

/-- The name of an FS code; every other code is OPEN and has none (R112). -/
def sampleRateOf (fs : BitVec 3) : Option SampleRate := if fs = 0b011 then some .r44k1or48k else none

/-- The name of a RATIO code; every other code is OPEN and has none (R112). -/
def mclkRatioOf (r : BitVec 3) : Option MclkRatio :=
  if r = 0b011 then some .fs256 else if r = 0b101 then some .fs512 else none

end Sys2Proof.Machine
end

