-- ==== Sys2Proof/Safety.lean ====
section
/-! DEFINITION. The terms claims are stated in: what a granted command and an undisturbed run are, how a trace is read,
and the predicates that say a run is safe. -/

namespace Sys2Proof.Machine

/-! ### Reading a trace -/

/-- The stamp of an event (R8). -/
def Event.stamp : Event → Nat
  | .pin _ _ t => t
  | .xfer _ _ _ _ t => t
  | .state _ t => t
  | .log _ t => t
  | .grant _ _ t => t
  | .resp _ _ _ _ t => t
  | .reset t => t

/-- An event with its stamp taken off (set to 0). -/
def Event.untimed : Event → Event
  | .pin l v _ => .pin l v 0
  | .xfer d a b r _ => .xfer d a b r 0
  | .state d _ => .state d 0
  | .log e _ => .log e 0
  | .grant h w _ => .grant h w 0
  | .resp h c i d _ => .resp h c i d 0
  | .reset _ => .reset 0

def Event.isXfer : Event → Bool
  | .xfer _ _ _ _ _ => true
  | _ => false

def Event.isWrite : Event → Bool
  | .xfer .write _ _ _ _ => true
  | _ => false

def Event.isPin : Event → Bool
  | .pin _ _ _ => true
  | _ => false

/-- A statement that writes a register. -/
def Micro.isWrite : Micro → Bool
  | .write _ _ _ => true
  | _ => false

/-- A transaction moves a whole register (R51): as many bytes as the register it names has, none on a failed read. -/
def Event.fits (p : Params) : Event → Bool
  | .xfer .write a v _ _ => regmap p a == some v.length
  | .xfer .read a v true _ => regmap p a == some v.length
  | .xfer .read _ v false _ => v.isEmpty
  | _ => true

/-- The error of a Log event. -/
def Event.logged? : Event → Option Err
  | .log e _ => some e
  | _ => none

/-- The state of a State event. -/
def Event.state? : Event → Option DeviceState
  | .state d _ => some d
  | _ => none

/-- The events `t` has beyond those of `s`. -/
def newEvents (s t : State) : List Event := t.trace.drop s.trace.length

/-- The events added between `s` and `t`, stamps aside, are exactly `es`. -/
def TraceGains (s t : State) (es : List Event) : Prop :=
  t.trace = s.trace ++ newEvents s t ∧ (newEvents s t).map Event.untimed = es

/-- `resp[h]` (R40). -/
def respAt (s : State) (h : Nat) : Option Response := (s.hosts[h]?).bind HostPort.resp

/-- The response that a command's Log events call for (R41, R134), with `data` if there was none. -/
def responseTo (data : Bytes) (es : List Event) : Response :=
  match es.filterMap Event.logged? with
  | [] => ⟨.ok, 0, data⟩
  | e :: _ => ⟨e.code, e.info, []⟩

/-- A successful write, its stamp taken off. -/
def Event.wrote (a : Byte) (v : Bytes) : Event := .xfer .write a v true 0

/-- A write answered `fail`, its stamp taken off. -/
def Event.failed (a : Byte) (v : Bytes) : Event := .xfer .write a v false 0

/-- The writes of a trace, whatever their results: address and bytes, in order. -/
def writesOf (es : List Event) : Image :=
  es.filterMap fun e => match e with
    | .xfer .write a v _ _ => some (a, v)
    | _ => none

/-- What a bracket writes when nothing fails (R122): OFF, the image, the closing value. -/
def bracketWrites (s : State) (k : Kind) (img : Image) : Image :=
  (ctrlVal s.params k false) :: img ++ [((switchOf s.params k).addr, closingValue k s)]

/-- The events of those writes, all successful. -/
def bracketEvents (s : State) (k : Kind) (img : Image) : List Event :=
  (bracketWrites s k img).map fun q => .wrote q.1 q.2

/-- The events of a list of writes of which write `n`, counted from 0, alone fails, where a failure passes over every
later write but the last (R122): the writes before it, the failure and its Log, and the last write. -/
def brokenEvents (ws : Image) (n : Nat) : List Event :=
  (ws.take n).map (fun q => .wrote q.1 q.2) ++
  (match ws[n]? with
   | none => []
   | some q => [.failed q.1 q.2, .log (.transport q.1) 0]) ++
  ((ws.drop (max (n + 1) (ws.length - 1))).map fun q => .wrote q.1 q.2)

/-- A successful write of a control register's one value. -/
def Event.wroteReg (r : CtlReg) : Event := .wrote r.addr r.val

/-- The events of a bring-up in which nothing fails, up to the oscillator trim (R86, R81, R87). -/
def bringupStart (s : State) : List Event :=
  let p := s.params
  [.state .resetting 0] ++
  (if pinsBound p then
    [.pin .pd (lineLevel p .pd true) 0, .pin .rst (lineLevel p .rst true) 0, .state .poweringUp 0,
     .pin .pd (lineLevel p .pd false) 0, .pin .rst (lineLevel p .rst false) 0]
   else [.log .seqPowerUp 0]) ++
  [.state .configuring 0, .wroteReg p.regs.oscTrim]

/-- The DRC commit of such a bring-up (R88). -/
def bringupDrc (s : State) : List Event :=
  match s.params.cfg.drcEnable, platformDrc s.params with
  | false, _ => []
  | true, none => [.log .configDrc 0]
  | true, some img => bracketEvents s .drc img

/-- The EQ commit of such a bring-up, of the preset `eq_preset` names (R89). -/
def bringupEq (s : State) : List Event :=
  match s.params.cfg.eqEnable, platformEq s.params s.eqPreset with
  | false, _ => []
  | true, none => [.log (.configEq s.eqPreset) 0]
  | true, some img => bracketEvents s .eq img

/-- The input-mux override of such a bring-up (R90). -/
def bringupMux (p : Params) : List Event :=
  match p.cfg.initMux with
  | none => []
  | some v => if v.length = 4 then [.wrote p.regs.inputMux.addr v] else [.log .configMux 0]

/-- The writes of ConfigGroup1 after the oscillator trim (R87). -/
def bringupGroup1 (p : Params) : List Event :=
  [.wroteReg p.regs.clockCtrl, .wroteReg p.regs.serialFmt, .wroteReg p.regs.sysCtrl, .wroteReg p.regs.errCtrl,
   .wroteReg p.regs.inputMux, .wroteReg p.regs.chSrc, .wroteReg p.regs.pwmMux]

/-- The writes of ConfigGroup2 (R91). -/
def bringupGroup2 (p : Params) : List Event :=
  [.wroteReg p.regs.volCfg, .wroteReg p.regs.startStop, .wroteReg p.regs.sdGroup, .wroteReg p.regs.modLimit,
   .wroteReg p.regs.exitSd]

/-- The events between its two waits: the rest of ConfigGroup1, the banks, the override, ConfigGroup2 (R87 to R91). -/
def bringupMiddle (s : State) : List Event :=
  bringupGroup1 s.params ++ bringupDrc s ++ bringupEq s ++ bringupMux s.params ++ bringupGroup2 s.params

/-- The events after its startup wait (R86, R92). -/
def bringupEnd (p : Params) : List Event :=
  [.state .running 0, .wrote p.regs.vol[0].addr (p.cfg.masterVol.elim p.regs.vol[0].val fun v => [v]),
   .wroteReg p.regs.vol[1], .wroteReg p.regs.vol[2], .wroteReg p.regs.vol[3],
   .wrote p.regs.softMute.addr p.regs.softMute.off]

/-- The four restore writes of RESUME (R99), none of them without a snapshot. -/
def restoreEvents (s : State) : List Event :=
  if s.snapValid then
    (List.finRange 4).map fun k => .wrote s.params.regs.vol[k].addr [s.snap[k]]
  else []

/-- The events of such a BRINGUP or RESUME before its banks: its CW writes up to there (R85) among them. -/
def bringupBefore (s : State) : List Event := bringupStart s ++ bringupGroup1 s.params

/-- The events of its two brackets (R88, R89). -/
def bringupBanks (s : State) : List Event := bringupDrc s ++ bringupEq s

/-- The events after its banks: the CW writes left, those of RESUME's restore among them. -/
def bringupAfter (i : Instr) (s : State) : List Event :=
  bringupMux s.params ++ bringupGroup2 s.params ++ bringupEnd s.params ++
  (if i = .resume then restoreEvents s else [])

/-- The events of a best-effort write that fails (R85): the failure and its Log. -/
def failedCw (a : Byte) (v : Bytes) : List Event := [.failed a v, .log (.transport a) 0]

/-- Every event of `es` is at least `d` before every event of `fs`. -/
def apart (d : Nat) (es fs : List Event) : Prop := ∀ e ∈ es, ∀ f ∈ fs, e.stamp + d ≤ f.stamp

/-- A text as the bytes of its ASCII codes. -/
def ascii (t : String) : Bytes := t.toList.map fun c => BitVec.ofNat 8 c.toNat

/-! ### The lexical rules of a text patch (R127), as a grammar -/

/-- The byte `c` is a hex digit of value `n`. -/
def IsDigit (c : Byte) (n : Nat) : Prop :=
  (n < 10 ∧ c.toNat = 0x30 + n) ∨ (10 ≤ n ∧ n < 16 ∧ (c.toNat = 0x41 + (n - 10) ∨ c.toNat = 0x61 + (n - 10)))

/-- The three bytes of a marker for address `a`. -/
def IsMarker (a : Byte) (m : Bytes) : Prop :=
  ∃ c d, m = [0x58, c, d] ∧ IsDigit c (a.toNat / 16) ∧ IsDigit d (a.toNat % 16)

/-- A byte token of value `b`: one or more whitespace bytes and two hex digits. -/
def IsToken (u : Bytes) (b : Byte) : Prop :=
  ∃ ws c d m n, u = ws ++ [c, d] ∧ ws ≠ [] ∧ (∀ x ∈ ws, x ∈ ([0x20, 0x09, 0x0A, 0x0D] : Bytes)) ∧
    IsDigit c m ∧ IsDigit d n ∧ b.toNat = m * 16 + n

/-- `b` is the block of address `a` in the text `t`: the tokens right after the first marker for `a`, as many as the
register has bytes, the last not followed by a third hex digit. -/
def IsBlock (a : Byte) (t b : Bytes) : Prop :=
  ∃ w pre m us post, coefficientWidth a = some w ∧ t = pre ++ m ++ us.flatten ++ post ∧ IsMarker a m ∧
    (∀ pre' m' post', t = pre' ++ m' ++ post' → IsMarker a m' → pre.length ≤ pre'.length) ∧
    us.length = w.bytes ∧ List.Forall₂ IsToken us b ∧ (∀ c ∈ post.head?, ∀ n, ¬ IsDigit c n)

/-- A Pin event with its level read as asserted or not (R19), every other event as it is. -/
def Event.asserted (p : Params) : Event → Event
  | .pin .rst v t => .pin .rst (v == p.cfg.rstActiveHigh) t
  | .pin .pd v t => .pin .pd (v == p.cfg.pdActiveHigh) t
  | e => e

/-- Parameters with other polarities (R84). -/
def withPolarity (p : Params) (rst pd : Bool) : Params :=
  { p with cfg := { p.cfg with rstActiveHigh := rst, pdActiveHigh := pd } }

/-! ### Premises on a state -/

/-- Host `h` has just been granted the lock (R132): its command is at its first statement. -/
abbrev Granted (h : Nat) (s : State) : Prop :=
  s.lock = some h ∧ h < s.hosts.length ∧ s.seqPc = 0 ∧ s.firstErr = none ∧ s.scratch = .empty

/-- No block reset is coming. -/
def noReset (s : State) : Bool := s.env.world.all fun acts => !acts.contains .reset

/-- No block reset comes before the next micro-step. -/
def calm (s : State) : Bool := !(actsNow s).contains .reset

/-- An act of the Time agent. -/
def Act.isTick : Act → Bool
  | .tick _ => true
  | _ => false

/-- Nothing but time passes: no host acts, no block reset. -/
def onlyTime (s : State) : Bool := s.env.world.all fun acts => acts.all Act.isTick

/-- The Device answers every transaction (R103). -/
def answers (s : State) : Bool :=
  !s.scratch.outstanding && s.env.device.all (· != .silent) && s.env.thereafter != .silent

def Answer.isOk : Answer → Bool
  | .ok _ => true
  | _ => false

/-- The Device answers every transaction `ok`. -/
def succeeds (s : State) : Bool :=
  !s.scratch.outstanding && s.env.device.all Answer.isOk && s.env.thereafter.isOk

/-- The command is not reset away and every transaction is answered, in whatever way. -/
abbrev Undisturbed (s : State) : Prop := noReset s = true ∧ answers s = true

/-- The command is not reset away and every transaction succeeds. -/
abbrev Smooth (s : State) : Prop := noReset s = true ∧ succeeds s = true

/-- The admissibility table (R94). -/
def admits : Instr → DeviceState → Bool
  | .bringup, d => d == .uninitialized || d == .off
  | .resume, d => d == .uninitialized || d == .off
  | .status, _ => true
  | _, d => d == .running

/-- `t` differs from `s` in nothing a failed check may not touch (R94, R152): every field of the block but the
bookkeeping of completion. -/
abbrev OnlyResponds (s t : State) : Prop :=
  t.ds = s.ds ∧ t.eqEnabled = s.eqEnabled ∧ t.eqPreset = s.eqPreset ∧ t.pinRst = s.pinRst ∧
  t.pinPd = s.pinPd ∧ t.snapValid = s.snapValid ∧ t.snap = s.snap ∧ t.params = s.params ∧
  t.waitUntil = s.waitUntil ∧ t.cur = s.cur ∧ t.lock = none

/-- The command of host `h` in `s` completes in `t` with error `e`, found by a check before its first effect: the trace
gains Log and Resp alone. -/
abbrev Rejects (s t : State) (h : Nat) (e : Err) : Prop :=
  OnlyResponds s t ∧ respAt t h = some ⟨e.code, e.info, []⟩ ∧
  TraceGains s t [.log e 0, .resp h e.code e.info [] 0]

/-! ### Safe traces -/

/-- The stamps of a trace never decrease (R62). -/
def stampsSorted (tr : List Event) : Bool := decide ((tr.map Event.stamp).Pairwise (· ≤ ·))

/-- Every event is stamped no later than `now`, and the stamps never decrease. -/
abbrev Stamped (s : State) : Prop := stampsSorted s.trace = true ∧ ∀ e ∈ s.trace, e.stamp ≤ s.now

/-- One event of a trace in which commands follow one another (R61): `some none` is idle, `some (some h)` runs host
`h`'s command, `none` is a trace no run of the block makes. -/
def serialStep (q : Option (Option Nat)) (e : Event) : Option (Option Nat) :=
  match q, e with
  | some _, .reset _ => some none
  | some none, .grant h _ _ => some (some h)
  | some (some h), .resp h' _ _ _ _ => if h = h' then some none else none
  | some (some h), .pin _ _ _ => some (some h)
  | some (some h), .xfer _ _ _ _ _ => some (some h)
  | some (some h), .state _ _ => some (some h)
  | some (some h), .log _ _ => some (some h)
  | _, _ => none

/-- Where a trace leaves the lock, if every event of a command lies between its Grant and its Resp. -/
def serialEnd (tr : List Event) : Option (Option Nat) := tr.foldl serialStep (some none)

/-- The transitions of `ds` (R93), a block reset apart. -/
def legalMove : DeviceState → DeviceState → Bool
  | .uninitialized, .resetting => true
  | .off, .resetting => true
  | .resetting, .poweringUp => true
  | .resetting, .configuring => true
  | .poweringUp, .configuring => true
  | .configuring, .running => true
  | .running, .resetting => true
  | .resetting, .uninitialized => true
  | .running, .muted => true
  | .muted, .running => true
  | .running, .shuttingDown => true
  | .shuttingDown, .off => true
  | .shuttingDown, .running => true
  | _, _ => false

/-- One event of a trace whose State events are legal transitions (R93); a block reset goes to Uninitialized. -/
def lifeStep (q : Option DeviceState) (e : Event) : Option DeviceState :=
  match q, e with
  | some _, .reset _ => some .uninitialized
  | some d, .state d' _ => if legalMove d d' then some d' else none
  | q, _ => q

/-- The lifecycle state a trace ends in, if all its transitions are legal. -/
def lifeEnd (tr : List Event) : Option DeviceState := tr.foldl lifeStep (some .uninitialized)

/-- The states `ds` may have between commands (R31). -/
def stable (d : DeviceState) : Bool := d == .uninitialized || d == .running || d == .off

/-- Where a trace stands with respect to brackets (R136). -/
inductive Guard where
  /-- No bank may be written. -/
  | shut
  /-- The last transaction wrote OFF to these banks' control registers. -/
  | opened (ks : List Kind)
  /-- Coefficients of this bank have been written, and its closing write has not come. -/
  | dirty (k : Kind)
deriving DecidableEq, Repr

/-- The bank of a coefficient address. -/
def kindOf (a : Byte) : Option Kind :=
  if eqAddrs.contains a then some .eq else if drcAddrs.contains a then some .drc else none

/-- The banks that a successful write opens: those whose OFF value it writes to their control register. -/
def opensBy (p : Params) (a : Byte) (v : Bytes) (ok : Bool) : List Kind :=
  [Kind.eq, Kind.drc].filter fun k => ok && a == (switchOf p k).addr && v == (switchOf p k).off

/-- One event of a trace in which every coefficient write lies in a bracket of its bank (R136): it follows an OFF write
to the bank's control register with only writes of the same bank between, and the next other transaction is a write to
that control register. `none` is a trace that breaks this. -/
def guardStep (p : Params) (q : Option Guard) (e : Event) : Option Guard :=
  match q, e with
  | none, _ => none
  | some _, .reset _ => some .shut
  | some (.dirty _), .grant _ _ _ => none
  | some (.dirty _), .resp _ _ _ _ _ => none
  | some _, .grant _ _ _ => some .shut
  | some _, .resp _ _ _ _ _ => some .shut
  | some g, .xfer .write a v ok _ =>
    match kindOf a, g with
    | some k, .opened ks => if ks.contains k then some (.dirty k) else none
    | some k, .dirty k' => if k = k' then some (.dirty k) else none
    | some _, .shut => none
    | none, .dirty k => if a = (switchOf p k).addr then some (.opened (opensBy p a v ok)) else none
    | none, _ => some (.opened (opensBy p a v ok))
  | some (.dirty _), .xfer .read _ _ _ _ => none
  | some _, .xfer .read _ _ _ _ => some .shut
  | some g, .pin _ _ _ => some g
  | some g, .state _ _ => some g
  | some g, .log _ _ => some g

/-- Where a trace leaves the brackets. -/
def guardEnd (p : Params) (tr : List Event) : Option Guard := tr.foldl (guardStep p) (some .shut)

/-- No control register of R11 lies at a coefficient address. R14 asks it of the two enable-control registers only. -/
def controlsOffBanks (p : Params) : Bool := p.regs.entries.all fun e => !isCoefficient e.addr

/-! ### Safe states -/

/-- What holds in every state a run of the block reaches: the parameters are admitted, each of `NUM_HOSTS` hosts has a
port, the lock is free or a host's, and the stage is in canonical form. -/
abbrev WellKept (s : State) : Prop :=
  s.params.admitted = true ∧ s.hosts.length = s.params.numHosts ∧
  (∀ h, s.lock = some h → h < s.hosts.length) ∧ Stage.wf s.stage = true

/-- A safe step: the machine goes on. -/
def Goes (o : Host.Outcome State Fault Refusal) : Prop := ∃ t, o = .next t

end Sys2Proof.Machine
end

