-- ==== Sys2Proof/Certificates/Slice0/Obligations.lean ====
section
/-! DEFINITION. The statements for the provers. -/

open Sys2Proof Sys2Proof.Machine

/-! ### Encoding -/

/-- The worked encodings of 30_encoding.md section 4 and of 95_test_vectors.md section 2.1, written out as words. -/
def Obligations.WorkedEncodingsDecode : Prop :=
  decode 0x00000001 = .ok .bringup ∧ decode 0x00010710 = .ok (.regRead 0x07 1) ∧
  decode 0x00000121 = .ok (.selectPreset 1) ∧ decode 0x05880022 = .ok (.patchApply 1416) ∧
  decode 0x00000120 = .ok (.setEnabled true) ∧ decode 0x00000020 = .ok (.setEnabled false) ∧
  decode 0x00000320 = .error (.reservedBits 0x20) ∧ decode 0x00000031 = .error (.unknownOpcode 0x31)

/-- Decode and encode agree on every command with every operand (30_encoding.md sections 1, 2). -/
def Obligations.DecodeInvertsEncode : Prop := ∀ i : Instr, decode (encode i) = .ok i

/-- A legal word is the one word of the command it decodes to. -/
def Obligations.EncodeInvertsDecode : Prop := ∀ (w : Word32) (i : Instr), decode w = .ok i → encode i = w

/-- R70: a word decodes to the unique row that matches it; a word no row matches completes with IllegalCommand and has
no other effect, in every state. -/
def Obligations.DecodeFindsTheUniqueRow : Prop :=
  (∀ w i, decode w = .ok i → i.row ∈ opcodeRows ∧ i.row.matchesWord w = true) ∧
  (∀ w, (∃ i, decode w = .ok i) ↔ ∃ r ∈ opcodeRows, r.matchesWord w = true) ∧
  (∀ w, ∀ r ∈ opcodeRows, ∀ r' ∈ opcodeRows, r.matchesWord w = true → r'.matchesWord w = true → r = r') ∧
  (∀ w e s, s.params.admitted = true → s.lock = none → decode w = .error e →
    ∀ h, nextCommand (agentsAct s) = some (h, w) → step s = execIllegal w (grant h w (settled s))) ∧
  (∀ w s h, Granted h s → noReset s = true → ∃ t, execIllegal w s = .next t ∧ Rejects s t h (.illegal w))

/-! ### The step -/

/-- A step runs the decoded command: a free lock grants the scheduled pending command to its host and runs it; a held
lock goes on with `cur`. -/
def Obligations.StepRunsTheDecodedCommand : Prop :=
  (∀ s h w i, s.params.admitted = true → s.lock = none → nextCommand (agentsAct s) = some (h, w) →
    decode w = .ok i → step s = exec i (grant h w (settled s))) ∧
  (∀ s h i, s.params.admitted = true → s.lock = some h → decode s.cur = .ok i → step s = exec i s) ∧
  (∀ s, s.params.admitted = true → s.lock = none → nextCommand (agentsAct s) = none →
    step s = .next (agentsAct s))

/-- A word placed as host 0's command is the one the next step grants and runs, from its first statement. -/
def Obligations.PlacedWordRunsNext : Prop :=
  ∀ (s : State) (i : Instr), s.params.admitted = true → s.hosts ≠ [] →
    let s' := s.withFetchWord 32 (encode i).toNat
    step s' = exec i (grant 0 (encode i) (settled s')) ∧ Granted 0 (grant 0 (encode i) (settled s'))

/-! ### Reset -/

/-- The reset values the spec gives, at power-on and at a later block reset (10_state.md section 9). `snap` and `cur`,
which it leaves unspecified, are not stated; no byte of the stage holds a value. -/
def Obligations.ResetLeavesTheStatedValues : Prop :=
  (∀ p, let s := State.powerOn p
    s.ds = .uninitialized ∧ s.eqEnabled = true ∧ s.eqPreset = p.cfg.initialPresetIndex ∧ s.pinRst = .z ∧
    s.pinPd = .z ∧ s.snapValid = false ∧ (∀ i, Stage.read s.stage i = none) ∧ s.lock = none ∧
    (∀ h < p.numHosts, s.hosts[h]? = some .idle) ∧ s.seqPc = 0 ∧ s.firstErr = none ∧ s.waitUntil = 0 ∧
    s.now = 0 ∧ s.trace = []) ∧
  (∀ r, let s := blockReset r
    s.ds = .uninitialized ∧ s.eqEnabled = true ∧ s.eqPreset = r.params.cfg.initialPresetIndex ∧ s.pinRst = .z ∧
    s.pinPd = .z ∧ s.snapValid = false ∧ (∀ i, Stage.read s.stage i = none) ∧ s.lock = none ∧
    (∀ h < r.params.numHosts, s.hosts[h]? = some .idle) ∧ s.seqPc = 0 ∧ s.firstErr = none ∧ s.waitUntil = 0 ∧
    s.now = r.now ∧ s.trace = r.trace ++ [.reset r.now])

/-- A block reset that comes before any micro-step abandons the command: no micro-step of its rule follows, no host
has a response, the lines are released, and the trace gains Reset events alone (70_reset_and_hazards.md section 1). -/
def Obligations.BlockResetAbandonsTheCommand : Prop :=
  ∀ s, calm s = false →
    (∀ k, microStep s k = agentsAct s) ∧ (∀ rule, run rule 0 s = agentsAct s) ∧
    (let t := agentsAct s
     t.lock = none ∧ t.ds = .uninitialized ∧ t.eqEnabled = true ∧
     t.eqPreset = s.params.cfg.initialPresetIndex ∧ t.pinRst = .z ∧ t.pinPd = .z ∧ t.snapValid = false ∧
     t.seqPc = 0 ∧ t.firstErr = none ∧ t.waitUntil = 0 ∧ s.now ≤ t.now ∧ (∀ h, respAt t h = none) ∧
     ∃ es, t.trace = s.trace ++ es ∧ es ≠ [] ∧ ∀ e ∈ es, ∃ τ, e = .reset τ ∧ s.now ≤ τ ∧ τ ≤ t.now)

/-! ### Hosts, grant, completion, abort -/

/-- A host issues where nothing of its is pending and it does not hold the lock; its word is pending, its response none,
and no event is appended (42_commit_arbiter.md section 5). Elsewhere, and for a host that does not exist, nothing is
taken: there the spec says only that the step is not enabled, and that such an act changes nothing is log 12. -/
def Obligations.IssueTakesOneCommandPerHost : Prop :=
  ∀ (s : Sys2Proof.Machine.State) (h : Nat) (w : Word32),
    (∀ p : HostPort, s.hosts[h]? = some p → p.pending = none → s.lock ≠ some h →
      let t := issue h w s
      t.hosts[h]? = some ⟨some w, none, []⟩ ∧ (∀ j : Nat, j ≠ h → t.hosts[j]? = s.hosts[j]?) ∧
      t.trace = s.trace ∧ t.lock = s.lock ∧ t.ds = s.ds) ∧
    (∀ p : HostPort, s.hosts[h]? = some p → p.pending ≠ none ∨ s.lock = some h → issue h w s = s) ∧
    (s.hosts[h]? = none → issue h w s = s)

/-- The grant goes to a pending host, and every pending host is the choice of some schedule; granting moves the word
from `pending` to `cur` and clears `first_err` and `seq_pc` (42_commit_arbiter.md section 5). -/
def Obligations.GrantServesAnyPendingHost : Prop :=
  ∀ (s : Sys2Proof.Machine.State) (h : Nat) (w : Word32),
    (nextCommand s = some (h, w) → ∃ p : HostPort, s.hosts[h]? = some p ∧ p.pending = some w) ∧
    (∀ p : HostPort, s.hosts[h]? = some p → p.pending = some w →
      ∃ n : Nat, nextCommand { s with env := { s.env with picks := [n] } } = some (h, w)) ∧
    (nextCommand s = none ↔ ∀ p ∈ s.hosts, p.pending = none) ∧
    (∀ p : HostPort, s.hosts[h]? = some p →
      let t := grant h w s
      t.lock = some h ∧ t.cur = w ∧ t.hosts[h]? = some { p with pending := none } ∧
      (∀ j : Nat, j ≠ h → t.hosts[j]? = s.hosts[j]?) ∧ t.firstErr = none ∧ t.seqPc = 0 ∧
      t.trace = s.trace ++ [.grant h w s.now] ∧ t.waitUntil = s.waitUntil ∧ t.ds = s.ds)

/-- Completion is one micro-step at or after `wait_until`; it writes the response from `first_err`, appends Resp and frees
the lock. A command comes to it when its rule returns, or after a raise has run its recovery step, if it has one, and its
Log (42_commit_arbiter.md section 5). The response word and the eleven status codes are those of 30_encoding.md
section 3. That the recovery step and the Log are micro-steps of their own is log 20. -/
def Obligations.CompletionWritesTheResponse : Prop :=
  (∀ s, run [] 0 s = microStep s complete) ∧
  (∀ e s, abort none e s = microStep s fun s => run [] 0 (logErr e s)) ∧
  (∀ d e s, abort (some d) e s = microStep s fun s => microStep (setState d s) fun s => run [] 0 (logErr e s)) ∧
  (∀ s, calm s = true → s.waitUntil ≤ (settled s).now) ∧
  (∀ s h, s.lock = some h → h < s.hosts.length →
    let r : Response := match s.firstErr with
      | some e => ⟨e.code, e.info, []⟩
      | none => ⟨.ok, 0, s.scratch.data⟩
    respAt (complete s) h = some r ∧ (complete s).lock = none ∧
    (complete s).trace = s.trace ++ [.resp h r.status r.info r.data s.now] ∧
    (complete s).ds = s.ds ∧ (∀ j, j ≠ h → (complete s).hosts[j]? = s.hosts[j]?)) ∧
  (∀ r : Response, r.word.extractLsb' 16 16 = r.info ∧ r.word.extractLsb' 4 12 = 0 ∧
    r.word.extractLsb' 0 4 = r.status.code) ∧
  ([.ok, .transportError, .configurationError, .patchParseError, .sequenceError, .lengthMismatchError, .indexError,
    .notFound, .illegalCommand, .stateError, .protectedAddress] : List Status).map Status.code =
    [0x0, 0x1, 0x2, 0x3, 0x4, 0x5, 0x6, 0x7, 0x8, 0x9, 0xA]

/-- A raise runs the recovery step if its rule names one, logs, and completes with the first error; it undoes nothing
and changes nothing else (60_exceptions.md section 3). -/
def Obligations.AbortLogsAndCompletes : Prop :=
  ∀ s h e d, s.lock = some h → h < s.hosts.length → noReset s = true →
    let f := (s.firstErr.or (some e)).getD e
    (let t := abort none e s
     OnlyResponds s t ∧ respAt t h = some ⟨f.code, f.info, []⟩ ∧
     TraceGains s t [.log e 0, .resp h f.code f.info [] 0]) ∧
    (let t := abort (some d) e s
     t.ds = d ∧ t.lock = none ∧ t.eqEnabled = s.eqEnabled ∧ t.eqPreset = s.eqPreset ∧ t.pinRst = s.pinRst ∧
     t.pinPd = s.pinPd ∧ t.snapValid = s.snapValid ∧ t.snap = s.snap ∧
     respAt t h = some ⟨f.code, f.info, []⟩ ∧
     TraceGains s t [.state d 0, .log e 0, .resp h f.code f.info [] 0])

/-- R94: a command in a state the table does not allow raises StateError with info `ds` and has no other effect; in an
allowed state it never reports StateError; STATUS is allowed everywhere, and an illegal word is not checked. -/
def Obligations.AdmissibilityGatesEveryCommand : Prop :=
  (∀ d, (admits .bringup d = true ↔ d = .uninitialized ∨ d = .off) ∧
        (admits .resume d = true ↔ d = .uninitialized ∨ d = .off) ∧ admits .status d = true) ∧
  (∀ i d, i ≠ .bringup → i ≠ .resume → i ≠ .status → (admits i d = true ↔ d = .running)) ∧
  (∀ i s h, Granted h s → noReset s = true → admits i s.ds = false →
    ∃ t, exec i s = .next t ∧ Rejects s t h (.state s.ds)) ∧
  (∀ i s h t r, Granted h s → Undisturbed s → admits i s.ds = true → exec i s = .next t →
    respAt t h = some r → r.status ≠ .stateError) ∧
  (∀ w s h, Granted h s → noReset s = true → ∃ t, execIllegal w s = .next t ∧ Rejects s t h (.illegal w))

/-! ### PSEQ -/

/-- R19: the level of a line from its polarity. -/
def Obligations.LevelFollowsPolarity : Prop :=
  ∀ p a, (lineLevel p .rst a = if a = p.cfg.rstActiveHigh then true else false) ∧
    (lineLevel p .pd a = if a = p.cfg.pdActiveHigh then true else false)

/-- R81: PowerUp, as any rule runs it: four pin events in order with their waits, or with unbound pins a Log alone. -/
def Obligations.PowerUpDrivesFourPinEvents : Prop :=
  ∀ s rest, noReset s = true →
    let p := s.params
    ∃ t, run (powerUp p ++ rest) 0 s = run rest 0 t ∧ noReset t = true ∧ t.params = p ∧
      t.trace = s.trace ++ newEvents s t ∧
      (pinsBound p = true →
        ∃ t₁ t₂ t₃ t₄ t₅,
          newEvents s t =
            [.pin .pd (lineLevel p .pd true) t₁, .pin .rst (lineLevel p .rst true) t₂, .state .poweringUp t₃,
             .pin .pd (lineLevel p .pd false) t₄, .pin .rst (lineLevel p .rst false) t₅] ∧
          s.now ≤ t₁ ∧ t₁ + 1000 ≤ t₂ ∧ t₂ + 1000 ≤ t₃ ∧ t₃ ≤ t₄ ∧ t₄ + 10000 ≤ t₅ ∧ t₅ + 15000 ≤ t.waitUntil ∧
          t.ds = .poweringUp ∧ t.pinPd = .driven (lineLevel p .pd false) ∧
          t.pinRst = .driven (lineLevel p .rst false)) ∧
      (pinsBound p = false →
        (∃ t₁, newEvents s t = [.log .seqPowerUp t₁]) ∧ t.ds = s.ds ∧ t.pinPd = s.pinPd ∧ t.pinRst = s.pinRst ∧
        t.waitUntil = s.waitUntil)

/-- SHUTDOWN in Running with the pins bound and no failure: the stop write, the two pin events with their waits, Off. -/
def Obligations.ShutdownPowersTheChipDown : Prop :=
  ∀ s h, Granted h s → Smooth s → s.ds = .running → pinsBound s.params = true →
    let p := s.params
    ∃ t t₀ t₁ t₂ t₃ t₄ t₅, exec .shutdown s = .next t ∧ t.ds = .off ∧ t.lock = none ∧
      t.pinRst = .driven (lineLevel p .rst true) ∧ t.pinPd = .driven (lineLevel p .pd true) ∧
      respAt t h = some ⟨.ok, 0, []⟩ ∧
      t.trace = s.trace ++
        [.state .shuttingDown t₀, .xfer .write p.regs.stop.addr p.regs.stop.val true t₁,
         .pin .rst (lineLevel p .rst true) t₂, .pin .pd (lineLevel p .pd true) t₃, .state .off t₄,
         .resp h .ok 0 [] t₅] ∧
      t₁ + 170000 ≤ t₂ ∧ t₂ + 5 ≤ t₃

/-- SHUTDOWN, and SUSPEND after its snapshot, whose stop write fails: no pin event, `ds` back to Running, TransportError
(the one recovery step). The snapshot SUSPEND took stands. -/
def Obligations.ShutdownRecoversFromAFailedStop : Prop :=
  (∀ s h, Granted h s → noReset s = true → nextAnswer s = .fail → s.ds = .running → pinsBound s.params = true →
    let p := s.params
    let e := Err.transport p.regs.stop.addr
    ∃ t, exec .shutdown s = .next t ∧ t.ds = .running ∧ t.lock = none ∧ t.pinRst = s.pinRst ∧ t.pinPd = s.pinPd ∧
      respAt t h = some ⟨e.code, e.info, []⟩ ∧
      TraceGains s t
        [.state .shuttingDown 0, .failed p.regs.stop.addr p.regs.stop.val, .state .running 0, .log e 0,
         .resp h e.code e.info [] 0]) ∧
  (∀ s h b₀ b₁ b₂ b₃ rest, Granted h s → noReset s = true → s.ds = .running → pinsBound s.params = true →
    s.env.device = .ok [b₀] :: .ok [b₁] :: .ok [b₂] :: .ok [b₃] :: .fail :: rest →
    let p := s.params
    let e := Err.transport p.regs.stop.addr
    ∃ t, exec .suspend s = .next t ∧ t.ds = .running ∧ t.lock = none ∧ t.pinRst = s.pinRst ∧ t.pinPd = s.pinPd ∧
      t.snap = #v[b₀, b₁, b₂, b₃] ∧ t.snapValid = true ∧ respAt t h = some ⟨e.code, e.info, []⟩ ∧
      TraceGains s t
        [.xfer .read p.regs.vol[0].addr [b₀] true 0, .xfer .read p.regs.vol[1].addr [b₁] true 0,
         .xfer .read p.regs.vol[2].addr [b₂] true 0, .xfer .read p.regs.vol[3].addr [b₃] true 0,
         .state .shuttingDown 0, .failed p.regs.stop.addr p.regs.stop.val, .state .running 0, .log e 0,
         .resp h e.code e.info [] 0])

/-- With an unbound pin SHUTDOWN, SUSPEND and RST_PULSE do nothing and report SequenceError. -/
def Obligations.UnboundPinsMakeNoSequence : Prop :=
  ∀ s h, Granted h s → noReset s = true → s.ds = .running → pinsBound s.params = false →
    (∃ t, exec .shutdown s = .next t ∧ Rejects s t h ⟨.sequenceError, 2⟩) ∧
    (∃ t, exec .suspend s = .next t ∧ Rejects s t h ⟨.sequenceError, 2⟩) ∧
    (∃ t, exec .rstPulse s = .next t ∧ Rejects s t h ⟨.sequenceError, 3⟩)

/-- RST_PULSE in Running with the pins bound: RST asserted for 11 ms and released for 15 ms, then Uninitialized. PD,
`eq_enabled`, `eq_preset` and the snapshot are kept. -/
def Obligations.RstPulsePulsesTheResetLine : Prop :=
  ∀ s h, Granted h s → noReset s = true → s.ds = .running → pinsBound s.params = true →
    let p := s.params
    ∃ t t₀ t₁ t₂ t₃ t₄, exec .rstPulse s = .next t ∧ t.ds = .uninitialized ∧ t.lock = none ∧
      t.pinRst = .driven (lineLevel p .rst false) ∧ t.pinPd = s.pinPd ∧ t.eqEnabled = s.eqEnabled ∧
      t.eqPreset = s.eqPreset ∧ t.snapValid = s.snapValid ∧ t.snap = s.snap ∧
      respAt t h = some ⟨.ok, 0, []⟩ ∧
      t.trace = s.trace ++
        [.state .resetting t₀, .pin .rst (lineLevel p .rst true) t₁, .pin .rst (lineLevel p .rst false) t₂,
         .state .uninitialized t₃, .resp h .ok 0 [] t₄] ∧
      t₁ + 11000 ≤ t₂ ∧ t₂ + 15000 ≤ t₃ ∧ t₂ + 15000 ≤ t₄

/-- SUSPEND in Running with the pins bound: the four volumes read into the snapshot, then the shutdown sequence with its
waits. -/
def Obligations.SuspendTakesTheSnapshot : Prop :=
  ∀ s h b₀ b₁ b₂ b₃ b₄ rest, Granted h s → noReset s = true → s.ds = .running → pinsBound s.params = true →
    s.env.device = .ok [b₀] :: .ok [b₁] :: .ok [b₂] :: .ok [b₃] :: .ok b₄ :: rest →
    let p := s.params
    ∃ t t₀ t₁ t₂ t₃ t₄ t₅ t₆ t₇ t₈ t₉, exec .suspend s = .next t ∧ t.snap = #v[b₀, b₁, b₂, b₃] ∧
      t.snapValid = true ∧ t.ds = .off ∧ t.lock = none ∧ t.pinRst = .driven (lineLevel p .rst true) ∧
      t.pinPd = .driven (lineLevel p .pd true) ∧ respAt t h = some ⟨.ok, 0, []⟩ ∧
      t.trace = s.trace ++
        [.xfer .read p.regs.vol[0].addr [b₀] true t₀, .xfer .read p.regs.vol[1].addr [b₁] true t₁,
         .xfer .read p.regs.vol[2].addr [b₂] true t₂, .xfer .read p.regs.vol[3].addr [b₃] true t₃,
         .state .shuttingDown t₄, .xfer .write p.regs.stop.addr p.regs.stop.val true t₅,
         .pin .rst (lineLevel p .rst true) t₆, .pin .pd (lineLevel p .pd true) t₇, .state .off t₈,
         .resp h .ok 0 [] t₉] ∧
      t₅ + 170000 ≤ t₆ ∧ t₆ + 5 ≤ t₇

/-- SUSPEND whose k-th volume read fails: TransportError, with the snapshot, the pins and `ds` unchanged. -/
def Obligations.SuspendReadFailureChangesNothing : Prop :=
  ∀ s h (bs : Bytes) rest (hk : bs.length < 4), Granted h s → noReset s = true → s.ds = .running →
    pinsBound s.params = true → s.env.device = bs.map (fun b => .ok [b]) ++ .fail :: rest →
    let p := s.params
    let e := Err.transport p.regs.vol[bs.length].addr
    ∃ t, exec .suspend s = .next t ∧ OnlyResponds s t ∧ respAt t h = some ⟨e.code, e.info, []⟩ ∧
      TraceGains s t
        ((List.zipWith (fun (r : CtlReg) b => Event.xfer .read r.addr [b] true 0) p.regs.vol.toList bs) ++
         [.xfer .read p.regs.vol[bs.length].addr [] false 0, .log e 0, .resp h e.code e.info [] 0])

/-- R100: BRINGUP and RESUME complete with `ds` Running whatever the Device answers and whatever the configuration; the
response is the first error logged, or OK; configuration and transport errors have codes of their own. And a CW write
that fails is logged as TransportError of its address and stops nothing, in any rule; where one CW write of a bring-up or
of RESUME's restore alone fails, every other event is that of the run in which none does (R85, R104). -/
def Obligations.BringupAlwaysEndsRunning : Prop :=
  (∀ i s h, i = .bringup ∨ i = .resume → Granted h s → Undisturbed s → admits i s.ds = true →
    ∃ t, exec i s = .next t ∧ t.ds = .running ∧ t.lock = none ∧ t.trace = s.trace ++ newEvents s t ∧
      respAt t h = some (responseTo [] (newEvents s t))) ∧
  (∀ a i, (Err.transport a).code.code = 0x1 ∧ Err.configDrc.code.code = 0x2 ∧ (Err.configEq i).code.code = 0x2 ∧
    Err.configMux.code.code = 0x2) ∧
  (∀ a v s rest, noReset s = true → s.scratch.outstanding = false →
    ((∃ b, nextAnswer s = .ok b) → ∃ t, run (cw a v :: rest) 0 s = run rest 0 t ∧ TraceGains s t [.wrote a v] ∧
      t.ds = s.ds) ∧
    (nextAnswer s = .fail → ∃ t, run (cw a v :: rest) 0 s = run rest 0 t ∧ TraceGains s t (failedCw a v) ∧
      t.ds = s.ds)) ∧
  (∀ i s h pre a v post es (oks later : List Bytes), i = .bringup ∨ i = .resume → Granted h s → noReset s = true →
    admits i s.ds = true → s.env.device = oks.map .ok ++ .fail :: later.map .ok → s.env.thereafter.isOk = true →
    (bringupBefore s = pre ++ .wrote a v :: post ∧ oks.length = pre.countP Event.isWrite ∧
      es = pre ++ failedCw a v ++ post ++ bringupBanks s ++ bringupAfter i s) ∨
    (bringupAfter i s = pre ++ .wrote a v :: post ∧
      oks.length = (bringupBefore s ++ bringupBanks s ++ pre).countP Event.isWrite ∧
      es = bringupBefore s ++ bringupBanks s ++ pre ++ failedCw a v ++ post) →
    let r := responseTo [] es
    ∃ t, exec i s = .next t ∧ t.ds = .running ∧ t.lock = none ∧ respAt t h = some r ∧
      TraceGains s t (es ++ [.resp h r.status r.info r.data 0]))

/-- A bring-up in which no transaction fails: its events in order, with every address and byte string; the 50 ms after
the oscillator trim and the 170 ms after the exit-shutdown write; the lines deasserted at the end; and the counts of its
transactions and pin events (40_power_sequencer.md sections 1, 2, 4, 5). -/
def Obligations.BringupTransactionCounts : Prop :=
  ∀ i s h, i = .bringup ∨ i = .resume → Granted h s → Smooth s → admits i s.ds = true →
    let p := s.params
    let r := responseTo [] (bringupStart s ++ bringupMiddle s)
    let banks := (if p.cfg.drcEnable && (platformDrc p).isSome then 14 else 0) +
      (if p.cfg.eqEnable && (platformEq p s.eqPreset).isSome then 20 else 0) +
      (if p.cfg.initMux.any (·.length == 4) then 1 else 0)
    ∃ t es₁ es₂ es₃, exec i s = .next t ∧ t.trace = s.trace ++ (es₁ ++ es₂ ++ es₃) ∧
      es₁.map Event.untimed = bringupStart s ∧ es₂.map Event.untimed = bringupMiddle s ∧
      es₃.map Event.untimed = bringupEnd p ++ (if i = .resume then restoreEvents s else []) ++
        [.resp h r.status r.info r.data 0] ∧
      apart 50000 es₁ es₂ ∧ apart 170000 es₂ es₃ ∧
      t.ds = .running ∧ t.lock = none ∧ respAt t h = some r ∧
      t.pinRst = (if pinsBound p then .driven (lineLevel p .rst false) else s.pinRst) ∧
      t.pinPd = (if pinsBound p then .driven (lineLevel p .pd false) else s.pinPd) ∧
      (newEvents s t).countP Event.isWrite = 18 + banks + (if i = .resume ∧ s.snapValid = true then 4 else 0) ∧
      (newEvents s t).countP Event.isXfer = (newEvents s t).countP Event.isWrite ∧
      18 ≤ 18 + banks ∧ 18 + banks ≤ 53 ∧
      (newEvents s t).countP Event.isPin = (if pinsBound p then 4 else 0) ∧
      (configGroup1 p).countP Micro.isWrite = 8 ∧ (configGroup2 p).countP Micro.isWrite = 5 ∧
      (runningEntry p).countP Micro.isWrite = 5

/-- R102: the least time from Grant to Resp; and there is no greatest: time may pass before any micro-step. -/
def Obligations.CommandsTakeTheirMinimumTime : Prop :=
  (∀ i s h t, Granted h s → Undisturbed s → exec i s = .next t →
    (∃ c n d, t.trace.getLast? = some (.resp h c n d t.now)) ∧ s.now ≤ t.now ∧
    (i = .bringup ∨ i = .resume → admits i s.ds = true →
      s.now + (if pinsBound s.params then 247000 else 220000) ≤ t.now) ∧
    (i = .shutdown ∨ i = .suspend → respAt t h = some ⟨.ok, 0, []⟩ → s.now + 170005 ≤ t.now) ∧
    (i = .rstPulse → respAt t h = some ⟨.ok, 0, []⟩ → s.now + 26000 ≤ t.now)) ∧
  (∀ i s h n, Granted h s →
    ∃ t, exec i { s with env := { s.env with world := [[.tick n]] } } = .next t ∧ s.now + n ≤ t.now)

/-- RESUME is the bring-up and then the four restore writes, so that the snapshot wins, and keeps the snapshot; with no
snapshot it behaves exactly as BRINGUP. -/
def Obligations.ResumeRestoresTheSnapshot : Prop :=
  (∀ s h, Granted h s → Smooth s → admits .resume s.ds = true → s.snapValid = true →
    let p := s.params
    ∃ t b pre, exec .resume s = .next t ∧ t.snapValid = true ∧ t.snap = s.snap ∧
      exec .bringup s = .next b ∧ (newEvents s b).map Event.untimed =
        pre ++ [(let r := responseTo [] pre; .resp h r.status r.info r.data 0)] ∧
      TraceGains s t (pre ++
        [.wrote p.regs.vol[0].addr [s.snap[0]], .wrote p.regs.vol[1].addr [s.snap[1]],
         .wrote p.regs.vol[2].addr [s.snap[2]], .wrote p.regs.vol[3].addr [s.snap[3]],
         (let r := responseTo [] pre; .resp h r.status r.info r.data 0)])) ∧
  (∀ s, s.snapValid = false → exec .resume s = exec .bringup s)

/-! ### XPORT -/

/-- REG_READ of a valid address with its width: one transaction, whose bytes are the response data; a failed one is
TransportError. Nothing of the block changes. -/
def Obligations.RegReadReturnsTheBytesRead : Prop :=
  ∀ s h a l w, Granted h s → noReset s = true → s.ds = .running → regmap s.params a = some w → l.toNat = w →
    (∀ b rest, s.env.device = .ok b :: rest → b.length = w →
      ∃ t, exec (.regRead a l) s = .next t ∧ OnlyResponds s t ∧ respAt t h = some ⟨.ok, 0, b⟩ ∧
        TraceGains s t [.xfer .read a b true 0, .resp h .ok 0 b 0]) ∧
    (nextAnswer s = .fail →
      ∃ t, exec (.regRead a l) s = .next t ∧ OnlyResponds s t ∧
        respAt t h = some ⟨.transportError, a.setWidth 16, []⟩ ∧
        TraceGains s t
          [.xfer .read a [] false 0, .log (.transport a) 0, .resp h .transportError (a.setWidth 16) [] 0])

/-- The checks of REG_READ and REG_WRITE, in their order, each before any transaction. -/
def Obligations.RegisterCommandsCheckTheirOperands : Prop :=
  ∀ s h a l, Granted h s → noReset s = true → s.ds = .running →
    (regmap s.params a = none →
      (∃ t, exec (.regRead a l) s = .next t ∧ Rejects s t h ⟨.notFound, a.setWidth 16⟩) ∧
      (∃ t, exec (.regWrite a l) s = .next t ∧ Rejects s t h ⟨.notFound, a.setWidth 16⟩)) ∧
    (∀ w, regmap s.params a = some w → l.toNat ≠ w →
      (∃ t, exec (.regRead a l) s = .next t ∧ Rejects s t h ⟨.lengthMismatchError, l⟩) ∧
      (∃ t, exec (.regWrite a l) s = .next t ∧ Rejects s t h ⟨.lengthMismatchError, l⟩)) ∧
    (regmap s.params a = some l.toNat → isProtected s.params a = true →
      ∃ t, exec (.regWrite a l) s = .next t ∧ Rejects s t h ⟨.protectedAddress, a.setWidth 16⟩)

/-- REG_WRITE of an unprotected address with its width writes the stage bytes in index order; a failed write is
TransportError. -/
def Obligations.RegWriteWritesTheStage : Prop :=
  ∀ s h a l (v : Bytes), Granted h s → onlyTime s = true → s.ds = .running →
    regmap s.params a = some l.toNat → isProtected s.params a = false → v.length = l.toNat →
    (∀ k < v.length, stageValue s k = v[k]?) →
    ((∃ b, nextAnswer s = .ok b) →
      ∃ t, exec (.regWrite a l) s = .next t ∧ OnlyResponds s t ∧ respAt t h = some ⟨.ok, 0, []⟩ ∧
        TraceGains s t [.wrote a v, .resp h .ok 0 [] 0]) ∧
    (nextAnswer s = .fail →
      ∃ t, exec (.regWrite a l) s = .next t ∧ OnlyResponds s t ∧
        respAt t h = some ⟨.transportError, a.setWidth 16, []⟩ ∧
        TraceGains s t [.failed a v, .log (.transport a) 0, .resp h .transportError (a.setWidth 16) [] 0])

/-- A raw write never reaches a protected address, whatever the Device and the other agents do. -/
def Obligations.RegWriteSparesProtectedAddresses : Prop :=
  ∀ s h a l t, Granted h s → exec (.regWrite a l) s = .next t →
    ∀ q ∈ writesOf (newEvents s t), isProtected s.params q.1 = false

/-- A transaction that the Device does not answer, a read or a write, stops the command where it stands: the step in
which the Device falls silent, and each step after it, leaves the lock held, `seq_pc`, `ds` and the trace as they are,
until a block reset (41_transport.md section 1). That the Device is a script that may say silent is log 3, and that a
transaction without an answer leaves no event is log 17. -/
def Obligations.SilentDeviceHoldsTheCommand : Prop :=
  ∀ s m rest, noReset s = true → (∃ a v f, m = .write a v f) ∨ (∃ a n, m = .read a n) →
    s.scratch.outstanding = true ∨ nextAnswer s = .silent →
    let t := run (m :: rest) 0 s
    t.lock = s.lock ∧ t.seqPc = s.seqPc ∧ t.trace = s.trace ∧ t.ds = s.ds ∧ t.scratch.outstanding = true

/-- A transaction moves one whole register: every transaction of a step has the width of the register it names, and a
failed read no bytes (20_memory.md R51, R55; 00_scope.md R23, R24). -/
def Obligations.TransactionsMoveWholeRegisters : Prop :=
  ∀ s t, s.params.admitted = true → s.lock = none → step s = .next t → ∀ e ∈ newEvents s t, e.fits s.params = true

/-- R111: a volume byte stands for `24 - v/2` dB, exact in half-dB steps. R112: the two fields of a clock-control byte,
and the only names any source gives. -/
def Obligations.VolumeAndClockDecode : Prop :=
  (∀ v : Byte, volumeHalfDb v = 48 - (v.toNat : Int)) ∧ volumeHalfDb 0 = 48 ∧ volumeHalfDb 0x30 = 0 ∧
  volumeHalfDb 0x31 = -1 ∧ volumeHalfDb 0xFF = -207 ∧
  (∀ (v : Byte) (k : Nat), k < 3 →
    (clockFs v).getLsbD k = v.getLsbD (5 + k) ∧ (clockRatio v).getLsbD k = v.getLsbD (2 + k)) ∧
  (∀ c, sampleRateOf c = some .r44k1or48k ↔ c = 0b011) ∧ (∀ c, mclkRatioOf c = some .fs256 ↔ c = 0b011) ∧
  (∀ c, mclkRatioOf c = some .fs512 ↔ c = 0b101) ∧
  sampleRateOf (clockFs 0x6C) = some .r44k1or48k ∧ mclkRatioOf (clockRatio 0x6C) = some .fs256 ∧
  sampleRateOf (clockFs 0x74) = some .r44k1or48k ∧ mclkRatioOf (clockRatio 0x74) = some .fs512

/-! ### The staging buffer -/

/-- R53: a host writes any stage byte at any time; that byte then holds the value, every other byte is as before, and
the block makes no event. -/
def Obligations.StageWritePortSetsOneByte : Prop :=
  ∀ s i v, Stage.wf s.stage = true →
    let t := applyAct (.stageWrite i v) s
    Stage.read t.stage i.toNat = some v ∧ (∀ j, j ≠ i.toNat → Stage.read t.stage j = Stage.read s.stage j) ∧
    t.trace = s.trace ∧ Stage.wf t.stage = true

/-- A stage byte written after the issue of the running command, or never written, is read as a free draw; every other
byte as the value last written (20_memory.md section 3). The values of the draws are the model's free values (log 6). -/
def Obligations.RacedStageBytesAreUnconstrained : Prop :=
  (∀ (s : Sys2Proof.Machine.State) (i : StageIx) (v : Byte) (h : Nat) (p : HostPort), s.hosts[h]? = some p →
    (s.lock = some h → i ∈ racedNow (hostStageWrite i v s)) ∧
    (p.pending ≠ none → ∃ q : HostPort, (hostStageWrite i v s).hosts[h]? = some q ∧ q.raced = i :: p.raced)) ∧
  (∀ s (i : StageIx), i ∈ racedNow s → (stageByte i.toNat s).1 = Config.freeByte s.env.draws) ∧
  (∀ s i, Stage.read s.stage i = none → (stageByte i s).1 = Config.freeByte s.env.draws) ∧
  (∀ s i b, (∀ r ∈ racedNow s, r.toNat ≠ i) → Stage.read s.stage i = some b → stageByte i s = (b, s))

/-- A line of the assembler assembles to its command, with `L` the width of a REG_READ's register or the length of a
payload, and the expansions give the words of the table; the text of a line is read as that line; and what a host does to
run it leaves the payload in the stage and the word pending, with no byte raced (30_encoding.md section 4). That hex digits
have either case, that a quoted text ends at the next quote and may hold a `;`, that a payload may be empty, and that
a line holding a comment alone is taken and stands for no line, is log 18. -/
def Obligations.AssembledLineIssuesItsCommand : Prop :=
  (∀ p, AsmLine.bringup.command p = some .bringup ∧ AsmLine.shutdown.command p = some .shutdown ∧
    AsmLine.rstPulse.command p = some .rstPulse ∧ AsmLine.suspend.command p = some .suspend ∧
    AsmLine.resume.command p = some .resume ∧ AsmLine.status.command p = some .status ∧
    AsmLine.eqdrcOn.command p = some (.setEnabled true) ∧ AsmLine.eqdrcOff.command p = some (.setEnabled false)) ∧
  (∀ p e, (AsmLine.setEnabled e).command p = some (.setEnabled e)) ∧
  (∀ p k, (AsmLine.selectPreset k).command p = some (.selectPreset k)) ∧
  (∀ p a, (AsmLine.regRead a).command p = some (.regRead a (BitVec.ofNat 16 ((regmap p a).getD 0))) ∧
    ∀ w, regmap p a = some w → (BitVec.ofNat 16 w).toNat = w) ∧
  (∀ p a (b : Bytes), b.length ≤ 4096 →
    ∃ l, (AsmLine.regWrite a b).command p = some (.regWrite a l) ∧ l.toNat = b.length ∧
      (encode (.regWrite a l)).toNat = 0x11 + 256 * a.toNat + 65536 * b.length) ∧
  (∀ p (t : Bytes), t.length ≤ 4096 →
    ∃ l, (AsmLine.patchApply t).command p = some (.patchApply l) ∧ l.toNat = t.length ∧
      (encode (.patchApply l)).toNat = 0x22 + 65536 * t.length) ∧
  (∀ p, (AsmLine.eqdrcOn.command p).map encode = some 0x00000120 ∧
    (AsmLine.eqdrcOff.command p).map encode = some 0x00000020) ∧
  (∀ texts, asmParse texts (ascii "BRINGUP") = some (some .bringup) ∧
    asmParse texts (ascii "SHUTDOWN") = some (some .shutdown) ∧
    asmParse texts (ascii "RST_PULSE") = some (some .rstPulse) ∧
    asmParse texts (ascii "SUSPEND") = some (some .suspend) ∧
    asmParse texts (ascii "RESUME") = some (some .resume) ∧ asmParse texts (ascii "STATUS") = some (some .status) ∧
    asmParse texts (ascii "EQDRC_ON") = some (some .eqdrcOn) ∧
    asmParse texts (ascii "EQDRC_OFF") = some (some .eqdrcOff) ∧
    asmParse texts (ascii "SET_ENABLED 0") = some (some (.setEnabled false)) ∧
    asmParse texts (ascii "SET_ENABLED 1") = some (some (.setEnabled true)) ∧
    asmParse texts (ascii "SELECT_PRESET 255") = some (some (.selectPreset 255)) ∧
    asmParse texts (ascii "REG_WRITE 0x07, 30 AB") = some (some (.regWrite 0x07 [0x30, 0xAB]))) ∧
  (∀ texts c d m n, IsDigit c m → IsDigit d n →
    asmParse texts (ascii "REG_READ 0x" ++ [c, d]) = some (some (.regRead (BitVec.ofNat 8 (m * 16 + n))))) ∧
  (∀ texts (t : Bytes), 0x22 ∉ t →
    asmParse texts (ascii "PATCH_APPLY " ++ 0x22 :: t ++ [0x22]) = some (some (.patchApply t))) ∧
  (∀ texts t, asmParse texts (ascii ";" ++ t) = some none) ∧
  (∀ p h (l : AsmLine) acts s, l.acts p h = some acts → issueReady s h = true → Stage.wf s.stage = true →
    let t := applyActs acts s
    (∃ i q, l.command p = some i ∧ t.hosts[h]? = some q ∧ q.pending = some (encode i) ∧ q.resp = none ∧
      q.raced = []) ∧
    (∀ k < l.payload.length, Stage.read t.stage k = l.payload[k]?) ∧ t.trace = s.trace)

/-! ### Images and the bracket -/

/-- R119: the images of a bank, put together in ascending address order, give back the bytes they were made of. -/
def Obligations.ImagesRoundTrip : Prop :=
  (∀ blob : Bytes, blob.length = 360 → ∃ img, loadEq blob = some img ∧
    (img.map Prod.fst).Pairwise (fun a b => a.toNat < b.toNat) ∧ (img.map Prod.snd).flatten = blob) ∧
  (∀ main tko : Bytes, main.length = 24 → tko.length = 12 → ∃ img, loadDrc main tko = some img ∧
    (img.map Prod.fst).Pairwise (fun a b => a.toNat < b.toNat) ∧ img.map Prod.fst = drcAddrs ∧
    ((img.take 3).map Prod.snd).flatten = main ∧ (((img.drop 3).take 3).map Prod.snd).flatten = main ∧
    (((img.drop 6).take 3).map Prod.snd).flatten = tko ∧ ((img.drop 9).map Prod.snd).flatten = tko)

/-- Every block of every image has its register's width: `len(bytes) = REGMAP(address)`. -/
def Obligations.ImageBlocksFitTheirRegisters : Prop :=
  ∀ p : Params,
    (∀ blob img, loadEq blob = some img → ∀ q ∈ img, regmap p q.1 = some q.2.length) ∧
    (∀ main tko img, loadDrc main tko = some img → ∀ q ∈ img, regmap p q.1 = some q.2.length) ∧
    (∀ text img, parsePatch text = .ok img → img.map Prod.fst = patchMarkers ∧
      ∀ q ∈ img, regmap p q.1 = some q.2.length)

/-- R120: a bank that fails a check is rejected with no transaction of its commit: in bring-up, in SELECT_PRESET and in
PATCH_APPLY. -/
def Obligations.RejectedBankMakesNoTransaction : Prop :=
  (∀ s rest, noReset s = true → platformDrc s.params = none →
    ∃ t τ, run (drcAtBringup s.params ++ rest) 0 s = run rest 0 t ∧
      t.trace = s.trace ++ [.log .configDrc τ] ∧ t.ds = s.ds) ∧
  (∀ s i rest, noReset s = true → platformEq s.params i = none →
    ∃ t τ, run (eqAtBringup s.params i ++ rest) 0 s = run rest 0 t ∧
      t.trace = s.trace ++ [.log (.configEq i) τ] ∧ t.ds = s.ds) ∧
  (∀ s h a q, Granted h s → noReset s = true → s.ds = .running → s.params.cfg.presets[a.toNat]? = some q →
    q.blob.length ≠ 360 → ∃ t, exec (.selectPreset a) s = .next t ∧ Rejects s t h (.configEq a)) ∧
  (∀ s h l a, Granted h s → onlyTime s = true → s.ds = .running → 1 ≤ l.toNat → l.toNat ≤ 4096 →
    parsePatch (stageRead 0 l.toNat s).1 = .error a →
    ∃ t, exec (.patchApply l) s = .next t ∧ Rejects s t h (.patchParse a))

/-- R123: the transactions of a bracket over an image of n writes, with no failure, with a failed disable write, and
with a failed image write i; n is 18 for EQ and 12 for DRC. -/
def Obligations.BracketShape : Prop :=
  (∀ s k img rest, Smooth s →
    ∃ t, run (bracket s.params k img ++ rest) 0 s = run rest 0 t ∧ t.trace = s.trace ++ newEvents s t ∧
      writesOf (newEvents s t) = bracketWrites s k (img.map fun q => (q.1, q.2.bytes s)) ∧
      (newEvents s t).countP Event.isXfer = img.length + 2) ∧
  (∀ s k img rest, Undisturbed s → nextAnswer s = .fail →
    ∃ t, run (bracket s.params k img ++ rest) 0 s = run rest 0 t ∧ t.trace = s.trace ++ newEvents s t ∧
      writesOf (newEvents s t) = bracketWrites s k [] ∧ (newEvents s t).countP Event.isXfer = 2) ∧
  (∀ s k img rest i (oks : List Bytes) later, Undisturbed s → i < img.length → oks.length = i + 1 →
    s.env.device = oks.map .ok ++ .fail :: later →
    ∃ t, run (bracket s.params k img ++ rest) 0 s = run rest 0 t ∧ t.trace = s.trace ++ newEvents s t ∧
      writesOf (newEvents s t) = bracketWrites s k ((img.take (i + 1)).map fun q => (q.1, q.2.bytes s)) ∧
      (newEvents s t).countP Event.isXfer = i + 3) ∧
  (∀ blob img, loadEq blob = some img → img.length = 18) ∧
  (∀ main tko img, loadDrc main tko = some img → img.length = 12) ∧
  (patchImage .eq).length = 18 ∧ (patchImage .drc).length = 12

/-! ### ARB -/

/-- SET_ENABLED in Running with no failure: the EQ write, the DRC write, and then `eq_enabled`. -/
def Obligations.SetEnabledWritesBothControls : Prop :=
  ∀ s h e, Granted h s → Smooth s → s.ds = .running →
    let p := s.params
    ∃ t, exec (.setEnabled e) s = .next t ∧ t.eqEnabled = e ∧ t.eqPreset = s.eqPreset ∧ t.ds = .running ∧
      t.lock = none ∧ respAt t h = some ⟨.ok, 0, []⟩ ∧
      TraceGains s t
        [.wrote p.regs.eqCtrl.addr (if e then p.regs.eqCtrl.on else p.regs.eqCtrl.off),
         .wrote p.regs.drcCtrl.addr (if e then p.regs.drcCtrl.on else p.regs.drcCtrl.off), .resp h .ok 0 [] 0]

/-- SET_ENABLED whose EQ or DRC write fails: TransportError of that write, and `eq_enabled` keeps its value. -/
def Obligations.SetEnabledFailureKeepsTheFlag : Prop :=
  ∀ s h e, Granted h s → noReset s = true → s.ds = .running →
    let p := s.params
    let q := ctrlVal p .eq e
    let d := ctrlVal p .drc e
    (nextAnswer s = .fail →
      ∃ t, exec (.setEnabled e) s = .next t ∧ OnlyResponds s t ∧
        respAt t h = some ⟨.transportError, q.1.setWidth 16, []⟩ ∧
        TraceGains s t [.failed q.1 q.2, .log (.transport q.1) 0,
          .resp h .transportError (q.1.setWidth 16) [] 0]) ∧
    (∀ b rest, s.env.device = .ok b :: .fail :: rest →
      ∃ t, exec (.setEnabled e) s = .next t ∧ OnlyResponds s t ∧
        respAt t h = some ⟨.transportError, d.1.setWidth 16, []⟩ ∧
        TraceGains s t [.wrote q.1 q.2, .failed d.1 d.2, .log (.transport d.1) 0,
          .resp h .transportError (d.1.setWidth 16) [] 0])

/-- SELECT_PRESET in Running with no failure: the 20 writes of the EQ bracket, and `eq_preset` is the index. -/
def Obligations.SelectPresetCommitsTheBank : Prop :=
  ∀ s h a q img, Granted h s → Smooth s → s.ds = .running → s.params.cfg.presets[a.toNat]? = some q →
    loadEq q.blob = some img →
    ∃ t, exec (.selectPreset a) s = .next t ∧ t.eqPreset = a ∧ t.eqEnabled = s.eqEnabled ∧ t.ds = .running ∧
      t.lock = none ∧ respAt t h = some ⟨.ok, 0, []⟩ ∧
      TraceGains s t (bracketEvents s .eq img ++ [.resp h .ok 0 [] 0]) ∧ (bracketEvents s .eq img).length = 20

/-- SELECT_PRESET checks the index and then the stored blob, before any transaction. -/
def Obligations.SelectPresetChecksTheIndex : Prop :=
  ∀ s h a, Granted h s → noReset s = true → s.ds = .running →
    (s.params.cfg.numPresets ≤ a.toNat →
      ∃ t, exec (.selectPreset a) s = .next t ∧ Rejects s t h ⟨.indexError, a.setWidth 16⟩) ∧
    (∀ q, s.params.cfg.presets[a.toNat]? = some q → q.blob.length ≠ 360 →
      ∃ t, exec (.selectPreset a) s = .next t ∧ Rejects s t h ⟨.configurationError, 0x0200 + a.setWidth 16⟩)

/-- `eq_preset` changes if and only if the commit succeeded, and the answer is the first error logged, whatever the
Device answers; where write `n` of the bracket alone fails, the image left is passed over, the closing write still comes,
and the answer is TransportError of that write. -/
def Obligations.SelectPresetKeepsThePresetOnFailure : Prop :=
  (∀ s h a t r, Granted h s → Undisturbed s → exec (.selectPreset a) s = .next t → respAt t h = some r →
    r = responseTo [] (newEvents s t) ∧ (r.status = .ok → t.eqPreset = a) ∧
    (r.status ≠ .ok → t.eqPreset = s.eqPreset)) ∧
  (∀ s h a q img n w (oks : List Bytes) b later, Granted h s → noReset s = true → s.ds = .running →
    s.params.cfg.presets[a.toNat]? = some q → loadEq q.blob = some img → (bracketWrites s .eq img)[n]? = some w →
    oks.length = n → s.env.device = oks.map .ok ++ .fail :: .ok b :: later →
    let e := Err.transport w.1
    ∃ t, exec (.selectPreset a) s = .next t ∧ OnlyResponds s t ∧ respAt t h = some ⟨e.code, e.info, []⟩ ∧
      TraceGains s t (brokenEvents (bracketWrites s .eq img) n ++ [.resp h e.code e.info [] 0]))

/-- PATCH_APPLY of a text that parses, with no failure: 36 transactions, DRC before EQ, between the two soft-mute
writes; `ds` is Muted meanwhile and Running at the end. -/
def Obligations.PatchAppliesUnderSoftMute : Prop :=
  ∀ s h l img, Granted h s → onlyTime s = true → succeeds s = true → s.ds = .running → 1 ≤ l.toNat →
    l.toNat ≤ 4096 → parsePatch (stageRead 0 l.toNat s).1 = .ok img →
    let m := s.params.regs.softMute
    let bank := fun k : Kind => k.addrs.map fun a => (a, blockOf img a)
    ∃ t, exec (.patchApply l) s = .next t ∧ t.ds = .running ∧ t.lock = none ∧ t.eqEnabled = s.eqEnabled ∧
      t.eqPreset = s.eqPreset ∧ respAt t h = some ⟨.ok, 0, []⟩ ∧
      TraceGains s t
        ([.wrote m.addr m.on, .state .muted 0] ++ bracketEvents s .drc (bank .drc) ++
         bracketEvents s .eq (bank .eq) ++ [.wrote m.addr m.off, .state .running 0, .resp h .ok 0 [] 0]) ∧
      (newEvents s t).countP Event.isXfer = 36

/-- PATCH_APPLY with a length that is 0 or more than the stage holds: LengthMismatchError, before any parse. -/
def Obligations.PatchChecksItsLength : Prop :=
  ∀ s h l, Granted h s → noReset s = true → s.ds = .running → l.toNat = 0 ∨ 4096 < l.toNat →
    ∃ t, exec (.patchApply l) s = .next t ∧ Rejects s t h ⟨.lengthMismatchError, l⟩

/-- PATCH_APPLY of a text that parses, where one write fails. Its mute write: the release write is still attempted, no
coefficient is written, and `ds` is never Muted. A write of the DRC bracket: the EQ bracket is not run. A write of either
bracket: the release write still comes, and `ds` goes back to Running. The release write: it is logged, and `ds` goes
back to Running. Each answers TransportError of the failed write and leaves `ds`, the flags and the preset as before. -/
def Obligations.PatchReleasesAfterAFailedMute : Prop :=
  ∀ s h l img, Granted h s → onlyTime s = true → s.ds = .running → 1 ≤ l.toNat → l.toNat ≤ 4096 →
    parsePatch (stageRead 0 l.toNat s).1 = .ok img →
    let m := s.params.regs.softMute
    let writes := fun k : Kind => bracketWrites s k (k.addrs.map fun a => (a, blockOf img a))
    let answersOnly := fun (e : Err) (es : List Event) =>
      ∃ t, exec (.patchApply l) s = .next t ∧ OnlyResponds s t ∧ respAt t h = some ⟨e.code, e.info, []⟩ ∧
        TraceGains s t (es ++ [.resp h e.code e.info [] 0])
    let muted : List Event := [.wrote m.addr m.on, .state .muted 0]
    let released : List Event := [.wrote m.addr m.off, .state .running 0]
    (∀ b rest, s.env.device = .fail :: .ok b :: rest →
      answersOnly (.transport m.addr) [.failed m.addr m.on, .log (.transport m.addr) 0, .wrote m.addr m.off]) ∧
    (∀ n w b (oks : List Bytes) c d rest, (writes .drc)[n]? = some w → oks.length = n →
      s.env.device = .ok b :: oks.map .ok ++ .fail :: .ok c :: .ok d :: rest →
      answersOnly (.transport w.1) (muted ++ brokenEvents (writes .drc) n ++ released)) ∧
    (∀ n w b (oks : List Bytes) c d rest, (writes .eq)[n]? = some w → oks.length = (writes .drc).length + n →
      s.env.device = .ok b :: oks.map .ok ++ .fail :: .ok c :: .ok d :: rest →
      answersOnly (.transport w.1)
        (muted ++ bracketEvents s .drc (Kind.drc.addrs.map fun a => (a, blockOf img a)) ++
          brokenEvents (writes .eq) n ++ released)) ∧
    (∀ (oks : List Bytes) rest, oks.length = 35 → s.env.device = oks.map .ok ++ .fail :: rest →
      answersOnly (.transport m.addr)
        (muted ++ bracketEvents s .drc (Kind.drc.addrs.map fun a => (a, blockOf img a)) ++
          bracketEvents s .eq (Kind.eq.addrs.map fun a => (a, blockOf img a)) ++
          [.failed m.addr m.off, .log (.transport m.addr) 0, .state .running 0]))

/-- Every coefficient write of a PATCH_APPLY comes after its successful `SOFT_MUTE_ON` write and before its
`SOFT_MUTE_OFF` write, whatever the Device answers, where SOFT_MUTE_ADDR is itself no coefficient address. -/
def Obligations.PatchWritesAreMuteGuarded : Prop :=
  ∀ s h l t pre a v ok τ post, Granted h s → Undisturbed s → isCoefficient s.params.regs.softMute.addr = false →
    exec (.patchApply l) s = .next t → newEvents s t = pre ++ .xfer .write a v ok τ :: post →
    isCoefficient a = true →
    let m := s.params.regs.softMute
    (∃ τ₁, .xfer .write m.addr m.on true τ₁ ∈ pre) ∧ (∃ ok₂ τ₂, .xfer .write m.addr m.off ok₂ τ₂ ∈ post)

/-- The block of an address is what the lexical rules say it is: the tokens right after the first marker, one byte each,
as many as the register has bytes. ParsePatch succeeds exactly when every marker's block can be read, each block being
read on its own; else it names the lowest address that cannot. -/
def Obligations.ParsePatchReportsTheLowestAddress : Prop :=
  ∀ t,
    (∀ a, parsePatch t = .error a ↔
      a ∈ patchMarkers ∧ patchBlock a t = none ∧ ∀ b ∈ patchMarkers, b.toNat < a.toNat → patchBlock b t ≠ none) ∧
    (∀ img, parsePatch t = .ok img → ∀ a ∈ patchMarkers, patchBlock a t = some (blockOf img a)) ∧
    (∀ a, afterMarker a t = none → patchBlock a t = none) ∧
    (∀ a b, patchBlock a t = some b ↔ IsBlock a t b)

/-! ### STATUS -/

/-- R140: the STATUS data, bit by bit, with the codes of `ds` as R29 numbers them; every bit is read-only. -/
def Obligations.StatusReportsTheBlock : Prop :=
  (∀ s h, Granted h s → noReset s = true →
    ∃ t d₀ d₁ d₂ d₃, exec .status s = .next t ∧ OnlyResponds s t ∧
      respAt t h = some ⟨.ok, 0, [d₀, d₁, d₂, d₃]⟩ ∧ TraceGains s t [.resp h .ok 0 [d₀, d₁, d₂, d₃] 0] ∧
      d₀.extractLsb' 3 5 = 0 ∧ d₀.extractLsb' 0 3 = s.ds.code ∧
      d₁.extractLsb' 2 6 = 0 ∧ d₁.getLsbD 1 = s.snapValid ∧ d₁.getLsbD 0 = s.eqEnabled ∧
      d₂ = s.eqPreset ∧ d₃ = 0) ∧
  ([.uninitialized, .resetting, .poweringUp, .configuring, .running, .muted, .shuttingDown, .off] :
    List DeviceState).map DeviceState.code = [0, 1, 2, 3, 4, 5, 6, 7]

/-! ### Frames -/

/-- What no command but the named ones may change, in any run that no block reset cuts short. -/
def Obligations.CommandsKeepTheirFrames : Prop :=
  ∀ i s t, noReset s = true → exec i s = .next t →
    t.params = s.params ∧ t.cur = s.cur ∧ t.hosts.length = s.hosts.length ∧ s.now ≤ t.now ∧
    (∃ es, t.trace = s.trace ++ es) ∧
    ((∀ e, i ≠ .setEnabled e) → t.eqEnabled = s.eqEnabled) ∧
    ((∀ a, i ≠ .selectPreset a) → t.eqPreset = s.eqPreset) ∧
    (i ≠ .suspend → t.snap = s.snap ∧ t.snapValid = s.snapValid) ∧
    (i ≠ .bringup → i ≠ .resume → i ≠ .shutdown → i ≠ .suspend → t.pinPd = s.pinPd ∧
      (i ≠ .rstPulse → t.pinRst = s.pinRst ∧ t.waitUntil = s.waitUntil ∧
        ((∀ l, i ≠ .patchApply l) → t.ds = s.ds)))

/-- No command, an illegal word among them, writes the staging buffer or another host's ports: while nothing but time
passes, every stage byte reads as before, and so does every other host's pending word and response. -/
def Obligations.CommandsKeepTheStageAndOtherHosts : Prop :=
  ∀ s t h, onlyTime s = true → s.lock = some h → (∃ i, exec i s = .next t) ∨ (∃ w, execIllegal w s = .next t) →
    (∀ a, Stage.read t.stage a = Stage.read s.stage a) ∧ (∀ j, j ≠ h → t.hosts[j]? = s.hosts[j]?) ∧
    (∀ p, s.hosts[h]? = some p → ∃ q, t.hosts[h]? = some q ∧ q.pending = p.pending ∧ q.raced = p.raced)

/-! ### Invariants -/

/-- At power-on with any parameters, and so at reset, what the invariants below start from holds: a stamped and serial
trace, a free lock, a stable `ds` that the trace ends in, no bank open; with admitted parameters the state is well kept.
That the Device answers from there on is log 3, and that the parameters of `State.reset` are admitted and keep the
control registers off the banks is log 2. -/
def Obligations.ResetMeetsTheInvariants : Prop :=
  (∀ p, let s := State.powerOn p
    Stamped s ∧ s.lock = none ∧ serialEnd s.trace = some s.lock ∧ answers s = true ∧ stable s.ds = true ∧
    lifeEnd s.trace = some s.ds ∧ guardEnd p s.trace = some .shut ∧ (p.admitted = true → WellKept s)) ∧
  (let s := State.reset
   Stamped s ∧ s.lock = none ∧ serialEnd s.trace = some s.lock ∧ answers s = true ∧ stable s.ds = true ∧
   lifeEnd s.trace = some s.ds ∧ guardEnd s.params s.trace = some .shut ∧ WellKept s ∧
   controlsOffBanks s.params = true)

/-- The stamps of the trace never decrease and never pass `now`: every step keeps it, from every state. -/
def Obligations.StampsNeverDecrease : Prop := ∀ s t, Stamped s → step s = .next t → Stamped t

/-- R61: all events of a command lie between its Grant and its Resp, and no event of another command falls between
them: every step keeps it, from every state. -/
def Obligations.CommandsNeverInterleave : Prop :=
  ∀ s t, serialEnd s.trace = some s.lock → step s = .next t → serialEnd t.trace = some t.lock

/-- Nothing is fatal: from every well-kept state the machine steps, neither faults nor is refused, and is well-kept
again: the stage in its canonical form, the lock a host's, the parameters admitted. -/
def Obligations.NothingIsFatal : Prop := ∀ s, WellKept s → ∃ t, step s = .next t ∧ WellKept t

/-- Between commands `ds` is Uninitialized, Running or Off, while the Device answers. -/
def Obligations.StateIsStableBetweenCommands : Prop :=
  ∀ s t, s.lock = none → answers s = true → stable s.ds = true → step s = .next t →
    t.lock = none ∧ answers t = true ∧ stable t.ds = true

/-- The State events of the trace are transitions of R93's table and `ds` is the last of them, while the Device
answers. -/
def Obligations.LifecycleFollowsItsTransitions : Prop :=
  ∀ s t, s.lock = none → answers s = true → stable s.ds = true → lifeEnd s.trace = some s.ds → step s = .next t →
    t.lock = none ∧ answers t = true ∧ stable t.ds = true ∧ lifeEnd t.trace = some t.ds

/-- Every coefficient write lies inside a bracket of its bank, while the Device answers and no control register of R11
lies at a coefficient address. -/
def Obligations.CoefficientWritesAreBracketed : Prop :=
  ∀ s t, s.lock = none → answers s = true → s.params.admitted = true → controlsOffBanks s.params = true →
    (∃ g, guardEnd s.params s.trace = some g ∧ ∀ k, g ≠ .dirty k) → step s = .next t →
    t.lock = none ∧ answers t = true ∧ t.params = s.params ∧
    ∃ g, guardEnd t.params t.trace = some g ∧ ∀ k, g ≠ .dirty k

/-- R84: polarity changes levels, never order or timing: under other polarities every command makes the same events at
the same times, pin levels read as asserted or deasserted; and a sequence with an unbound pin logs or raises. -/
def Obligations.PolarityChangesLevelsOnly : Prop :=
  (∀ i s t rst pd, exec i s = .next t →
    let s' := { s with params := withPolarity s.params rst pd }
    ∃ t', exec i s' = .next t' ∧
      (newEvents s' t').map (Event.asserted s'.params) = (newEvents s t).map (Event.asserted s.params)) ∧
  (∀ p, pinsBound p = false → powerUp p = [.log .seqPowerUp] ∧ powerDown p = [.raise .seqShutdown] ∧
    resetPulse p = [.raise .seqPulse])
end

