-- ==== Sys2Proof/Laws/State.lean ====
section
/-! SUPPORT. The state's small lemmas: what each named update does to each field. -/

namespace Sys2Proof.Machine

variable (s : State)

/-! ### `emit` -/

@[simp] theorem emit_ds (e : Event) : (emit e s).ds = s.ds := rfl
@[simp] theorem emit_eqEnabled (e : Event) : (emit e s).eqEnabled = s.eqEnabled := rfl
@[simp] theorem emit_eqPreset (e : Event) : (emit e s).eqPreset = s.eqPreset := rfl
@[simp] theorem emit_pinRst (e : Event) : (emit e s).pinRst = s.pinRst := rfl
@[simp] theorem emit_pinPd (e : Event) : (emit e s).pinPd = s.pinPd := rfl
@[simp] theorem emit_snapValid (e : Event) : (emit e s).snapValid = s.snapValid := rfl
@[simp] theorem emit_snap (e : Event) : (emit e s).snap = s.snap := rfl
@[simp] theorem emit_stage (e : Event) : (emit e s).stage = s.stage := rfl
@[simp] theorem emit_lock (e : Event) : (emit e s).lock = s.lock := rfl
@[simp] theorem emit_hosts (e : Event) : (emit e s).hosts = s.hosts := rfl
@[simp] theorem emit_seqPc (e : Event) : (emit e s).seqPc = s.seqPc := rfl
@[simp] theorem emit_cur (e : Event) : (emit e s).cur = s.cur := rfl
@[simp] theorem emit_firstErr (e : Event) : (emit e s).firstErr = s.firstErr := rfl
@[simp] theorem emit_waitUntil (e : Event) : (emit e s).waitUntil = s.waitUntil := rfl
@[simp] theorem emit_now (e : Event) : (emit e s).now = s.now := rfl
@[simp] theorem emit_trace (e : Event) : (emit e s).trace = s.trace ++ [e] := rfl
@[simp] theorem emit_params (e : Event) : (emit e s).params = s.params := rfl
@[simp] theorem emit_scratch (e : Event) : (emit e s).scratch = s.scratch := rfl
@[simp] theorem emit_env (e : Event) : (emit e s).env = s.env := rfl

/-! ### `setState` -/

@[simp] theorem setState_ds (d : DeviceState) : (setState d s).ds = d := rfl
@[simp] theorem setState_eqEnabled (d : DeviceState) : (setState d s).eqEnabled = s.eqEnabled := rfl
@[simp] theorem setState_eqPreset (d : DeviceState) : (setState d s).eqPreset = s.eqPreset := rfl
@[simp] theorem setState_pinRst (d : DeviceState) : (setState d s).pinRst = s.pinRst := rfl
@[simp] theorem setState_pinPd (d : DeviceState) : (setState d s).pinPd = s.pinPd := rfl
@[simp] theorem setState_snapValid (d : DeviceState) : (setState d s).snapValid = s.snapValid := rfl
@[simp] theorem setState_snap (d : DeviceState) : (setState d s).snap = s.snap := rfl
@[simp] theorem setState_stage (d : DeviceState) : (setState d s).stage = s.stage := rfl
@[simp] theorem setState_lock (d : DeviceState) : (setState d s).lock = s.lock := rfl
@[simp] theorem setState_hosts (d : DeviceState) : (setState d s).hosts = s.hosts := rfl
@[simp] theorem setState_seqPc (d : DeviceState) : (setState d s).seqPc = s.seqPc := rfl
@[simp] theorem setState_cur (d : DeviceState) : (setState d s).cur = s.cur := rfl
@[simp] theorem setState_firstErr (d : DeviceState) : (setState d s).firstErr = s.firstErr := rfl
@[simp] theorem setState_waitUntil (d : DeviceState) : (setState d s).waitUntil = s.waitUntil := rfl
@[simp] theorem setState_now (d : DeviceState) : (setState d s).now = s.now := rfl
@[simp] theorem setState_trace (d : DeviceState) : (setState d s).trace = s.trace ++ [.state d s.now] := rfl
@[simp] theorem setState_params (d : DeviceState) : (setState d s).params = s.params := rfl
@[simp] theorem setState_scratch (d : DeviceState) : (setState d s).scratch = s.scratch := rfl
@[simp] theorem setState_env (d : DeviceState) : (setState d s).env = s.env := rfl

/-! ### `gpio` -/

@[simp] theorem gpio_ds (l : Line) (v : Bool) : (gpio l v s).ds = s.ds := by cases l <;> rfl
@[simp] theorem gpio_eqEnabled (l : Line) (v : Bool) : (gpio l v s).eqEnabled = s.eqEnabled := by cases l <;> rfl
@[simp] theorem gpio_eqPreset (l : Line) (v : Bool) : (gpio l v s).eqPreset = s.eqPreset := by cases l <;> rfl
@[simp] theorem gpio_pinRst (l : Line) (v : Bool) : (gpio l v s).pinRst = if l = .rst then .driven v else s.pinRst := by cases l <;> rfl
@[simp] theorem gpio_pinPd (l : Line) (v : Bool) : (gpio l v s).pinPd = if l = .pd then .driven v else s.pinPd := by cases l <;> rfl
@[simp] theorem gpio_snapValid (l : Line) (v : Bool) : (gpio l v s).snapValid = s.snapValid := by cases l <;> rfl
@[simp] theorem gpio_snap (l : Line) (v : Bool) : (gpio l v s).snap = s.snap := by cases l <;> rfl
@[simp] theorem gpio_stage (l : Line) (v : Bool) : (gpio l v s).stage = s.stage := by cases l <;> rfl
@[simp] theorem gpio_lock (l : Line) (v : Bool) : (gpio l v s).lock = s.lock := by cases l <;> rfl
@[simp] theorem gpio_hosts (l : Line) (v : Bool) : (gpio l v s).hosts = s.hosts := by cases l <;> rfl
@[simp] theorem gpio_seqPc (l : Line) (v : Bool) : (gpio l v s).seqPc = s.seqPc := by cases l <;> rfl
@[simp] theorem gpio_cur (l : Line) (v : Bool) : (gpio l v s).cur = s.cur := by cases l <;> rfl
@[simp] theorem gpio_firstErr (l : Line) (v : Bool) : (gpio l v s).firstErr = s.firstErr := by cases l <;> rfl
@[simp] theorem gpio_waitUntil (l : Line) (v : Bool) : (gpio l v s).waitUntil = s.waitUntil := by cases l <;> rfl
@[simp] theorem gpio_now (l : Line) (v : Bool) : (gpio l v s).now = s.now := by cases l <;> rfl
@[simp] theorem gpio_trace (l : Line) (v : Bool) : (gpio l v s).trace = s.trace ++ [.pin l v s.now] := by cases l <;> rfl
@[simp] theorem gpio_params (l : Line) (v : Bool) : (gpio l v s).params = s.params := by cases l <;> rfl
@[simp] theorem gpio_scratch (l : Line) (v : Bool) : (gpio l v s).scratch = s.scratch := by cases l <;> rfl
@[simp] theorem gpio_env (l : Line) (v : Bool) : (gpio l v s).env = s.env := by cases l <;> rfl

/-! ### `wait` -/

@[simp] theorem wait_ds (d : Nat) : (wait d s).ds = s.ds := rfl
@[simp] theorem wait_eqEnabled (d : Nat) : (wait d s).eqEnabled = s.eqEnabled := rfl
@[simp] theorem wait_eqPreset (d : Nat) : (wait d s).eqPreset = s.eqPreset := rfl
@[simp] theorem wait_pinRst (d : Nat) : (wait d s).pinRst = s.pinRst := rfl
@[simp] theorem wait_pinPd (d : Nat) : (wait d s).pinPd = s.pinPd := rfl
@[simp] theorem wait_snapValid (d : Nat) : (wait d s).snapValid = s.snapValid := rfl
@[simp] theorem wait_snap (d : Nat) : (wait d s).snap = s.snap := rfl
@[simp] theorem wait_stage (d : Nat) : (wait d s).stage = s.stage := rfl
@[simp] theorem wait_lock (d : Nat) : (wait d s).lock = s.lock := rfl
@[simp] theorem wait_hosts (d : Nat) : (wait d s).hosts = s.hosts := rfl
@[simp] theorem wait_seqPc (d : Nat) : (wait d s).seqPc = s.seqPc := rfl
@[simp] theorem wait_cur (d : Nat) : (wait d s).cur = s.cur := rfl
@[simp] theorem wait_firstErr (d : Nat) : (wait d s).firstErr = s.firstErr := rfl
@[simp] theorem wait_waitUntil (d : Nat) : (wait d s).waitUntil = s.now + d := rfl
@[simp] theorem wait_now (d : Nat) : (wait d s).now = s.now := rfl
@[simp] theorem wait_trace (d : Nat) : (wait d s).trace = s.trace := rfl
@[simp] theorem wait_params (d : Nat) : (wait d s).params = s.params := rfl
@[simp] theorem wait_scratch (d : Nat) : (wait d s).scratch = s.scratch := rfl
@[simp] theorem wait_env (d : Nat) : (wait d s).env = s.env := rfl

/-! ### `logErr` -/

@[simp] theorem logErr_ds (e : Err) : (logErr e s).ds = s.ds := rfl
@[simp] theorem logErr_eqEnabled (e : Err) : (logErr e s).eqEnabled = s.eqEnabled := rfl
@[simp] theorem logErr_eqPreset (e : Err) : (logErr e s).eqPreset = s.eqPreset := rfl
@[simp] theorem logErr_pinRst (e : Err) : (logErr e s).pinRst = s.pinRst := rfl
@[simp] theorem logErr_pinPd (e : Err) : (logErr e s).pinPd = s.pinPd := rfl
@[simp] theorem logErr_snapValid (e : Err) : (logErr e s).snapValid = s.snapValid := rfl
@[simp] theorem logErr_snap (e : Err) : (logErr e s).snap = s.snap := rfl
@[simp] theorem logErr_stage (e : Err) : (logErr e s).stage = s.stage := rfl
@[simp] theorem logErr_lock (e : Err) : (logErr e s).lock = s.lock := rfl
@[simp] theorem logErr_hosts (e : Err) : (logErr e s).hosts = s.hosts := rfl
@[simp] theorem logErr_seqPc (e : Err) : (logErr e s).seqPc = s.seqPc := rfl
@[simp] theorem logErr_cur (e : Err) : (logErr e s).cur = s.cur := rfl
@[simp] theorem logErr_firstErr (e : Err) : (logErr e s).firstErr = s.firstErr.or (some e) := rfl
@[simp] theorem logErr_waitUntil (e : Err) : (logErr e s).waitUntil = s.waitUntil := rfl
@[simp] theorem logErr_now (e : Err) : (logErr e s).now = s.now := rfl
@[simp] theorem logErr_trace (e : Err) : (logErr e s).trace = s.trace ++ [.log e s.now] := rfl
@[simp] theorem logErr_params (e : Err) : (logErr e s).params = s.params := rfl
@[simp] theorem logErr_scratch (e : Err) : (logErr e s).scratch = s.scratch := rfl
@[simp] theorem logErr_env (e : Err) : (logErr e s).env = s.env := rfl

/-! ### `tick` -/

@[simp] theorem tick_ds (d : Nat) : (tick d s).ds = s.ds := rfl
@[simp] theorem tick_eqEnabled (d : Nat) : (tick d s).eqEnabled = s.eqEnabled := rfl
@[simp] theorem tick_eqPreset (d : Nat) : (tick d s).eqPreset = s.eqPreset := rfl
@[simp] theorem tick_pinRst (d : Nat) : (tick d s).pinRst = s.pinRst := rfl
@[simp] theorem tick_pinPd (d : Nat) : (tick d s).pinPd = s.pinPd := rfl
@[simp] theorem tick_snapValid (d : Nat) : (tick d s).snapValid = s.snapValid := rfl
@[simp] theorem tick_snap (d : Nat) : (tick d s).snap = s.snap := rfl
@[simp] theorem tick_stage (d : Nat) : (tick d s).stage = s.stage := rfl
@[simp] theorem tick_lock (d : Nat) : (tick d s).lock = s.lock := rfl
@[simp] theorem tick_hosts (d : Nat) : (tick d s).hosts = s.hosts := rfl
@[simp] theorem tick_seqPc (d : Nat) : (tick d s).seqPc = s.seqPc := rfl
@[simp] theorem tick_cur (d : Nat) : (tick d s).cur = s.cur := rfl
@[simp] theorem tick_firstErr (d : Nat) : (tick d s).firstErr = s.firstErr := rfl
@[simp] theorem tick_waitUntil (d : Nat) : (tick d s).waitUntil = s.waitUntil := rfl
@[simp] theorem tick_now (d : Nat) : (tick d s).now = s.now + d := rfl
@[simp] theorem tick_trace (d : Nat) : (tick d s).trace = s.trace := rfl
@[simp] theorem tick_params (d : Nat) : (tick d s).params = s.params := rfl
@[simp] theorem tick_scratch (d : Nat) : (tick d s).scratch = s.scratch := rfl
@[simp] theorem tick_env (d : Nat) : (tick d s).env = s.env := rfl

/-! ### `hostStageWrite` -/

@[simp] theorem hostStageWrite_ds (i : StageIx) (v : Byte) : (hostStageWrite i v s).ds = s.ds := rfl
@[simp] theorem hostStageWrite_eqEnabled (i : StageIx) (v : Byte) : (hostStageWrite i v s).eqEnabled = s.eqEnabled := rfl
@[simp] theorem hostStageWrite_eqPreset (i : StageIx) (v : Byte) : (hostStageWrite i v s).eqPreset = s.eqPreset := rfl
@[simp] theorem hostStageWrite_pinRst (i : StageIx) (v : Byte) : (hostStageWrite i v s).pinRst = s.pinRst := rfl
@[simp] theorem hostStageWrite_pinPd (i : StageIx) (v : Byte) : (hostStageWrite i v s).pinPd = s.pinPd := rfl
@[simp] theorem hostStageWrite_snapValid (i : StageIx) (v : Byte) : (hostStageWrite i v s).snapValid = s.snapValid := rfl
@[simp] theorem hostStageWrite_snap (i : StageIx) (v : Byte) : (hostStageWrite i v s).snap = s.snap := rfl
@[simp] theorem hostStageWrite_stage (i : StageIx) (v : Byte) : (hostStageWrite i v s).stage = Stage.write s.stage i.toNat v := rfl
@[simp] theorem hostStageWrite_lock (i : StageIx) (v : Byte) : (hostStageWrite i v s).lock = s.lock := rfl
@[simp] theorem hostStageWrite_seqPc (i : StageIx) (v : Byte) : (hostStageWrite i v s).seqPc = s.seqPc := rfl
@[simp] theorem hostStageWrite_cur (i : StageIx) (v : Byte) : (hostStageWrite i v s).cur = s.cur := rfl
@[simp] theorem hostStageWrite_firstErr (i : StageIx) (v : Byte) : (hostStageWrite i v s).firstErr = s.firstErr := rfl
@[simp] theorem hostStageWrite_waitUntil (i : StageIx) (v : Byte) : (hostStageWrite i v s).waitUntil = s.waitUntil := rfl
@[simp] theorem hostStageWrite_now (i : StageIx) (v : Byte) : (hostStageWrite i v s).now = s.now := rfl
@[simp] theorem hostStageWrite_trace (i : StageIx) (v : Byte) : (hostStageWrite i v s).trace = s.trace := rfl
@[simp] theorem hostStageWrite_params (i : StageIx) (v : Byte) : (hostStageWrite i v s).params = s.params := rfl
@[simp] theorem hostStageWrite_scratch (i : StageIx) (v : Byte) : (hostStageWrite i v s).scratch = s.scratch := rfl
@[simp] theorem hostStageWrite_env (i : StageIx) (v : Byte) : (hostStageWrite i v s).env = s.env := rfl

/-! ### `issue` -/

@[simp] theorem issue_ds (h : Nat) (w : Word32) : (issue h w s).ds = s.ds := by unfold issue; split <;> rfl
@[simp] theorem issue_eqEnabled (h : Nat) (w : Word32) : (issue h w s).eqEnabled = s.eqEnabled := by unfold issue; split <;> rfl
@[simp] theorem issue_eqPreset (h : Nat) (w : Word32) : (issue h w s).eqPreset = s.eqPreset := by unfold issue; split <;> rfl
@[simp] theorem issue_pinRst (h : Nat) (w : Word32) : (issue h w s).pinRst = s.pinRst := by unfold issue; split <;> rfl
@[simp] theorem issue_pinPd (h : Nat) (w : Word32) : (issue h w s).pinPd = s.pinPd := by unfold issue; split <;> rfl
@[simp] theorem issue_snapValid (h : Nat) (w : Word32) : (issue h w s).snapValid = s.snapValid := by unfold issue; split <;> rfl
@[simp] theorem issue_snap (h : Nat) (w : Word32) : (issue h w s).snap = s.snap := by unfold issue; split <;> rfl
@[simp] theorem issue_stage (h : Nat) (w : Word32) : (issue h w s).stage = s.stage := by unfold issue; split <;> rfl
@[simp] theorem issue_lock (h : Nat) (w : Word32) : (issue h w s).lock = s.lock := by unfold issue; split <;> rfl
@[simp] theorem issue_seqPc (h : Nat) (w : Word32) : (issue h w s).seqPc = s.seqPc := by unfold issue; split <;> rfl
@[simp] theorem issue_cur (h : Nat) (w : Word32) : (issue h w s).cur = s.cur := by unfold issue; split <;> rfl
@[simp] theorem issue_firstErr (h : Nat) (w : Word32) : (issue h w s).firstErr = s.firstErr := by unfold issue; split <;> rfl
@[simp] theorem issue_waitUntil (h : Nat) (w : Word32) : (issue h w s).waitUntil = s.waitUntil := by unfold issue; split <;> rfl
@[simp] theorem issue_now (h : Nat) (w : Word32) : (issue h w s).now = s.now := by unfold issue; split <;> rfl
@[simp] theorem issue_trace (h : Nat) (w : Word32) : (issue h w s).trace = s.trace := by unfold issue; split <;> rfl
@[simp] theorem issue_params (h : Nat) (w : Word32) : (issue h w s).params = s.params := by unfold issue; split <;> rfl
@[simp] theorem issue_scratch (h : Nat) (w : Word32) : (issue h w s).scratch = s.scratch := by unfold issue; split <;> rfl
@[simp] theorem issue_env (h : Nat) (w : Word32) : (issue h w s).env = s.env := by unfold issue; split <;> rfl

/-! ### `nextSlot` -/

@[simp] theorem nextSlot_ds : (nextSlot s).ds = s.ds := rfl
@[simp] theorem nextSlot_eqEnabled : (nextSlot s).eqEnabled = s.eqEnabled := rfl
@[simp] theorem nextSlot_eqPreset : (nextSlot s).eqPreset = s.eqPreset := rfl
@[simp] theorem nextSlot_pinRst : (nextSlot s).pinRst = s.pinRst := rfl
@[simp] theorem nextSlot_pinPd : (nextSlot s).pinPd = s.pinPd := rfl
@[simp] theorem nextSlot_snapValid : (nextSlot s).snapValid = s.snapValid := rfl
@[simp] theorem nextSlot_snap : (nextSlot s).snap = s.snap := rfl
@[simp] theorem nextSlot_stage : (nextSlot s).stage = s.stage := rfl
@[simp] theorem nextSlot_lock : (nextSlot s).lock = s.lock := rfl
@[simp] theorem nextSlot_hosts : (nextSlot s).hosts = s.hosts := rfl
@[simp] theorem nextSlot_seqPc : (nextSlot s).seqPc = s.seqPc := rfl
@[simp] theorem nextSlot_cur : (nextSlot s).cur = s.cur := rfl
@[simp] theorem nextSlot_firstErr : (nextSlot s).firstErr = s.firstErr := rfl
@[simp] theorem nextSlot_waitUntil : (nextSlot s).waitUntil = s.waitUntil := rfl
@[simp] theorem nextSlot_now : (nextSlot s).now = s.now := rfl
@[simp] theorem nextSlot_trace : (nextSlot s).trace = s.trace := rfl
@[simp] theorem nextSlot_params : (nextSlot s).params = s.params := rfl
@[simp] theorem nextSlot_scratch : (nextSlot s).scratch = s.scratch := rfl
@[simp] theorem nextSlot_env : (nextSlot s).env = { s.env with world := s.env.world.tail } := rfl

/-! ### `awaitTime` -/

@[simp] theorem awaitTime_ds : (awaitTime s).ds = s.ds := rfl
@[simp] theorem awaitTime_eqEnabled : (awaitTime s).eqEnabled = s.eqEnabled := rfl
@[simp] theorem awaitTime_eqPreset : (awaitTime s).eqPreset = s.eqPreset := rfl
@[simp] theorem awaitTime_pinRst : (awaitTime s).pinRst = s.pinRst := rfl
@[simp] theorem awaitTime_pinPd : (awaitTime s).pinPd = s.pinPd := rfl
@[simp] theorem awaitTime_snapValid : (awaitTime s).snapValid = s.snapValid := rfl
@[simp] theorem awaitTime_snap : (awaitTime s).snap = s.snap := rfl
@[simp] theorem awaitTime_stage : (awaitTime s).stage = s.stage := rfl
@[simp] theorem awaitTime_lock : (awaitTime s).lock = s.lock := rfl
@[simp] theorem awaitTime_hosts : (awaitTime s).hosts = s.hosts := rfl
@[simp] theorem awaitTime_seqPc : (awaitTime s).seqPc = s.seqPc := rfl
@[simp] theorem awaitTime_cur : (awaitTime s).cur = s.cur := rfl
@[simp] theorem awaitTime_firstErr : (awaitTime s).firstErr = s.firstErr := rfl
@[simp] theorem awaitTime_waitUntil : (awaitTime s).waitUntil = s.waitUntil := rfl
@[simp] theorem awaitTime_now : (awaitTime s).now = max s.now s.waitUntil := rfl
@[simp] theorem awaitTime_trace : (awaitTime s).trace = s.trace := rfl
@[simp] theorem awaitTime_params : (awaitTime s).params = s.params := rfl
@[simp] theorem awaitTime_scratch : (awaitTime s).scratch = s.scratch := rfl
@[simp] theorem awaitTime_env : (awaitTime s).env = s.env := rfl

/-! ### `grant` -/

@[simp] theorem grant_ds (h : Nat) (w : Word32) : (grant h w s).ds = s.ds := rfl
@[simp] theorem grant_eqEnabled (h : Nat) (w : Word32) : (grant h w s).eqEnabled = s.eqEnabled := rfl
@[simp] theorem grant_eqPreset (h : Nat) (w : Word32) : (grant h w s).eqPreset = s.eqPreset := rfl
@[simp] theorem grant_pinRst (h : Nat) (w : Word32) : (grant h w s).pinRst = s.pinRst := rfl
@[simp] theorem grant_pinPd (h : Nat) (w : Word32) : (grant h w s).pinPd = s.pinPd := rfl
@[simp] theorem grant_snapValid (h : Nat) (w : Word32) : (grant h w s).snapValid = s.snapValid := rfl
@[simp] theorem grant_snap (h : Nat) (w : Word32) : (grant h w s).snap = s.snap := rfl
@[simp] theorem grant_stage (h : Nat) (w : Word32) : (grant h w s).stage = s.stage := rfl
@[simp] theorem grant_lock (h : Nat) (w : Word32) : (grant h w s).lock = some h := rfl
@[simp] theorem grant_hosts (h : Nat) (w : Word32) : (grant h w s).hosts = s.hosts.modify h fun p => { p with pending := none } := rfl
@[simp] theorem grant_seqPc (h : Nat) (w : Word32) : (grant h w s).seqPc = 0 := rfl
@[simp] theorem grant_cur (h : Nat) (w : Word32) : (grant h w s).cur = w := rfl
@[simp] theorem grant_firstErr (h : Nat) (w : Word32) : (grant h w s).firstErr = none := rfl
@[simp] theorem grant_waitUntil (h : Nat) (w : Word32) : (grant h w s).waitUntil = s.waitUntil := rfl
@[simp] theorem grant_now (h : Nat) (w : Word32) : (grant h w s).now = s.now := rfl
@[simp] theorem grant_trace (h : Nat) (w : Word32) : (grant h w s).trace = s.trace ++ [.grant h w s.now] := rfl
@[simp] theorem grant_params (h : Nat) (w : Word32) : (grant h w s).params = s.params := rfl
@[simp] theorem grant_scratch (h : Nat) (w : Word32) : (grant h w s).scratch = .empty := rfl
@[simp] theorem grant_env (h : Nat) (w : Word32) : (grant h w s).env = { s.env with picks := s.env.picks.tail } := rfl

/-! ### `complete` -/

@[simp] theorem complete_ds : (complete s).ds = s.ds := by unfold complete; split <;> rfl
@[simp] theorem complete_eqEnabled : (complete s).eqEnabled = s.eqEnabled := by unfold complete; split <;> rfl
@[simp] theorem complete_eqPreset : (complete s).eqPreset = s.eqPreset := by unfold complete; split <;> rfl
@[simp] theorem complete_pinRst : (complete s).pinRst = s.pinRst := by unfold complete; split <;> rfl
@[simp] theorem complete_pinPd : (complete s).pinPd = s.pinPd := by unfold complete; split <;> rfl
@[simp] theorem complete_snapValid : (complete s).snapValid = s.snapValid := by unfold complete; split <;> rfl
@[simp] theorem complete_snap : (complete s).snap = s.snap := by unfold complete; split <;> rfl
@[simp] theorem complete_stage : (complete s).stage = s.stage := by unfold complete; split <;> rfl
@[simp] theorem complete_lock : (complete s).lock = none := by unfold complete; split <;> simp_all [emit]
@[simp] theorem complete_seqPc : (complete s).seqPc = s.seqPc := by unfold complete; split <;> rfl
@[simp] theorem complete_cur : (complete s).cur = s.cur := by unfold complete; split <;> rfl
@[simp] theorem complete_firstErr : (complete s).firstErr = s.firstErr := by unfold complete; split <;> rfl
@[simp] theorem complete_waitUntil : (complete s).waitUntil = s.waitUntil := by unfold complete; split <;> rfl
@[simp] theorem complete_now : (complete s).now = s.now := by unfold complete; split <;> rfl
@[simp] theorem complete_params : (complete s).params = s.params := by unfold complete; split <;> rfl
@[simp] theorem complete_env : (complete s).env = s.env := by unfold complete; split <;> rfl

/-! ### `setOk` -/

@[simp] theorem setOk_ds (b : Bool) : (setOk b s).ds = s.ds := rfl
@[simp] theorem setOk_eqEnabled (b : Bool) : (setOk b s).eqEnabled = s.eqEnabled := rfl
@[simp] theorem setOk_eqPreset (b : Bool) : (setOk b s).eqPreset = s.eqPreset := rfl
@[simp] theorem setOk_pinRst (b : Bool) : (setOk b s).pinRst = s.pinRst := rfl
@[simp] theorem setOk_pinPd (b : Bool) : (setOk b s).pinPd = s.pinPd := rfl
@[simp] theorem setOk_snapValid (b : Bool) : (setOk b s).snapValid = s.snapValid := rfl
@[simp] theorem setOk_snap (b : Bool) : (setOk b s).snap = s.snap := rfl
@[simp] theorem setOk_stage (b : Bool) : (setOk b s).stage = s.stage := rfl
@[simp] theorem setOk_lock (b : Bool) : (setOk b s).lock = s.lock := rfl
@[simp] theorem setOk_hosts (b : Bool) : (setOk b s).hosts = s.hosts := rfl
@[simp] theorem setOk_seqPc (b : Bool) : (setOk b s).seqPc = s.seqPc := rfl
@[simp] theorem setOk_cur (b : Bool) : (setOk b s).cur = s.cur := rfl
@[simp] theorem setOk_firstErr (b : Bool) : (setOk b s).firstErr = s.firstErr := rfl
@[simp] theorem setOk_waitUntil (b : Bool) : (setOk b s).waitUntil = s.waitUntil := rfl
@[simp] theorem setOk_now (b : Bool) : (setOk b s).now = s.now := rfl
@[simp] theorem setOk_trace (b : Bool) : (setOk b s).trace = s.trace := rfl
@[simp] theorem setOk_params (b : Bool) : (setOk b s).params = s.params := rfl
@[simp] theorem setOk_scratch (b : Bool) : (setOk b s).scratch = { s.scratch with ok := b } := rfl
@[simp] theorem setOk_env (b : Bool) : (setOk b s).env = s.env := rfl

/-! ### `setBuf` -/

@[simp] theorem setBuf_ds (b : Bytes) : (setBuf b s).ds = s.ds := rfl
@[simp] theorem setBuf_eqEnabled (b : Bytes) : (setBuf b s).eqEnabled = s.eqEnabled := rfl
@[simp] theorem setBuf_eqPreset (b : Bytes) : (setBuf b s).eqPreset = s.eqPreset := rfl
@[simp] theorem setBuf_pinRst (b : Bytes) : (setBuf b s).pinRst = s.pinRst := rfl
@[simp] theorem setBuf_pinPd (b : Bytes) : (setBuf b s).pinPd = s.pinPd := rfl
@[simp] theorem setBuf_snapValid (b : Bytes) : (setBuf b s).snapValid = s.snapValid := rfl
@[simp] theorem setBuf_snap (b : Bytes) : (setBuf b s).snap = s.snap := rfl
@[simp] theorem setBuf_stage (b : Bytes) : (setBuf b s).stage = s.stage := rfl
@[simp] theorem setBuf_lock (b : Bytes) : (setBuf b s).lock = s.lock := rfl
@[simp] theorem setBuf_hosts (b : Bytes) : (setBuf b s).hosts = s.hosts := rfl
@[simp] theorem setBuf_seqPc (b : Bytes) : (setBuf b s).seqPc = s.seqPc := rfl
@[simp] theorem setBuf_cur (b : Bytes) : (setBuf b s).cur = s.cur := rfl
@[simp] theorem setBuf_firstErr (b : Bytes) : (setBuf b s).firstErr = s.firstErr := rfl
@[simp] theorem setBuf_waitUntil (b : Bytes) : (setBuf b s).waitUntil = s.waitUntil := rfl
@[simp] theorem setBuf_now (b : Bytes) : (setBuf b s).now = s.now := rfl
@[simp] theorem setBuf_trace (b : Bytes) : (setBuf b s).trace = s.trace := rfl
@[simp] theorem setBuf_params (b : Bytes) : (setBuf b s).params = s.params := rfl
@[simp] theorem setBuf_scratch (b : Bytes) : (setBuf b s).scratch = { s.scratch with buf := b } := rfl
@[simp] theorem setBuf_env (b : Bytes) : (setBuf b s).env = s.env := rfl

/-! ### `setBlocks` -/

@[simp] theorem setBlocks_ds (g : Image) : (setBlocks g s).ds = s.ds := rfl
@[simp] theorem setBlocks_eqEnabled (g : Image) : (setBlocks g s).eqEnabled = s.eqEnabled := rfl
@[simp] theorem setBlocks_eqPreset (g : Image) : (setBlocks g s).eqPreset = s.eqPreset := rfl
@[simp] theorem setBlocks_pinRst (g : Image) : (setBlocks g s).pinRst = s.pinRst := rfl
@[simp] theorem setBlocks_pinPd (g : Image) : (setBlocks g s).pinPd = s.pinPd := rfl
@[simp] theorem setBlocks_snapValid (g : Image) : (setBlocks g s).snapValid = s.snapValid := rfl
@[simp] theorem setBlocks_snap (g : Image) : (setBlocks g s).snap = s.snap := rfl
@[simp] theorem setBlocks_stage (g : Image) : (setBlocks g s).stage = s.stage := rfl
@[simp] theorem setBlocks_lock (g : Image) : (setBlocks g s).lock = s.lock := rfl
@[simp] theorem setBlocks_hosts (g : Image) : (setBlocks g s).hosts = s.hosts := rfl
@[simp] theorem setBlocks_seqPc (g : Image) : (setBlocks g s).seqPc = s.seqPc := rfl
@[simp] theorem setBlocks_cur (g : Image) : (setBlocks g s).cur = s.cur := rfl
@[simp] theorem setBlocks_firstErr (g : Image) : (setBlocks g s).firstErr = s.firstErr := rfl
@[simp] theorem setBlocks_waitUntil (g : Image) : (setBlocks g s).waitUntil = s.waitUntil := rfl
@[simp] theorem setBlocks_now (g : Image) : (setBlocks g s).now = s.now := rfl
@[simp] theorem setBlocks_trace (g : Image) : (setBlocks g s).trace = s.trace := rfl
@[simp] theorem setBlocks_params (g : Image) : (setBlocks g s).params = s.params := rfl
@[simp] theorem setBlocks_scratch (g : Image) : (setBlocks g s).scratch = { s.scratch with blocks := g } := rfl
@[simp] theorem setBlocks_env (g : Image) : (setBlocks g s).env = s.env := rfl

/-! ### `setData` -/

@[simp] theorem setData_ds (b : Bytes) : (setData b s).ds = s.ds := rfl
@[simp] theorem setData_eqEnabled (b : Bytes) : (setData b s).eqEnabled = s.eqEnabled := rfl
@[simp] theorem setData_eqPreset (b : Bytes) : (setData b s).eqPreset = s.eqPreset := rfl
@[simp] theorem setData_pinRst (b : Bytes) : (setData b s).pinRst = s.pinRst := rfl
@[simp] theorem setData_pinPd (b : Bytes) : (setData b s).pinPd = s.pinPd := rfl
@[simp] theorem setData_snapValid (b : Bytes) : (setData b s).snapValid = s.snapValid := rfl
@[simp] theorem setData_snap (b : Bytes) : (setData b s).snap = s.snap := rfl
@[simp] theorem setData_stage (b : Bytes) : (setData b s).stage = s.stage := rfl
@[simp] theorem setData_lock (b : Bytes) : (setData b s).lock = s.lock := rfl
@[simp] theorem setData_hosts (b : Bytes) : (setData b s).hosts = s.hosts := rfl
@[simp] theorem setData_seqPc (b : Bytes) : (setData b s).seqPc = s.seqPc := rfl
@[simp] theorem setData_cur (b : Bytes) : (setData b s).cur = s.cur := rfl
@[simp] theorem setData_firstErr (b : Bytes) : (setData b s).firstErr = s.firstErr := rfl
@[simp] theorem setData_waitUntil (b : Bytes) : (setData b s).waitUntil = s.waitUntil := rfl
@[simp] theorem setData_now (b : Bytes) : (setData b s).now = s.now := rfl
@[simp] theorem setData_trace (b : Bytes) : (setData b s).trace = s.trace := rfl
@[simp] theorem setData_params (b : Bytes) : (setData b s).params = s.params := rfl
@[simp] theorem setData_scratch (b : Bytes) : (setData b s).scratch = { s.scratch with data := b } := rfl
@[simp] theorem setData_env (b : Bytes) : (setData b s).env = s.env := rfl

/-! ### `saveSnap` -/

@[simp] theorem saveSnap_ds : (saveSnap s).ds = s.ds := rfl
@[simp] theorem saveSnap_eqEnabled : (saveSnap s).eqEnabled = s.eqEnabled := rfl
@[simp] theorem saveSnap_eqPreset : (saveSnap s).eqPreset = s.eqPreset := rfl
@[simp] theorem saveSnap_pinRst : (saveSnap s).pinRst = s.pinRst := rfl
@[simp] theorem saveSnap_pinPd : (saveSnap s).pinPd = s.pinPd := rfl
@[simp] theorem saveSnap_snapValid : (saveSnap s).snapValid = s.snapValid := rfl
@[simp] theorem saveSnap_stage : (saveSnap s).stage = s.stage := rfl
@[simp] theorem saveSnap_lock : (saveSnap s).lock = s.lock := rfl
@[simp] theorem saveSnap_hosts : (saveSnap s).hosts = s.hosts := rfl
@[simp] theorem saveSnap_seqPc : (saveSnap s).seqPc = s.seqPc := rfl
@[simp] theorem saveSnap_cur : (saveSnap s).cur = s.cur := rfl
@[simp] theorem saveSnap_firstErr : (saveSnap s).firstErr = s.firstErr := rfl
@[simp] theorem saveSnap_waitUntil : (saveSnap s).waitUntil = s.waitUntil := rfl
@[simp] theorem saveSnap_now : (saveSnap s).now = s.now := rfl
@[simp] theorem saveSnap_trace : (saveSnap s).trace = s.trace := rfl
@[simp] theorem saveSnap_params : (saveSnap s).params = s.params := rfl
@[simp] theorem saveSnap_scratch : (saveSnap s).scratch = s.scratch := rfl
@[simp] theorem saveSnap_env : (saveSnap s).env = s.env := rfl

/-! ### `markSnap` -/

@[simp] theorem markSnap_ds : (markSnap s).ds = s.ds := rfl
@[simp] theorem markSnap_eqEnabled : (markSnap s).eqEnabled = s.eqEnabled := rfl
@[simp] theorem markSnap_eqPreset : (markSnap s).eqPreset = s.eqPreset := rfl
@[simp] theorem markSnap_pinRst : (markSnap s).pinRst = s.pinRst := rfl
@[simp] theorem markSnap_pinPd : (markSnap s).pinPd = s.pinPd := rfl
@[simp] theorem markSnap_snapValid : (markSnap s).snapValid = true := rfl
@[simp] theorem markSnap_snap : (markSnap s).snap = s.snap := rfl
@[simp] theorem markSnap_stage : (markSnap s).stage = s.stage := rfl
@[simp] theorem markSnap_lock : (markSnap s).lock = s.lock := rfl
@[simp] theorem markSnap_hosts : (markSnap s).hosts = s.hosts := rfl
@[simp] theorem markSnap_seqPc : (markSnap s).seqPc = s.seqPc := rfl
@[simp] theorem markSnap_cur : (markSnap s).cur = s.cur := rfl
@[simp] theorem markSnap_firstErr : (markSnap s).firstErr = s.firstErr := rfl
@[simp] theorem markSnap_waitUntil : (markSnap s).waitUntil = s.waitUntil := rfl
@[simp] theorem markSnap_now : (markSnap s).now = s.now := rfl
@[simp] theorem markSnap_trace : (markSnap s).trace = s.trace := rfl
@[simp] theorem markSnap_params : (markSnap s).params = s.params := rfl
@[simp] theorem markSnap_scratch : (markSnap s).scratch = s.scratch := rfl
@[simp] theorem markSnap_env : (markSnap s).env = s.env := rfl

/-! ### `setEqEnabled` -/

@[simp] theorem setEqEnabled_ds (e : Bool) : (setEqEnabled e s).ds = s.ds := rfl
@[simp] theorem setEqEnabled_eqEnabled (e : Bool) : (setEqEnabled e s).eqEnabled = e := rfl
@[simp] theorem setEqEnabled_eqPreset (e : Bool) : (setEqEnabled e s).eqPreset = s.eqPreset := rfl
@[simp] theorem setEqEnabled_pinRst (e : Bool) : (setEqEnabled e s).pinRst = s.pinRst := rfl
@[simp] theorem setEqEnabled_pinPd (e : Bool) : (setEqEnabled e s).pinPd = s.pinPd := rfl
@[simp] theorem setEqEnabled_snapValid (e : Bool) : (setEqEnabled e s).snapValid = s.snapValid := rfl
@[simp] theorem setEqEnabled_snap (e : Bool) : (setEqEnabled e s).snap = s.snap := rfl
@[simp] theorem setEqEnabled_stage (e : Bool) : (setEqEnabled e s).stage = s.stage := rfl
@[simp] theorem setEqEnabled_lock (e : Bool) : (setEqEnabled e s).lock = s.lock := rfl
@[simp] theorem setEqEnabled_hosts (e : Bool) : (setEqEnabled e s).hosts = s.hosts := rfl
@[simp] theorem setEqEnabled_seqPc (e : Bool) : (setEqEnabled e s).seqPc = s.seqPc := rfl
@[simp] theorem setEqEnabled_cur (e : Bool) : (setEqEnabled e s).cur = s.cur := rfl
@[simp] theorem setEqEnabled_firstErr (e : Bool) : (setEqEnabled e s).firstErr = s.firstErr := rfl
@[simp] theorem setEqEnabled_waitUntil (e : Bool) : (setEqEnabled e s).waitUntil = s.waitUntil := rfl
@[simp] theorem setEqEnabled_now (e : Bool) : (setEqEnabled e s).now = s.now := rfl
@[simp] theorem setEqEnabled_trace (e : Bool) : (setEqEnabled e s).trace = s.trace := rfl
@[simp] theorem setEqEnabled_params (e : Bool) : (setEqEnabled e s).params = s.params := rfl
@[simp] theorem setEqEnabled_scratch (e : Bool) : (setEqEnabled e s).scratch = s.scratch := rfl
@[simp] theorem setEqEnabled_env (e : Bool) : (setEqEnabled e s).env = s.env := rfl

/-! ### `setPreset` -/

@[simp] theorem setPreset_ds (i : Byte) : (setPreset i s).ds = s.ds := rfl
@[simp] theorem setPreset_eqEnabled (i : Byte) : (setPreset i s).eqEnabled = s.eqEnabled := rfl
@[simp] theorem setPreset_eqPreset (i : Byte) : (setPreset i s).eqPreset = i := rfl
@[simp] theorem setPreset_pinRst (i : Byte) : (setPreset i s).pinRst = s.pinRst := rfl
@[simp] theorem setPreset_pinPd (i : Byte) : (setPreset i s).pinPd = s.pinPd := rfl
@[simp] theorem setPreset_snapValid (i : Byte) : (setPreset i s).snapValid = s.snapValid := rfl
@[simp] theorem setPreset_snap (i : Byte) : (setPreset i s).snap = s.snap := rfl
@[simp] theorem setPreset_stage (i : Byte) : (setPreset i s).stage = s.stage := rfl
@[simp] theorem setPreset_lock (i : Byte) : (setPreset i s).lock = s.lock := rfl
@[simp] theorem setPreset_hosts (i : Byte) : (setPreset i s).hosts = s.hosts := rfl
@[simp] theorem setPreset_seqPc (i : Byte) : (setPreset i s).seqPc = s.seqPc := rfl
@[simp] theorem setPreset_cur (i : Byte) : (setPreset i s).cur = s.cur := rfl
@[simp] theorem setPreset_firstErr (i : Byte) : (setPreset i s).firstErr = s.firstErr := rfl
@[simp] theorem setPreset_waitUntil (i : Byte) : (setPreset i s).waitUntil = s.waitUntil := rfl
@[simp] theorem setPreset_now (i : Byte) : (setPreset i s).now = s.now := rfl
@[simp] theorem setPreset_trace (i : Byte) : (setPreset i s).trace = s.trace := rfl
@[simp] theorem setPreset_params (i : Byte) : (setPreset i s).params = s.params := rfl
@[simp] theorem setPreset_scratch (i : Byte) : (setPreset i s).scratch = s.scratch := rfl
@[simp] theorem setPreset_env (i : Byte) : (setPreset i s).env = s.env := rfl

/-! ### `advance` -/

@[simp] theorem advance_ds (n : Nat) : (advance n s).ds = s.ds := rfl
@[simp] theorem advance_eqEnabled (n : Nat) : (advance n s).eqEnabled = s.eqEnabled := rfl
@[simp] theorem advance_eqPreset (n : Nat) : (advance n s).eqPreset = s.eqPreset := rfl
@[simp] theorem advance_pinRst (n : Nat) : (advance n s).pinRst = s.pinRst := rfl
@[simp] theorem advance_pinPd (n : Nat) : (advance n s).pinPd = s.pinPd := rfl
@[simp] theorem advance_snapValid (n : Nat) : (advance n s).snapValid = s.snapValid := rfl
@[simp] theorem advance_snap (n : Nat) : (advance n s).snap = s.snap := rfl
@[simp] theorem advance_stage (n : Nat) : (advance n s).stage = s.stage := rfl
@[simp] theorem advance_lock (n : Nat) : (advance n s).lock = s.lock := rfl
@[simp] theorem advance_hosts (n : Nat) : (advance n s).hosts = s.hosts := rfl
@[simp] theorem advance_seqPc (n : Nat) : (advance n s).seqPc = s.seqPc + n := rfl
@[simp] theorem advance_cur (n : Nat) : (advance n s).cur = s.cur := rfl
@[simp] theorem advance_firstErr (n : Nat) : (advance n s).firstErr = s.firstErr := rfl
@[simp] theorem advance_waitUntil (n : Nat) : (advance n s).waitUntil = s.waitUntil := rfl
@[simp] theorem advance_now (n : Nat) : (advance n s).now = s.now := rfl
@[simp] theorem advance_trace (n : Nat) : (advance n s).trace = s.trace := rfl
@[simp] theorem advance_params (n : Nat) : (advance n s).params = s.params := rfl
@[simp] theorem advance_scratch (n : Nat) : (advance n s).scratch = s.scratch := rfl
@[simp] theorem advance_env (n : Nat) : (advance n s).env = s.env := rfl

/-! ### `drawn` -/

@[simp] theorem drawn_ds : (drawn s).ds = s.ds := rfl
@[simp] theorem drawn_eqEnabled : (drawn s).eqEnabled = s.eqEnabled := rfl
@[simp] theorem drawn_eqPreset : (drawn s).eqPreset = s.eqPreset := rfl
@[simp] theorem drawn_pinRst : (drawn s).pinRst = s.pinRst := rfl
@[simp] theorem drawn_pinPd : (drawn s).pinPd = s.pinPd := rfl
@[simp] theorem drawn_snapValid : (drawn s).snapValid = s.snapValid := rfl
@[simp] theorem drawn_snap : (drawn s).snap = s.snap := rfl
@[simp] theorem drawn_stage : (drawn s).stage = s.stage := rfl
@[simp] theorem drawn_lock : (drawn s).lock = s.lock := rfl
@[simp] theorem drawn_hosts : (drawn s).hosts = s.hosts := rfl
@[simp] theorem drawn_seqPc : (drawn s).seqPc = s.seqPc := rfl
@[simp] theorem drawn_cur : (drawn s).cur = s.cur := rfl
@[simp] theorem drawn_firstErr : (drawn s).firstErr = s.firstErr := rfl
@[simp] theorem drawn_waitUntil : (drawn s).waitUntil = s.waitUntil := rfl
@[simp] theorem drawn_now : (drawn s).now = s.now := rfl
@[simp] theorem drawn_trace : (drawn s).trace = s.trace := rfl
@[simp] theorem drawn_params : (drawn s).params = s.params := rfl
@[simp] theorem drawn_scratch : (drawn s).scratch = s.scratch := rfl
@[simp] theorem drawn_env : (drawn s).env = { s.env with device := s.env.device.tail } := rfl

/-! ### `awaiting` -/

@[simp] theorem awaiting_ds : (awaiting s).ds = s.ds := rfl
@[simp] theorem awaiting_eqEnabled : (awaiting s).eqEnabled = s.eqEnabled := rfl
@[simp] theorem awaiting_eqPreset : (awaiting s).eqPreset = s.eqPreset := rfl
@[simp] theorem awaiting_pinRst : (awaiting s).pinRst = s.pinRst := rfl
@[simp] theorem awaiting_pinPd : (awaiting s).pinPd = s.pinPd := rfl
@[simp] theorem awaiting_snapValid : (awaiting s).snapValid = s.snapValid := rfl
@[simp] theorem awaiting_snap : (awaiting s).snap = s.snap := rfl
@[simp] theorem awaiting_stage : (awaiting s).stage = s.stage := rfl
@[simp] theorem awaiting_lock : (awaiting s).lock = s.lock := rfl
@[simp] theorem awaiting_hosts : (awaiting s).hosts = s.hosts := rfl
@[simp] theorem awaiting_seqPc : (awaiting s).seqPc = s.seqPc := rfl
@[simp] theorem awaiting_cur : (awaiting s).cur = s.cur := rfl
@[simp] theorem awaiting_firstErr : (awaiting s).firstErr = s.firstErr := rfl
@[simp] theorem awaiting_waitUntil : (awaiting s).waitUntil = s.waitUntil := rfl
@[simp] theorem awaiting_now : (awaiting s).now = s.now := rfl
@[simp] theorem awaiting_trace : (awaiting s).trace = s.trace := rfl
@[simp] theorem awaiting_params : (awaiting s).params = s.params := rfl
@[simp] theorem awaiting_scratch : (awaiting s).scratch = { s.scratch with outstanding := true } := rfl
@[simp] theorem awaiting_env : (awaiting s).env = s.env := rfl

/-! ### `drawBytes` -/

@[simp] theorem drawBytes_ds (n : Nat) : (drawBytes n s).2.ds = s.ds := rfl
@[simp] theorem drawBytes_eqEnabled (n : Nat) : (drawBytes n s).2.eqEnabled = s.eqEnabled := rfl
@[simp] theorem drawBytes_eqPreset (n : Nat) : (drawBytes n s).2.eqPreset = s.eqPreset := rfl
@[simp] theorem drawBytes_pinRst (n : Nat) : (drawBytes n s).2.pinRst = s.pinRst := rfl
@[simp] theorem drawBytes_pinPd (n : Nat) : (drawBytes n s).2.pinPd = s.pinPd := rfl
@[simp] theorem drawBytes_snapValid (n : Nat) : (drawBytes n s).2.snapValid = s.snapValid := rfl
@[simp] theorem drawBytes_snap (n : Nat) : (drawBytes n s).2.snap = s.snap := rfl
@[simp] theorem drawBytes_stage (n : Nat) : (drawBytes n s).2.stage = s.stage := rfl
@[simp] theorem drawBytes_lock (n : Nat) : (drawBytes n s).2.lock = s.lock := rfl
@[simp] theorem drawBytes_hosts (n : Nat) : (drawBytes n s).2.hosts = s.hosts := rfl
@[simp] theorem drawBytes_seqPc (n : Nat) : (drawBytes n s).2.seqPc = s.seqPc := rfl
@[simp] theorem drawBytes_cur (n : Nat) : (drawBytes n s).2.cur = s.cur := rfl
@[simp] theorem drawBytes_firstErr (n : Nat) : (drawBytes n s).2.firstErr = s.firstErr := rfl
@[simp] theorem drawBytes_waitUntil (n : Nat) : (drawBytes n s).2.waitUntil = s.waitUntil := rfl
@[simp] theorem drawBytes_now (n : Nat) : (drawBytes n s).2.now = s.now := rfl
@[simp] theorem drawBytes_trace (n : Nat) : (drawBytes n s).2.trace = s.trace := rfl
@[simp] theorem drawBytes_params (n : Nat) : (drawBytes n s).2.params = s.params := rfl
@[simp] theorem drawBytes_scratch (n : Nat) : (drawBytes n s).2.scratch = s.scratch := rfl
@[simp] theorem drawBytes_env (n : Nat) : (drawBytes n s).2.env = { s.env with draws := s.env.draws + n } := rfl

/-! ### `blockReset` -/

@[simp] theorem blockReset_ds : (blockReset s).ds = .uninitialized := rfl
@[simp] theorem blockReset_eqEnabled : (blockReset s).eqEnabled = true := rfl
@[simp] theorem blockReset_eqPreset : (blockReset s).eqPreset = s.params.cfg.initialPresetIndex := rfl
@[simp] theorem blockReset_pinRst : (blockReset s).pinRst = .z := rfl
@[simp] theorem blockReset_pinPd : (blockReset s).pinPd = .z := rfl
@[simp] theorem blockReset_snapValid : (blockReset s).snapValid = false := rfl
@[simp] theorem blockReset_snap : (blockReset s).snap = #v[0, 0, 0, 0] := rfl
@[simp] theorem blockReset_stage : (blockReset s).stage = [] := rfl
@[simp] theorem blockReset_lock : (blockReset s).lock = none := rfl
@[simp] theorem blockReset_hosts : (blockReset s).hosts = List.replicate s.params.numHosts .idle := rfl
@[simp] theorem blockReset_seqPc : (blockReset s).seqPc = 0 := rfl
@[simp] theorem blockReset_cur : (blockReset s).cur = 0 := rfl
@[simp] theorem blockReset_firstErr : (blockReset s).firstErr = none := rfl
@[simp] theorem blockReset_waitUntil : (blockReset s).waitUntil = 0 := rfl
@[simp] theorem blockReset_now : (blockReset s).now = s.now := rfl
@[simp] theorem blockReset_trace : (blockReset s).trace = s.trace ++ [.reset s.now] := rfl
@[simp] theorem blockReset_params : (blockReset s).params = s.params := rfl
@[simp] theorem blockReset_scratch : (blockReset s).scratch = .empty := rfl
@[simp] theorem blockReset_env : (blockReset s).env = s.env := rfl

/-! ### `placeCommand` -/

@[simp] theorem placeCommand_ds (h : Nat) (w : Word32) : (placeCommand h w s).ds = s.ds := rfl
@[simp] theorem placeCommand_eqEnabled (h : Nat) (w : Word32) : (placeCommand h w s).eqEnabled = s.eqEnabled := rfl
@[simp] theorem placeCommand_eqPreset (h : Nat) (w : Word32) : (placeCommand h w s).eqPreset = s.eqPreset := rfl
@[simp] theorem placeCommand_pinRst (h : Nat) (w : Word32) : (placeCommand h w s).pinRst = s.pinRst := rfl
@[simp] theorem placeCommand_pinPd (h : Nat) (w : Word32) : (placeCommand h w s).pinPd = s.pinPd := rfl
@[simp] theorem placeCommand_snapValid (h : Nat) (w : Word32) : (placeCommand h w s).snapValid = s.snapValid := rfl
@[simp] theorem placeCommand_snap (h : Nat) (w : Word32) : (placeCommand h w s).snap = s.snap := rfl
@[simp] theorem placeCommand_stage (h : Nat) (w : Word32) : (placeCommand h w s).stage = s.stage := rfl
@[simp] theorem placeCommand_lock (h : Nat) (w : Word32) : (placeCommand h w s).lock = none := rfl
@[simp] theorem placeCommand_hosts (h : Nat) (w : Word32) : (placeCommand h w s).hosts = placeWord h w s.hosts := rfl
@[simp] theorem placeCommand_seqPc (h : Nat) (w : Word32) : (placeCommand h w s).seqPc = s.seqPc := rfl
@[simp] theorem placeCommand_cur (h : Nat) (w : Word32) : (placeCommand h w s).cur = s.cur := rfl
@[simp] theorem placeCommand_firstErr (h : Nat) (w : Word32) : (placeCommand h w s).firstErr = s.firstErr := rfl
@[simp] theorem placeCommand_waitUntil (h : Nat) (w : Word32) : (placeCommand h w s).waitUntil = s.waitUntil := rfl
@[simp] theorem placeCommand_now (h : Nat) (w : Word32) : (placeCommand h w s).now = s.now := rfl
@[simp] theorem placeCommand_trace (h : Nat) (w : Word32) : (placeCommand h w s).trace = s.trace := rfl
@[simp] theorem placeCommand_params (h : Nat) (w : Word32) : (placeCommand h w s).params = s.params := rfl
@[simp] theorem placeCommand_scratch (h : Nat) (w : Word32) : (placeCommand h w s).scratch = s.scratch := rfl
@[simp] theorem placeCommand_env (h : Nat) (w : Word32) : (placeCommand h w s).env = { s.env with world := [] :: s.env.world } := rfl

end Sys2Proof.Machine
end

