-- ==== Sys2Proof/Laws/Stage.lean ====
section
/-! SUPPORT. The staging buffer: read after write, and the canonical form kept by every operation. -/

namespace Sys2Proof.Machine

/-- Reading a byte after a host wrote it gives that byte; every other byte reads as before. -/
theorem Stage.read_write (m : List Host.Cell) (i j : Nat) (v : Byte) (hm : m.Pairwise fun c d => c.1 < d.1) :
    Stage.read (Stage.write m i v) j = if j = i then some v else Stage.read m j := by
  induction m with
  | nil => simp only [Stage.write, Stage.read, List.lookup]; split <;> simp_all
  | cons c rest ih =>
    obtain ⟨a, b⟩ := c
    have hrest := (List.pairwise_cons.1 hm).2
    have hlt := (List.pairwise_cons.1 hm).1
    simp only [Stage.write]
    split
    · simp only [Stage.read, List.lookup]; split <;> simp_all
    · split
      · subst_vars; simp only [Stage.read, List.lookup]; split <;> simp_all
      · rename_i h1 h2
        have hih := ih hrest
        simp only [Stage.read, List.lookup] at hih ⊢
        split
        · rename_i h3
          have : j = a := by simpa using h3
          subst this
          simp [Ne.symm h2]
        · exact hih

/-- The addresses a write can list. -/
theorem Stage.mem_write {m : List Host.Cell} {i : Nat} {v : Byte} {c : Host.Cell}
    (h : c ∈ Stage.write m i v) : c.1 = i ∨ c ∈ m := by
  induction m with
  | nil => simp_all [Stage.write]
  | cons d rest ih =>
    simp only [Stage.write] at h
    split at h
    · rcases List.mem_cons.1 h with rfl | h
      · exact .inl rfl
      · exact .inr h
    · split at h
      · rcases List.mem_cons.1 h with rfl | h
        · exact .inl rfl
        · exact .inr (List.mem_cons_of_mem _ h)
      · rcases List.mem_cons.1 h with rfl | h
        · exact .inr List.mem_cons_self
        · rcases ih h with h | h
          · exact .inl h
          · exact .inr (List.mem_cons_of_mem _ h)

theorem Stage.pairwise_write {m : List Host.Cell} (i : Nat) (v : Byte) (hm : m.Pairwise fun c d => c.1 < d.1) :
    (Stage.write m i v).Pairwise fun c d => c.1 < d.1 := by
  induction m with
  | nil => simp [Stage.write]
  | cons d rest ih =>
    have hrest := (List.pairwise_cons.1 hm).2
    have hlt := (List.pairwise_cons.1 hm).1
    simp only [Stage.write]
    split
    · rename_i h
      refine List.pairwise_cons.2 ⟨fun c hc => ?_, hm⟩
      rcases List.mem_cons.1 hc with rfl | hc
      · exact h
      · exact Nat.lt_trans h (hlt c hc)
    · split
      · subst_vars; exact List.pairwise_cons.2 ⟨hlt, hrest⟩
      · rename_i h1 h2
        refine List.pairwise_cons.2 ⟨fun c hc => ?_, ih hrest⟩
        rcases Stage.mem_write hc with h | h
        · omega
        · exact hlt c h

theorem Stage.wf_iff (m : List Host.Cell) :
    Stage.wf m = true ↔ (m.Pairwise fun c d => c.1 < d.1) ∧ ∀ c ∈ m, c.1 < Config.stageBytes := by
  simp [Stage.wf]

/-- A write at an offset of the stage port keeps the canonical form. -/
theorem Stage.wf_write {m : List Host.Cell} (i : StageIx) (v : Byte) (hm : Stage.wf m = true) :
    Stage.wf (Stage.write m i.toNat v) = true := by
  rw [Stage.wf_iff] at hm ⊢
  refine ⟨Stage.pairwise_write _ _ hm.1, fun c hc => ?_⟩
  rcases Stage.mem_write hc with h | h
  · have := i.isLt; simp only [Config.stageBytes]; omega
  · exact hm.2 c h

theorem Stage.wf_reset : Stage.wf State.reset.stage = true := by decide

end Sys2Proof.Machine
end

