-- ==== Sys2Proof/Laws/World.lean ====
section
/-! SUPPORT. What the other agents can do between two micro-steps: everything `applyAct`, `agentsAct` and `settled` can
change, said once. -/

namespace Sys2Proof.Machine

/-- `t` is `s` after acts of hosts and Time alone: no field of the block's own has changed, `now` has not gone back,
the stage has kept its form, and the ports of the host that holds the lock are as they were. -/
structure Passes (s t : State) : Prop where
  ds : t.ds = s.ds
  eqEnabled : t.eqEnabled = s.eqEnabled
  eqPreset : t.eqPreset = s.eqPreset
  pinRst : t.pinRst = s.pinRst
  pinPd : t.pinPd = s.pinPd
  snapValid : t.snapValid = s.snapValid
  snap : t.snap = s.snap
  lock : t.lock = s.lock
  seqPc : t.seqPc = s.seqPc
  cur : t.cur = s.cur
  firstErr : t.firstErr = s.firstErr
  waitUntil : t.waitUntil = s.waitUntil
  trace : t.trace = s.trace
  params : t.params = s.params
  scratch : t.scratch = s.scratch
  env : t.env = s.env
  now : s.now ≤ t.now
  count : t.hosts.length = s.hosts.length
  stage : Stage.wf s.stage = true → Stage.wf t.stage = true
  holder : ∀ h, s.lock = some h → respAt t h = respAt s h

theorem Passes.refl (s : State) : Passes s s := by constructor <;> simp

theorem Passes.trans {s t u : State} (a : Passes s t) (b : Passes t u) : Passes s u := by
  constructor
  case now => exact a.now.trans b.now
  case stage => exact fun h => b.stage (a.stage h)
  case holder => exact fun h e => (b.holder h (a.lock ▸ e)).trans (a.holder h e)
  all_goals first
    | exact b.ds.trans a.ds | exact b.eqEnabled.trans a.eqEnabled | exact b.eqPreset.trans a.eqPreset
    | exact b.pinRst.trans a.pinRst | exact b.pinPd.trans a.pinPd | exact b.snapValid.trans a.snapValid
    | exact b.snap.trans a.snap | exact b.lock.trans a.lock | exact b.seqPc.trans a.seqPc
    | exact b.cur.trans a.cur | exact b.firstErr.trans a.firstErr | exact b.waitUntil.trans a.waitUntil
    | exact b.trace.trans a.trace | exact b.params.trans a.params | exact b.scratch.trans a.scratch
    | exact b.env.trans a.env | exact b.count.trans a.count

theorem tick_passes (d : Nat) (s : State) : Passes s (tick d s) := by
  constructor <;> simp [respAt]

theorem hostStageWrite_passes (i : StageIx) (v : Byte) (s : State) : Passes s (hostStageWrite i v s) := by
  constructor <;> try simp
  case count => simp [hostStageWrite]
  case stage => exact Stage.wf_write i v
  case holder =>
    intro h _
    simp only [respAt, hostStageWrite, List.getElem?_mapIdx]
    cases s.hosts[h]? with
    | none => rfl
    | some p => simp only [Option.map_some, Option.bind_some]; split <;> rfl

theorem issue_passes (h : Nat) (w : Word32) (s : State) : Passes s (issue h w s) := by
  constructor <;> try simp
  case count => unfold issue; split <;> simp
  case holder =>
    intro g hg
    unfold issue
    split
    · rename_i hr
      have hne : g ≠ h := by
        rintro rfl
        unfold issueReady at hr
        split at hr <;> simp_all
      simp only [respAt, List.getElem?_set]
      rw [if_neg (Ne.symm hne)]
    · rfl

/-- Every act but a block reset only passes. -/
theorem applyAct_passes {a : Act} (ha : a ≠ .reset) (s : State) : Passes s (applyAct a s) := by
  cases a with
  | tick d => exact tick_passes d s
  | stageWrite i v => exact hostStageWrite_passes i v s
  | issue h w => exact issue_passes h w s
  | reset => exact absurd rfl ha

theorem applyActs_passes {acts : List Act} (h : .reset ∉ acts) (s : State) : Passes s (applyActs acts s) := by
  induction acts generalizing s with
  | nil => exact .refl s
  | cons a rest ih =>
    simp only [List.mem_cons, not_or] at h
    exact (applyAct_passes (Ne.symm h.1) s).trans (ih h.2 _)

theorem calm_iff (s : State) : calm s = true ↔ .reset ∉ actsNow s := by simp [calm]

theorem agentsAct_passes {s : State} (h : calm s = true) : Passes (nextSlot s) (agentsAct s) :=
  applyActs_passes ((calm_iff s).1 h) _

/-! ### `noReset` and `onlyTime` are about the world alone -/

theorem noReset_congr {s t : State} (h : t.env.world = s.env.world) : noReset t = noReset s := by
  simp [noReset, h]

theorem onlyTime_congr {s t : State} (h : t.env.world = s.env.world) : onlyTime t = onlyTime s := by
  simp [onlyTime, h]

theorem noReset_of_onlyTime {s : State} (h : onlyTime s = true) : noReset s = true := by
  simp only [onlyTime, noReset, List.all_eq_true] at h ⊢
  intro acts ha
  have := h acts ha
  simp only [Bool.not_eq_true', List.contains_eq_mem, decide_eq_false_iff_not]
  exact fun hr => by simpa [Act.isTick] using this _ hr

theorem calm_of_noReset {s : State} (h : noReset s = true) : calm s = true := by
  simp only [calm, actsNow, noReset] at h ⊢
  cases hw : s.env.world with
  | nil => simp
  | cons a rest => simp_all

theorem noReset_nextSlot {s : State} (h : noReset s = true) : noReset (nextSlot s) = true := by
  simp only [noReset, nextSlot_env, List.all_eq_true] at h ⊢
  exact fun a ha => h a (List.mem_of_mem_tail ha)

theorem onlyTime_nextSlot {s : State} (h : onlyTime s = true) : onlyTime (nextSlot s) = true := by
  simp only [onlyTime, nextSlot_env, List.all_eq_true] at h ⊢
  exact fun a ha => h a (List.mem_of_mem_tail ha)

theorem noReset_settled {s : State} (h : noReset s = true) : noReset (settled s) = true := by
  have := agentsAct_passes (calm_of_noReset h)
  rw [noReset_congr (s := nextSlot s) (by simp [settled, this.env])]
  exact noReset_nextSlot h

/-- Where nothing resets the block, the state of the next micro-step has passed from this one, and stands at or after
`wait_until` (R43). -/
structure Settles (s t : State) : Prop where
  passes : Passes (nextSlot s) t
  ready : s.waitUntil ≤ t.now

theorem settled_spec {s : State} (h : calm s = true) : Settles s (settled s) := by
  have a := agentsAct_passes h
  refine ⟨?_, ?_⟩
  · refine a.trans ?_
    constructor <;> simp [settled, respAt]
  · have hw : (agentsAct s).waitUntil = s.waitUntil := by simpa using a.waitUntil
    simp [settled, hw]

/-- A micro-step is taken in the settled state where no block reset comes (R162). -/
theorem microStep_calm {s : State} (h : calm s = true) (k : State → State) : microStep s k = k (settled s) := by
  have h' : (actsNow s).contains .reset = false := by simpa [calm] using h
  simp only [microStep, boundary, h', Bool.false_eq_true, if_false]

/-- A block reset before a micro-step abandons the command (R162). -/
theorem microStep_reset {s : State} (h : calm s = false) (k : State → State) : microStep s k = agentsAct s := by
  have h' : (actsNow s).contains .reset = true := by simpa [calm] using h
  simp only [microStep, boundary, h', if_true]

/-- What holds of the settled state for every continuation, and of the state an abandoned command leaves, holds of the
micro-step. -/
theorem microStep_ind {s : State} {k : State → State} {Q : State → Prop}
    (hk : calm s = true → Q (k (settled s))) (ha : calm s = false → Q (agentsAct s)) : Q (microStep s k) := by
  cases h : calm s with
  | true => rw [microStep_calm h]; exact hk h
  | false => rw [microStep_reset h]; exact ha h

/-! ### Only time passing -/

/-- `t` is `s` after time alone has passed. -/
structure Ticks (s t : State) : Prop where
  passes : Passes s t
  hosts : t.hosts = s.hosts
  stage : t.stage = s.stage

theorem Ticks.refl (s : State) : Ticks s s := ⟨.refl s, rfl, rfl⟩

theorem Ticks.trans {s t u : State} (a : Ticks s t) (b : Ticks t u) : Ticks s u :=
  ⟨a.passes.trans b.passes, b.hosts.trans a.hosts, b.stage.trans a.stage⟩

theorem applyActs_ticks {acts : List Act} (h : acts.all Act.isTick = true) (s : State) : Ticks s (applyActs acts s) := by
  induction acts generalizing s with
  | nil => exact .refl s
  | cons a rest ih =>
    simp only [List.all_cons, Bool.and_eq_true] at h
    cases a with
    | tick d => exact Ticks.trans (t := tick d s) ⟨tick_passes d s, by simp, by simp⟩ (ih h.2 _)
    | stageWrite i v => simp [Act.isTick] at h
    | issue g w => simp [Act.isTick] at h
    | reset => simp [Act.isTick] at h

theorem settled_ticks {s : State} (h : onlyTime s = true) : Ticks (nextSlot s) (settled s) := by
  have ha : (actsNow s).all Act.isTick = true := by
    simp only [onlyTime, actsNow] at h ⊢
    cases hw : s.env.world with
    | nil => simp
    | cons a rest => simp_all
  have a : Ticks (nextSlot s) (agentsAct s) := applyActs_ticks ha _
  exact ⟨(settled_spec (calm_of_noReset (noReset_of_onlyTime h))).passes, by simp [settled, a.hosts],
    by simp [settled, a.stage]⟩

theorem onlyTime_settled {s : State} (h : onlyTime s = true) : onlyTime (settled s) = true := by
  rw [onlyTime_congr (s := nextSlot s) (by rw [(settled_ticks h).passes.env])]
  exact onlyTime_nextSlot h

end Sys2Proof.Machine
end

