-- ==== Sys2Proof/Laws/Ops.lean ====
section
/-! SUPPORT. The shared operations: what each answers, said once. -/

namespace Sys2Proof.Machine

/-! ### Completion -/

theorem respAt_congr {s t : State} (h : t.hosts = s.hosts) (j : Nat) : respAt t j = respAt s j := by
  simp [respAt, h]

/-- Completion posts the response to the host that holds the lock, frees the lock, and leaves every other host alone
(R134). -/
theorem complete_spec {s : State} {h : Nat} (hl : s.lock = some h) (hh : h < s.hosts.length) :
    respAt (complete s) h = some (responseOf s) ∧
    (complete s).trace =
      s.trace ++ [.resp h (responseOf s).status (responseOf s).info (responseOf s).data s.now] ∧
    (∀ j, j ≠ h → (complete s).hosts[j]? = s.hosts[j]?) ∧ (complete s).hosts.length = s.hosts.length := by
  simp only [complete, hl]
  refine ⟨?_, rfl, fun j hj => ?_, by simp⟩
  · simp [respAt, hh]
  · simp [Ne.symm hj]

theorem responseOf_ok {s : State} (h : s.firstErr = none) : responseOf s = ⟨.ok, 0, s.scratch.data⟩ := by
  simp [responseOf, h]

theorem responseOf_err {s : State} {e : Err} (h : s.firstErr = some e) : responseOf s = ⟨e.code, e.info, []⟩ := by
  simp [responseOf, h]

/-! ### Transactions (R23, R24, R103) -/

/-- Everything a MemWrite can answer: nothing where the Device has not answered, else one Xfer event. -/
theorem memWrite_cases (a : Byte) (v : Bytes) (s : State) :
    memWrite a v s = .ok [] (emit (.xfer .write a v true s.now) (drawn s)) ∨
    memWrite a v s = .fail (emit (.xfer .write a v false s.now) (drawn s)) ∨
    memWrite a v s = .waiting s ∨ memWrite a v s = .waiting (awaiting (drawn s)) := by
  cases ho : s.scratch.outstanding with
  | true => simp [memWrite, transact, ho]
  | false => cases ha : nextAnswer s <;> simp [memWrite, transact, ho, ha, drawn]

theorem memWrite_ok {s : State} {b : Bytes} (a : Byte) (v : Bytes) (ho : s.scratch.outstanding = false)
    (ha : nextAnswer s = .ok b) : memWrite a v s = .ok [] (emit (.xfer .write a v true s.now) (drawn s)) := by
  simp [memWrite, transact, ho, ha, drawn]

theorem memWrite_fail {s : State} (a : Byte) (v : Bytes) (ho : s.scratch.outstanding = false)
    (ha : nextAnswer s = .fail) : memWrite a v s = .fail (emit (.xfer .write a v false s.now) (drawn s)) := by
  simp [memWrite, transact, ho, ha, drawn]

theorem readBytes_length (n : Nat) (data : Bytes) (s : State) : (readBytes n data s).1.length = n := by
  simp only [readBytes, drawBytes, List.length_append, List.length_take, List.length_map, List.length_range]
  omega

/-- An answer of the register's width is what the read returns. -/
theorem readBytes_exact {data : Bytes} (s : State) : (readBytes data.length data s).1 = data := by
  simp [readBytes, drawBytes]

/-- Everything a MemRead can answer. -/
theorem memRead_cases (a : Byte) (n : Nat) (s : State) :
    (∃ b, b.length = n ∧ ∃ d, memRead a n s = .ok b (emit (.xfer .read a b true s.now) (drawBytes d (drawn s)).2)) ∨
    memRead a n s = .fail (emit (.xfer .read a [] false s.now) (drawn s)) ∨
    memRead a n s = .waiting s ∨ memRead a n s = .waiting (awaiting (drawn s)) := by
  cases ho : s.scratch.outstanding with
  | true => simp [memRead, transact, ho]
  | false =>
    cases ha : nextAnswer s with
    | ok data =>
      refine .inl ⟨(readBytes n data (drawn s)).1, readBytes_length _ _ _, n - data.length, ?_⟩
      simp [memRead, transact, ho, ha, readBytes, drawn]
    | fail => simp [memRead, transact, ho, ha, drawn]
    | silent => simp [memRead, transact, ho, ha]

theorem memRead_ok {s : State} {b : Bytes} (a : Byte) (ho : s.scratch.outstanding = false)
    (ha : nextAnswer s = .ok b) :
    memRead a b.length s = .ok b (emit (.xfer .read a b true s.now) (drawBytes 0 (drawn s)).2) := by
  simp [memRead, transact, ho, ha, readBytes, drawn, drawBytes]

theorem memRead_fail {s : State} (a : Byte) (n : Nat) (ho : s.scratch.outstanding = false)
    (ha : nextAnswer s = .fail) : memRead a n s = .fail (emit (.xfer .read a [] false s.now) (drawn s)) := by
  simp [memRead, transact, ho, ha, drawn]

/-! ### Reads of the stage (R27, R36, R64) -/

theorem stageByte_known {s : State} {i : Nat} {b : Byte} (h : stageValue s i = some b) : stageByte i s = (b, s) := by
  simp [stageByte, h]

theorem stageRead_length (i n : Nat) (s : State) : (stageRead i n s).1.length = n := by
  induction n generalizing i s with
  | zero => rfl
  | succ n ih => simp [stageRead, ih]

/-- Where every byte has a value, the stage reads as those values and nothing is drawn. -/
theorem stageRead_known {s : State} {i : Nat} {v : Bytes} (h : ∀ k < v.length, stageValue s (i + k) = v[k]?) :
    stageRead i v.length s = (v, s) := by
  induction v generalizing i with
  | nil => rfl
  | cons b rest ih =>
    have h0 := h 0 (by simp)
    have hr := ih (i := i + 1) fun k hk => by
      have := h (k + 1) (by simpa using hk)
      rw [Nat.add_assoc, Nat.add_comm 1 k]
      simpa using this
    simp only [List.length_cons, stageRead, stageByte_known (by simpa using h0), hr]

/-- The state with `n` draws behind it. -/
def withDraws (n : Nat) (s : State) : State := { s with env := { s.env with draws := n } }

/-- A stage read changes nothing but the count of draws. -/
theorem stageRead_state (i n : Nat) (s : State) : (stageRead i n s).2 = withDraws (stageRead i n s).2.env.draws s := by
  induction n generalizing i s with
  | zero => rfl
  | succ n ih =>
    simp only [stageRead]
    rw [ih]
    unfold stageByte
    split <;> rfl

/-- What a stage read gives and draws depends on the ports, the stage, the lock and the draws alone. -/
theorem stageRead_congr {s t : State} (hl : t.lock = s.lock) (hh : t.hosts = s.hosts) (hs : t.stage = s.stage)
    (he : t.env.draws = s.env.draws) (i n : Nat) :
    (stageRead i n t).1 = (stageRead i n s).1 ∧ (stageRead i n t).2.env.draws = (stageRead i n s).2.env.draws := by
  have hv : ∀ {s t : State}, t.lock = s.lock → t.hosts = s.hosts → t.stage = s.stage →
      ∀ j, stageValue t j = stageValue s j := by
    intro s t a b c j
    have hr : racedNow t = racedNow s := by unfold racedNow; rw [a, b]
    simp only [stageValue, hr, c]
  induction n generalizing i s t with
  | zero => exact ⟨rfl, he⟩
  | succ n ih =>
    have e := hv hl hh hs i
    simp only [stageRead, stageByte, e]
    cases hq : stageValue s i with
    | some b => exact ⟨congrArg _ (ih hl hh hs he (i + 1)).1, (ih hl hh hs he (i + 1)).2⟩
    | none =>
      simp only [he]
      have := ih (s := withDraws (s.env.draws + 1) s) (t := withDraws (s.env.draws + 1) t) hl hh hs rfl (i + 1)
      exact ⟨congrArg _ this.1, this.2⟩

/-! ### Grant (R132) -/

theorem mem_candidates {s : State} {h : Nat} {w : Word32} :
    (h, w) ∈ candidates s ↔ ∃ p, s.hosts[h]? = some p ∧ p.pending = some w := by
  simp only [candidates, List.mem_filterMap, Option.map_eq_some_iff, Prod.mk.injEq, Prod.exists,
    List.mem_zipIdx_iff_getElem?]
  constructor
  · rintro ⟨p, j, hp, w', hw, rfl, rfl⟩
    exact ⟨p, hp, hw⟩
  · rintro ⟨p, hp, hw⟩
    exact ⟨p, h, hp, w, hw, rfl, rfl⟩

/-- The command granted is one that waits. -/
theorem nextCommand_some {s : State} {h : Nat} {w : Word32} (e : nextCommand s = some (h, w)) :
    ∃ p, s.hosts[h]? = some p ∧ p.pending = some w :=
  mem_candidates.1 (List.mem_of_getElem? e)

/-- Nothing is granted exactly where no host waits. -/
theorem nextCommand_none {s : State} : nextCommand s = none ↔ ∀ p ∈ s.hosts, p.pending = none := by
  have hc : nextCommand s = none ↔ candidates s = [] := by
    unfold nextCommand
    cases hl : candidates s with
    | nil => simp
    | cons c rest =>
      have : s.env.picks.headD 0 % (c :: rest).length < (c :: rest).length := Nat.mod_lt _ (by simp)
      rw [List.getElem?_eq_getElem this]
      simp
  rw [hc]
  constructor
  · intro e p hp
    obtain ⟨j, hj⟩ := List.getElem?_of_mem hp
    cases hw : p.pending with
    | none => rfl
    | some w => simpa [e] using mem_candidates.2 ⟨p, hj, hw⟩
  · intro h
    refine List.eq_nil_iff_forall_not_mem.2 fun c hc => ?_
    obtain ⟨p, hp, hw⟩ := mem_candidates.1 (show (c.1, c.2) ∈ candidates s from hc)
    simp [h p (List.mem_of_getElem? hp)] at hw

/-! ### The register map (R10) -/

theorem regmap_coefficient (p : Params) {a : Byte} {w : Width} (h : coefficientWidth a = some w) :
    regmap p a = some w.bytes := by simp [regmap, h]

theorem regmap_eq (p : Params) {a : Byte} (h : a ∈ eqAddrs) : regmap p a = some 20 := by
  simp [regmap, coefficientWidth, h, Width.bytes]

theorem regmap_drcMain (p : Params) : ∀ {a : Byte}, a ∈ drcMainAddrs → regmap p a = some 8 := by
  intro a h
  have h' : a ∉ eqAddrs := by revert a; decide
  simp [regmap, coefficientWidth, h, h', Width.bytes]

theorem regmap_drcTko (p : Params) : ∀ {a : Byte}, a ∈ drcTkoAddrs → regmap p a = some 4 := by
  intro a h
  have h' : a ∉ eqAddrs ∧ a ∉ drcMainAddrs := by revert a; decide
  simp [regmap, coefficientWidth, h, h'.1, h'.2, Width.bytes]

/-! ### Images (R117, R118) -/

theorem slice_length {b : Bytes} {i n : Nat} (h : i + n ≤ b.length) : (slice b i n).length = n := by
  simp [slice]; omega

theorem loadEq_some {blob : Bytes} (h : blob.length = 360) :
    loadEq blob = some (eqAddrs.zipIdx.map fun q => (q.1, slice blob (20 * q.2) 20)) := by
  simp [loadEq, h, Config.eqBlobBytes]

theorem loadEq_none {blob : Bytes} (h : blob.length ≠ 360) : loadEq blob = none := by
  simp [loadEq, h, Config.eqBlobBytes]

/-- The addresses of an EQ image are the table's (R116). -/
theorem loadEq_addrs {blob : Bytes} {img : Image} (h : loadEq blob = some img) : img.map Prod.fst = eqAddrs := by
  simp only [loadEq] at h
  split at h
  · obtain rfl := Option.some.inj h
    rw [List.map_map]
    exact List.zipIdx_map_fst 0 eqAddrs
  · cases h

/-- The addresses of a DRC image are the table's (R116). -/
theorem loadDrc_addrs {main tko : Bytes} {img : Image} (h : loadDrc main tko = some img) :
    img.map Prod.fst = drcAddrs := by
  simp only [loadDrc] at h
  split at h
  · obtain rfl := Option.some.inj h
    rw [List.map_append, List.map_map, List.map_map]
    exact congrArg₂ (· ++ ·) (List.zipIdx_map_fst 0 drcMainAddrs) (List.zipIdx_map_fst 0 drcTkoAddrs)
  · cases h

/-! ### ParsePatch (R127, R128) -/

theorem byteTokens_length {n : Nat} {t b : Bytes} (h : byteTokens n t = some b) : b.length = n := by
  induction n generalizing t b with
  | zero => simp_all [byteTokens]
  | succ n ih =>
    simp only [byteTokens] at h
    split at h
    · cases h
    · obtain ⟨c, hc, rfl⟩ := Option.map_eq_some_iff.1 h
      simp [ih hc]

/-- A block that was read has its register's width. -/
theorem patchBlock_length {a : Byte} {t b : Bytes} (p : Params) (h : patchBlock a t = some b) :
    regmap p a = some b.length := by
  simp only [patchBlock] at h
  split at h
  · rename_i w _ hw
    rw [regmap_coefficient p hw, byteTokens_length h]
  · cases h

theorem patchBlocks_ok {t : Bytes} {as : List Byte} {img : Image} (h : patchBlocks t as = .ok img) :
    img.map Prod.fst = as ∧ ∀ q ∈ img, patchBlock q.1 t = some q.2 := by
  induction as generalizing img with
  | nil => simp only [patchBlocks, Except.ok.injEq] at h; subst h; simp
  | cons a rest ih =>
    simp only [patchBlocks] at h
    split at h
    · cases h
    · rename_i b hb
      split at h
      · cases h
      · rename_i bs hbs
        obtain rfl := Except.ok.inj h
        obtain ⟨h1, h2⟩ := ih hbs
        refine ⟨by simp [h1], fun q hq => ?_⟩
        rcases List.mem_cons.1 hq with rfl | hq
        · exact hb
        · exact h2 q hq

/-- The addresses ParsePatch reads are the marker set's, each with the block its marker heads. -/
theorem parsePatch_ok {t : Bytes} {img : Image} (h : parsePatch t = .ok img) :
    img.map Prod.fst = patchMarkers ∧ ∀ q ∈ img, patchBlock q.1 t = some q.2 := patchBlocks_ok h

theorem patchBlocks_error {t : Bytes} {as : List Byte} {a : Byte} (h : patchBlocks t as = .error a) :
    a ∈ as ∧ patchBlock a t = none := by
  induction as with
  | nil => cases h
  | cons b rest ih =>
    simp only [patchBlocks] at h
    split at h
    · obtain rfl := Except.error.inj h; exact ⟨List.mem_cons_self, ‹_›⟩
    · split at h
      · rename_i e he
        obtain rfl := Except.error.inj h
        exact ⟨List.mem_cons_of_mem _ (ih he).1, (ih he).2⟩
      · cases h


end Sys2Proof.Machine
end

