-- ==== Sys2Proof/Laws/Sequencer.lean ====
section
/-! SUPPORT. The sequencer: everything a transaction, a statement and a run can do, each said once. -/

namespace Sys2Proof.Machine

/-! ### Transactions -/

theorem transact_outstanding {s : State} (h : s.scratch.outstanding = true) : transact s = .waiting s := by
  simp [transact, h]

theorem transact_ok {s : State} {b : Bytes} (h : s.scratch.outstanding = false) (ha : nextAnswer s = .ok b) :
    transact s = .ok b (drawn s) := by
  simp [transact, h, ha]

theorem transact_fail {s : State} (h : s.scratch.outstanding = false) (ha : nextAnswer s = .fail) :
    transact s = .fail (drawn s) := by
  simp [transact, h, ha]

theorem transact_silent {s : State} (h : s.scratch.outstanding = false) (ha : nextAnswer s = .silent) :
    transact s = .waiting (awaiting (drawn s)) := by
  simp [transact, h, ha]

/-- Everything a transaction can answer. -/
theorem transact_cases (s : State) :
    (∃ b, transact s = .ok b (drawn s)) ∨ transact s = .fail (drawn s) ∨ transact s = .waiting s ∨
      transact s = .waiting (awaiting (drawn s)) := by
  cases ho : s.scratch.outstanding with
  | true => exact .inr (.inr (.inl (transact_outstanding ho)))
  | false =>
    cases ha : nextAnswer s with
    | ok b => exact .inl ⟨b, transact_ok ho ha⟩
    | fail => exact .inr (.inl (transact_fail ho ha))
    | silent => exact .inr (.inr (.inr (transact_silent ho ha)))

theorem nextAnswer_of_answers {s : State} (h : answers s = true) :
    s.scratch.outstanding = false ∧ nextAnswer s ≠ .silent := by
  simp only [answers, Bool.and_eq_true, Bool.not_eq_true', bne_iff_ne, ne_eq, List.all_eq_true] at h
  refine ⟨h.1.1, ?_⟩
  unfold nextAnswer
  cases hd : s.env.device with
  | nil => exact h.2
  | cons a rest => exact h.1.2 a (by simp [hd])

/-- A Device that answers every transaction answers the next, and goes on answering. -/
theorem transact_answers {s : State} (h : answers s = true) :
    answers (drawn s) = true ∧ ((∃ b, transact s = .ok b (drawn s)) ∨ transact s = .fail (drawn s)) := by
  obtain ⟨ho, hs⟩ := nextAnswer_of_answers h
  refine ⟨?_, ?_⟩
  · simp only [answers, drawn, Bool.and_eq_true, List.all_eq_true] at h ⊢
    exact ⟨⟨h.1.1, fun a ha => h.1.2 a (List.mem_of_mem_tail ha)⟩, h.2⟩
  · cases ha : nextAnswer s with
    | ok b => exact .inl ⟨b, transact_ok ho ha⟩
    | fail => exact .inr (transact_fail ho ha)
    | silent => exact absurd ha hs

/-- A Device that always succeeds gives the next transaction `ok`, and goes on succeeding. -/
theorem transact_succeeds {s : State} (h : succeeds s = true) :
    succeeds (drawn s) = true ∧ ∃ b, nextAnswer s = .ok b ∧ transact s = .ok b (drawn s) := by
  simp only [succeeds, Bool.and_eq_true, Bool.not_eq_true', List.all_eq_true] at h
  have ha : (nextAnswer s).isOk = true := by
    unfold nextAnswer
    cases hd : s.env.device with
    | nil => exact h.2
    | cons a rest => exact h.1.2 a (by simp [hd])
  refine ⟨?_, ?_⟩
  · simp only [succeeds, drawn, Bool.and_eq_true, Bool.not_eq_true', List.all_eq_true]
    exact ⟨⟨h.1.1, fun a hm => h.1.2 a (List.mem_of_mem_tail hm)⟩, h.2⟩
  · cases hn : nextAnswer s with
    | ok b => exact ⟨b, rfl, transact_ok h.1.1 hn⟩
    | fail => simp [hn, Answer.isOk] at ha
    | silent => simp [hn, Answer.isOk] at ha

theorem answers_of_succeeds {s : State} (h : succeeds s = true) : answers s = true := by
  simp only [succeeds, answers, Bool.and_eq_true, List.all_eq_true, bne_iff_ne, ne_eq] at h ⊢
  refine ⟨⟨h.1.1, fun a ha => ?_⟩, ?_⟩
  · rintro rfl; simpa [Answer.isOk] using h.1.2 _ ha
  · intro e; simp [e, Answer.isOk] at h

/-! ### Statements -/

/-- An event the block makes inside a command. -/
def Event.inner : Event → Bool
  | .pin _ _ _ => true
  | .xfer _ _ _ _ _ => true
  | .state _ _ => true
  | .log _ _ => true
  | _ => false

/-- Everything a statement of a rule leaves alone, and how it may extend the trace. -/
structure Works (s t : State) : Prop where
  now : t.now = s.now
  lock : t.lock = s.lock
  hosts : t.hosts = s.hosts
  stage : t.stage = s.stage
  params : t.params = s.params
  cur : t.cur = s.cur
  world : t.env.world = s.env.world
  picks : t.env.picks = s.env.picks
  trace : ∃ es, t.trace = s.trace ++ es ∧ ∀ e ∈ es, e.stamp = s.now ∧ e.inner = true

theorem Works.refl (s : State) : Works s s := by
  constructor <;> first | rfl | exact ⟨[], by simp⟩

theorem Works.trans {s t u : State} (a : Works s t) (b : Works t u) : Works s u where
  now := b.now.trans a.now
  lock := b.lock.trans a.lock
  hosts := b.hosts.trans a.hosts
  stage := b.stage.trans a.stage
  params := b.params.trans a.params
  cur := b.cur.trans a.cur
  world := b.world.trans a.world
  picks := b.picks.trans a.picks
  trace := by
    obtain ⟨es, h1, h2⟩ := a.trace
    obtain ⟨fs, h3, h4⟩ := b.trace
    refine ⟨es ++ fs, by rw [h3, h1, List.append_assoc], fun e he => ?_⟩
    rcases List.mem_append.1 he with he | he
    · exact h2 e he
    · exact a.now ▸ h4 e he

/-- An update that touches neither the trace nor any field a statement must leave alone. -/
theorem Works.quiet {s t : State} (now : t.now = s.now) (lock : t.lock = s.lock) (hosts : t.hosts = s.hosts)
    (stage : t.stage = s.stage) (params : t.params = s.params) (cur : t.cur = s.cur)
    (world : t.env.world = s.env.world) (picks : t.env.picks = s.env.picks) (trace : t.trace = s.trace) :
    Works s t :=
  ⟨now, lock, hosts, stage, params, cur, world, picks, [], by simp [trace]⟩

theorem emit_works {e : Event} {s : State} (ht : e.stamp = s.now) (hi : e.inner = true) : Works s (emit e s) := by
  constructor <;> first | rfl | exact ⟨[e], by simp, by simp [ht, hi]⟩

theorem setState_works (d : DeviceState) (s : State) : Works s (setState d s) := by
  constructor <;> first | rfl | exact ⟨[.state d s.now], by simp, by simp [Event.stamp, Event.inner]⟩

theorem gpio_works (l : Line) (v : Bool) (s : State) : Works s (gpio l v s) := by
  constructor <;> first | simp; done | exact ⟨[.pin l v s.now], by simp, by simp [Event.stamp, Event.inner]⟩

theorem wait_works (d : Nat) (s : State) : Works s (wait d s) := by apply Works.quiet <;> rfl

theorem logErr_works (e : Err) (s : State) : Works s (logErr e s) := by
  constructor <;> first | rfl | exact ⟨[.log e s.now], by simp, by simp [Event.stamp, Event.inner]⟩

theorem advance_works (n : Nat) (s : State) : Works s (advance n s) := by apply Works.quiet <;> rfl

theorem drawn_works (s : State) : Works s (drawn s) := by apply Works.quiet <;> rfl

theorem awaiting_works (s : State) : Works s (awaiting s) := by apply Works.quiet <;> rfl

theorem drawBytes_works (n : Nat) (s : State) : Works s (drawBytes n s).2 := by apply Works.quiet <;> rfl

theorem stageByte_works (i : Nat) (s : State) : Works s (stageByte i s).2 := by
  unfold stageByte
  split
  · exact .refl s
  · apply Works.quiet <;> rfl

theorem stageRead_works (i n : Nat) (s : State) : Works s (stageRead i n s).2 := by
  induction n generalizing i s with
  | zero => exact .refl s
  | succ n ih => exact (stageByte_works i s).trans (ih (i + 1) _)

/-- The state a reply carries. -/
def Reply.state : Reply → State
  | .ok _ s => s
  | .fail s => s
  | .waiting s => s

theorem memWrite_works (a : Byte) (v : Bytes) (s : State) : Works s (memWrite a v s).state := by
  unfold memWrite
  rcases transact_cases s with ⟨b, h⟩ | h | h | h <;> rw [h]
  · exact (drawn_works s).trans (emit_works rfl rfl)
  · exact (drawn_works s).trans (emit_works rfl rfl)
  · exact .refl s
  · exact (drawn_works s).trans (awaiting_works _)

theorem memRead_works (a : Byte) (n : Nat) (s : State) : Works s (memRead a n s).state := by
  unfold memRead
  rcases transact_cases s with ⟨b, h⟩ | h | h | h <;> rw [h]
  · exact ((drawn_works s).trans (drawBytes_works _ _)).trans (emit_works rfl rfl)
  · exact (drawn_works s).trans (emit_works rfl rfl)
  · exact .refl s
  · exact (drawn_works s).trans (awaiting_works _)

/-- The state an effect carries. -/
def Effect.state : Effect → State
  | .go _ s => s
  | .logged _ _ s => s
  | .raised _ _ s => s
  | .waiting s => s

theorem onFailure_works (a : Byte) (f : OnFail) (s : State) : Works s (onFailure a f s).state := by
  cases f <;> simp only [onFailure, Effect.state]
  case logFail n => apply Works.quiet <;> rfl
  all_goals exact .refl s

/-- Everything a statement can do to the fields that are not its own. -/
theorem perform_works (m : Micro) (s : State) : Works s (perform m s).state := by
  cases m <;> simp only [perform]
  case require l => split <;> exact .refl s
  case raise e => exact .refl s
  case log e => exact logErr_works e s
  case setState d => exact setState_works d s
  case unmute =>
    simp only [Effect.state]; split
    · exact setState_works _ s
    · exact .refl s
  case gpio l a => exact gpio_works _ _ s
  case wait d => exact wait_works d s
  case write a v f =>
    have h := memWrite_works a (v.bytes s) s
    split <;> rename_i heq <;> rw [heq] at h
    · exact h
    · exact h.trans (onFailure_works a f _)
    · exact h
  case read a n =>
    have h := memRead_works a n s
    split <;> rename_i heq <;> rw [heq] at h
    · refine h.trans ?_
      apply Works.quiet <;> rfl
    · exact h
    · exact h
  case loadStage n =>
    refine (stageRead_works 0 n s).trans ?_
    apply Works.quiet <;> rfl
  case parse =>
    split
    · apply Works.quiet <;> rfl
    · exact .refl s
  all_goals first
    | exact .refl s
    | (apply Works.quiet <;> rfl)

/-! ### Runs -/

theorem run_nil (k : Nat) (s : State) : run [] k s = microStep s complete := by
  cases k <;> rfl

theorem run_skip (m : Micro) (rest : List Micro) (k : Nat) (s : State) : run (m :: rest) (k + 1) s = run rest k s := rfl

/-- A `goto` over `k` statements is the run of the statements left. -/
theorem run_drop (ms : List Micro) (k : Nat) (s : State) : run ms k s = run (ms.drop k) 0 s := by
  induction ms generalizing k with
  | nil => simp [run_nil]
  | cons m rest ih => cases k with
    | zero => rfl
    | succ k => simpa [run_skip] using ih k

/-- One statement of a run. -/
theorem run_cons (m : Micro) (rest : List Micro) (s : State) :
    run (m :: rest) 0 s = microStep s fun s =>
      match perform m s with
      | .go n s => run rest n (advance (n + 1) s)
      | .logged e n s => microStep s fun s => run rest n (advance (n + 1) (logErr e s))
      | .raised r e s => abort r e (advance (rest.length + 1) s)
      | .waiting s => s := rfl

/-- What a predicate needs so that a whole run keeps it: `P` holds at every micro-step inside, `Q` at the end. -/
structure Carries (ms : List Micro) (P Q : State → Prop) : Prop where
  settled : ∀ s, P s → calm s = true → P (settled s)
  abandoned : ∀ s, P s → calm s = false → Q (agentsAct s)
  perform : ∀ m ∈ ms, ∀ s, P s → P (perform m s).state
  waiting : ∀ m ∈ ms, ∀ s t, P s → Machine.perform m s = .waiting t → Q t
  log : ∀ e s, P s → P (logErr e s)
  recover : ∀ m ∈ ms, ∀ s d e t, P s → Machine.perform m s = .raised (some d) e t →
    ∀ u, P u → u.ds = t.ds → P (setState d u)
  advance : ∀ n s, P s → P (advance n s)
  complete : ∀ s, P s → Q (complete s)

theorem Carries.tail {m : Micro} {ms : List Micro} {P Q : State → Prop} (c : Carries (m :: ms) P Q) : Carries ms P Q :=
  { c with
    perform := fun n hn => c.perform n (List.mem_cons_of_mem _ hn)
    waiting := fun n hn => c.waiting n (List.mem_cons_of_mem _ hn)
    recover := fun n hn => c.recover n (List.mem_cons_of_mem _ hn) }

theorem Carries.finish {ms : List Micro} {P Q : State → Prop} (c : Carries ms P Q) {s : State} (h : P s) :
    Q (microStep s Machine.complete) :=
  microStep_ind (fun hc => c.complete _ (c.settled s h hc)) (fun hc => c.abandoned s h hc)

/-- The induction over a run, said once: what every statement, boundary, log and completion keeps, a run keeps. -/
theorem run_carries {ms : List Micro} {P Q : State → Prop} (c : Carries ms P Q) (k : Nat) (s : State) (h : P s) :
    Q (run ms k s) := by
  induction ms generalizing k s with
  | nil => rw [run_nil]; exact c.finish h
  | cons m rest ih =>
    cases k with
    | succ k => exact ih c.tail k s h
    | zero =>
      rw [run_cons]
      refine microStep_ind (fun hc => ?_) (fun hc => c.abandoned s h hc)
      have hs := c.settled s h hc
      have hp := c.perform m List.mem_cons_self _ hs
      split <;> rename_i heq <;> rw [heq] at hp <;> simp only [Effect.state] at hp
      · exact ih c.tail _ _ (c.advance _ _ hp)
      · exact microStep_ind (fun hc => ih c.tail _ _ (c.advance _ _ (c.log _ _ (c.settled _ hp hc))))
          (fun hc => c.abandoned _ hp hc)
      · rename_i r e t
        have ha := c.advance (rest.length + 1) t hp
        cases r with
        | none =>
          exact microStep_ind (fun hc => c.finish (c.log _ _ (c.settled _ ha hc))) (fun hc => c.abandoned _ ha hc)
        | some d =>
          refine microStep_ind (fun hc => ?_) (fun hc => c.abandoned _ ha hc)
          have hset := c.settled _ ha hc
          have hds : (settled (Machine.advance (rest.length + 1) t)).ds = t.ds := by
            simpa using (settled_spec hc).passes.ds
          have hr := c.recover m List.mem_cons_self _ d e t hs heq _ hset hds
          exact microStep_ind (fun hc => c.finish (c.log _ _ (c.settled _ hr hc))) (fun hc => c.abandoned _ hr hc)
      · exact c.waiting m List.mem_cons_self _ _ hs heq

/-- A meaning is the run of its rule from `seq_pc`, where a host holds the lock. -/
theorem runRule_held {s : State} (h : lockHeld s = true) (rule : List Micro) :
    runRule rule s = .next (run (rule.drop s.seqPc) 0 s) := by simp [runRule, h]

theorem lockHeld_of_granted {h : Nat} {s : State} (g : Granted h s) : lockHeld s = true := by
  simp [lockHeld, g.1, g.2.1]

/-- A command just granted runs its whole rule. -/
theorem runRule_granted {h : Nat} {s : State} (g : Granted h s) (rule : List Micro) :
    runRule rule s = .next (run rule 0 s) := by
  rw [runRule_held (lockHeld_of_granted g), g.2.2.1, List.drop_zero]

/-- Everything `runRule` can answer. -/
theorem runRule_next {rule : List Micro} {s t : State} (h : runRule rule s = .next t) :
    lockHeld s = true ∧ t = run (rule.drop s.seqPc) 0 s := by
  unfold runRule at h
  split at h
  · exact ⟨‹_›, by simpa using h.symm⟩
  · cases h

end Sys2Proof.Machine
end

