-- ==== Sys2Proof/Laws/Runs.lean ====
section
/-! SUPPORT. Runs that no block reset cuts short, statement by statement: with these as simp lemmas a rule is run by
rewriting, and its states keep their fields. -/

namespace Sys2Proof.Machine

/-! ### No operation of the block brings a block reset -/

@[simp] theorem noReset_emit (e : Event) (s : State) : noReset (emit e s) = noReset s := noReset_congr (by simp)
@[simp] theorem noReset_setState (d : DeviceState) (s : State) : noReset (setState d s) = noReset s := noReset_congr (by simp)
@[simp] theorem noReset_gpio (l : Line) (v : Bool) (s : State) : noReset (gpio l v s) = noReset s := noReset_congr (by simp)
@[simp] theorem noReset_wait (d : Nat) (s : State) : noReset (wait d s) = noReset s := noReset_congr (by simp)
@[simp] theorem noReset_logErr (e : Err) (s : State) : noReset (logErr e s) = noReset s := noReset_congr (by simp)
@[simp] theorem noReset_advance (n : Nat) (s : State) : noReset (advance n s) = noReset s := noReset_congr (by simp)
@[simp] theorem noReset_setOk (b : Bool) (s : State) : noReset (setOk b s) = noReset s := noReset_congr (by simp)
@[simp] theorem noReset_setBuf (b : Bytes) (s : State) : noReset (setBuf b s) = noReset s := noReset_congr (by simp)
@[simp] theorem noReset_setBlocks (b : Image) (s : State) : noReset (setBlocks b s) = noReset s := noReset_congr (by simp)
@[simp] theorem noReset_setData (b : Bytes) (s : State) : noReset (setData b s) = noReset s := noReset_congr (by simp)
@[simp] theorem noReset_saveSnap (s : State) : noReset (saveSnap s) = noReset s := noReset_congr (by simp)
@[simp] theorem noReset_markSnap (s : State) : noReset (markSnap s) = noReset s := noReset_congr (by simp)
@[simp] theorem noReset_setPreset (i : Byte) (s : State) : noReset (setPreset i s) = noReset s := noReset_congr (by simp)
@[simp] theorem noReset_setEqEnabled (e : Bool) (s : State) : noReset (setEqEnabled e s) = noReset s := noReset_congr (by simp)
@[simp] theorem noReset_drawn (s : State) : noReset (drawn s) = noReset s := noReset_congr (by simp)
@[simp] theorem noReset_awaiting (s : State) : noReset (awaiting s) = noReset s := noReset_congr (by simp)
@[simp] theorem noReset_complete (s : State) : noReset (complete s) = noReset s := noReset_congr (by simp)
@[simp] theorem noReset_drawBytes (n : Nat) (s : State) : noReset (drawBytes n s).2 = noReset s := noReset_congr rfl

/-! ### What the settled state keeps, where no block reset comes -/

section
variable {s : State} (h : noReset s = true)
include h

@[simp] theorem noReset_of_settled : noReset (settled s) = true := noReset_settled h

@[simp] theorem settled_ds : (settled s).ds = s.ds := (settled_spec (calm_of_noReset h)).passes.ds
@[simp] theorem settled_eqEnabled : (settled s).eqEnabled = s.eqEnabled := (settled_spec (calm_of_noReset h)).passes.eqEnabled
@[simp] theorem settled_eqPreset : (settled s).eqPreset = s.eqPreset := (settled_spec (calm_of_noReset h)).passes.eqPreset
@[simp] theorem settled_pinRst : (settled s).pinRst = s.pinRst := (settled_spec (calm_of_noReset h)).passes.pinRst
@[simp] theorem settled_pinPd : (settled s).pinPd = s.pinPd := (settled_spec (calm_of_noReset h)).passes.pinPd
@[simp] theorem settled_snapValid : (settled s).snapValid = s.snapValid := (settled_spec (calm_of_noReset h)).passes.snapValid
@[simp] theorem settled_snap : (settled s).snap = s.snap := (settled_spec (calm_of_noReset h)).passes.snap
@[simp] theorem settled_lock : (settled s).lock = s.lock := (settled_spec (calm_of_noReset h)).passes.lock
@[simp] theorem settled_seqPc : (settled s).seqPc = s.seqPc := (settled_spec (calm_of_noReset h)).passes.seqPc
@[simp] theorem settled_cur : (settled s).cur = s.cur := (settled_spec (calm_of_noReset h)).passes.cur
@[simp] theorem settled_firstErr : (settled s).firstErr = s.firstErr := (settled_spec (calm_of_noReset h)).passes.firstErr
@[simp] theorem settled_waitUntil : (settled s).waitUntil = s.waitUntil := (settled_spec (calm_of_noReset h)).passes.waitUntil
@[simp] theorem settled_trace : (settled s).trace = s.trace := (settled_spec (calm_of_noReset h)).passes.trace
@[simp] theorem settled_params : (settled s).params = s.params := (settled_spec (calm_of_noReset h)).passes.params
@[simp] theorem settled_scratch : (settled s).scratch = s.scratch := (settled_spec (calm_of_noReset h)).passes.scratch
@[simp] theorem settled_count : (settled s).hosts.length = s.hosts.length :=
  (settled_spec (calm_of_noReset h)).passes.count
@[simp] theorem settled_device : (settled s).env.device = s.env.device := by
  rw [(settled_spec (calm_of_noReset h)).passes.env]; rfl
@[simp] theorem settled_thereafter : (settled s).env.thereafter = s.env.thereafter := by
  rw [(settled_spec (calm_of_noReset h)).passes.env]; rfl
@[simp] theorem settled_draws : (settled s).env.draws = s.env.draws := by
  rw [(settled_spec (calm_of_noReset h)).passes.env]; rfl
@[simp] theorem settled_nextAnswer : nextAnswer (settled s) = nextAnswer s := by simp [nextAnswer, h]
@[simp] theorem settled_answers : answers (settled s) = answers s := by simp [answers, h]
@[simp] theorem settled_succeeds : succeeds (settled s) = succeeds s := by simp [succeeds, h]
theorem settled_now_le : s.now ≤ (settled s).now := (settled_spec (calm_of_noReset h)).passes.now
theorem settled_ready : s.waitUntil ≤ (settled s).now := (settled_spec (calm_of_noReset h)).ready
@[simp] theorem settled_respAt {g : Nat} (hl : s.lock = some g) : respAt (settled s) g = respAt s g := by
  have := (settled_spec (calm_of_noReset h)).passes.holder g (by simpa using hl)
  simpa [respAt] using this

/-- A micro-step is taken. -/
@[simp] theorem microStep_noReset (k : State → State) : microStep s k = k (settled s) :=
  microStep_calm (calm_of_noReset h) k

/-! ### Statements -/

/-- A statement that goes on to the one after the next `n`. -/
theorem run_go {m : Micro} {t : State} {n : Nat} (rest : List Micro) (hp : perform m (settled s) = .go n t) :
    run (m :: rest) 0 s = run rest n (advance (n + 1) t) := by
  rw [run_cons, microStep_noReset h, hp]

/-- A statement whose failure is logged before control goes on. -/
theorem run_logged {m : Micro} {t : State} {n : Nat} {e : Err} (rest : List Micro)
    (hp : perform m (settled s) = .logged e n t) :
    run (m :: rest) 0 s = run rest n (advance (n + 1) (logErr e (settled t))) := by
  have ht : noReset t = true := by
    have hw := (perform_works m (settled s)).world
    rw [hp] at hw
    exact (noReset_congr hw).trans (noReset_settled h)
  rw [run_cons, microStep_noReset h, hp]
  simp only [microStep_noReset ht]

/-- A statement that raises. -/
theorem run_raised {m : Micro} {t : State} {r : Option DeviceState} {e : Err} (rest : List Micro)
    (hp : perform m (settled s) = .raised r e t) :
    run (m :: rest) 0 s = abort r e (advance (rest.length + 1) t) := by
  rw [run_cons, microStep_noReset h, hp]

/-- A statement at which the Device does not answer. -/
theorem run_waiting {m : Micro} {t : State} (rest : List Micro) (hp : perform m (settled s) = .waiting t) :
    run (m :: rest) 0 s = t := by
  rw [run_cons, microStep_noReset h, hp]

/-- Completion of a rule (R134). -/
theorem run_done : run [] 0 s = complete (settled s) := by rw [run_nil, microStep_noReset h]

/-- An abort without a recovery step (R148). -/
theorem abort_none (e : Err) : abort none e s = complete (settled (logErr e (settled s))) := by
  simp [abort, h]

/-- An abort with the recovery step (R149). -/
theorem abort_some (d : DeviceState) (e : Err) :
    abort (some d) e s = complete (settled (logErr e (settled (setState d (settled s))))) := by
  have h1 : noReset (settled s) = true := noReset_settled h
  have h2 : noReset (settled (setState d (settled s))) = true := noReset_settled (by simpa using h1)
  simp only [abort, microStep_noReset h, microStep_noReset (s := setState d (settled s)) (by simpa using h1),
    microStep_noReset (s := logErr e (settled (setState d (settled s)))) (by simpa using h2)]

end

/-! ### Writes, with their answer known -/

theorem perform_write_ok {s : State} {b : Bytes} (a : Byte) (v : Source) (f : OnFail)
    (ho : s.scratch.outstanding = false) (ha : nextAnswer s = .ok b) :
    perform (.write a v f) s = .go 0 (emit (.xfer .write a (v.bytes s) true s.now) (drawn s)) := by
  simp only [perform, memWrite_ok a _ ho ha]

theorem perform_write_fail {s : State} (a : Byte) (v : Source) (f : OnFail)
    (ho : s.scratch.outstanding = false) (ha : nextAnswer s = .fail) :
    perform (.write a v f) s = onFailure a f (emit (.xfer .write a (v.bytes s) false s.now) (drawn s)) := by
  simp only [perform, memWrite_fail a _ ho ha]

/-- Everything a write statement can do. -/
theorem perform_write_cases (a : Byte) (v : Source) (f : OnFail) (s : State) :
    perform (.write a v f) s = .go 0 (emit (.xfer .write a (v.bytes s) true s.now) (drawn s)) ∨
    perform (.write a v f) s = onFailure a f (emit (.xfer .write a (v.bytes s) false s.now) (drawn s)) ∨
    perform (.write a v f) s = .waiting s ∨ perform (.write a v f) s = .waiting (awaiting (drawn s)) := by
  simp only [perform]
  rcases memWrite_cases a (v.bytes s) s with h | h | h | h <;> rw [h] <;> simp

theorem perform_read_ok {s : State} {b : Bytes} (a : Byte) (ho : s.scratch.outstanding = false)
    (ha : nextAnswer s = .ok b) :
    perform (.read a b.length) s = .go 0 (setBuf (s.scratch.buf ++ b)
      (emit (.xfer .read a b true s.now) (drawBytes 0 (drawn s)).2)) := by
  simp [perform, memRead_ok a ho ha, drawn]

theorem perform_read_fail {s : State} (a : Byte) (n : Nat) (ho : s.scratch.outstanding = false)
    (ha : nextAnswer s = .fail) :
    perform (.read a n) s = .raised none (.transport a) (emit (.xfer .read a [] false s.now) (drawn s)) := by
  simp [perform, memRead_fail a n ho ha]

end Sys2Proof.Machine
end

