-- ==== Sys2Proof/Laws/Quiet.lean ====
section
/-! SUPPORT. Runs with time and the other hosts left out: what a run that no block reset cuts short does to the block's
own fields and to its trace, stamps aside, is a plain computation. -/

namespace Sys2Proof.Machine

/-- `s` without what other agents act on: time, the world, the stage, the hosts' ports; stamps are taken off. -/
def still (s : State) : State :=
  { s with
    now := 0
    waitUntil := 0
    stage := []
    hosts := []
    seqPc := 0
    trace := s.trace.map Event.untimed
    env := { s.env with world := [] } }

/-- Where a quiet run comes to rest: at its completion, or at a transaction the Device does not answer. -/
inductive Rest where
  | done (s : State)
  | stuck (s : State)

/-- The run of a rule on a still state, up to completion. -/
def quiet : List Micro → Nat → State → Rest
  | [], _, s => .done s
  | _ :: rest, k + 1, s => quiet rest k s
  | m :: rest, 0, s =>
    match perform m s with
    | .go n s => quiet rest n (still s)
    | .logged e n s => quiet rest n (still (logErr e s))
    | .raised none e s => .done (still (logErr e s))
    | .raised (some d) e s => .done (still (logErr e (setState d s)))
    | .waiting s => .stuck (still s)

/-- A statement that does not read the stage. -/
def Micro.offStage : Micro → Bool
  | .loadStage _ => false
  | _ => true

/-- An effect with its state made still. -/
def Effect.still : Effect → Effect
  | .go n s => .go n (Machine.still s)
  | .logged e n s => .logged e n (Machine.still s)
  | .raised r e s => .raised r e (Machine.still s)
  | .waiting s => .waiting (Machine.still s)

@[simp] theorem still_ds (s : State) : (still s).ds = s.ds := rfl
@[simp] theorem still_eqEnabled (s : State) : (still s).eqEnabled = s.eqEnabled := rfl
@[simp] theorem still_eqPreset (s : State) : (still s).eqPreset = s.eqPreset := rfl
@[simp] theorem still_pinRst (s : State) : (still s).pinRst = s.pinRst := rfl
@[simp] theorem still_pinPd (s : State) : (still s).pinPd = s.pinPd := rfl
@[simp] theorem still_snapValid (s : State) : (still s).snapValid = s.snapValid := rfl
@[simp] theorem still_snap (s : State) : (still s).snap = s.snap := rfl
@[simp] theorem still_firstErr (s : State) : (still s).firstErr = s.firstErr := rfl
@[simp] theorem still_scratch (s : State) : (still s).scratch = s.scratch := rfl
@[simp] theorem still_params (s : State) : (still s).params = s.params := rfl
@[simp] theorem still_lock (s : State) : (still s).lock = s.lock := rfl
@[simp] theorem still_cur (s : State) : (still s).cur = s.cur := rfl
@[simp] theorem still_now (s : State) : (still s).now = 0 := rfl
@[simp] theorem still_trace (s : State) : (still s).trace = s.trace.map Event.untimed := rfl
@[simp] theorem still_device (s : State) : (still s).env.device = s.env.device := rfl
@[simp] theorem still_thereafter (s : State) : (still s).env.thereafter = s.env.thereafter := rfl
@[simp] theorem still_draws (s : State) : (still s).env.draws = s.env.draws := rfl
@[simp] theorem still_nextAnswer (s : State) : nextAnswer (still s) = nextAnswer s := rfl

@[simp] theorem Event.untimed_pin (l : Line) (v : Bool) (t : Nat) : (Event.pin l v t).untimed = .pin l v 0 := rfl
@[simp] theorem Event.untimed_xfer (d : Dir) (a : Byte) (b : Bytes) (r : Bool) (t : Nat) :
    (Event.xfer d a b r t).untimed = .xfer d a b r 0 := rfl
@[simp] theorem Event.untimed_state (d : DeviceState) (t : Nat) : (Event.state d t).untimed = .state d 0 := rfl
@[simp] theorem Event.untimed_log (e : Err) (t : Nat) : (Event.log e t).untimed = .log e 0 := rfl
@[simp] theorem Event.untimed_resp (h : Nat) (c : Status) (i : Half) (d : Bytes) (t : Nat) :
    (Event.resp h c i d t).untimed = .resp h c i d 0 := rfl

@[simp] theorem Event.untimed_untimed (e : Event) : e.untimed.untimed = e.untimed := by cases e <;> rfl

@[simp] theorem still_still (s : State) : still (still s) = still s := by
  simp only [still, List.map_map]
  congr 1
  exact List.map_congr_left fun e _ => e.untimed_untimed

theorem still_settled {s : State} (h : noReset s = true) : still (settled s) = still s := by
  have p := (settled_spec (calm_of_noReset h)).passes
  simp only [still, p.ds, p.eqEnabled, p.eqPreset, p.pinRst, p.pinPd, p.snapValid, p.snap, p.lock, p.cur, p.firstErr,
    p.trace, p.params, p.scratch, p.env, nextSlot_ds, nextSlot_eqEnabled, nextSlot_eqPreset, nextSlot_pinRst,
    nextSlot_pinPd, nextSlot_snapValid, nextSlot_snap, nextSlot_lock, nextSlot_cur, nextSlot_firstErr, nextSlot_trace,
    nextSlot_params, nextSlot_scratch, nextSlot_env]

theorem still_logErr (e : Err) (s : State) : still (logErr e (still s)) = still (logErr e s) := by
  simp [still, logErr, emit, Function.comp_def]

theorem still_setState (d : DeviceState) (s : State) : still (setState d (still s)) = still (setState d s) := by
  simp [still, setState, emit, Function.comp_def]

theorem still_bytes (v : Source) (s : State) : v.bytes (still s) = v.bytes s := by cases v <;> rfl

theorem still_onFailure (a : Byte) (f : OnFail) {s t : State} (h : still s = still t) :
    (onFailure a f s).still = (onFailure a f t).still := by
  cases f <;> simp only [onFailure, Effect.still, h]
  rw [show still (setOk false s) = setOk false (still s) from rfl, h]; rfl

theorem still_write (a : Byte) (v : Source) (f : OnFail) (s : State) :
    (perform (.write a v f) (still s)).still = (perform (.write a v f) s).still := by
  have he : ∀ r, still (emit (.xfer .write a (v.bytes s) r (still s).now) (drawn (still s))) =
      still (emit (.xfer .write a (v.bytes s) r s.now) (drawn s)) := by
    intro r; simp [still, emit, drawn, Function.comp_def]
  simp only [perform, still_bytes]
  cases ho : s.scratch.outstanding with
  | true => simp [memWrite, transact, ho, Effect.still]
  | false =>
    have ho' : (still s).scratch.outstanding = false := ho
    cases ha : nextAnswer s with
    | ok b => simp only [memWrite_ok a _ ho ha, memWrite_ok a _ ho' ha, Effect.still, he]
    | fail => simp only [memWrite_fail a _ ho ha, memWrite_fail a _ ho' ha]; exact still_onFailure a f (he false)
    | silent => simp [memWrite, transact, ho, ha, Effect.still]; simp [still, awaiting, drawn, Function.comp_def]

theorem still_read (a : Byte) (n : Nat) (s : State) :
    (perform (.read a n) (still s)).still = (perform (.read a n) s).still := by
  have hs : (still s).scratch.outstanding = s.scratch.outstanding := rfl
  simp only [perform, memRead, transact, hs, still_nextAnswer]
  cases ho : s.scratch.outstanding with
  | true => simp [Effect.still]
  | false =>
    cases ha : nextAnswer s <;> simp only [Bool.false_eq_true, if_false, Effect.still]
    all_goals simp [still, emit, drawn, awaiting, setBuf, readBytes, drawBytes, Function.comp_def]

/-- A statement does on the still state what it does on the state itself. -/
theorem still_perform {m : Micro} (hm : m.offStage = true) (s : State) :
    (perform m (still s)).still = (perform m s).still := by
  cases m
  case loadStage n => cases hm
  case write a v f => exact still_write a v f s
  case read a n => exact still_read a n s
  case require l => by_cases hl : s.ds ∈ l <;> simp [perform, Effect.still, hl]
  case raise e => simp [perform, Effect.still]
  case log e => simp [perform, Effect.still, still_logErr]
  case setState d => simp [perform, Effect.still, still_setState]
  case unmute => by_cases hd : s.ds = .muted <;> simp [perform, Effect.still, hd, still_setState]
  case ifOk n => cases ho : s.scratch.ok <;> simp [perform, Effect.still, ho]
  case gpio l a =>
    cases l <;> simp [perform, Effect.still, still, gpio, emit, Function.comp_def]
  case parse =>
    simp only [perform, still_scratch]
    split <;> simp [Effect.still, setBlocks, still, Function.comp_def]
  all_goals
    simp [perform, Effect.still, still, Function.comp_def, wait, setOk, saveSnap, markSnap, setEqEnabled, setPreset,
      setData, statusData]

/-- The host's ports and everything else completion needs, as a command's run leaves them. -/
structure Kept (s u : State) : Prop where
  lock : u.lock = s.lock
  count : u.hosts.length = s.hosts.length
  now : s.now ≤ u.now
  params : u.params = s.params
  cur : u.cur = s.cur
  trace : ∃ es, u.trace = s.trace ++ es

theorem Kept.refl (s : State) : Kept s s := ⟨rfl, rfl, le_rfl, rfl, rfl, [], by simp⟩

theorem Kept.trans {s t u : State} (a : Kept s t) (b : Kept t u) : Kept s u := by
  obtain ⟨es, h⟩ := a.trace
  obtain ⟨fs, g⟩ := b.trace
  exact ⟨b.lock.trans a.lock, b.count.trans a.count, a.now.trans b.now, b.params.trans a.params, b.cur.trans a.cur,
    es ++ fs, by rw [g, h, List.append_assoc]⟩

theorem Works.kept {s t : State} (w : Works s t) : Kept s t := by
  obtain ⟨es, h, -⟩ := w.trace
  exact ⟨w.lock, by rw [w.hosts], w.now.ge, w.params, w.cur, es, h⟩

theorem settled_kept {s : State} (h : noReset s = true) : Kept s (settled s) :=
  ⟨settled_lock h, settled_count h, settled_now_le h, settled_params h, settled_cur h, [], by simp [settled_trace h]⟩

theorem Works.noReset {s t : State} (w : Works s t) (h : noReset s = true) : noReset t = true :=
  (noReset_congr w.world).trans h

/-- What a quiet run says of the run itself: it completes from a state whose still part is the one the quiet run rests
in, or waits there. -/
theorem run_quiet {ms : List Micro} (hm : ∀ m ∈ ms, m.offStage = true) (k : Nat) {s : State} (h : noReset s = true) :
    match quiet ms k (still s) with
    | .done q => ∃ u, run ms k s = complete u ∧ still u = q ∧ Kept s u
    | .stuck q => still (run ms k s) = q ∧ Kept s (run ms k s) := by
  induction ms generalizing k s with
  | nil =>
    rw [run_nil, microStep_noReset h]
    exact ⟨_, rfl, still_settled h, settled_kept h⟩
  | cons m rest ih =>
    have hr : ∀ n ∈ rest, n.offStage = true := fun n hn => hm n (List.mem_cons_of_mem _ hn)
    cases k with
    | succ k => exact ih hr k h
    | zero =>
      have hs := noReset_settled h
      have hw := perform_works m (settled s)
      have hp := still_perform (hm m List.mem_cons_self) (settled s)
      rw [still_settled h] at hp
      have hk := (settled_kept h).trans hw.kept
      have hn := hw.noReset hs
      simp only [quiet]
      cases hq : perform m (still s) <;> rw [hq] at hp <;> cases hx : perform m (settled s) <;> rw [hx] at hp <;>
        simp only [Effect.still, Effect.go.injEq, Effect.logged.injEq, Effect.raised.injEq, Effect.waiting.injEq,
          reduceCtorEq] at hp <;> rw [hx] at hk hn <;> simp only [Effect.state] at hk hn <;> try dsimp only
      · rename_i n q n' t
        obtain ⟨rfl, hp⟩ := hp
        rw [run_go h rest hx]
        have := ih hr n (s := advance (n + 1) t) (by simpa using hn)
        rw [show still (advance (n + 1) t) = still t from rfl, ← hp] at this
        revert this
        split
        · rintro ⟨u, h1, h2, h3⟩
          exact ⟨u, h1, h2, (hk.trans (advance_works _ _).kept).trans h3⟩
        · rintro ⟨h1, h2⟩
          exact ⟨h1, (hk.trans (advance_works _ _).kept).trans h2⟩
      · rename_i e n q e' n' t
        obtain ⟨rfl, rfl, hp⟩ := hp
        rw [run_logged h rest hx]
        have hn' : noReset (advance (n + 1) (logErr e (settled t))) = true := by simpa using noReset_settled hn
        have := ih hr n hn'
        have hst : still (advance (n + 1) (logErr e (settled t))) = still (logErr e q) := by
          rw [show still (advance (n + 1) (logErr e (settled t))) = still (logErr e (settled t)) from rfl,
            ← still_logErr, still_settled hn, ← hp, still_logErr]
        have hkk := ((hk.trans (settled_kept hn)).trans (logErr_works e _).kept).trans (advance_works (n + 1) _).kept
        rw [hst] at this
        revert this
        split
        · rintro ⟨u, h1, h2, h3⟩
          exact ⟨u, h1, h2, hkk.trans h3⟩
        · rintro ⟨h1, h2⟩
          exact ⟨h1, hkk.trans h2⟩
      · rename_i r e q r' e' t
        obtain ⟨rfl, rfl, hp⟩ := hp
        rw [run_raised h rest hx]
        have ha : noReset (advance (rest.length + 1) t) = true := by simpa using hn
        have hka := hk.trans (advance_works (rest.length + 1) t).kept
        have hsa : still (advance (rest.length + 1) t) = still q := by rw [hp]; rfl
        cases r with
        | none =>
          rw [abort_none ha]
          refine ⟨_, rfl, ?_, ?_⟩
          · rw [still_settled (by simpa using noReset_settled ha), ← still_logErr, still_settled ha, hsa, still_logErr]
          · exact ((hka.trans (settled_kept ha)).trans (logErr_works e _).kept).trans
              (settled_kept (by simpa using noReset_settled ha))
        | some d =>
          rw [abort_some ha]
          have h1 : noReset (setState d (settled (advance (rest.length + 1) t))) = true := by
            simpa using noReset_settled ha
          have h2 : noReset (logErr e (settled (setState d (settled (advance (rest.length + 1) t))))) = true := by
            simpa using noReset_settled h1
          refine ⟨_, rfl, ?_, ?_⟩
          · rw [still_settled h2, ← still_logErr, still_settled h1, ← still_setState, still_settled ha, hsa,
              still_setState, still_logErr]
          · exact ((((hka.trans (settled_kept ha)).trans (setState_works d _).kept).trans (settled_kept h1)).trans
              (logErr_works e _).kept).trans (settled_kept h2)
      · rename_i q t
        rw [run_waiting h rest hx]
        exact ⟨hp.symm, hk⟩

end Sys2Proof.Machine
end

