-- ==== Sys2Proof/Laws/Outcomes.lean ====
section
/-! SUPPORT. What a granted command answers: a rejection by a check before its first effect, and the result of a run
that the quiet run computes. -/

namespace Sys2Proof.Machine

/-- The events between `s` and `t`, once `t`'s trace is known to extend that of `s`. -/
theorem traceGains_of {s t : State} {es fs : List Event} (h : t.trace = s.trace ++ fs) (he : fs.map Event.untimed = es) :
    TraceGains s t es := by
  have : newEvents s t = fs := by simp [newEvents, h]
  exact ⟨by rw [this, h], by rw [this, he]⟩

/-- A granted command whose run raises `e` before anything else rejects its word (R94, R152). -/
theorem abort_rejects {h : Nat} {s u : State} {e : Err} (hl : u.lock = some h) (hh : h < u.hosts.length)
    (hn : noReset u = true) (he : u.firstErr = none) (ht : u.trace = s.trace) (hds : u.ds = s.ds)
    (hee : u.eqEnabled = s.eqEnabled) (hep : u.eqPreset = s.eqPreset) (hpr : u.pinRst = s.pinRst)
    (hpp : u.pinPd = s.pinPd) (hsv : u.snapValid = s.snapValid) (hsn : u.snap = s.snap) (hp : u.params = s.params)
    (hw : u.waitUntil = s.waitUntil) (hc : u.cur = s.cur) : Rejects s (abort none e u) h e := by
  have h1 := noReset_settled hn
  have h2 : noReset (logErr e (settled u)) = true := by simpa using h1
  rw [abort_none hn]
  obtain ⟨r, tr, -, -⟩ := complete_spec (s := settled (logErr e (settled u))) (h := h)
    (by simp [settled_lock h2, settled_lock hn, hl]) (by simp [settled_count h2, settled_count hn, hh])
  have hf : (settled (logErr e (settled u))).firstErr = some e := by
    rw [settled_firstErr h2]; simp [settled_firstErr hn, he]
  rw [responseOf_err hf] at r tr
  refine ⟨?_, r, traceGains_of (fs := [.log e (settled u).now, .resp h e.code e.info [] (settled (logErr e (settled u))).now]) ?_ (by simp)⟩
  · refine ⟨?_, ?_, ?_, ?_, ?_, ?_, ?_, ?_, ?_, ?_, ?_⟩ <;> simp [settled_ds h2, settled_ds hn, settled_eqEnabled h2, settled_eqEnabled hn, settled_eqPreset h2,
      settled_eqPreset hn, settled_pinRst h2, settled_pinRst hn, settled_pinPd h2, settled_pinPd hn,
      settled_snapValid h2, settled_snapValid hn, settled_snap h2, settled_snap hn, settled_params h2,
      settled_params hn, settled_waitUntil h2, settled_waitUntil hn, settled_cur h2, settled_cur hn, hds, hee, hep, hpr,
      hpp, hsv, hsn, hp, hw, hc]
  · rw [tr, settled_trace h2]; simp [settled_trace hn, ht]

/-- A rule whose first statement raises rejects its command. -/
theorem rejects_first {h : Nat} {s : State} {m : Micro} {e : Err} (rest : List Micro) (g : Granted h s)
    (hn : noReset s = true) (hp : ∀ u, u.ds = s.ds → perform m u = .raised none e u) :
    ∃ t, runRule (m :: rest) s = .next t ∧ Rejects s t h e := by
  refine ⟨_, runRule_granted g _, ?_⟩
  have h1 := noReset_settled hn
  rw [run_raised hn rest (hp _ (settled_ds hn))]
  obtain ⟨hl, hh, -, he, -⟩ := g
  exact abort_rejects (by simp [settled_lock hn, hl]) (by simp [settled_count hn, hh]) (by simpa using h1)
    (by simp [settled_firstErr hn, he]) (by simp [settled_trace hn]) (by simp [settled_ds hn])
    (by simp [settled_eqEnabled hn]) (by simp [settled_eqPreset hn]) (by simp [settled_pinRst hn])
    (by simp [settled_pinPd hn]) (by simp [settled_snapValid hn]) (by simp [settled_snap hn])
    (by simp [settled_params hn]) (by simp [settled_waitUntil hn]) (by simp [settled_cur hn])

/-- A rule whose state check passes and whose next statement raises rejects its command. -/
theorem rejects_second {h : Nat} {s : State} {l : List DeviceState} {e : Err} (rest : List Micro) (g : Granted h s)
    (hn : noReset s = true) (hd : s.ds ∈ l) :
    ∃ t, runRule (.require l :: .raise e :: rest) s = .next t ∧ Rejects s t h e := by
  refine ⟨_, runRule_granted g _, ?_⟩
  have h1 := noReset_settled hn
  have hgo : perform (.require l) (settled s) = .go 0 (settled s) := by simp [perform, settled_ds hn, hd]
  have h2 : noReset (advance 1 (settled s)) = true := by simpa using h1
  have h3 := noReset_settled h2
  rw [run_go hn _ hgo, run_raised h2 rest (e := e) (r := none) (t := settled (advance 1 (settled s))) rfl]
  obtain ⟨hl, hh, -, he, -⟩ := g
  exact abort_rejects (by simp [settled_lock h2, settled_lock hn, hl]) (by simp [settled_count h2, settled_count hn, hh])
    (by simpa using h3) (by simp [settled_firstErr h2, settled_firstErr hn, he])
    (by simp [settled_trace h2, settled_trace hn]) (by simp [settled_ds h2, settled_ds hn])
    (by simp [settled_eqEnabled h2, settled_eqEnabled hn]) (by simp [settled_eqPreset h2, settled_eqPreset hn])
    (by simp [settled_pinRst h2, settled_pinRst hn]) (by simp [settled_pinPd h2, settled_pinPd hn])
    (by simp [settled_snapValid h2, settled_snapValid hn]) (by simp [settled_snap h2, settled_snap hn])
    (by simp [settled_params h2, settled_params hn]) (by simp [settled_waitUntil h2, settled_waitUntil hn])
    (by simp [settled_cur h2, settled_cur hn])

/-- A state check that fails (R94). -/
theorem rejects_state {h : Nat} {s : State} {l : List DeviceState} (rest : List Micro) (g : Granted h s)
    (hn : noReset s = true) (hd : s.ds ∉ l) :
    ∃ t, runRule (.require l :: rest) s = .next t ∧ Rejects s t h (.state s.ds) :=
  rejects_first rest g hn fun u hu => by simp [perform, hu, hd]

/-! ### A statement that cannot wait does not move `wait_until` -/

/-- A statement that is no Wait. -/
def Micro.prompt : Micro → Bool
  | .wait _ => false
  | _ => true

theorem perform_waitUntil {m : Micro} (hm : m.prompt = true) (s : State) :
    (perform m s).state.waitUntil = s.waitUntil := by
  cases m
  case wait d => cases hm
  case require l => simp only [perform]; split <;> rfl
  case unmute => simp only [perform, Effect.state]; split <;> rfl
  case gpio l a => cases l <;> rfl
  case write a v f =>
    rcases perform_write_cases a v f s with h | h | h | h <;> rw [h]
    · rfl
    · cases f <;> rfl
    · rfl
    · rfl
  case read a n =>
    simp only [perform]
    rcases memRead_cases a n s with ⟨b, -, d, h⟩ | h | h | h <;> rw [h] <;> rfl
  case loadStage n =>
    simp only [perform, Effect.state]
    have : ∀ n i (s : State), (stageRead i n s).2.waitUntil = s.waitUntil := by
      intro n
      induction n with
      | zero => intro i s; rfl
      | succ n ih =>
        intro i s
        simp only [stageRead, ih]
        unfold stageByte; split <;> rfl
    exact this n 0 s
  case parse => simp only [perform]; split <;> rfl
  all_goals rfl

/-- A run of statements none of which waits leaves `wait_until` as it was. -/
theorem run_waitUntil {ms : List Micro} (hm : ∀ m ∈ ms, m.prompt = true) (k : Nat) {s : State} (h : noReset s = true) :
    (run ms k s).waitUntil = s.waitUntil := by
  have c : Carries ms (fun u => noReset u = true ∧ u.waitUntil = s.waitUntil) (fun u => u.waitUntil = s.waitUntil) := by
    constructor
    · exact fun u hu _ => ⟨noReset_settled hu.1, by rw [settled_waitUntil hu.1, hu.2]⟩
    · intro u hu hc; rw [calm_of_noReset hu.1] at hc; cases hc
    · exact fun m hmm u hu =>
        ⟨(perform_works m u).noReset hu.1, by rw [perform_waitUntil (hm m hmm), hu.2]⟩
    · intro m hmm u t hu ht
      have := perform_waitUntil (hm m hmm) u
      rw [ht] at this
      exact this.trans hu.2
    · exact fun e u hu => ⟨by simpa using hu.1, hu.2⟩
    · exact fun m _ u d e t _ _ v hv _ => ⟨by simpa using hv.1, hv.2⟩
    · exact fun n u hu => ⟨by simpa using hu.1, hu.2⟩
    · exact fun u hu => by simp [hu.2]
  exact run_carries c k s ⟨h, rfl⟩

/-! ### The result of a run -/

/-- What the quiet run of a granted command's rule says of the command: its response, its new events, and every field
of the block's own. -/
theorem runRule_quiet {h : Nat} {s q : State} {rule : List Micro} {es : List Event} (g : Granted h s)
    (hn : noReset s = true) (hm : ∀ m ∈ rule, m.offStage = true) (hq : quiet rule 0 (still s) = .done q)
    (he : q.trace = (still s).trace ++ es) :
    ∃ t, runRule rule s = .next t ∧ t.lock = none ∧ respAt t h = some (responseOf q) ∧
      TraceGains s t (es ++ [.resp h (responseOf q).status (responseOf q).info (responseOf q).data 0]) ∧
      t.ds = q.ds ∧ t.eqEnabled = q.eqEnabled ∧ t.eqPreset = q.eqPreset ∧ t.pinRst = q.pinRst ∧ t.pinPd = q.pinPd ∧
      t.snapValid = q.snapValid ∧ t.snap = q.snap ∧ t.params = s.params ∧ t.cur = s.cur ∧
      ((∀ m ∈ rule, m.prompt = true) → t.waitUntil = s.waitUntil) := by
  have := run_quiet hm 0 hn
  rw [hq] at this
  obtain ⟨u, hu, rfl, k⟩ := this
  obtain ⟨fs, hf⟩ := k.trace
  obtain ⟨r, tr, -, -⟩ := complete_spec (s := u) (h := h) (by rw [k.lock, g.1]) (by rw [k.count]; exact g.2.1)
  have hfs : fs.map Event.untimed = es := by
    simp only [still_trace, hf, List.map_append] at he
    exact List.append_cancel_left he
  refine ⟨_, runRule_granted g _, by simp [hu], by rw [hu, r]; rfl, ?_, by simp [hu], by simp [hu], by simp [hu],
    by simp [hu], by simp [hu], by simp [hu], by simp [hu], by simp [hu, k.params], by simp [hu, k.cur],
    fun hp => run_waitUntil hp 0 hn⟩
  rw [hu]
  refine traceGains_of (fs := fs ++ [.resp h (responseOf u).status (responseOf u).info (responseOf u).data u.now]) ?_ ?_
  · rw [tr, hf, List.append_assoc]
  · simp [hfs, show responseOf (still u) = responseOf u from rfl]

/-! ### The start of PATCH_APPLY (R130) -/

/-- The locals once the text is read and parsed. -/
def parsed (text : Bytes) (img : Image) (s : State) : State :=
  { s with scratch := { s.scratch with buf := text, blocks := img } }

theorem read_kept (b : Bytes) (d : Nat) (u : State) : Kept u (advance 1 (setBuf b (withDraws d u))) :=
  ⟨rfl, rfl, le_rfl, rfl, rfl, [], by simp [withDraws]⟩

theorem blocks_kept (img : Image) (u : State) : Kept u (advance 1 (setBlocks img u)) :=
  ⟨rfl, rfl, le_rfl, rfl, rfl, [], by simp⟩

/-- Where nothing but time passes and the text parses, PATCH_APPLY comes to what follows its parse with the blocks
read, nothing else of the block's own changed, and no event. -/
theorem run_parsed {s : State} {n : Nat} {img : Image} (rest : List Micro) (ht : onlyTime s = true)
    (hd : s.ds ∈ dsForRunning) (hp : parsePatch (stageRead 0 n s).1 = .ok img) :
    ∃ u, run (.require dsForRunning :: .loadStage n :: .parse :: rest) 0 s = run rest 0 u ∧ onlyTime u = true ∧
      Kept s u ∧ still u =
        still (parsed (stageRead 0 n s).1 img (withDraws (stageRead 0 n s).2.env.draws s)) := by
  have hn := noReset_of_onlyTime ht
  have t1 := onlyTime_settled ht
  have g1 : perform (.require dsForRunning) (settled s) = .go 0 (settled s) := by
    simp [perform, settled_ds hn, hd]
  have o1 : onlyTime (advance 1 (settled s)) = true := t1
  have n1 := noReset_of_onlyTime o1
  have t2 := onlyTime_settled o1
  have k1 := (settled_kept hn).trans ((advance_works 1 (settled s)).kept.trans (settled_kept n1))
  have q1 := settled_ticks ht
  have q2 := settled_ticks o1
  obtain ⟨c1, c2⟩ := stageRead_congr (s := s) (t := settled (advance 1 (settled s))) k1.lock
    (by rw [q2.hosts]; simp [q1.hosts]) (by rw [q2.stage]; simp [q1.stage])
    (by rw [settled_draws n1]; simp [settled_draws hn]) 0 n
  have g2 : perform (.loadStage n) (settled (advance 1 (settled s))) =
      .go 0 (setBuf (stageRead 0 n s).1 (withDraws (stageRead 0 n s).2.env.draws (settled (advance 1 (settled s))))) := by
    simp only [perform]
    rw [stageRead_state, c1, c2]
  have o2 : onlyTime (advance 1 (setBuf (stageRead 0 n s).1
      (withDraws (stageRead 0 n s).2.env.draws (settled (advance 1 (settled s)))))) = true := t2
  have n2 := noReset_of_onlyTime o2
  have g3 : perform .parse (settled (advance 1 (setBuf (stageRead 0 n s).1
      (withDraws (stageRead 0 n s).2.env.draws (settled (advance 1 (settled s))))))) =
      .go 0 (setBlocks img (settled (advance 1 (setBuf (stageRead 0 n s).1
        (withDraws (stageRead 0 n s).2.env.draws (settled (advance 1 (settled s)))))))) := by
    have hb : (settled (advance 1 (setBuf (stageRead 0 n s).1
        (withDraws (stageRead 0 n s).2.env.draws (settled (advance 1 (settled s))))))).scratch.buf =
        (stageRead 0 n s).1 := by rw [settled_scratch n2]; rfl
    simp only [perform, hb, hp]
  refine ⟨advance 1 (setBlocks img (settled (advance 1 (setBuf (stageRead 0 n s).1
    (withDraws (stageRead 0 n s).2.env.draws (settled (advance 1 (settled s)))))))),
    by rw [run_go hn _ g1, run_go n1 _ g2, run_go n2 _ g3], onlyTime_settled o2, ?_, ?_⟩
  · exact (k1.trans (read_kept _ _ _)).trans ((settled_kept n2).trans (blocks_kept _ _))
  · have e : ∀ u, still (advance 1 (setBlocks img u)) = setBlocks img (still u) := fun _ => rfl
    have f : ∀ u, still (advance 1 (setBuf (stageRead 0 n s).1 (withDraws (stageRead 0 n s).2.env.draws u))) =
        setBuf (stageRead 0 n s).1 (withDraws (stageRead 0 n s).2.env.draws (still u)) := fun _ => rfl
    have a : ∀ u, still (advance 1 u) = still u := fun _ => rfl
    rw [e, still_settled n2, f, still_settled n1, a, still_settled hn]
    rfl

end Sys2Proof.Machine
end

