-- ==== Sys2Proof/Laws/Patch.lean ====
section
/-! SUPPORT. The text patch (42_commit_arbiter.md R127): its character classes, tokens and markers against the grammar of
Safety.lean, one lemma per operation that says all it can answer. -/

namespace Sys2Proof.Machine

/-- `IsHex` and `HexVal` against the grammar. -/
theorem isDigit_iff (c : Byte) (n : Nat) : IsDigit c n ↔ isHex c = true ∧ hexVal c = n := by
  have hc := c.isLt
  simp only [IsDigit, isHex, hexVal, Bool.or_eq_true, Bool.and_eq_true, decide_eq_true_eq]
  constructor
  · rintro (⟨h1, h2⟩ | ⟨h1, h2, h3 | h3⟩) <;> (constructor; · omega); all_goals (split; · omega); try (split <;> omega)
  · rintro ⟨h1, h2⟩
    split at h2
    · omega
    · split at h2 <;> omega

/-- The whitespace bytes. -/
theorem isWS_iff (c : Byte) : isWS c = true ↔ c ∈ ([0x20, 0x09, 0x0A, 0x0D] : Bytes) := by
  simp [isWS, or_assoc]

theorem ws_not_hex (c : Byte) (h : isWS c = true) : isHex c = false := by
  rw [isWS_iff] at h; simp at h; rcases h with rfl | rfl | rfl | rfl <;> decide

theorem hexVal_lt (c : Byte) (h : isHex c = true) : hexVal c < 16 := by
  obtain h := (isDigit_iff c _).2 ⟨h, rfl⟩
  rcases h with h | h <;> omega

/-- All that reading one byte token can answer. -/
theorem byteToken_iff (t : Bytes) (b : Byte) (rest : Bytes) :
    byteToken t = some (b, rest) ↔ ∃ u, t = u ++ rest ∧ IsToken u b ∧ (∀ c ∈ rest.head?, isHex c = false) := by
  unfold byteToken
  constructor
  · intro h
    split at h
    · rename_i hw
      split at h
      · rename_i c d rest' hd
        split at h
        · rename_i hx
          simp only [Bool.and_eq_true, Bool.not_eq_true'] at hx
          cases h
          refine ⟨t.takeWhile isWS ++ [c, d], ?_, ⟨_, c, d, hexVal c, hexVal d, rfl, ?_, ?_, ?_, ?_, ?_⟩, ?_⟩
          · conv_lhs => rw [← List.takeWhile_append_dropWhile (p := isWS) (l := t), hd]
            simp
          · cases t with
            | nil => simp at hw
            | cons x t => simp at hw; simp [List.takeWhile, hw]
          · intro x hx'
            rw [← isWS_iff]; exact List.mem_takeWhile_imp hx'
          · exact (isDigit_iff _ _).2 ⟨hx.1.1, rfl⟩
          · exact (isDigit_iff _ _).2 ⟨hx.1.2, rfl⟩
          · have := hexVal_lt c hx.1.1; have := hexVal_lt d hx.1.2
            simp only [hexByte, BitVec.toNat_ofNat]; omega
          · intro x hx'; have := hx.2; rw [Option.mem_def] at hx'; rw [hx'] at this; simpa using this
        · cases h
      · cases h
    · cases h
  · rintro ⟨u, rfl, ⟨ws, c, d, m, n, rfl, hne, hws, hc0, hd0, hb⟩, hr⟩
    obtain ⟨hc, rfl⟩ := (isDigit_iff _ _).1 hc0
    obtain ⟨hd, rfl⟩ := (isDigit_iff _ _).1 hd0
    have h1 : (ws ++ [c, d] ++ rest).head?.any isWS = true := by
      cases ws with
      | nil => exact absurd rfl hne
      | cons x ws => simp [(isWS_iff x).2 (hws x (by simp))]
    have hcw : isWS c = false := by
      cases h : isWS c with
      | false => rfl
      | true => rw [ws_not_hex c h] at hc; cases hc
    have h2 : (ws ++ [c, d] ++ rest).dropWhile isWS = c :: d :: rest := by
      rw [List.append_assoc, List.dropWhile_append_of_pos (fun x hx => (isWS_iff x).2 (hws x hx))]
      simp [hcw]
    rw [if_pos h1, h2]
    have h3 : rest.head?.any isHex = false := by
      cases h : rest.head? with
      | none => rfl
      | some x => simpa using hr x h
    simp only [hc, hd, h3, Bool.not_false, Bool.and_self, if_true, Option.some.injEq, Prod.mk.injEq, and_true]
    apply BitVec.eq_of_toNat_eq
    have := hexVal_lt c hc; have := hexVal_lt d hd
    simp only [hexByte, BitVec.toNat_ofNat]; omega

/-- All that reading a run of byte tokens can answer. -/
theorem byteTokens_iff (n : Nat) (t b : Bytes) (hn : 0 < n) :
    byteTokens n t = some b ↔ ∃ us post, t = us.flatten ++ post ∧ us.length = n ∧ List.Forall₂ IsToken us b ∧
      (∀ c ∈ post.head?, isHex c = false) := by
  induction n generalizing t b with
  | zero => omega
  | succ n ih =>
    simp only [byteTokens]
    constructor
    · intro h
      cases ht : byteToken t with
      | none => rw [ht] at h; cases h
      | some r =>
        obtain ⟨x, rest⟩ := r
        rw [ht] at h
        obtain ⟨u, rfl, hu, hr⟩ := (byteToken_iff _ _ _).1 ht
        obtain ⟨bs, hb, rfl⟩ := Option.map_eq_some_iff.1 h
        cases n with
        | zero => cases hb; exact ⟨[u], rest, by simp, rfl, .cons hu .nil, hr⟩
        | succ n =>
          obtain ⟨us, post, rfl, hl, hf, hp⟩ := (ih rest bs (by omega)).1 hb
          exact ⟨u :: us, post, by simp, by simp [hl], .cons hu hf, hp⟩
    · rintro ⟨us, post, rfl, hl, hf, hp⟩
      cases hf with
      | nil => simp at hl
      | @cons u x us bs hu hf =>
        have hl' : us.length = n := by simpa using hl
        have ht : byteToken ((u :: us).flatten ++ post) = some (x, us.flatten ++ post) := by
          refine (byteToken_iff _ _ _).2 ⟨u, by simp, hu, ?_⟩
          cases hf with
          | nil => simpa using hp
          | @cons v y us bs hv hf =>
            obtain ⟨ws, c, d, m, k, rfl, hne, hws, -⟩ := hv
            cases ws with
            | nil => exact absurd rfl hne
            | cons z ws =>
              intro q hq
              simp at hq
              subst hq
              exact ws_not_hex _ ((isWS_iff _).2 (hws _ (by simp)))
        rw [ht]
        dsimp only
        cases n with
        | zero =>
          have : us = [] := List.length_eq_zero_iff.1 hl'
          subst this
          cases hf; rfl
        | succ n =>
          rw [(ih _ bs (by omega)).2 ⟨us, post, rfl, hl', hf, hp⟩]; rfl

/-- A marker stands at the head of the text. -/
theorem markerHere_iff (a : Byte) (t : Bytes) : markerHere a t = true ↔ ∃ m rest, t = m ++ rest ∧ IsMarker a m := by
  constructor
  · intro h
    unfold markerHere at h
    split at h
    · rename_i x c d rest
      simp only [Bool.and_eq_true, beq_iff_eq] at h
      obtain ⟨⟨⟨⟨rfl, h1⟩, h2⟩, h3⟩, h4⟩ := h
      exact ⟨[0x58, c, d], rest, rfl, c, d, rfl, (isDigit_iff _ _).2 ⟨h1, h3⟩, (isDigit_iff _ _).2 ⟨h2, h4⟩⟩
    · cases h
  · rintro ⟨m, rest, rfl, c, d, rfl, hc, hd⟩
    obtain ⟨h1, h3⟩ := (isDigit_iff _ _).1 hc
    obtain ⟨h2, h4⟩ := (isDigit_iff _ _).1 hd
    simp [markerHere, h1, h2, h3, h4]

/-- All that the search for the first marker can answer. -/
theorem afterMarker_iff (a : Byte) (t rest : Bytes) : afterMarker a t = some rest ↔
    ∃ pre m, t = pre ++ m ++ rest ∧ IsMarker a m ∧
      (∀ pre' m' post', t = pre' ++ m' ++ post' → IsMarker a m' → pre.length ≤ pre'.length) := by
  induction t with
  | nil =>
    simp only [afterMarker, reduceCtorEq, false_iff]
    rintro ⟨pre, m, h, ⟨c, d, rfl, -⟩, -⟩
    simp at h
  | cons x t ih =>
    simp only [afterMarker]
    by_cases hm : markerHere a (x :: t) = true
    · rw [if_pos hm]
      obtain ⟨m, r, he, hM⟩ := (markerHere_iff _ _).1 hm
      obtain ⟨c, d, rfl, hcd⟩ := hM
      simp at he
      obtain ⟨rfl, rfl⟩ := he
      constructor
      · intro h; simp at h; subst h
        exact ⟨[], [0x58, c, d], rfl, ⟨c, d, rfl, hcd⟩, fun _ _ _ _ _ => by simp⟩
      · rintro ⟨pre, m, he, ⟨c', d', rfl, -⟩, hmin⟩
        have := hmin [] [0x58, c, d] r (by simp) ⟨c, d, rfl, hcd⟩
        have : pre = [] := by simpa using this
        subst this
        simp at he; simp [he]
    · rw [if_neg hm, ih]
      constructor
      · rintro ⟨pre, m, rfl, hM, hmin⟩
        refine ⟨x :: pre, m, by simp, hM, ?_⟩
        intro pre' m' post' he hM'
        cases pre' with
        | nil => exact absurd ((markerHere_iff _ _).2 ⟨m', post', by simpa using he, hM'⟩) hm
        | cons y pre' =>
          simp at he
          have := hmin pre' m' post' (by simp [he.2]) hM'
          simpa using this
      · rintro ⟨pre, m, he, hM, hmin⟩
        cases pre with
        | nil => exact absurd ((markerHere_iff _ _).2 ⟨m, rest, by simpa using he, hM⟩) hm
        | cons y pre =>
          simp at he
          refine ⟨pre, m, by simp [he.2], hM, fun pre' m' post' he' hM' => ?_⟩
          have := hmin (x :: pre') m' post' (by simp [he']) hM'
          simpa using this

end Sys2Proof.Machine
end

