-- ==== Sys2Proof/Laws/PerInstr.lean ====
section
/-! SUPPORT. Facts stated per command: the word a command encodes to lies in its row of the opcode map. -/

namespace Sys2Proof.Laws

/-- The bits a row fixes are what the command's word has there (30_encoding.md R69, R70). -/
def EncodeInRow.Statement (i : Instr) : Prop := encode i &&& i.row.mask = i.row.value

theorem EncodeInRow.bringup : EncodeInRow.Statement .bringup := by unfold Statement; decide
theorem EncodeInRow.shutdown : EncodeInRow.Statement .shutdown := by unfold Statement; decide
theorem EncodeInRow.rstPulse : EncodeInRow.Statement .rstPulse := by unfold Statement; decide
theorem EncodeInRow.suspend : EncodeInRow.Statement .suspend := by unfold Statement; decide
theorem EncodeInRow.resume : EncodeInRow.Statement .resume := by unfold Statement; decide

/-- Two words with the same 32 bits are the same word. -/
theorem word_ext {v w : Word32} (h : ∀ k < 32, v.getLsbD k = w.getLsbD k) : v = w :=
  BitVec.eq_of_getLsbD_eq h

theorem EncodeInRow.regRead (a : Byte) (l : Half) : EncodeInRow.Statement (.regRead a l) := by
  refine word_ext fun k hk => ?_
  interval_cases k <;> simp [encode, Instr.row, rowRegRead, fieldAt]

theorem EncodeInRow.regWrite (a : Byte) (l : Half) : EncodeInRow.Statement (.regWrite a l) := by
  refine word_ext fun k hk => ?_
  interval_cases k <;> simp [encode, Instr.row, rowRegWrite, fieldAt]

theorem EncodeInRow.setEnabled (e : Bool) : EncodeInRow.Statement (.setEnabled e) := by
  cases e <;> (unfold Statement; decide)

theorem EncodeInRow.selectPreset (a : Byte) : EncodeInRow.Statement (.selectPreset a) := by
  refine word_ext fun k hk => ?_
  interval_cases k <;> simp [encode, Instr.row, rowSelectPreset, fieldAt]

theorem EncodeInRow.patchApply (l : Half) : EncodeInRow.Statement (.patchApply l) := by
  refine word_ext fun k hk => ?_
  interval_cases k <;> simp [encode, Instr.row, rowPatchApply, fieldAt]

theorem EncodeInRow.status : EncodeInRow.Statement .status := by unfold Statement; decide

end Sys2Proof.Laws
end

