-- ==== Sys2Proof/Tests/Slice0.lean ====
section
/-! SUPPORT. Tests: the checks of well-formedness on ill-formed terms, words written out from the spec's encoding, single
steps on small states with the results 95_test_vectors.md gives, and a witness for the premises of every statement. -/

namespace Sys2Proof.Test

open Sys2Proof.Machine

/-! ### Helpers -/

/-- The fixture with another platform configuration. -/
def withCfg (f : PlatformConfig → PlatformConfig) : Params := { Config.fixture with cfg := f Config.fixtureCfg }

/-- The fixture with other control registers. -/
def withRegs (f : ControlRegs → ControlRegs) : Params := { Config.fixture with regs := f Config.fixtureRegs }

/-- A block in state `d`, as reset leaves it otherwise. -/
def inState (d : DeviceState) : State := { State.reset with ds := d }

/-- A block in Running with parameters `p`. -/
def runningWith (p : Params) : State := { State.powerOn p with ds := .running }

/-- The same block, its one host just granted the lock. -/
def held (s : State) : State := { s with lock := some 0 }

/-- The same block, with the Device's next answers given. -/
def device (as : List Answer) (s : State) : State := { s with env := { s.env with device := as } }

/-- The same block, with acts before its next micro-steps. -/
def world (acts : List (List Act)) (s : State) : State := { s with env := { s.env with world := acts } }

/-- The same block, with bytes in the stage from offset 0. -/
def staged (b : Bytes) (s : State) : State := { s with stage := b.zipIdx.map fun q => (q.2, q.1) }

/-- The state after an outcome; `s` where there is none. -/
def after (s : State) : Host.Outcome State Fault Refusal → State
  | .next t => t
  | _ => s

def goesOn : Host.Outcome State Fault Refusal → Bool
  | .next _ => true
  | _ => false

theorem goes_of {o : Host.Outcome State Fault Refusal} (h : goesOn o = true) : ∃ t, o = .next t := by
  cases o with
  | next t => exact ⟨t, rfl⟩
  | fault f => cases h
  | refused r => cases h

/-- What a word, issued by host 0, adds to the trace after its Grant. -/
def events (s : State) (w : Nat) : List Event := (newEvents s (after s (step (s.withFetchWord 32 w)))).drop 1

/-- The same without stamps. -/
def plain (s : State) (w : Nat) : List Event := (events s w).map Event.untimed

/-! ### Well-formedness: each check refuses a term that breaks it -/

theorem test_fixture_admitted : Config.fixture.admitted = true := by decide
theorem test_wf_addressesMapped :
    (withRegs fun r => { r with stop := ⟨0xFA, [1]⟩ }).addressesMapped = false := by decide
theorem test_wf_valuesFit : (withRegs fun r => { r with stop := ⟨0x8D, [1, 2]⟩ }).valuesFit = false := by decide
theorem test_wf_inputMuxIsFour :
    (withRegs fun r => { r with inputMux := ⟨0x80, [1]⟩ }).inputMuxIsFour = false := by decide
theorem test_wf_volumesAreOne :
    (withRegs fun r => { r with vol := r.vol.set 3 ⟨0x85, [1, 2, 3, 4]⟩ }).volumesAreOne = false := by decide
theorem test_wf_eqHighBit_low_bit :
    (withRegs fun r => { r with eqCtrl := ⟨0x95, [1, 0, 0, 1], [0, 0, 0, 1]⟩ }).eqHighBit = false := by decide
theorem test_wf_eqHighBit_two_bits :
    (withRegs fun r => { r with eqCtrl := ⟨0x95, [0x80, 0, 0, 0], [0, 0, 0, 1]⟩ }).eqHighBit = false := by decide
theorem test_wf_drcDiffers :
    (withRegs fun r => { r with drcCtrl := ⟨0x96, [1, 1, 1, 1], [1, 1, 1, 1]⟩ }).drcDiffers = false := by decide
theorem test_wf_controlsApart :
    (withRegs fun r => { r with drcCtrl := ⟨0x40, [1, 1, 1, 1], [0, 1, 1, 1]⟩ }).controlsApart = false := by decide
theorem test_wf_presetsCounted :
    (withCfg fun c => { c with presets := List.replicate 256 ⟨"p", []⟩ }).presetsCounted = false := by decide +kernel
theorem test_wf_presetsCounted_255 :
    (withCfg fun c => { c with presets := List.replicate 255 ⟨"p", []⟩ }).presetsCounted = true := by decide +kernel
theorem test_wf_hasHost : ({ Config.fixture with numHosts := 0 } : Params).hasHost = false := by decide
theorem test_wf_mapInRange :
    ({ Config.fixture with otherRegs := [(0xFA, .w1)] } : Params).mapInRange = false := by decide
theorem test_inadmissible_is_refused :
    step (State.powerOn { Config.fixture with numHosts := 0 }) = .refused .parametersNotAdmitted := rfl

/-! ### Decode: words written out from the rows of R69 and from V-EN of 95_test_vectors.md -/

theorem test_decode_bringup : decode 0x00000001 = .ok .bringup := by decide
theorem test_decode_shutdown : decode 0x00000002 = .ok .shutdown := by decide
theorem test_decode_rstPulse : decode 0x00000003 = .ok .rstPulse := by decide
theorem test_decode_suspend : decode 0x00000004 = .ok .suspend := by decide
theorem test_decode_resume : decode 0x00000005 = .ok .resume := by decide
theorem test_decode_regRead : decode 0x00142910 = .ok (.regRead 0x29 20) := by decide
theorem test_decode_regRead_top : decode 0xFFFFFF10 = .ok (.regRead 0xFF 0xFFFF) := by decide
theorem test_decode_regWrite : decode 0x00083A11 = .ok (.regWrite 0x3A 8) := by decide
theorem test_decode_setEnabled_on : decode 0x00000120 = .ok (.setEnabled true) := by decide
theorem test_decode_setEnabled_off : decode 0x00000020 = .ok (.setEnabled false) := by decide
theorem test_decode_selectPreset : decode 0x0000FF21 = .ok (.selectPreset 255) := by decide
theorem test_decode_patchApply : decode 0x05880022 = .ok (.patchApply 1416) := by decide
theorem test_decode_status : decode 0x00000030 = .ok .status := by decide
theorem test_decode_illegal_A : decode 0x00000101 = .error (.reservedBits 0x01) := by decide
theorem test_decode_illegal_bit9 : decode 0x00000320 = .error (.reservedBits 0x20) := by decide
theorem test_decode_illegal_L : decode 0x00FF0021 = .error (.reservedBits 0x21) := by decide
theorem test_decode_illegal_zero : decode 0x00000000 = .error (.unknownOpcode 0) := by decide
theorem test_decode_illegal_31 : decode 0x00000031 = .error (.unknownOpcode 0x31) := by decide
theorem test_tableWord : decodeTableWord 32 0x00010710 = some (.regRead 0x07 1) := by decide
theorem test_tableWord_illegal : decodeTableWord 32 0x00001230 = none := by decide

/-! ### Single steps (95_test_vectors.md 2.2 to 2.6) -/

/-- V-PS-5. -/
theorem test_bringup_counts :
    let es := events State.reset 0x01
    es.countP Event.isWrite = 52 ∧ es.countP Event.isPin = 4 ∧ es.getLast? = some (.resp 0 .ok 0 [] 247000) := by
  decide +kernel
/-- V-PS-11, V-EN-1. -/
theorem test_bringup_in_running :
    plain (inState .running) 0x01 = [.log ⟨.stateError, 4⟩ 0, .resp 0 .stateError 4 [] 0] := by decide +kernel
/-- V-PS-12. -/
theorem test_shutdown :
    events (inState .running) 0x02 =
      [.state .shuttingDown 0, .xfer .write 0x8D [0x0B] true 0, .pin .rst true 170000, .pin .pd true 170005,
       .state .off 170005, .resp 0 .ok 0 [] 170005] := by decide +kernel
/-- V-PS-13. -/
theorem test_shutdown_fails :
    plain (device [.fail] (inState .running)) 0x02 =
      [.state .shuttingDown 0, .xfer .write 0x8D [0x0B] false 0, .state .running 0, .log ⟨.transportError, 0x8D⟩ 0,
       .resp 0 .transportError 0x8D [] 0] := by decide +kernel
/-- V-PS-15. -/
theorem test_rstPulse :
    events (runningWith (withCfg fun c => { c with rstActiveHigh := false })) 0x03 =
      [.state .resetting 0, .pin .rst false 0, .pin .rst true 11000, .state .uninitialized 26000,
       .resp 0 .ok 0 [] 26000] := by decide +kernel
/-- V-PS-16. -/
theorem test_rstPulse_unbound :
    plain (runningWith (withCfg fun c => { c with pdPin := none })) 0x03 =
      [.log ⟨.sequenceError, 3⟩ 0, .resp 0 .sequenceError 3 [] 0] := by decide +kernel
/-- V-PS-17. -/
theorem test_suspend :
    let s := device [.ok [0x30], .ok [0x31], .ok [0x40], .ok [0x41]] (inState .running)
    let t := after s (step (s.withFetchWord 32 0x04))
    t.snap = #v[0x30, 0x31, 0x40, 0x41] ∧ t.snapValid = true ∧ t.ds = .off := by decide +kernel
/-- V-PS-18. -/
theorem test_suspend_read_fails :
    plain (device [.ok [0x30], .fail] (inState .running)) 0x04 =
      [.xfer .read 0x90 [0x30] true 0, .xfer .read 0x91 [] false 0, .log ⟨.transportError, 0x91⟩ 0,
       .resp 0 .transportError 0x91 [] 0] := by decide +kernel
/-- V-PS-20: the last four writes give the snapshot back. -/
theorem test_resume :
    let es := plain { inState .off with snapValid := true, snap := #v[0x30, 0x31, 0x40, 0x41] } 0x05
    es.countP Event.isWrite = 56 ∧
    es.drop (es.length - 5) =
      [.wrote 0x90 [0x30], .wrote 0x91 [0x31], .wrote 0x92 [0x40], .wrote 0x93 [0x41], .resp 0 .ok 0 [] 0] := by
  decide +kernel
/-- V-XP-1. -/
theorem test_regRead :
    let d : Bytes := (List.range 20).map (BitVec.ofNat 8)
    plain (device [.ok d] (inState .running)) 0x00142910 = [.xfer .read 0x29 d true 0, .resp 0 .ok 0 d 0] := by
  decide +kernel
/-- V-XP-2. -/
theorem test_regRead_length :
    plain (inState .running) 0x00082910 =
      [.log ⟨.lengthMismatchError, 8⟩ 0, .resp 0 .lengthMismatchError 8 [] 0] := by decide +kernel
/-- V-XP-5. -/
theorem test_regWrite :
    plain (staged [0x30] (inState .running)) 0x00010711 = [.wrote 0x07 [0x30], .resp 0 .ok 0 [] 0] := by
  decide +kernel
/-- V-XP-6. -/
theorem test_regWrite_protected :
    plain (inState .running) 0x00083A11 =
      [.log ⟨.protectedAddress, 0x3A⟩ 0, .resp 0 .protectedAddress 0x3A [] 0] := by decide +kernel
/-- V-AR-1. -/
theorem test_setEnabled_off :
    let s := inState .running
    plain s 0x20 = [.wrote 0x95 [0, 0, 0, 1], .wrote 0x96 [0, 0, 0, 0], .resp 0 .ok 0 [] 0] ∧
    (after s (step (s.withFetchWord 32 0x20))).eqEnabled = false := by decide +kernel
/-- V-AR-3. -/
theorem test_setEnabled_drc_fails :
    let s := device [.ok [], .fail] (inState .running)
    plain s 0x20 = [.wrote 0x95 [0, 0, 0, 1], .failed 0x96 [0, 0, 0, 0], .log ⟨.transportError, 0x96⟩ 0,
      .resp 0 .transportError 0x96 [] 0] ∧
    (after s (step (s.withFetchWord 32 0x20))).eqEnabled = true := by decide +kernel
/-- V-AR-5, V-AR-6: 20 writes, and a closing write that is OFF while `eq_enabled` is 0. -/
theorem test_selectPreset :
    let s := { inState .running with eqEnabled := false }
    let es := plain s 0x121
    es.length = 21 ∧ es[0]? = some (.wrote 0x95 [0, 0, 0, 1]) ∧ es[19]? = some (.wrote 0x95 [0, 0, 0, 1]) ∧
    es[1]? = some (.wrote 0x29 ((List.range 20).map fun k => BitVec.ofNat 8 (255 - k))) ∧
    (after s (step (s.withFetchWord 32 0x121))).eqPreset = 1 := by decide +kernel
/-- V-L1-7. -/
theorem test_selectPreset_index :
    plain (inState .running) 0x221 = [.log ⟨.indexError, 2⟩ 0, .resp 0 .indexError 2 [] 0] := by decide +kernel
/-- V-EN-10. -/
theorem test_patchApply_empty :
    plain (inState .running) 0x22 =
      [.log ⟨.lengthMismatchError, 0⟩ 0, .resp 0 .lengthMismatchError 0 [] 0] := by decide +kernel
/-- V-ST-4. -/
theorem test_status :
    plain { inState .off with snapValid := true } 0x30 = [.resp 0 .ok 0 [0x07, 0x03, 0x00, 0x00] 0] := by
  decide +kernel
/-- V-ST-7. -/
theorem test_status_after_reset :
    plain (State.powerOn (withCfg fun c => { c with initialPresetIndex := 5 })) 0x30 =
      [.resp 0 .ok 0 [0x00, 0x01, 0x05, 0x00] 0] := by decide +kernel
/-- V-EX-1: decode comes before the state check; the response word of V-EN-2. -/
theorem test_illegal_word :
    plain (inState .off) 0xFF22 = [.log ⟨.illegalCommand, 0xFF22⟩ 0, .resp 0 .illegalCommand 0xFF22 [] 0] ∧
    Response.word ⟨.illegalCommand, 0x0101, []⟩ = 0x01010008 := by decide +kernel

/-! ### The text of V-AR-9 -/

/-- The two upper-case hex digits of a byte. -/
def digits (n : Nat) : List Nat :=
  [n / 16, n % 16].map fun d => if d < 10 then 0x30 + d else 0x41 + (d - 10)

/-- The line of T9 for an address. -/
def patchLine (a : Byte) : List Nat :=
  let w := (coefficientWidth a).elim 0 Width.bytes
  0x58 :: digits a.toNat ++ ((List.range w).flatMap fun k => 0x20 :: digits ((a.toNat + k) % 256)) ++ [0x0A]

/-- T9 (V-AR-9). -/
def patchText : Bytes := (patchMarkers.flatMap patchLine).map (BitVec.ofNat 8)

theorem test_patch_length : patchText.length = 1416 := by decide +kernel
theorem test_patch_parses : (parsePatch patchText).toBool = true := by decide +kernel
/-- V-AR-9: the block of 0x40. -/
theorem test_patch_block : patchBlock 0x40 patchText = some [0x40, 0x41, 0x42, 0x43] := by decide +kernel
/-- V-AR-13, V-AR-14, and a third form: a block with a token too long, with no space, and with one cut short. -/
theorem test_patch_malformed :
    patchBlock 0x40 ([0x58, 0x34, 0x30, 0x20, 0x31, 0x32, 0x33] : Bytes) = none ∧
    patchBlock 0x40 ([0x58, 0x34, 0x30, 0x31, 0x32, 0x20, 0x33, 0x34, 0x20, 0x35, 0x36, 0x20, 0x37, 0x38] : Bytes) = none ∧
    patchBlock 0x40 ([0x58, 0x34, 0x30, 0x20, 0x31, 0x32, 0x20, 0x33, 0x34, 0x20, 0x35, 0x36, 0x20, 0x37] : Bytes) = none := by
  decide
/-- V-AR-10. -/
theorem test_patch_missing_marker :
    patchBlocks ((patchMarkers.take 29).flatMap patchLine |>.map (BitVec.ofNat 8)) [0x59, 0x5C, 0x5D] = .error 0x5D := by
  decide +kernel

/-! ### The assembler (R79, R80) -/

/-- `REG_READ 0x07`, and the pseudo-instruction EQDRC_ON. -/
theorem test_assemble :
    (asmParse [] ([0x52, 0x45, 0x47, 0x5F, 0x52, 0x45, 0x41, 0x44, 0x20, 0x30, 0x78, 0x30, 0x37] : Bytes)) =
      some (some (.regRead 0x07)) ∧
    ((AsmLine.regRead 0x07).command Config.fixture).map encode = some 0x00010710 ∧
    (AsmLine.eqdrcOn.command Config.fixture).map encode = some 0x00000120 := by decide

/-- `; x`, a blank line and `STATUS` are one line. -/
theorem test_program :
    asmProgram [] ([[0x3B, 0x20, 0x78], [], [0x53, 0x54, 0x41, 0x54, 0x55, 0x53]] : List Bytes) = some [.status] := by
  decide +kernel

/-- The REG_WRITE line of P3 (95_test_vectors.md): 20 zero bytes, word 0x00145D11. -/
theorem test_assemble_repeat :
    asmParse [] ([0x52, 0x45, 0x47, 0x5F, 0x57, 0x52, 0x49, 0x54, 0x45, 0x20, 0x30, 0x78, 0x35, 0x44, 0x2C, 0x20,
      0x30, 0x30, 0x20, 0x78, 0x32, 0x30] : Bytes) = some (some (.regWrite 0x5D (List.replicate 20 0))) ∧
    ((AsmLine.regWrite 0x5D (List.replicate 20 0)).command Config.fixture).map encode = some 0x00145D11 := by
  decide +kernel

/-- Host 0 issues the first line, and after a block reset has abandoned that command it waits (R79, R162). -/
theorem test_hostTurn_waits :
    ((hostTurn 0 ⟨[.status, .status], false⟩ State.reset).bind fun q => hostTurn 0 q.1 (blockReset q.2)).map Prod.fst =
      some ⟨[.status], true⟩ := by decide +kernel

/-- With the response of the first line it issues the second. -/
theorem test_hostTurn_goes_on :
    ((hostTurn 0 ⟨[.status, .status], false⟩ State.reset).bind fun q =>
      hostTurn 0 q.1 (after q.2 (step q.2))).map Prod.fst = some ⟨[], true⟩ := by decide +kernel

/-! ### Witnesses: for each statement with premises, states and operands that meet them -/

theorem next_after {o : Host.Outcome State Fault Refusal} (s : State) (h : goesOn o = true) : o = .next (after s o) := by
  cases o with
  | next t => rfl
  | fault f => cases h
  | refused r => cases h

/-- A running block, its host just granted the lock. -/
def runningHeld : State := held (inState .running)

/-- A block after reset, its host just granted the lock. -/
def resetHeld : State := held State.reset

/-- The same block with unbound pins. -/
def unboundHeld : State := held (runningWith (withCfg fun c => { c with pdPin := none }))

theorem witness_EncodeInvertsDecode : decode 0x10010022 = .ok (.patchApply 0x1001) := by decide

theorem witness_DecodeFindsTheUniqueRow :
    (let s := State.reset.withFetchWord 32 0
     s.params.admitted = true ∧ s.lock = none ∧ decode 0 = .error (.unknownOpcode 0) ∧
     nextCommand (agentsAct s) = some (0, 0)) ∧
    Granted 0 resetHeld ∧ noReset resetHeld = true ∧
    rowStatus ∈ opcodeRows ∧ rowStatus.matchesWord 0x30 = true := by decide

theorem witness_StepRunsTheDecodedCommand :
    (let s := State.reset.withFetchWord 32 0x30
     s.params.admitted = true ∧ s.lock = none ∧ nextCommand (agentsAct s) = some (0, 0x30) ∧
     decode 0x30 = .ok .status) ∧
    (let s := { runningHeld with cur := 0x20 }
     s.params.admitted = true ∧ s.lock = some 0 ∧ decode s.cur = .ok (.setEnabled false)) ∧
    (let s := State.reset
     s.params.admitted = true ∧ s.lock = none ∧ nextCommand (agentsAct s) = none) := by decide

theorem witness_PlacedWordRunsNext : State.reset.params.admitted = true ∧ State.reset.hosts ≠ [] := by decide

theorem witness_BlockResetAbandonsTheCommand : calm (world [[.tick 100, .reset]] runningHeld) = false := by decide

/-- Each clause: a free host, a waiting one, the holder of the lock, a host that does not exist. -/
theorem witness_IssueTakesOneCommandPerHost :
    (let s := State.reset
     s.hosts[0]? = some .idle ∧ HostPort.idle.pending = none ∧ s.lock ≠ some 0 ∧ s.hosts[1]? = none) ∧
    (let s := State.reset.withFetchWord 32 1
     s.hosts[0]? = some ⟨some 1, none, []⟩ ∧ (⟨some 1, none, []⟩ : HostPort).pending ≠ none) ∧
    (resetHeld.hosts[0]? = some .idle ∧ resetHeld.lock = some 0) := by decide

theorem witness_GrantServesAnyPendingHost :
    let s := { State.reset with hosts := [⟨some 1, none, []⟩, ⟨some 0x30, none, []⟩] }
    nextCommand s = some (0, 1) ∧ s.hosts[1]? = some ⟨some 0x30, none, []⟩ ∧
    (⟨some 0x30, none, []⟩ : HostPort).pending = some 0x30 := by decide

theorem witness_CompletionWritesTheResponse :
    calm resetHeld = true ∧ resetHeld.lock = some 0 ∧ 0 < resetHeld.hosts.length := by decide

theorem witness_AbortLogsAndCompletes :
    resetHeld.lock = some 0 ∧ 0 < resetHeld.hosts.length ∧ noReset resetHeld = true := by decide

theorem witness_AdmissibilityGatesEveryCommand :
    (Granted 0 runningHeld ∧ noReset runningHeld = true ∧ admits .bringup runningHeld.ds = false) ∧
    (Granted 0 resetHeld ∧ noReset resetHeld = true ∧ admits .shutdown resetHeld.ds = false) ∧
    (Undisturbed runningHeld ∧ admits (.setEnabled true) runningHeld.ds = true) ∧
    Instr.shutdown ≠ .bringup ∧ Instr.shutdown ≠ .resume ∧ Instr.shutdown ≠ .status := by decide
theorem witness_AdmissibilityGatesEveryCommand_completes :
    ∃ t r, exec (.setEnabled true) runningHeld = .next t ∧ respAt t 0 = some r :=
  ⟨_, _, next_after runningHeld (by decide +kernel), show _ = some ⟨.ok, 0, []⟩ by decide +kernel⟩

theorem witness_PowerUpDrivesFourPinEvents :
    noReset resetHeld = true ∧ pinsBound resetHeld.params = true ∧ noReset unboundHeld = true ∧
    pinsBound unboundHeld.params = false := by decide

theorem witness_ShutdownPowersTheChipDown :
    Granted 0 runningHeld ∧ Smooth runningHeld ∧ runningHeld.ds = .running ∧ pinsBound runningHeld.params = true := by
  decide

/-- SHUTDOWN, and SUSPEND. -/
theorem witness_ShutdownRecoversFromAFailedStop :
    (let s := device [.fail] runningHeld
     Granted 0 s ∧ noReset s = true ∧ nextAnswer s = .fail ∧ s.ds = .running ∧ pinsBound s.params = true) ∧
    (let s := device [.ok [1], .ok [2], .ok [3], .ok [4], .fail] runningHeld
     Granted 0 s ∧ noReset s = true ∧ s.ds = .running ∧ pinsBound s.params = true ∧
     s.env.device = .ok [1] :: .ok [2] :: .ok [3] :: .ok [4] :: .fail :: []) := by decide

theorem witness_UnboundPinsMakeNoSequence :
    Granted 0 unboundHeld ∧ noReset unboundHeld = true ∧ unboundHeld.ds = .running ∧
    pinsBound unboundHeld.params = false := by decide

theorem witness_RstPulsePulsesTheResetLine :
    Granted 0 runningHeld ∧ noReset runningHeld = true ∧ runningHeld.ds = .running ∧
    pinsBound runningHeld.params = true := by decide

theorem witness_SuspendTakesTheSnapshot :
    let s := device [.ok [1], .ok [2], .ok [3], .ok [4], .ok []] runningHeld
    Granted 0 s ∧ noReset s = true ∧ s.ds = .running ∧ pinsBound s.params = true ∧
    s.env.device = .ok [1] :: .ok [2] :: .ok [3] :: .ok [4] :: .ok [] :: [] := by decide

/-- The first read failing, and the last. -/
theorem witness_SuspendReadFailureChangesNothing :
    (let s := device [.fail] runningHeld
     Granted 0 s ∧ noReset s = true ∧ s.ds = .running ∧ pinsBound s.params = true ∧
     s.env.device = ([] : Bytes).map (fun b => .ok [b]) ++ .fail :: [] ∧ ([] : Bytes).length < 4) ∧
    (let s := device [.ok [1], .ok [2], .ok [3], .fail] runningHeld
     Granted 0 s ∧ s.env.device = ([1, 2, 3] : Bytes).map (fun b => .ok [b]) ++ .fail :: [] ∧
     ([1, 2, 3] : Bytes).length < 4) := by decide

theorem witness_BringupAlwaysEndsRunning :
    Granted 0 resetHeld ∧ Undisturbed resetHeld ∧ admits .bringup resetHeld.ds = true ∧
    admits .resume resetHeld.ds = true := by decide

/-- A block that may resume, its snapshot taken. -/
def suspendedHeld : State := { held (inState .off) with snapValid := true }

/-- A CW write that goes through, and one that fails. -/
theorem witness_BringupAlwaysEndsRunning_cw :
    noReset resetHeld = true ∧ resetHeld.scratch.outstanding = false ∧ (∃ b, nextAnswer resetHeld = .ok b) ∧
    nextAnswer (device [.fail] resetHeld) = .fail := ⟨by decide, by decide, ⟨_, rfl⟩, by decide⟩

/-- One failing CW write: the oscillator trim of a BRINGUP, and the last restore write of a RESUME. -/
theorem witness_BringupAlwaysEndsRunning_one :
    (let s := device ([].map Answer.ok ++ .fail :: [].map Answer.ok) resetHeld
     Granted 0 s ∧ noReset s = true ∧ admits .bringup s.ds = true ∧ s.env.thereafter.isOk = true ∧
     let pre := (bringupBefore s).take 7
     bringupBefore s = pre ++ .wrote 0x80 [0x01] :: (bringupBefore s).drop 8 ∧
     ([] : List Bytes).length = pre.countP Event.isWrite) ∧
    (let oks := List.replicate 55 ([] : Bytes)
     let s := device (oks.map .ok ++ .fail :: [].map Answer.ok) suspendedHeld
     Granted 0 s ∧ noReset s = true ∧ admits .resume s.ds = true ∧ s.env.thereafter.isOk = true ∧
     let pre := (bringupAfter .resume s).dropLast
     bringupAfter .resume s = pre ++ .wrote 0x93 [0] :: [] ∧
     oks.length = (bringupBefore s ++ bringupBanks s ++ pre).countP Event.isWrite) := by decide +kernel

/-- BRINGUP, and RESUME with a snapshot. -/
theorem witness_BringupTransactionCounts :
    (Granted 0 resetHeld ∧ Smooth resetHeld ∧ admits .bringup resetHeld.ds = true) ∧
    (let s := { held (inState .off) with snapValid := true }
     Granted 0 s ∧ Smooth s ∧ admits .resume s.ds = true ∧ (restoreEvents s).length = 4) := by decide

theorem witness_CommandsTakeTheirMinimumTime :
    (Granted 0 runningHeld ∧ Undisturbed runningHeld ∧ admits .bringup resetHeld.ds = true) ∧
    (∃ t, exec .rstPulse runningHeld = .next t ∧ respAt t 0 = some ⟨.ok, 0, []⟩) ∧
    (∃ t, exec .shutdown runningHeld = .next t ∧ respAt t 0 = some ⟨.ok, 0, []⟩) :=
  ⟨by decide, ⟨_, next_after runningHeld (by decide +kernel), by decide +kernel⟩,
    ⟨_, next_after runningHeld (by decide +kernel), by decide +kernel⟩⟩

theorem witness_ResumeRestoresTheSnapshot :
    let s := { held (inState .off) with snapValid := true }
    Granted 0 s ∧ Smooth s ∧ admits .resume s.ds = true ∧ s.snapValid = true ∧ resetHeld.snapValid = false := by decide

theorem witness_RegReadReturnsTheBytesRead :
    (let s := device [.ok [0x30]] runningHeld
     Granted 0 s ∧ noReset s = true ∧ s.ds = .running ∧ regmap s.params 0x07 = some 1 ∧ (1 : Half).toNat = 1 ∧
     s.env.device = .ok [0x30] :: [] ∧ ([0x30] : Bytes).length = 1) ∧
    nextAnswer (device [.fail] runningHeld) = .fail := by decide

/-- Each clause: no entry, the wrong lengths 0 and 0xFFFF, a protected address. -/
theorem witness_RegisterCommandsCheckTheirOperands :
    let s := runningHeld
    Granted 0 s ∧ noReset s = true ∧ s.ds = .running ∧ regmap s.params 0xFA = none ∧
    regmap s.params 0x29 = some 20 ∧ (0 : Half).toNat ≠ 20 ∧ (0xFFFF : Half).toNat ≠ 20 ∧
    regmap s.params 0x95 = some (4 : Half).toNat ∧ isProtected s.params 0x95 = true := by decide

theorem witness_RegWriteWritesTheStage :
    (let s := staged [9, 8, 7, 6] runningHeld
     Granted 0 s ∧ onlyTime s = true ∧ s.ds = .running ∧ regmap s.params 0x86 = some (4 : Half).toNat ∧
     isProtected s.params 0x86 = false ∧ ([9, 8, 7, 6] : Bytes).length = (4 : Half).toNat ∧
     (∀ k < 4, stageValue s k = ([9, 8, 7, 6] : Bytes)[k]?) ∧ nextAnswer s = .ok []) ∧
    nextAnswer (device [.fail] runningHeld) = .fail := by decide

theorem witness_RegWriteSparesProtectedAddresses :
    Granted 0 runningHeld ∧ ∃ t, exec (.regWrite 0x29 20) runningHeld = .next t :=
  ⟨by decide, goes_of (by decide +kernel)⟩

/-- The Device falls silent, or has been. -/
theorem witness_SilentDeviceHoldsTheCommand :
    (let s := device [.silent] runningHeld
     noReset s = true ∧ s.scratch.outstanding = false ∧ nextAnswer s = .silent) ∧
    (let s := { runningHeld with scratch := { Scratch.empty with outstanding := true } }
     noReset s = true ∧ s.scratch.outstanding = true) ∧
    (∃ a n, Micro.read 0x29 20 = .read a n) ∧ ∃ a v f, Micro.write 0x29 .buf .raise = .write a v f :=
  ⟨by decide, by decide, ⟨_, _, rfl⟩, _, _, _, rfl⟩

theorem witness_TransactionsMoveWholeRegisters :
    let s := (inState .running).withFetchWord 32 0x20
    s.params.admitted = true ∧ s.lock = none ∧ ∃ t, step s = .next t ∧ newEvents s t ≠ [] :=
  ⟨by decide, by decide, _, next_after (inState .running) (by decide +kernel), by decide +kernel⟩

theorem witness_StageWritePortSetsOneByte : Stage.wf (staged [1, 2] State.reset).stage = true := by decide

/-- Each clause, at the two ends of the stage. -/
theorem witness_RacedStageBytesAreUnconstrained :
    (resetHeld.lock = some 0 ∧ resetHeld.hosts[0]? = some .idle) ∧
    (let s := State.reset.withFetchWord 32 0x11
     s.hosts[0]? = some ⟨some 0x11, none, []⟩ ∧ (⟨some 0x11, none, []⟩ : HostPort).pending ≠ none) ∧
    (0 ∈ racedNow (hostStageWrite 0 5 resetHeld) ∧ 4095 ∈ racedNow (hostStageWrite 4095 5 resetHeld)) ∧
    Stage.read resetHeld.stage 4095 = none ∧
    ((∀ r ∈ racedNow (staged [7] resetHeld), r.toNat ≠ 0) ∧ Stage.read (staged [7] resetHeld).stage 0 = some 7) := by
  decide

/-- Each clause: the largest payload, an address in the map, hex digits of either case, a text with no quote, a line
that a host may issue. -/
theorem witness_AssembledLineIssuesItsCommand :
    (List.replicate 4096 (0 : Byte)).length ≤ 4096 ∧ regmap Config.fixture 0x29 = some 20 ∧
    (IsDigit 0x39 9 ∧ IsDigit 0x41 10 ∧ IsDigit 0x66 15) ∧ (0x22 : Byte) ∉ ([0x58, 0x3B] : Bytes) ∧
    (∃ acts, (AsmLine.regWrite 0x07 [0x30]).acts Config.fixture 0 = some acts) ∧ issueReady State.reset 0 = true ∧
    Stage.wf State.reset.stage = true :=
  ⟨List.length_replicate.le, by decide, by unfold IsDigit; decide, by decide, ⟨_, rfl⟩, by decide, by decide⟩

theorem witness_ImagesRoundTrip :
    (List.replicate 360 (1 : Byte)).length = 360 ∧ (List.replicate 24 (1 : Byte)).length = 24 ∧
    (List.replicate 12 (1 : Byte)).length = 12 := ⟨List.length_replicate, List.length_replicate, List.length_replicate⟩

/-- The text of V-AR-9 stands in the stage. -/
def patchHeld : State := staged patchText runningHeld

theorem staged_lookup (b : Bytes) (n k : Nat) :
    ((b.zipIdx n).map fun q => ((q.2, q.1) : Host.Cell)).lookup (n + k) = b[k]? := by
  induction b generalizing n k with
  | nil => rfl
  | cons c rest ih =>
    simp only [List.zipIdx_cons, List.map_cons, List.lookup]
    cases k with
    | zero => simp
    | succ k =>
      have hne : (n + (k + 1) == n) = false := by simp
      rw [hne, show n + (k + 1) = (n + 1) + k by omega]
      simpa using ih (n + 1) k

theorem patchHeld_reads : (stageRead 0 1416 patchHeld).1 = patchText := by
  have h : ∀ k < patchText.length, stageValue patchHeld (0 + k) = patchText[k]? := by
    intro k _
    have := staged_lookup patchText 0 k
    simpa [stageValue, patchHeld, staged, racedNow, runningHeld, held, inState, Stage.read, State.reset, State.powerOn,
      Config.fixture, HostPort.idle] using this
  have := stageRead_known h
  rw [test_patch_length] at this
  rw [this]

theorem patchHeld_parses : ∃ img, parsePatch (stageRead 0 (1416 : Half).toNat patchHeld).1 = .ok img := by
  have h := test_patch_parses
  rw [show (1416 : Half).toNat = 1416 from rfl, patchHeld_reads]
  cases hp : parsePatch patchText with
  | ok img => exact ⟨img, rfl⟩
  | error a => rw [hp] at h; cases h

theorem patchHeld_granted :
    Granted 0 patchHeld ∧ onlyTime patchHeld = true ∧ succeeds patchHeld = true ∧ Undisturbed patchHeld ∧
    patchHeld.ds = .running ∧ 1 ≤ (1416 : Half).toNat ∧ (1416 : Half).toNat ≤ 4096 :=
  ⟨⟨rfl, by decide, rfl, rfl, rfl⟩, rfl, rfl, ⟨rfl, rfl⟩, rfl, by decide, by decide⟩

theorem witness_ImageBlocksFitTheirRegisters :
    (∃ img, loadEq (List.replicate 360 1) = some img) ∧
    (∃ img, loadDrc (List.replicate 24 1) (List.replicate 12 1) = some img) ∧
    ∃ img, parsePatch patchText = .ok img :=
  ⟨⟨_, loadEq_some List.length_replicate⟩, ⟨_, rfl⟩, by have := patchHeld_parses; rwa [show (1416 : Half).toNat = 1416 from rfl, patchHeld_reads] at this⟩

/-- Each clause; the text of the last is one byte long. -/
theorem witness_RejectedBankMakesNoTransaction :
    (let s := runningWith (withCfg fun c => { c with drcMain := some [1] })
     noReset s = true ∧ platformDrc s.params = none) ∧
    (noReset runningHeld = true ∧ platformEq runningHeld.params 2 = none) ∧
    (let s := held (runningWith (withCfg fun c => { c with presets := [⟨"p", [1]⟩] }))
     Granted 0 s ∧ noReset s = true ∧ s.ds = .running ∧ s.params.cfg.presets[(0 : Byte).toNat]? = some ⟨"p", [1]⟩ ∧
     ([1] : Bytes).length ≠ 360) ∧
    (let s := staged [0x58] runningHeld
     Granted 0 s ∧ onlyTime s = true ∧ s.ds = .running ∧ 1 ≤ (1 : Half).toNat ∧ (1 : Half).toNat ≤ 4096 ∧
     parsePatch (stageRead 0 (1 : Half).toNat s).1 = .error 0x29) := by
  refine ⟨by decide, by decide, by decide, by decide, by decide, by decide, by decide, by decide, ?_⟩
  decide +kernel

/-- The three ways a bracket goes; in the last the first image write fails, or the last. -/
theorem witness_BracketShape :
    Smooth runningHeld ∧ (Undisturbed (device [.fail] runningHeld) ∧ nextAnswer (device [.fail] runningHeld) = .fail) ∧
    (let s := device [.ok [], .fail] runningHeld
     Undisturbed s ∧ 0 < (patchImage .drc).length ∧ ([[]] : List Bytes).length = 0 + 1 ∧
     s.env.device = ([[]] : List Bytes).map .ok ++ .fail :: []) ∧
    (let s := device (List.replicate 12 (.ok []) ++ [.fail]) runningHeld
     Undisturbed s ∧ 11 < (patchImage .drc).length ∧ (List.replicate 12 ([] : Bytes)).length = 11 + 1 ∧
     s.env.device = (List.replicate 12 ([] : Bytes)).map .ok ++ .fail :: []) := by decide

theorem witness_SetEnabledWritesBothControls :
    Granted 0 runningHeld ∧ Smooth runningHeld ∧ runningHeld.ds = .running := by decide

theorem witness_SetEnabledFailureKeepsTheFlag :
    (let s := device [.fail] runningHeld
     Granted 0 s ∧ noReset s = true ∧ s.ds = .running ∧ nextAnswer s = .fail) ∧
    (device [.ok [], .fail] runningHeld).env.device = .ok [] :: .fail :: [] := by decide

theorem witness_SelectPresetCommitsTheBank :
    Granted 0 runningHeld ∧ Smooth runningHeld ∧ runningHeld.ds = .running ∧
    ∃ q img, runningHeld.params.cfg.presets[(1 : Byte).toNat]? = some q ∧ loadEq q.blob = some img :=
  ⟨by decide, by decide, by decide, _, _, rfl, loadEq_some (by decide +kernel)⟩

/-- The first index past the list, the last, and a stored blob of one byte. -/
theorem witness_SelectPresetChecksTheIndex :
    (Granted 0 runningHeld ∧ noReset runningHeld = true ∧ runningHeld.ds = .running ∧
     runningHeld.params.cfg.numPresets ≤ (2 : Byte).toNat ∧ runningHeld.params.cfg.numPresets ≤ (255 : Byte).toNat) ∧
    (let s := held (runningWith (withCfg fun c => { c with presets := [⟨"p", [1]⟩] }))
     Granted 0 s ∧ s.params.cfg.presets[(0 : Byte).toNat]? = some ⟨"p", [1]⟩ ∧ ([1] : Bytes).length ≠ 360) := by
  decide +kernel

theorem witness_SelectPresetKeepsThePresetOnFailure :
    (Granted 0 runningHeld ∧ Undisturbed runningHeld ∧
      ∃ t, exec (.selectPreset 1) runningHeld = .next t ∧ respAt t 0 = some ⟨.ok, 0, []⟩) ∧
    (let s := device [.fail] runningHeld
     Granted 0 s ∧ Undisturbed s ∧
      ∃ t, exec (.selectPreset 1) s = .next t ∧ respAt t 0 = some ⟨.transportError, 0x95, []⟩) :=
  ⟨⟨by decide, by decide, _, next_after runningHeld (by decide +kernel), by decide +kernel⟩,
    by decide, by decide, _, next_after runningHeld (by decide +kernel), by decide +kernel⟩

/-- The first write of the bracket failing, the second, and the last. -/
theorem witness_SelectPresetKeepsThePresetOnFailure_breaks (n : Nat) (h : n = 0 ∨ n = 1 ∨ n = 19) :
    let s := device (List.replicate n (.ok []) ++ [.fail, .ok []]) runningHeld
    Granted 0 s ∧ noReset s = true ∧ s.ds = .running ∧
    (∃ q img w, s.params.cfg.presets[(1 : Byte).toNat]? = some q ∧ loadEq q.blob = some img ∧
      (bracketWrites s .eq img)[n]? = some w) ∧
    (List.replicate n ([] : Bytes)).length = n ∧
    s.env.device = (List.replicate n ([] : Bytes)).map .ok ++ .fail :: .ok [] :: [] := by
  rcases h with rfl | rfl | rfl
  all_goals exact ⟨by decide, by decide, by decide,
    ⟨_, _, _, rfl, loadEq_some (by decide +kernel), rfl⟩, by decide, by decide⟩

theorem witness_PatchAppliesUnderSoftMute :
    Granted 0 patchHeld ∧ onlyTime patchHeld = true ∧ succeeds patchHeld = true ∧ patchHeld.ds = .running ∧
    1 ≤ (1416 : Half).toNat ∧ (1416 : Half).toNat ≤ 4096 ∧
    ∃ img, parsePatch (stageRead 0 (1416 : Half).toNat patchHeld).1 = .ok img :=
  have h := patchHeld_granted
  ⟨h.1, h.2.1, h.2.2.1, h.2.2.2.2.1, h.2.2.2.2.2.1, h.2.2.2.2.2.2, patchHeld_parses⟩

/-- The lengths 0, the first past the stage, and the largest. -/
theorem witness_PatchChecksItsLength :
    Granted 0 runningHeld ∧ noReset runningHeld = true ∧ runningHeld.ds = .running ∧ (0 : Half).toNat = 0 ∧
    4096 < (4097 : Half).toNat ∧ 4096 < (0xFFFF : Half).toNat := by decide

/-- What every clause asks of the state. -/
theorem patchHeld_device (as : List Answer) :
    let s := device as patchHeld
    Granted 0 s ∧ onlyTime s = true ∧ s.ds = .running ∧ 1 ≤ (1416 : Half).toNat ∧ (1416 : Half).toNat ≤ 4096 ∧
    ∃ img, parsePatch (stageRead 0 (1416 : Half).toNat s).1 = .ok img := by
  refine ⟨⟨rfl, show 0 < patchHeld.hosts.length by decide, rfl, rfl, rfl⟩, rfl, rfl, by decide, by decide, ?_⟩
  obtain ⟨img, h⟩ := patchHeld_parses
  exact ⟨img, by rw [(stageRead_congr (s := patchHeld) (t := device as patchHeld) rfl rfl rfl rfl 0 _).1]; exact h⟩

/-- The write that fails: the mute write; in the DRC bracket the first and the last; in the EQ bracket the first and the
last; the release write. -/
theorem witness_PatchReleasesAfterAFailedMute :
    let w := fun (s : State) (k : Kind) (img : Image) => bracketWrites s k (k.addrs.map fun a => (a, blockOf img a))
    let oks := fun n => List.replicate n ([] : Bytes)
    (∀ as, Granted 0 (device as patchHeld) ∧ onlyTime (device as patchHeld) = true ∧
      ∃ img, parsePatch (stageRead 0 (1416 : Half).toNat (device as patchHeld)).1 = .ok img) ∧
    (device [.fail, .ok []] patchHeld).env.device = .fail :: .ok [] :: [] ∧
    (∀ img s, (∃ q, (w s .drc img)[0]? = some q) ∧ (∃ q, (w s .drc img)[13]? = some q) ∧ (w s .drc img).length = 14 ∧
      (∃ q, (w s .eq img)[0]? = some q) ∧ ∃ q, (w s .eq img)[19]? = some q) ∧
    (∀ n, (oks n).length = n ∧
      (device (.ok [] :: (oks n).map .ok ++ .fail :: .ok [] :: .ok [] :: []) patchHeld).env.device =
        .ok [] :: (oks n).map .ok ++ .fail :: .ok [] :: .ok [] :: []) ∧
    (device ((oks 35).map .ok ++ .fail :: []) patchHeld).env.device = (oks 35).map .ok ++ .fail :: [] :=
  ⟨fun as => have h := patchHeld_device as; ⟨h.1, h.2.1, h.2.2.2.2.2⟩, rfl,
    fun _ _ => ⟨⟨_, rfl⟩, ⟨_, rfl⟩, rfl, ⟨_, rfl⟩, _, rfl⟩, fun _ => ⟨List.length_replicate, rfl⟩, rfl⟩

/-- The images of `patchText`. -/
def patchImages : Image := ((parsePatch patchText).toOption).getD []

/-- A successful write to 0x3A. -/
def writes3A : Event → Bool
  | .xfer .write a _ ok _ => a == 0x3A && ok
  | _ => false

/-- The run comes to its end and its trace has an event of the kind `f`. -/
def Rest.shows (f : Event → Bool) : Rest → Bool
  | .done q => q.trace.any f
  | .stuck _ => false

/-- The mute guard of that patch with time left out. -/
def patchRest : Rest :=
  quiet (muteGuard patchHeld.params) 0
    (still (parsed patchText patchImages (withDraws (stageRead 0 1416 patchHeld).2.env.draws patchHeld)))

theorem patchRest_writes : Rest.shows writes3A patchRest = true := by decide +kernel

theorem run_shows {ms : List Micro} (hm : ∀ m ∈ ms, m.offStage = true) {s q : State} (h : noReset s = true)
    (hs : still s = q) {f : Event → Bool} (hf : Rest.shows f (quiet ms 0 q) = true) :
    ∃ v, run ms 0 s = complete v ∧ Kept s v ∧ ∃ e ∈ v.trace, f e.untimed = true := by
  have hq := run_quiet hm 0 h
  rw [hs] at hq
  cases hr : quiet ms 0 q with
  | done r =>
    rw [hr] at hq hf
    obtain ⟨v, hv, rfl, k⟩ := hq
    obtain ⟨e, he, hx⟩ := List.any_eq_true.1 hf
    obtain ⟨e', he', rfl⟩ := List.mem_map.1 (still_trace v ▸ he)
    exact ⟨v, hv, k, e', he', hx⟩
  | stuck r => rw [hr] at hf; cases hf

/-- The patch writes the DRC bank. -/
theorem patchHeld_writes :
    ∃ t pre v τ post, exec (.patchApply 1416) patchHeld = .next t ∧
      newEvents patchHeld t = pre ++ .xfer .write 0x3A v true τ :: post := by
  have hp : parsePatch (stageRead 0 1416 patchHeld).1 = .ok patchImages := by
    have h := test_patch_parses
    rw [patchHeld_reads, patchImages]
    cases hp : parsePatch patchText with
    | ok img => rfl
    | error a => rw [hp] at h; cases h
  obtain ⟨u, hu, ho, hk, hs⟩ := run_parsed (n := 1416) (muteGuard patchHeld.params) patchHeld_granted.2.1
    (by rw [patchHeld_granted.2.2.2.2.1]; decide) hp
  rw [patchHeld_reads] at hs
  obtain ⟨v, hv, kv, e, he, hx⟩ := run_shows (ms := muteGuard patchHeld.params) (by decide)
    (noReset_of_onlyTime ho) hs patchRest_writes
  have hl : v.lock = some 0 := by rw [kv.lock, hk.lock]; rfl
  have hh : 0 < v.hosts.length := by rw [kv.count, hk.count]; decide
  have hm : e ∈ newEvents patchHeld (complete v) := by
    rw [newEvents, (complete_spec hl hh).2.1]
    exact List.mem_append_left _ he
  obtain ⟨pre, post, hs⟩ := List.append_of_mem hm
  cases e with
  | xfer d a b ok τ =>
    cases d with
    | write =>
      simp only [Event.untimed_xfer, writes3A, Bool.and_eq_true, beq_iff_eq] at hx
      obtain ⟨rfl, rfl⟩ := hx
      exact ⟨complete v, pre, b, τ, post, by rw [← hv, ← hu]; exact runRule_granted patchHeld_granted.1 _, hs⟩
    | read => cases hx
  | _ => cases hx

theorem witness_PatchWritesAreMuteGuarded :
    Granted 0 patchHeld ∧ Undisturbed patchHeld ∧ isCoefficient patchHeld.params.regs.softMute.addr = false ∧
    ∃ t pre a v ok τ post, exec (.patchApply 1416) patchHeld = .next t ∧
      newEvents patchHeld t = pre ++ .xfer .write a v ok τ :: post ∧ isCoefficient a = true := by
  obtain ⟨t, pre, v, τ, post, h1, h2⟩ := patchHeld_writes
  exact ⟨patchHeld_granted.1, patchHeld_granted.2.2.2.1, by decide, t, pre, 0x3A, v, true, τ, post, h1, h2, by decide⟩

theorem witness_ParsePatchReportsTheLowestAddress :
    parsePatch [] = .error 0x29 ∧ afterMarker 0x29 [] = none ∧ ∃ img, parsePatch patchText = .ok img :=
  ⟨by decide, rfl, witness_ImageBlocksFitTheirRegisters.2.2⟩

theorem witness_StatusReportsTheBlock : Granted 0 resetHeld ∧ noReset resetHeld = true := by decide

theorem witness_CommandsKeepTheirFrames :
    noReset runningHeld = true ∧ ∃ t, exec .rstPulse runningHeld = .next t :=
  ⟨by decide, goes_of (by decide +kernel)⟩

theorem witness_CommandsKeepTheStageAndOtherHosts :
    onlyTime runningHeld = true ∧ runningHeld.lock = some 0 ∧ (∃ t, exec (.setEnabled true) runningHeld = .next t) ∧
    ∃ t, execIllegal 0 runningHeld = .next t :=
  ⟨by decide, by decide, goes_of (by decide +kernel), goes_of (by decide +kernel)⟩

/-- A running block between commands whose trace tells how it came there, with SET_ENABLED 0 waiting. -/
def between : State :=
  { (inState .running).withFetchWord 32 0x20 with
    trace := [.grant 0 1 0, .state .resetting 0, .state .configuring 1, .state .running 2, .resp 0 .ok 0 [] 3]
    now := 3 }

theorem between_goes : ∃ t, step between = .next t := goes_of (by decide +kernel)

theorem witness_StampsNeverDecrease : Stamped between ∧ ∃ t, step between = .next t := ⟨by decide, between_goes⟩

theorem witness_CommandsNeverInterleave :
    serialEnd between.trace = some between.lock ∧ ∃ t, step between = .next t := ⟨by decide, between_goes⟩

theorem witness_NothingIsFatal : WellKept between := by
  refine ⟨by decide, by decide, fun h e => ?_, by decide⟩
  simp [between, inState, State.withFetchWord, placeCommand] at e

theorem witness_StateIsStableBetweenCommands :
    between.lock = none ∧ answers between = true ∧ stable between.ds = true ∧ ∃ t, step between = .next t :=
  ⟨by decide, by decide, by decide, between_goes⟩

theorem witness_LifecycleFollowsItsTransitions :
    between.lock = none ∧ answers between = true ∧ stable between.ds = true ∧
    lifeEnd between.trace = some between.ds ∧ ∃ t, step between = .next t :=
  ⟨by decide, by decide, by decide, by decide, between_goes⟩

theorem witness_CoefficientWritesAreBracketed :
    between.lock = none ∧ answers between = true ∧ between.params.admitted = true ∧
    controlsOffBanks between.params = true ∧
    (∃ g, guardEnd between.params between.trace = some g ∧ ∀ k, g ≠ .dirty k) ∧ ∃ t, step between = .next t :=
  ⟨by decide, by decide, by decide, by decide, ⟨.shut, by decide, by simp⟩, between_goes⟩

theorem witness_PolarityChangesLevelsOnly :
    (∃ t, exec .rstPulse runningHeld = .next t) ∧ pinsBound unboundHeld.params = false :=
  ⟨goes_of (by decide +kernel), by decide⟩

end Sys2Proof.Test
end

