-- ==== Sys2Proof/Proofs/Scope.lean ====
section
/-! The level of a line from its polarity (R19). -/

namespace Sys2Proof.Machine

/-- `Lvl` on RST (R19). -/
theorem lineLevel_rst (p : Params) (asserted : Bool) :
    lineLevel p .rst asserted = (asserted == p.cfg.rstActiveHigh) := rfl

/-- `Lvl` on PD (R19). -/
theorem lineLevel_pd (p : Params) (asserted : Bool) :
    lineLevel p .pd asserted = (asserted == p.cfg.pdActiveHigh) := rfl

/-- The test both lines make of the polarity, as the spec's choice between the levels 1 and 0. -/
theorem polarityTest_eq_ite (asserted activeHigh : Bool) :
    (asserted == activeHigh) = if asserted = activeHigh then true else false := by
  split
  case isTrue h => exact beq_iff_eq.mpr h
  case isFalse h => exact beq_eq_false_iff_ne.mpr h

/-- Settles O14: each line's level is the test of `asserted` against that line's own polarity. -/
theorem levelFollowsPolarity : Obligations.LevelFollowsPolarity := by
  intro p a
  constructor
  · rw [lineLevel_rst, polarityTest_eq_ite]
  · rw [lineLevel_pd, polarityTest_eq_ite]

end Sys2Proof.Machine
end

/-! Commands follow one another in the trace (R61): what each agent and each part of a step does to the serial trace,
and that no step breaks it. -/

namespace Sys2Proof.Machine

/-! ### How one event moves the end of a serial trace -/

theorem serialEnd_append {tr : List Event} {q : Option Nat} (h : serialEnd tr = some q) (es : List Event) :
    serialEnd (tr ++ es) = es.foldl serialStep (some q) := by
  rw [serialEnd, List.foldl_append]
  exact congrArg (es.foldl serialStep ·) h

/-- An event made inside a command leaves its host the holder. -/
theorem serialStep_inner (h : Nat) {e : Event} (he : e.inner = true) :
    serialStep (some (some h)) e = some (some h) := by
  cases e with
  | pin | xfer | state | log => rfl
  | grant | resp | reset => simp [Event.inner] at he

theorem serialStep_foldl_inner (h : Nat) {es : List Event} (hes : ∀ e ∈ es, e.inner = true) :
    es.foldl serialStep (some (some h)) = some (some h) := by
  induction es with
  | nil => rfl
  | cons e es ih =>
    obtain ⟨he, hrest⟩ := List.forall_mem_cons.1 hes
    rw [List.foldl_cons, serialStep_inner h he, ih hrest]

/-! ### The invariant -/

/-- The trace is serial and ends as the lock says. -/
def Serial (s : State) : Prop := serialEnd s.trace = some s.lock

/-- Host `h` holds the lock, and the trace is serial with `h`'s command the open one. -/
structure Serving (h : Nat) (s : State) : Prop where
  lock : s.lock = some h
  trace : serialEnd s.trace = some (some h)

theorem Serving.serial {h : Nat} {s : State} (v : Serving h s) : Serial s := by
  rw [Serial, v.lock, v.trace]

theorem Serial.serving {h : Nat} {s : State} (i : Serial s) (hl : s.lock = some h) : Serving h s :=
  ⟨hl, by rw [i, hl]⟩

theorem Serial.congr {s t : State} (i : Serial s) (ht : t.trace = s.trace) (hl : t.lock = s.lock) : Serial t := by
  rw [Serial, ht, hl, i]

/-! ### The other agents -/

/-- A block reset closes the open command, if there is one; every other act leaves the trace and the lock alone. -/
theorem applyAct_serial (a : Act) {s : State} (i : Serial s) : Serial (applyAct a s) := by
  by_cases ha : a = .reset
  · subst ha
    show serialEnd (blockReset s).trace = some (blockReset s).lock
    rw [blockReset_trace, serialEnd_append i]
    rfl
  · have p := applyAct_passes ha s
    exact i.congr p.trace p.lock

theorem agentsAct_serial {s : State} (i : Serial s) : Serial (agentsAct s) :=
  List.foldlRecOn (actsNow s) _ (i.congr rfl rfl : Serial (nextSlot s)) fun _ hs a _ => applyAct_serial a hs

theorem settled_serial {s : State} (i : Serial s) : Serial (settled s) := (agentsAct_serial i).congr rfl rfl

theorem settled_serving {h : Nat} {s : State} (v : Serving h s) (hc : calm s = true) : Serving h (settled s) := by
  have p := (settled_spec hc).passes
  exact (v.serial.congr p.trace p.lock).serving (p.lock.trans v.lock)

/-- No act of another agent takes a free lock. -/
theorem applyAct_lock_free (a : Act) {s : State} (hl : s.lock = none) : (applyAct a s).lock = none := by
  by_cases ha : a = .reset
  · subst ha; exact blockReset_lock s
  · exact (applyAct_passes ha s).lock.trans hl

theorem settled_lock_free {s : State} (hl : s.lock = none) : (settled s).lock = none :=
  List.foldlRecOn (motive := fun u : State => u.lock = none) (actsNow s) _ hl fun _ hu a _ => applyAct_lock_free a hu

/-! ### Grant, the work of a command, completion -/

theorem grant_serving (h : Nat) (w : Word32) {s : State} (i : Serial s) (hl : s.lock = none) :
    Serving h (grant h w s) := by
  refine ⟨grant_lock s h w, ?_⟩
  rw [grant_trace, serialEnd_append i, hl]
  rfl

theorem Works.serving {h : Nat} {s t : State} (w : Works s t) (v : Serving h s) : Serving h t := by
  obtain ⟨es, hes, hin⟩ := w.trace
  refine ⟨w.lock.trans v.lock, ?_⟩
  rw [hes, serialEnd_append v.trace, serialStep_foldl_inner h fun e he => (hin e he).2]

theorem complete_serial {h : Nat} {s : State} (v : Serving h s) : Serial (complete s) := by
  have htrace : ∃ c i d, (complete s).trace = s.trace ++ [.resp h c i d s.now] := by
    simp only [complete, v.lock]
    exact ⟨_, _, _, rfl⟩
  obtain ⟨c, i, d, htrace⟩ := htrace
  rw [Serial, complete_lock, htrace, serialEnd_append v.trace]
  exact if_pos rfl

/-! ### Runs and steps -/

/-- Inside a run its host's command stays the open one; where the run ends, the trace is serial. -/
theorem serving_carries (h : Nat) (ms : List Micro) : Carries ms (Serving h) Serial where
  settled _ v hc := settled_serving v hc
  abandoned _ v _ := agentsAct_serial v.serial
  perform m _ s v := (perform_works m s).serving v
  waiting m _ s t v ht := by
    have w := perform_works m s
    rw [ht] at w
    exact (w.serving v).serial
  log e s v := (logErr_works e s).serving v
  recover _ _ _ d _ _ _ _ u v _ := (setState_works d u).serving v
  advance n s v := (advance_works n s).serving v
  complete _ v := complete_serial v

/-- A command's meaning is the run of one rule. -/
theorem exec_eq_runRule (i : Instr) (s : State) : ∃ rule, exec i s = runRule rule s := by
  cases i <;> exact ⟨_, rfl⟩

/-- A granted word, legal or not, is the run of one rule. -/
theorem execWord_eq_runRule (w : Word32) (s : State) : ∃ rule, execWord w s = runRule rule s := by
  unfold execWord
  split
  · exact exec_eq_runRule _ s
  · exact ⟨illegalRule w, rfl⟩

theorem execWord_serial {h : Nat} {w : Word32} {s t : State} (v : Serving h s) (ht : execWord w s = .next t) :
    Serial t := by
  obtain ⟨rule, hrule⟩ := execWord_eq_runRule w s
  obtain ⟨-, rfl⟩ := runRule_next (hrule.symm.trans ht)
  exact run_carries (serving_carries h _) 0 s v

/-- Everything a step can do: go on with the command of the lock's holder, let the other agents act on an idle block,
or grant a waiting word and run it. -/
theorem step_next {s t : State} (ht : step s = .next t) :
    (∃ h, s.lock = some h ∧ execWord s.cur s = .next t) ∨
    (s.lock = none ∧ t = agentsAct s) ∨
    (∃ h w, s.lock = none ∧ nextCommand (agentsAct s) = some (h, w) ∧
      execWord w (grant h w (settled s)) = .next t) := by
  unfold step at ht
  split at ht
  case isFalse => cases ht
  split at ht
  next h hl => exact .inl ⟨h, hl, ht⟩
  next hl =>
    split at ht
    next => cases ht; exact .inr (.inl ⟨hl, rfl⟩)
    next h w hn => exact .inr (.inr ⟨h, w, hl, hn, ht⟩)

/-- Settles O55, by the invariant `Serial`: a grant opens a command on a free lock, a run adds events of that command
alone, and only its completion or a block reset closes it. -/
theorem commandsNeverInterleave : Obligations.CommandsNeverInterleave := by
  intro s t hs ht
  have i : Serial s := hs
  obtain ⟨h, hl, hx⟩ | ⟨-, rfl⟩ | ⟨h, w, hl, -, hx⟩ := step_next ht
  · exact execWord_serial (i.serving hl) hx
  · exact agentsAct_serial i
  · exact execWord_serial (grant_serving h w (settled_serial i) (settled_lock_free hl)) hx

end Sys2Proof.Machine

/-! The opcode map as a table with one row per opcode (R69, R70): what `decode` finds in it, and what becomes of a word
that lies in no row. -/

namespace Sys2Proof

/-! ### The table -/

theorem Instr.row_mem_opcodeRows (i : Instr) : i.row ∈ opcodeRows := by
  cases i <;> simp [Instr.row, opcodeRows]

theorem opcField_and (v w : Word32) : opcField (v &&& w) = opcField v &&& opcField w :=
  BitVec.extractLsb'_and

/-- Every row fixes the whole opcode. -/
theorem opcField_mask_of_mem : ∀ r ∈ opcodeRows, opcField r.mask = BitVec.allOnes 8 := by decide

/-- No opcode is listed twice. -/
theorem row_eq_of_opcField_eq : ∀ r ∈ opcodeRows, ∀ r' ∈ opcodeRows,
    opcField r.value = opcField r'.value → r = r' := by decide

/-- A word that matches a row has that row's opcode. -/
theorem opcField_of_matchesWord {r : Row} (hr : r ∈ opcodeRows) {w : Word32} (h : r.matchesWord w = true) :
    opcField w = opcField r.value := by
  have hbits : w &&& r.mask = r.value := beq_iff_eq.1 h
  rw [← hbits, opcField_and, opcField_mask_of_mem r hr, BitVec.and_allOnes]

/-- At most one row matches a word: two that do share its opcode. -/
theorem matchingRow_unique {w : Word32} {r r' : Row} (hr : r ∈ opcodeRows) (hr' : r' ∈ opcodeRows)
    (h : r.matchesWord w = true) (h' : r'.matchesWord w = true) : r = r' :=
  row_eq_of_opcField_eq r hr r' hr' ((opcField_of_matchesWord hr h).symm.trans (opcField_of_matchesWord hr' h'))

/-! ### What decode finds -/

/-- Everything `decode` can answer: a command whose row matches, or an error where no row does. -/
theorem decode_cases (w : Word32) :
    (∃ i, decode w = .ok i ∧ i.row.matchesWord w = true) ∨
    (decode w = .error (illegalReason w) ∧ ∀ r ∈ opcodeRows, r.matchesWord w = false) := by
  fun_cases decode w
  case case12 => exact .inr ⟨rfl, by simp_all [opcodeRows]⟩
  all_goals exact .inl ⟨_, rfl, ‹_›⟩

/-- The row of a decoded command matches the word. -/
theorem matchesWord_of_decode {w : Word32} {i : Instr} (h : decode w = .ok i) : i.row.matchesWord w = true := by
  obtain ⟨j, hj, hm⟩ | ⟨he, -⟩ := decode_cases w
  · cases h.symm.trans hj
    exact hm
  · cases h.symm.trans he

/-- A word is legal exactly when a row matches it. -/
theorem decode_ok_iff (w : Word32) : (∃ i, decode w = .ok i) ↔ ∃ r ∈ opcodeRows, r.matchesWord w = true := by
  constructor
  · rintro ⟨i, hi⟩
    exact ⟨i.row, i.row_mem_opcodeRows, matchesWord_of_decode hi⟩
  · rintro ⟨r, hr, hm⟩
    obtain ⟨i, hi, -⟩ | ⟨-, hnone⟩ := decode_cases w
    · exact ⟨i, hi⟩
    · exact absurd hm (by simp [hnone r hr])

end Sys2Proof

namespace Sys2Proof.Machine

/-! ### The illegal word -/

theorem execWord_illegal {w : Word32} {e : DecodeError} (h : decode w = .error e) (s : State) :
    execWord w s = execIllegal w s := by
  rw [execWord, h]

/-- On a free lock a step grants the chosen word and runs it, with no check of the state before its decode (R132). -/
theorem step_grants {s : State} {h : Nat} {w : Word32} (ha : s.params.admitted = true) (hl : s.lock = none)
    (hn : nextCommand (agentsAct s) = some (h, w)) : step s = execWord w (grant h w (settled s)) := by
  simp [step, ha, hl, hn]

/-- An illegal word is rejected by its one statement (R72). -/
theorem execIllegal_rejects (w : Word32) {s : State} {h : Nat} (g : Granted h s) (hn : noReset s = true) :
    ∃ t, execIllegal w s = .next t ∧ Rejects s t h (.illegal w) :=
  rejects_first [] g hn fun _ _ => rfl

/-- Settles O4: the rows differ in their opcodes, which every row fixes, so at most one matches; `decode` tests them
all; and an illegal word's rule raises at its first statement. -/
theorem decodeFindsTheUniqueRow : Obligations.DecodeFindsTheUniqueRow := by
  refine ⟨fun w i hi => ⟨i.row_mem_opcodeRows, matchesWord_of_decode hi⟩, decode_ok_iff,
    fun w r hr r' hr' => matchingRow_unique hr hr', ?atGrant, fun w s h => execIllegal_rejects w⟩
  case atGrant =>
    intro w e s ha hl he h hn
    rw [step_grants ha hl hn, execWord_illegal he]

end Sys2Proof.Machine

/-! Runs the Device answers and no block reset cuts short: which errors they may answer with, how long they take, and
that they complete. -/

namespace Sys2Proof.Machine

/-! ### Time, errors and jumps of one statement -/

/-- The earliest time at which the next micro-step may be stamped (R43). -/
def due (s : State) : Nat := max s.now s.waitUntil

/-- The time a statement asks the next one to wait (R22). -/
def Micro.cost : Micro → Nat
  | .wait d => d
  | _ => 0

/-- The waits of a list of statements, added up. -/
def waits (ms : List Micro) : Nat := (ms.map Micro.cost).sum

/-- The status code of the one error a statement may log or raise. -/
def Micro.code : Micro → Option Status
  | .require _ => some .stateError
  | .raise e => some e.code
  | .log e => some e.code
  | .write _ _ _ => some .transportError
  | .read _ _ => some .transportError
  | .parse => some .patchParseError
  | _ => none

/-- A statement that raises or goes on to the next one: it passes over none. -/
def Micro.onward : Micro → Bool
  | .write _ _ (.logSkip _) => false
  | .write _ _ (.logFail _) => false
  | .ifOk _ => false
  | _ => true

/-- The error a command would answer with, if there is one, has a code in `E`. -/
def Blames (E : Status → Prop) (s : State) : Prop := ∀ e, s.firstErr = some e → E e.code

theorem Blames.congr {E : Status → Prop} {s t : State} (b : Blames E s) (h : t.firstErr = s.firstErr) : Blames E t := by
  rwa [Blames, h]

theorem Blames.logErr {E : Status → Prop} {s : State} {e : Err} (b : Blames E s) (he : E e.code) :
    Blames E (logErr e s) := by
  intro f hf
  rw [logErr_firstErr] at hf
  cases hs : s.firstErr with
  | none => simp_all
  | some g =>
    obtain rfl : g = f := by simpa [hs] using hf
    exact b g hs

theorem settled_due {s : State} (h : noReset s = true) : due s ≤ (settled s).now :=
  max_le (settled_now_le h) (settled_ready h)

theorem now_le_due (s : State) : s.now ≤ due s := le_max_left _ _

theorem due_logErr_settled {s : State} (e : Err) (h : noReset s = true) : due s ≤ due (logErr e (settled s)) :=
  (settled_due h).trans (now_le_due (logErr e (settled s)))

/-- A statement adds the wait it asks for. -/
theorem perform_due (m : Micro) (s : State) : s.now + m.cost ≤ due (perform m s).state := by
  cases m
  case wait d => exact le_max_right _ _
  all_goals exact (perform_works _ s).now.ge.trans (now_le_due _)

/-- A Device that answers lets no statement wait, and goes on answering. -/
theorem perform_answers (m : Micro) {s : State} (h : answers s = true) :
    answers (perform m s).state = true ∧ ∀ t, perform m s ≠ .waiting t := by
  obtain ⟨hd, ht⟩ := transact_answers h
  cases m
  case require l => simp only [perform]; split <;> exact ⟨h, by simp⟩
  case unmute => simp only [perform, Effect.state]; split <;> exact ⟨h, by simp⟩
  case gpio l a => cases l <;> exact ⟨h, by simp [perform]⟩
  case write a v f =>
    simp only [perform, memWrite]
    obtain ⟨b, ht⟩ | ht := ht
    · rw [ht]; exact ⟨hd, by simp⟩
    · rw [ht]; cases f <;> exact ⟨hd, by simp [onFailure]⟩
  case read a n =>
    simp only [perform, memRead]
    obtain ⟨b, ht⟩ | ht := ht <;> rw [ht] <;> exact ⟨hd, by simp⟩
  case loadStage n =>
    simp only [perform, Effect.state]
    rw [stageRead_state]
    exact ⟨h, by simp⟩
  case parse => simp only [perform]; split <;> exact ⟨h, by simp⟩
  all_goals exact ⟨h, by simp [perform]⟩

/-- How many statements an effect passes over. -/
def Effect.jump : Effect → Nat
  | .go n _ => n
  | .logged _ n _ => n
  | _ => 0

/-- A statement that only goes onward passes over no other. -/
theorem perform_onward {m : Micro} (hm : m.onward = true) (s : State) : (perform m s).jump = 0 := by
  cases m
  case ifOk k => cases hm
  case write a v f =>
    obtain h | h | h | h := perform_write_cases a v f s <;> rw [h]
    case inr.inl =>
      cases f
      case logSkip n => cases hm
      case logFail n => cases hm
      all_goals rfl
    all_goals rfl
  case read a n =>
    simp only [perform]
    obtain ⟨b, -, d, h⟩ | h | h | h := memRead_cases a n s <;> rw [h] <;> rfl
  case require l => simp only [perform]; split <;> rfl
  case parse => simp only [perform]; split <;> rfl
  all_goals rfl

/-- What a statement leaves in `first_err`, and the error it goes on to log or raise, are the statement's own. -/
theorem perform_blames {E : Status → Prop} {m : Micro} (hm : ∀ c, m.code = some c → E c) {s : State} (b : Blames E s) :
    Blames E (perform m s).state ∧ (∀ e n t, perform m s = .logged e n t → E e.code) ∧
      ∀ r e t, perform m s = .raised r e t → E e.code := by
  cases m
  case require l =>
    simp only [perform]
    split
    · exact ⟨b, by simp, by simp⟩
    · refine ⟨b, by simp, ?_⟩
      rintro r e t ⟨⟩
      exact hm _ rfl
  case raise e =>
    refine ⟨b, by simp [perform], ?_⟩
    rintro r e t ⟨⟩
    exact hm _ rfl
  case log e => exact ⟨b.logErr (hm _ rfl), by simp [perform], by simp [perform]⟩
  case unmute => simp only [perform, Effect.state]; split <;> exact ⟨b, by simp, by simp⟩
  case gpio l a => exact ⟨b.congr (gpio_firstErr _ _ _), by simp [perform], by simp [perform]⟩
  case write a v f =>
    have hc := hm _ rfl
    obtain hw | hw | hw | hw := perform_write_cases a v f s <;> rw [hw]
    · exact ⟨b, by simp, by simp⟩
    · cases f <;> simp only [onFailure]
      all_goals exact ⟨b, by rintro e n t ⟨⟩ <;> exact hc, by rintro r e t ⟨⟩ <;> exact hc⟩
    · exact ⟨b, by simp, by simp⟩
    · exact ⟨b, by simp, by simp⟩
  case read a n =>
    have hc := hm _ rfl
    simp only [perform]
    obtain ⟨c, -, d, h⟩ | h | h | h := memRead_cases a n s <;> rw [h]
    · exact ⟨b, by simp, by simp⟩
    · exact ⟨b, by simp, by rintro r e t ⟨⟩; exact hc⟩
    · exact ⟨b, by simp, by simp⟩
    · exact ⟨b, by simp, by simp⟩
  case loadStage n =>
    refine ⟨b.congr ?_, by simp [perform], by simp [perform]⟩
    simp only [perform, Effect.state]
    rw [stageRead_state]
    rfl
  case parse =>
    simp only [perform]
    split
    · exact ⟨b, by simp, by simp⟩
    · refine ⟨b, by simp, ?_⟩
      rintro r e t ⟨⟩
      exact hm _ rfl
  all_goals exact ⟨b, by simp [perform], by simp [perform]⟩

/-! ### Runs -/

/-- An abort comes to completion with an error. -/
theorem abort_ends {E : Status → Prop} (r : Option DeviceState) {e : Err} (he : E e.code) {s : State}
    (h : noReset s = true) (b : Blames E s) :
    ∃ u, abort r e s = complete u ∧ Kept s u ∧ Blames E u ∧ u.firstErr ≠ none := by
  have hs := noReset_settled h
  have close : ∀ v, noReset v = true → Kept s v → v.firstErr = s.firstErr →
      Kept s (settled (logErr e v)) ∧ Blames E (settled (logErr e v)) ∧ (settled (logErr e v)).firstErr ≠ none := by
    intro v hv k hf
    have hl : noReset (logErr e v) = true := by simpa using hv
    refine ⟨(k.trans (logErr_works e v).kept).trans (settled_kept hl),
      ((b.congr hf).logErr he).congr (settled_firstErr hl), ?_⟩
    rw [settled_firstErr hl, logErr_firstErr]
    cases v.firstErr <;> simp
  cases r with
  | none => exact ⟨_, abort_none h e, close _ hs (settled_kept h) (settled_firstErr h)⟩
  | some d =>
    have hd : noReset (setState d (settled s)) = true := by simpa using hs
    refine ⟨_, abort_some h d e, close _ (noReset_settled hd) ?_ ?_⟩
    · exact ((settled_kept h).trans (setState_works d _).kept).trans (settled_kept hd)
    · rw [settled_firstErr hd, setState_firstErr, settled_firstErr h]

/-- Everything one statement of such a run can do: go on, past some statements or none, or end in an abort. -/
theorem run_statement {E : Status → Prop} {m : Micro} (hm : ∀ c, m.code = some c → E c) (rest : List Micro) {s : State}
    (hn : noReset s = true) (ha : answers s = true) (b : Blames E s) :
    (∃ n v, run (m :: rest) 0 s = run rest n v ∧ Kept s v ∧ noReset v = true ∧ answers v = true ∧ Blames E v ∧
      due s + m.cost ≤ due v ∧ (m.onward = true → n = 0)) ∨
    (∃ u, run (m :: rest) 0 s = complete u ∧ Kept s u ∧ Blames E u ∧ u.firstErr ≠ none) := by
  have w := perform_works m (settled s)
  obtain ⟨hat, hwait⟩ := perform_answers m ((settled_answers hn).trans ha)
  obtain ⟨hb, hlog, hraise⟩ := perform_blames hm (b.congr (settled_firstErr hn))
  have hk := (settled_kept hn).trans w.kept
  have hnt := w.noReset (noReset_settled hn)
  have hdue := (Nat.add_le_add_right (settled_due hn) m.cost).trans (perform_due m (settled s))
  have hon : m.onward = true → (perform m (settled s)).jump = 0 := fun ho => perform_onward ho _
  cases hx : perform m (settled s) <;> rw [hx] at hat hb hk hnt hdue hon <;> simp only [Effect.state] at hat hb hk hnt hdue
  case go n t =>
    exact .inl ⟨n, _, run_go hn rest hx, hk.trans (advance_works _ t).kept, by simpa using hnt, hat, hb, hdue, hon⟩
  case logged e n t =>
    exact .inl ⟨n, _, run_logged hn rest hx,
      ((hk.trans (settled_kept hnt)).trans (logErr_works e _).kept).trans (advance_works _ _).kept,
      by simpa using noReset_settled hnt, (settled_answers hnt).trans hat,
      (hb.congr (settled_firstErr hnt)).logErr (hlog e n t hx), hdue.trans (due_logErr_settled e hnt), hon⟩
  case raised r e t =>
    obtain ⟨u, hu, huk, hub, hne⟩ := abort_ends r (hraise r e t hx) (s := advance (rest.length + 1) t)
      (by simpa using hnt) hb
    exact .inr ⟨u, (run_raised hn rest hx).trans hu, (hk.trans (advance_works _ t).kept).trans huk, hub, hne⟩
  case waiting t => exact absurd hx (hwait t)

/-- A run that is answered and not reset away completes. It answers with no error but its statements', and, where none
of them passes over another and none has raised, it has waited all their waits. -/
theorem run_ends {E : Status → Prop} {ms : List Micro} (hm : ∀ m ∈ ms, ∀ c, m.code = some c → E c) (k : Nat) {s : State}
    (hn : noReset s = true) (ha : answers s = true) (b : Blames E s) :
    ∃ u, run ms k s = complete u ∧ Kept s u ∧ Blames E u ∧
      (k = 0 → (∀ m ∈ ms, m.onward = true) → u.firstErr = none → due s + waits ms ≤ u.now) := by
  induction ms generalizing k s with
  | nil =>
    rw [run_nil, microStep_noReset hn]
    exact ⟨_, rfl, settled_kept hn, b.congr (settled_firstErr hn), fun _ _ _ => settled_due hn⟩
  | cons m rest ih =>
    obtain ⟨hm, hr⟩ := List.forall_mem_cons.1 hm
    cases k with
    | succ k =>
      obtain ⟨u, hu, hk, hb, -⟩ := ih hr k hn ha b
      exact ⟨u, hu, hk, hb, nofun⟩
    | zero =>
      obtain ⟨n, v, hrun, hkv, hnv, hav, hbv, hdv, hn0⟩ | ⟨u, hu, huk, hub, hne⟩ := run_statement hm rest hn ha b
      · obtain ⟨u, hu, huk, hub, htime⟩ := ih hr n hnv hav hbv
        refine ⟨u, hrun.trans hu, hkv.trans huk, hub, fun _ ho hf => ?_⟩
        obtain ⟨hom, hor⟩ := List.forall_mem_cons.1 ho
        have := htime (hn0 hom) hor hf
        simp only [waits, List.map_cons, List.sum_cons] at this ⊢
        omega
      · exact ⟨u, hu, huk, hub, fun _ _ hf => absurd hf hne⟩

end Sys2Proof.Machine

/-! Admissibility (R94): every command but STATUS begins with the check of its row, and raises StateError nowhere else. -/

namespace Sys2Proof.Machine

/-! ### Which commands are allowed where -/

theorem admits_bringup (d : DeviceState) : admits .bringup d = true ↔ d = .uninitialized ∨ d = .off := by
  simp [admits]

theorem admits_resume (d : DeviceState) : admits .resume d = true ↔ d = .uninitialized ∨ d = .off := by
  simp [admits]

theorem admits_running {i : Instr} (d : DeviceState) (hb : i ≠ .bringup) (hr : i ≠ .resume) (hs : i ≠ .status) :
    admits i d = true ↔ d = .running := by
  cases i
  case bringup => exact absurd rfl hb
  case resume => exact absurd rfl hr
  case status => exact absurd rfl hs
  all_goals simp [admits]

theorem mem_dsForBringup (d : DeviceState) : d ∈ dsForBringup ↔ d = .uninitialized ∨ d = .off := by
  simp [dsForBringup]

theorem mem_dsForRunning (d : DeviceState) : d ∈ dsForRunning ↔ d = .running := by simp [dsForRunning]

/-! ### No statement after the check raises StateError -/

/-- The code of an error that is found after the state check. -/
def Status.late : Status → Bool
  | .ok => false
  | .stateError => false
  | _ => true

theorem Status.late_iff (c : Status) : c.late = true ↔ c ≠ .stateError ∧ c ≠ .ok := by cases c <;> simp [late]

/-- No statement logs or raises anything but an error that is found after the state check. -/
def PastCheck (ms : List Micro) : Prop := ∀ m ∈ ms, ∀ c, m.code = some c → c.late = true

theorem PastCheck.append {as bs : List Micro} (a : PastCheck as) (b : PastCheck bs) : PastCheck (as ++ bs) :=
  fun m hm => (List.mem_append.1 hm).elim (a m) (b m)

theorem PastCheck.cons {m : Micro} {ms : List Micro} (hm : ∀ c, m.code = some c → c.late = true)
    (h : PastCheck ms) : PastCheck (m :: ms) :=
  List.forall_mem_cons.2 ⟨hm, h⟩

theorem pastCheck_nil : PastCheck [] := fun _ hm => absurd hm List.not_mem_nil

theorem pastCheck_raise {e : Err} (h : e.code.late = true) : PastCheck [.raise e] :=
  .cons (by rintro c ⟨⟩; exact h) pastCheck_nil

theorem pastCheck_imageWrites (img : List (Byte × Source)) : PastCheck (imageWrites img) := by
  induction img with
  | nil => exact pastCheck_nil
  | cons q rest ih => exact .cons (by rintro c ⟨⟩; rfl) ih

theorem pastCheck_bracket (p : Params) (k : Kind) (img : List (Byte × Source)) : PastCheck (bracket p k img) :=
  .append (.append (by simp [PastCheck, Micro.code, Status.late]) (pastCheck_imageWrites img))
    (by simp [PastCheck, Micro.code, Status.late, closingWrite])

theorem pastCheck_muteGuard (p : Params) : PastCheck (muteGuard p) := by
  refine .append (.append (by simp [PastCheck, Micro.code, Status.late]) ?_) (by simp [PastCheck, Micro.code, Status.late])
  exact .append (.append (pastCheck_bracket _ _ _) (by simp [PastCheck, Micro.code, Status.late])) (pastCheck_bracket _ _ _)

theorem pastCheck_powerUp (p : Params) : PastCheck (powerUp p) := by
  unfold powerUp; split <;> simp [PastCheck, Micro.code, Status.late, Err.seqPowerUp]

theorem pastCheck_powerDown (p : Params) : PastCheck (powerDown p) := by
  unfold powerDown; split <;> simp [PastCheck, Micro.code, Status.late, Err.seqShutdown]

theorem pastCheck_resetPulse (p : Params) : PastCheck (resetPulse p) := by
  unfold resetPulse; split <;> simp [PastCheck, Micro.code, Status.late, Err.seqPulse]

theorem pastCheck_drcAtBringup (p : Params) : PastCheck (drcAtBringup p) := by
  unfold drcAtBringup
  split
  · simp [PastCheck, Micro.code, Status.late, Err.configDrc]
  · exact pastCheck_bracket _ _ _

theorem pastCheck_eqAtBringup (p : Params) (i : Byte) : PastCheck (eqAtBringup p i) := by
  unfold eqAtBringup
  split
  · simp [PastCheck, Micro.code, Status.late, Err.configEq]
  · exact pastCheck_bracket _ _ _

theorem pastCheck_initMuxOverride (p : Params) : PastCheck (initMuxOverride p) := by
  unfold initMuxOverride
  split
  · exact pastCheck_nil
  · split <;> simp [PastCheck, Micro.code, Status.late, cw, Err.configMux]

theorem pastCheck_bringupBody (p : Params) (i : Byte) : PastCheck (bringupBody p i) := by
  have hdrc : PastCheck (if p.cfg.drcEnable then drcAtBringup p else []) := by
    split
    · exact pastCheck_drcAtBringup p
    · exact pastCheck_nil
  have heq : PastCheck (if p.cfg.eqEnable then eqAtBringup p i else []) := by
    split
    · exact pastCheck_eqAtBringup p i
    · exact pastCheck_nil
  have hs : ∀ d, PastCheck [.setState d] := fun d => .cons (by rintro c ⟨⟩) pastCheck_nil
  have h1 : PastCheck (configGroup1 p) := by simp [PastCheck, Micro.code, Status.late, configGroup1, cwReg, cw]
  have h2 : PastCheck (configGroup2 p) := by simp [PastCheck, Micro.code, Status.late, configGroup2, cwReg, cw]
  have hr : PastCheck (runningEntry p) := by simp [PastCheck, Micro.code, Status.late, runningEntry, cwReg, cw]
  exact ((((((((hs _).append (pastCheck_powerUp p)).append (hs _)).append h1).append hdrc).append heq).append
    (pastCheck_initMuxOverride p)).append h2 |>.append (hs _)).append hr

theorem registerOperand_error {p : Params} {a : Byte} {l : Half} {e : Err} (h : registerOperand p a l = .error e) :
    e.code.late = true := by
  unfold registerOperand at h
  split at h
  · cases h; rfl
  · split at h <;> cases h
    rfl

theorem writableOperand_error {p : Params} {a : Byte} {l : Half} {e : Err} (h : writableOperand p a l = .error e) :
    e.code.late = true := by
  unfold writableOperand at h
  split at h
  next he => cases h; exact registerOperand_error he
  next => split at h <;> cases h; rfl

theorem presetOperand_error {p : Params} {a : Byte} {e : Err} (h : presetOperand p a = .error e) :
    e.code.late = true := by
  unfold presetOperand at h
  split at h
  · cases h; rfl
  · split at h <;> cases h
    rfl

theorem textOperand_error {l : Half} {e : Err} (h : textOperand l = .error e) :
    e.code.late = true := by
  unfold textOperand at h
  split at h <;> cases h
  rfl

/-- Every command but STATUS checks its row of the table first, and nothing after the check raises StateError. -/
theorem exec_gated {i : Instr} (s : State) (hi : i ≠ .status) :
    ∃ allowed ms, exec i s = runRule (.require allowed :: ms) s ∧ (∀ d, d ∈ allowed ↔ admits i d = true) ∧
      PastCheck ms := by
  have hb : ∀ d, d ∈ dsForBringup ↔ admits .bringup d = true := fun d => (mem_dsForBringup d).trans (admits_bringup d).symm
  have hr : ∀ j : Instr, j ≠ .bringup → j ≠ .resume → j ≠ .status → ∀ d, d ∈ dsForRunning ↔ admits j d = true :=
    fun j h1 h2 h3 d => (mem_dsForRunning d).trans (admits_running d h1 h2 h3).symm
  cases i
  case status => exact absurd rfl hi
  case bringup => exact ⟨_, _, rfl, hb, pastCheck_bringupBody _ _⟩
  case resume =>
    refine ⟨_, _, rfl, hb, (pastCheck_bringupBody _ _).append ?_⟩
    split
    · simp [PastCheck, Micro.code, Status.late, restoreSnapshot, cw]
    · exact pastCheck_nil
  case shutdown => exact ⟨_, _, rfl, hr _ nofun nofun nofun, pastCheck_powerDown _⟩
  case rstPulse => exact ⟨_, _, rfl, hr _ nofun nofun nofun, pastCheck_resetPulse _⟩
  case suspend =>
    refine ⟨_, _, rfl, hr _ nofun nofun nofun, ?_⟩
    split
    · exact .append (by simp [PastCheck, Micro.code, Status.late, takeSnapshot]) (pastCheck_powerDown _)
    · exact pastCheck_raise rfl
  case regRead a l =>
    refine ⟨_, _, rfl, hr _ nofun nofun nofun, ?_⟩
    split
    next he => exact pastCheck_raise (registerOperand_error he)
    next => simp [PastCheck, Micro.code, Status.late]
  case regWrite a l =>
    refine ⟨_, _, rfl, hr _ nofun nofun nofun, ?_⟩
    split
    next he => exact pastCheck_raise (writableOperand_error he)
    next => simp [PastCheck, Micro.code, Status.late]
  case setEnabled e => exact ⟨_, _, rfl, hr _ nofun nofun nofun, by simp [PastCheck, Micro.code, Status.late]⟩
  case selectPreset a =>
    refine ⟨_, _, rfl, hr _ nofun nofun nofun, ?_⟩
    split
    next he => exact pastCheck_raise (presetOperand_error he)
    next => exact .append (pastCheck_bracket _ _ _) (by simp [PastCheck, Micro.code, Status.late])
  case patchApply l =>
    refine ⟨_, _, rfl, hr _ nofun nofun nofun, ?_⟩
    split
    next he => exact pastCheck_raise (textOperand_error he)
    next => exact .append (by simp [PastCheck, Micro.code, Status.late]) (pastCheck_muteGuard _)

/-! ### The rule a command runs once it is let in -/

/-- What follows the state check, from a state in which the check has passed, runs as the whole rule does. -/
theorem run_admitted {s : State} {allowed : List DeviceState} (ms : List Micro) (hn : noReset s = true)
    (hd : s.ds ∈ allowed) : run (.require allowed :: ms) 0 s = run ms 0 (advance 1 (settled s)) :=
  run_go hn ms (by simp [perform, settled_ds hn, hd])

/-- The response a completed command has is the one its state calls for. -/
theorem respAt_complete {s u : State} {h : Nat} (g : Granted h s) (k : Kept s u) :
    respAt (complete u) h = some (responseOf u) :=
  (complete_spec (k.lock.trans g.1) (by rw [k.count]; exact g.2.1)).1

theorem blames_of_granted {s : State} {h : Nat} (g : Granted h s) (E : Status → Prop) : Blames E s := by
  obtain ⟨-, -, -, he, -⟩ := g
  simp [Blames, he]

theorem responseOf_status {E : Status → Prop} {u : State} (b : Blames E u) :
    (responseOf u).status = .ok ∨ E (responseOf u).status := by
  cases h : u.firstErr with
  | none => exact .inl (by rw [responseOf_ok h])
  | some e => exact .inr (by rw [responseOf_err h]; exact b e h)

/-- A granted command whose statements can raise no StateError answers none. -/
theorem run_no_stateError {s t : State} {h : Nat} {ms : List Micro} {r : Response} (g : Granted h s)
    (hm : PastCheck ms) {v : State} (hv : Kept s v) (hnv : noReset v = true) (hav : answers v = true)
    (hfv : v.firstErr = s.firstErr) (ht : t = run ms 0 v) (hr : respAt t h = some r) : r.status ≠ .stateError := by
  obtain ⟨u, hrun, hk, hb, -⟩ := run_ends (E := (· ≠ .stateError)) (fun m h c hc => ((Status.late_iff c).1 (hm m h c hc)).1) 0 hnv hav
    ((blames_of_granted g _).congr hfv)
  rw [ht, hrun, respAt_complete g (hv.trans hk)] at hr
  obtain rfl := Option.some.inj hr
  obtain h | h := responseOf_status hb
  · rw [h]; decide
  · exact h

/-- Settles O13: a command is let in by the check its rule begins with (`exec_gated`), and what follows the check can
raise no StateError. -/
theorem admissibilityGatesEveryCommand : Obligations.AdmissibilityGatesEveryCommand := by
  refine ⟨fun d => ⟨admits_bringup d, admits_resume d, rfl⟩, fun i d => admits_running d, ?refused, ?letIn,
    fun w s h => execIllegal_rejects w⟩
  case refused =>
    intro i s h g hn hd
    have hi : i ≠ .status := by rintro rfl; simp [admits] at hd
    obtain ⟨allowed, ms, hx, hall, -⟩ := exec_gated s hi
    rw [hx]
    exact rejects_state ms g hn (by rw [hall, hd]; exact Bool.false_ne_true)
  case letIn =>
    intro i s h t r g hu hd hx hr
    obtain ⟨hn, ha⟩ := hu
    by_cases hi : i = .status
    · subst hi
      have ht := Host.Outcome.next.inj ((runRule_granted g statusRule).symm.trans hx)
      exact run_no_stateError g (by simp [PastCheck, Micro.code, Status.late, statusRule]) (.refl s) hn ha rfl ht.symm hr
    · obtain ⟨allowed, ms, hrule, hall, hms⟩ := exec_gated s hi
      have ht := Host.Outcome.next.inj ((runRule_granted g _).symm.trans (hrule.symm.trans hx))
      rw [run_admitted ms hn ((hall _).2 hd)] at ht
      exact run_no_stateError g hms ((settled_kept hn).trans (advance_works 1 _).kept)
        (by simpa using noReset_settled hn) ((settled_answers hn).trans ha) (settled_firstErr hn) ht.symm hr

end Sys2Proof.Machine

/-! PowerUp (R81): a line driven and held, as any rule does it. -/

namespace Sys2Proof.Machine

/-- What a fragment of a pin sequence leaves for the next: no block reset ahead, and the parameters. -/
structure Along (s t : State) : Prop where
  noReset : noReset t = true
  params : t.params = s.params

/-- A line driven and held for `d` (R21, R22): one Pin event, and nothing of the block is stamped before its wait is
over. -/
theorem run_gpio_wait {s : State} (hn : noReset s = true) (l : Line) (asserted : Bool) (d : Nat) (rest : List Micro) :
    ∃ t τ, run (.gpio l asserted :: .wait d :: rest) 0 s = run rest 0 t ∧ Along s t ∧ due s ≤ τ ∧
      t.trace = s.trace ++ [.pin l (lineLevel s.params l asserted) τ] ∧ τ + d ≤ t.waitUntil ∧ t.ds = s.ds ∧
      t.pinPd = (if l = .pd then .driven (lineLevel s.params l asserted) else s.pinPd) ∧
      t.pinRst = (if l = .rst then .driven (lineLevel s.params l asserted) else s.pinRst) := by
  have hp : perform (.gpio l asserted) (settled s) = .go 0 (gpio l (lineLevel s.params l asserted) (settled s)) := by
    simp only [perform, settled_params hn]
  generalize lineLevel s.params l asserted = v at hp ⊢
  have h2 : noReset (advance 1 (gpio l v (settled s))) = true := by simpa using noReset_settled hn
  refine ⟨_, (settled s).now, (run_go hn _ hp).trans (run_go h2 rest rfl), ⟨by simpa using noReset_settled h2, ?_⟩,
    settled_due hn, ?_, ?_, ?_, ?_, ?_⟩
  · simp [settled_params h2, settled_params hn]
  · simp [settled_trace h2, settled_trace hn]
  · have := settled_now_le h2
    rw [advance_now, gpio_now] at this
    exact Nat.add_le_add_right this d
  · simp [settled_ds h2, settled_ds hn]
  · simp [settled_pinPd h2, settled_pinPd hn]
  · simp [settled_pinRst h2, settled_pinRst hn]

theorem run_setState {s : State} (hn : noReset s = true) (d : DeviceState) (rest : List Micro) :
    ∃ t τ, run (.setState d :: rest) 0 s = run rest 0 t ∧ Along s t ∧ due s ≤ τ ∧ τ ≤ due t ∧
      t.trace = s.trace ++ [.state d τ] ∧ t.ds = d ∧ t.pinPd = s.pinPd ∧ t.pinRst = s.pinRst := by
  refine ⟨_, (settled s).now, run_go hn rest rfl, ⟨by simpa using noReset_settled hn, ?_⟩, settled_due hn,
    now_le_due _, ?_, rfl, ?_, ?_⟩
  · simp [settled_params hn]
  · simp [settled_trace hn]
  · simp [settled_pinPd hn]
  · simp [settled_pinRst hn]

theorem run_log {s : State} (hn : noReset s = true) (e : Err) (rest : List Micro) :
    ∃ t τ, run (.log e :: rest) 0 s = run rest 0 t ∧ Along s t ∧ t.trace = s.trace ++ [.log e τ] ∧
      t.ds = s.ds ∧ t.pinPd = s.pinPd ∧ t.pinRst = s.pinRst ∧ t.waitUntil = s.waitUntil := by
  refine ⟨_, (settled s).now, run_go hn rest rfl, ⟨by simpa using noReset_settled hn, ?_⟩, ?_, ?_, ?_, ?_, ?_⟩
  · simp [settled_params hn]
  · simp [settled_trace hn]
  · simp [settled_ds hn]
  · simp [settled_pinPd hn]
  · simp [settled_pinRst hn]
  · simp [settled_waitUntil hn]

theorem powerUp_bound {p : Params} (h : pinsBound p = true) :
    powerUp p = [.gpio .pd true, .wait Config.tPuA, .gpio .rst true, .wait Config.tPuB, .setState .poweringUp,
      .gpio .pd false, .wait Config.tPuC, .gpio .rst false, .wait Config.tPuD] := by
  simp [powerUp, h]

theorem powerUp_unbound {p : Params} (h : pinsBound p = false) : powerUp p = [.log .seqPowerUp] := by
  simp [powerUp, h]

theorem newEvents_append {s t : State} {es : List Event} (h : t.trace = s.trace ++ es) : newEvents s t = es := by
  simp [newEvents, h]

theorem waitUntil_le_due (s : State) : s.waitUntil ≤ due s := le_max_right _ _

/-- Settles O15: PowerUp is four lines driven and held, with one SetState after the second, or one Log. -/
theorem powerUpDrivesFourPinEvents : Obligations.PowerUpDrivesFourPinEvents := by
  intro s rest hn p
  cases hb : pinsBound p with
  | false =>
    obtain ⟨t, τ, hrun, ⟨hnt, hp⟩, htr, hds, hpd, hrst, hw⟩ := run_log hn .seqPowerUp rest
    have hes := newEvents_append htr
    refine ⟨t, by rw [powerUp_unbound hb]; exact hrun, hnt, hp, by rw [hes, htr], by simp, fun _ => ?_⟩
    exact ⟨⟨τ, hes⟩, hds, hpd, hrst, hw⟩
  | true =>
    obtain ⟨a, t₁, r1, ⟨n1, p1⟩, d1, e1, w1, -, -, -⟩ := run_gpio_wait hn .pd true Config.tPuA
      (.gpio .rst true :: .wait Config.tPuB :: .setState .poweringUp :: .gpio .pd false :: .wait Config.tPuC ::
        .gpio .rst false :: .wait Config.tPuD :: rest)
    obtain ⟨b, t₂, r2, ⟨n2, p2⟩, d2, e2, w2, -, -, -⟩ := run_gpio_wait n1 .rst true Config.tPuB _
    obtain ⟨c, t₃, r3, ⟨n3, p3⟩, d3, d3', e3, s3, -, -⟩ := run_setState n2 .poweringUp _
    obtain ⟨d, t₄, r4, ⟨n4, p4⟩, d4, e4, w4, s4, pd4, -⟩ := run_gpio_wait n3 .pd false Config.tPuC _
    obtain ⟨t, t₅, r5, ⟨n5, p5⟩, d5, e5, w5, s5, pd5, rst5⟩ := run_gpio_wait n4 .rst false Config.tPuD rest
    have hpb : b.params = p := p2.trans p1
    have hpc : c.params = p := p3.trans hpb
    have hpd : d.params = p := p4.trans hpc
    have htr : t.trace = s.trace ++
        [.pin .pd (lineLevel p .pd true) t₁, .pin .rst (lineLevel p .rst true) t₂, .state .poweringUp t₃,
         .pin .pd (lineLevel p .pd false) t₄, .pin .rst (lineLevel p .rst false) t₅] := by
      rw [e5, e4, e3, e2, e1, p1, hpc, hpd]
      simp [p]
    have hes := newEvents_append htr
    have wa := w1.trans (waitUntil_le_due a)
    have wb := w2.trans (waitUntil_le_due b)
    have wd := w4.trans (waitUntil_le_due d)
    simp only [Config.tPuA, Config.tPuB, Config.tPuC, Config.tPuD] at wa wb wd w5
    refine ⟨t, by rw [powerUp_bound hb]; exact r1.trans (r2.trans (r3.trans (r4.trans r5))), n5, p5.trans hpd,
      by rw [hes, htr], fun _ => ⟨t₁, t₂, t₃, t₄, t₅, hes, (now_le_due s).trans d1, by omega, by omega, by omega,
        by omega, w5, ?_, ?_, ?_⟩, by simp⟩
    · rw [s5, s4, s3]
    · rw [pd5, if_neg (by decide), pd4, if_pos rfl, hpc]
    · rw [rst5, if_pos rfl, hpd]

end Sys2Proof.Machine

/-! Fragments of a rule that raise nothing: what each does to the state and the trace, whatever the Device answers, and
how fragments compose. Bring-up (R86) is made of such fragments alone. -/

namespace Sys2Proof.Machine

/-! ### The answers a trace shows -/

/-- The result of a transaction (R8). -/
def Event.result? : Event → Option Bool
  | .xfer _ _ _ ok _ => some ok
  | _ => none

/-- The results of a trace's transactions, in order. -/
def results (es : List Event) : List Bool := es.filterMap Event.result?

theorem results_append (es fs : List Event) : results (es ++ fs) = results es ++ results fs := List.filterMap_append

/-- A Device with script `dev`, and `th` after that, gives the results `bs` next. -/
def Gives (th : Answer) : List Bool → List Answer → Prop
  | [], _ => True
  | b :: bs, dev => (dev.headD th).isOk = b ∧ Gives th bs dev.tail

theorem gives_append {th : Answer} {as bs : List Bool} {dev : List Answer} :
    Gives th (as ++ bs) dev ↔ Gives th as dev ∧ Gives th bs (dev.drop as.length) := by
  induction as generalizing dev with
  | nil => simp [Gives]
  | cons a as ih => simp [Gives, ih, and_assoc]

/-- The Device's next answers have the results that `es` shows. -/
def Shows (es : List Event) (s : State) : Prop := Gives s.env.thereafter (results es) s.env.device

/-! ### One run of a fragment -/

/-- A fragment run from `s` to `t`, with the events `es`: it waits `c` at least, sets `ds` as `d` says, and keeps what no
statement of a bring-up writes. -/
structure Moves (c : Nat) (d : Option DeviceState) (es : List Event) (s t : State) : Prop where
  kept : Kept s t
  noReset : noReset t = true
  eqEnabled : t.eqEnabled = s.eqEnabled
  ds : t.ds = d.getD s.ds
  outstanding : t.scratch.outstanding = s.scratch.outstanding
  data : t.scratch.data = s.scratch.data
  device : t.env.device = s.env.device.drop (results es).length
  thereafter : t.env.thereafter = s.env.thereafter
  firstErr : t.firstErr = s.firstErr.or (es.filterMap Event.logged?).head?
  trace : ∃ fs, t.trace = s.trace ++ fs ∧ fs.map Event.untimed = es
  due : due s + c ≤ due t

theorem Moves.trans {c c' : Nat} {d d' : Option DeviceState} {es es' : List Event} {s t u : State}
    (a : Moves c d es s t) (b : Moves c' d' es' t u) : Moves (c + c') (d'.or d) (es ++ es') s u where
  kept := a.kept.trans b.kept
  noReset := b.noReset
  eqEnabled := b.eqEnabled.trans a.eqEnabled
  ds := by rw [b.ds, a.ds]; cases d' <;> rfl
  outstanding := b.outstanding.trans a.outstanding
  data := b.data.trans a.data
  device := by rw [b.device, a.device, List.drop_drop, results_append, List.length_append]
  thereafter := b.thereafter.trans a.thereafter
  firstErr := by rw [b.firstErr, a.firstErr, List.filterMap_append, List.head?_append, Option.or_assoc]
  trace := by
    obtain ⟨fs, h1, h2⟩ := a.trace
    obtain ⟨gs, h3, h4⟩ := b.trace
    exact ⟨fs ++ gs, by rw [h3, h1, List.append_assoc], by rw [List.map_append, h2, h4]⟩
  due := by have := a.due; have := b.due; omega

theorem Moves.shows {c : Nat} {d : Option DeviceState} {es fs : List Event} {s t : State} (a : Moves c d es s t) :
    Shows (es ++ fs) s ↔ Shows es s ∧ Shows fs t := by
  rw [Shows, results_append, gives_append, Shows, Shows, a.thereafter, a.device]

theorem Moves.answers {c : Nat} {d : Option DeviceState} {es : List Event} {s t : State} (a : Moves c d es s t)
    (h : answers s = true) : answers t = true := by
  simp only [Machine.answers, Bool.and_eq_true, List.all_eq_true] at h ⊢
  rw [a.outstanding, a.device, a.thereafter]
  exact ⟨⟨h.1.1, fun x hx => h.1.2 x (List.mem_of_mem_drop hx)⟩, h.2⟩

theorem settled_moves {s : State} (h : noReset s = true) : Moves 0 none [] s (settled s) where
  kept := settled_kept h
  noReset := noReset_settled h
  eqEnabled := settled_eqEnabled h
  ds := settled_ds h
  outstanding := by rw [settled_scratch h]
  data := by rw [settled_scratch h]
  device := settled_device h
  thereafter := settled_thereafter h
  firstErr := by simp [settled_firstErr h]
  trace := ⟨[], by simp [settled_trace h], rfl⟩
  due := (settled_due h).trans (now_le_due _)

theorem Moves.of_settled {c : Nat} {d : Option DeviceState} {es : List Event} {s t : State}
    (h : Machine.noReset s = true) (a : Moves c d es (settled s) t) : Moves c d es s t := by
  simpa using (settled_moves h).trans a

/-- The part of `Moves` that a statement's work gives for every statement. -/
theorem Works.moves {d : Option DeviceState} {es : List Event} {s t : State} (w : Works s t) (h : Machine.noReset s = true)
    (eqEnabled : t.eqEnabled = s.eqEnabled) (ds : t.ds = d.getD s.ds)
    (outstanding : t.scratch.outstanding = s.scratch.outstanding) (data : t.scratch.data = s.scratch.data)
    (device : t.env.device = s.env.device.drop (results es).length) (thereafter : t.env.thereafter = s.env.thereafter)
    (firstErr : t.firstErr = s.firstErr.or (es.filterMap Event.logged?).head?)
    (trace : ∃ fs, t.trace = s.trace ++ fs ∧ fs.map Event.untimed = es) (waitUntil : t.waitUntil = s.waitUntil) :
    Moves 0 d es s t :=
  { kept := w.kept, noReset := w.noReset h, eqEnabled, ds, outstanding, data, device, thereafter, firstErr, trace
    due := by rw [due, due, w.now, waitUntil]; exact Nat.le_refl _ }

theorem advance_moves (n : Nat) {s : State} (h : noReset s = true) : Moves 0 none [] s (advance n s) :=
  (advance_works n s).moves h rfl rfl rfl rfl rfl rfl (by simp) ⟨[], by simp⟩ rfl

theorem Moves.refl {s : State} (h : Machine.noReset s = true) : Moves 0 none [] s s := advance_moves 0 h

theorem setOk_moves (b : Bool) {s : State} (h : noReset s = true) : Moves 0 none [] s (setOk b s) :=
  Works.moves (by apply Works.quiet <;> rfl) h rfl rfl rfl rfl rfl rfl (by simp) ⟨[], by simp⟩ rfl

theorem logErr_moves (e : Err) {s : State} (h : noReset s = true) : Moves 0 none [.log e 0] s (logErr e s) :=
  (logErr_works e s).moves h rfl rfl rfl rfl rfl rfl rfl ⟨[.log e s.now], rfl, rfl⟩ rfl

theorem setState_moves (d : DeviceState) {s : State} (h : noReset s = true) :
    Moves 0 (some d) [.state d 0] s (setState d s) :=
  (setState_works d s).moves h rfl rfl rfl rfl rfl rfl (by simp [Event.logged?]) ⟨[.state d s.now], rfl, rfl⟩ rfl

theorem gpio_moves (l : Line) (v : Bool) {s : State} (h : noReset s = true) :
    Moves 0 none [.pin l v 0] s (gpio l v s) := by
  refine (gpio_works l v s).moves h ?_ ?_ ?_ ?_ ?_ ?_ ?_ ⟨[.pin l v s.now], gpio_trace s l v, rfl⟩ ?_ <;>
    simp [List.filterMap_cons, Event.logged?, results, Event.result?]

/-- A Wait that is taken when it is due asks for its whole time. -/
theorem wait_moves (d : Nat) {s : State} (h : noReset s = true) : Moves d none [] s (wait d (settled s)) where
  kept := (settled_kept h).trans (wait_works d _).kept
  noReset := by simpa using noReset_settled h
  eqEnabled := settled_eqEnabled h
  ds := settled_ds h
  outstanding := by rw [wait_scratch, settled_scratch h]
  data := by rw [wait_scratch, settled_scratch h]
  device := settled_device h
  thereafter := settled_thereafter h
  firstErr := by simp [settled_firstErr h]
  trace := ⟨[], by simp [settled_trace h], rfl⟩
  due := (Nat.add_le_add_right (settled_due h) d).trans (waitUntil_le_due (wait d (settled s)))

/-- A transaction that is answered: its event. -/
theorem xfer_moves (a : Byte) (v : Bytes) (ok : Bool) {s : State} (h : noReset s = true) :
    Moves 0 none [.xfer .write a v ok 0] s (emit (.xfer .write a v ok s.now) (drawn s)) :=
  ((drawn_works s).trans (emit_works rfl rfl)).moves h rfl rfl rfl rfl (by simp [results, Event.result?, drawn]) rfl
    (by simp [Event.logged?, drawn]) ⟨[.xfer .write a v ok s.now], rfl, rfl⟩ rfl

/-! ### One statement -/

/-- A statement that goes on to the next one, from the settled state. -/
theorem run_go_moves {s t : State} {m : Micro} {c : Nat} {d : Option DeviceState} {es : List Event} (rest : List Micro)
    (h : noReset s = true) (hp : perform m (settled s) = .go 0 t) (a : Moves c d es s t) :
    ∃ u, run (m :: rest) 0 s = run rest 0 u ∧ Moves c d es s u := by
  refine ⟨_, run_go h rest hp, ?_⟩
  simpa using a.trans (advance_moves 1 a.noReset)

theorem settled_bytes {s : State} (h : noReset s = true) (v : Source) : v.bytes (settled s) = v.bytes s := by
  cases v <;> simp [Source.bytes, closingValue, settled_scratch h, settled_params h, settled_eqEnabled h]

/-- A write the Device takes (R23). -/
theorem run_write_ok {s : State} (a : Byte) (v : Source) (f : OnFail) (rest : List Micro) (h : noReset s = true)
    (ho : s.scratch.outstanding = false) {b : Bytes} (ha : nextAnswer s = .ok b) :
    ∃ t, run (.write a v f :: rest) 0 s = run rest 0 t ∧ Moves 0 none [.wrote a (v.bytes s)] s t := by
  have hs := noReset_settled h
  refine run_go_moves rest h (perform_write_ok a v f (by rw [settled_scratch h, ho])
    ((settled_nextAnswer h).trans ha)) ?_
  rw [settled_bytes h]
  exact (xfer_moves a (v.bytes s) true hs).of_settled h

/-- The statements passed over after a failure that is logged; `none` where it raises (R104). -/
def OnFail.skip : OnFail → Option Nat
  | .log => some 0
  | .logSkip n => some n
  | .logFail n => some n
  | _ => none

/-- A write the Device fails, where that is logged and passed over. -/
theorem run_write_fail {s : State} (a : Byte) (v : Source) {f : OnFail} {n : Nat} (hf : f.skip = some n)
    (rest : List Micro) (h : noReset s = true) (ho : s.scratch.outstanding = false) (ha : nextAnswer s = .fail) :
    ∃ t, run (.write a v f :: rest) 0 s = run rest n t ∧ Moves 0 none (failedCw a (v.bytes s)) s t := by
  have hs := noReset_settled h
  have hx := xfer_moves a (v.bytes s) false hs
  have logs : ∀ u, noReset u = true → ∃ t, onFailure a f u = .logged (.transport a) n t ∧ Moves 0 none [] u t := by
    intro u hu
    cases f <;> cases hf
    case log => exact ⟨u, rfl, .refl hu⟩
    case logSkip => exact ⟨u, rfl, .refl hu⟩
    case logFail => exact ⟨setOk false u, rfl, setOk_moves false hu⟩
  obtain ⟨t, ht, hm⟩ := logs _ hx.noReset
  have hp := perform_write_fail a v f (s := settled s) (by rw [settled_scratch h, ho]) ((settled_nextAnswer h).trans ha)
  rw [settled_bytes h, ht] at hp
  refine ⟨_, run_logged h rest hp, ?_⟩
  have hl := (settled_moves hm.noReset).trans (logErr_moves (.transport a) (noReset_settled hm.noReset))
  have := ((((settled_moves h).trans hx).trans hm).trans hl).trans (advance_moves (n + 1) hl.noReset)
  simpa [failedCw, Event.failed] using this

/-! ### Fragments -/

/-- From every state with the parameters and `eq_enabled` of `s₀` the fragment runs through, whatever the Device
answers; where it answers with the results that `es` shows, `es` are its events. -/
def Fragment (s₀ : State) (ms : List Micro) (c : Nat) (d : Option DeviceState) (es : List Event) : Prop :=
  ∀ rest s, s.params = s₀.params → s.eqEnabled = s₀.eqEnabled → noReset s = true → answers s = true →
    ∃ t fs, run (ms ++ rest) 0 s = run rest 0 t ∧ Moves c d fs s t ∧ (Shows es s → fs = es)

section
variable {s₀ : State}

theorem Fragment.append {as bs : List Micro} {c c' : Nat} {d d' : Option DeviceState} {es es' : List Event}
    (a : Fragment s₀ as c d es) (b : Fragment s₀ bs c' d' es') :
    Fragment s₀ (as ++ bs) (c + c') (d'.or d) (es ++ es') := by
  intro rest s hp he hn ha
  obtain ⟨t, fs, hrun, ht, hfs⟩ := a (bs ++ rest) s hp he hn ha
  obtain ⟨u, gs, hrun', hu, hgs⟩ := b rest t (ht.kept.params.trans hp) (ht.eqEnabled.trans he) ht.noReset (ht.answers ha)
  refine ⟨u, fs ++ gs, by rw [List.append_assoc, hrun, hrun'], ht.trans hu, fun hsh => ?_⟩
  have hes : fs = es := hfs (by rw [Shows, results_append, gives_append] at hsh; exact hsh.1)
  subst hes
  rw [hgs (ht.shows.1 hsh).2]

theorem fragment_nil : Fragment s₀ [] 0 none [] := fun _ s _ _ hn _ =>
  ⟨s, [], rfl, Moves.refl hn, fun _ => rfl⟩

/-- A statement that makes no transaction and goes on to the next is a fragment. -/
theorem fragment_of_go {m : Micro} {c : Nat} {d : Option DeviceState} {es : List Event}
    (h : ∀ s, s.params = s₀.params → noReset s = true → ∃ t, perform m (settled s) = .go 0 t ∧ Moves c d es s t) :
    Fragment s₀ [m] c d es := by
  intro rest s hp _ hn _
  obtain ⟨t, ht, hm⟩ := h s hp hn
  obtain ⟨u, hu, hmu⟩ := run_go_moves rest hn ht hm
  exact ⟨u, es, hu, hmu, fun _ => rfl⟩

/-- What the Device answers, if it answers. -/
theorem nextAnswer_cases {s : State} (h : answers s = true) : (∃ b, nextAnswer s = .ok b) ∨ nextAnswer s = .fail := by
  obtain ⟨-, hs⟩ := nextAnswer_of_answers h
  cases ha : nextAnswer s with
  | ok b => exact .inl ⟨b, rfl⟩
  | fail => exact .inr rfl
  | silent => exact absurd ha hs

/-- A trace that begins with a write tells the next answer. -/
theorem ok_of_shows {a : Byte} {v : Bytes} {es : List Event} {s : State} (h : Shows (.wrote a v :: es) s) :
    (nextAnswer s).isOk = true := h.1

theorem ne_fail_of_shows {a : Byte} {v : Bytes} {es : List Event} {s : State} (h : Shows (.wrote a v :: es) s) :
    nextAnswer s ≠ .fail := fun hf => by simpa [hf, Answer.isOk] using ok_of_shows h

theorem fail_of_shows {a : Byte} {v : Bytes} {s : State} (h : Shows (failedCw a v) s) {b : Bytes} :
    nextAnswer s ≠ .ok b := fun hb => by
  have : (nextAnswer s).isOk = false := h.1
  simp [hb, Answer.isOk] at this

/-- A best-effort write is a fragment (R85), of its event where it succeeds and of two where it fails. -/
theorem fragment_cw (a : Byte) (v : Bytes) {es : List Event} (h : es = [.wrote a v] ∨ es = failedCw a v) :
    Fragment s₀ [cw a v] 0 none es := by
  intro rest s _ _ hn ha
  have ho := (nextAnswer_of_answers ha).1
  obtain ⟨b, hb⟩ | hb := nextAnswer_cases ha
  · obtain ⟨t, ht, hm⟩ := run_write_ok a (.lit v) .log rest hn ho hb
    refine ⟨t, _, ht, hm, fun hs => ?_⟩
    obtain rfl | rfl := h
    · rfl
    · exact absurd hb (fail_of_shows hs)
  · obtain ⟨t, ht, hm⟩ := run_write_fail a (.lit v) (f := .log) rfl rest hn ho hb
    refine ⟨t, _, ht, hm, fun hs => ?_⟩
    obtain rfl | rfl := h
    · exact absurd hb (ne_fail_of_shows hs)
    · rfl

/-! ### The bracket (R122) -/

theorem fragment_closingWrite (k : Kind) :
    Fragment s₀ [closingWrite s₀.params k] 0 none [.wrote (switchOf s₀.params k).addr (closingValue k s₀)] := by
  intro rest s hp he hn ha
  have ho := (nextAnswer_of_answers ha).1
  have hv : closingValue k s = closingValue k s₀ := by rw [closingValue, hp, he]; rfl
  obtain ⟨b, hb⟩ | hb := nextAnswer_cases ha
  · obtain ⟨t, ht, hm⟩ := run_write_ok (switchOf s₀.params k).addr (.closing k) (.logFail 0) rest hn ho hb
    exact ⟨t, _, ht, hm, fun _ => by rw [Source.bytes, hv]⟩
  · obtain ⟨t, ht, hm⟩ := run_write_fail (switchOf s₀.params k).addr (.closing k) (f := .logFail 0) rfl rest hn ho hb
    exact ⟨t, _, ht, hm, fun hs => absurd hb (ne_fail_of_shows hs)⟩

/-- A write whose failure passes over some of what follows, before a fragment that has the same end with and without
those: a fragment. -/
theorem fragment_write_logFail {a : Byte} {v : Bytes} {skipped rest : List Micro} {es : List Event}
    (h : Fragment s₀ (skipped ++ rest) 0 none es) {es' : List Event} (h' : Fragment s₀ rest 0 none es') :
    Fragment s₀ (.write a (.lit v) (.logFail skipped.length) :: (skipped ++ rest)) 0 none (.wrote a v :: es) := by
  intro tail s hp he hn ha
  have ho := (nextAnswer_of_answers ha).1
  obtain ⟨b, hb⟩ | hb := nextAnswer_cases ha
  · obtain ⟨t, ht, hm⟩ := run_write_ok a (.lit v) (.logFail skipped.length) (skipped ++ rest ++ tail) hn ho hb
    obtain ⟨u, fs, hu, hmu, hfs⟩ := h tail t (hm.kept.params.trans hp) (hm.eqEnabled.trans he) hm.noReset (hm.answers ha)
    refine ⟨u, .wrote a v :: fs, ht.trans hu, hm.trans hmu, fun hs => ?_⟩
    rw [hfs ((hm.shows (es := [.wrote a v])).1 hs).2]
  · obtain ⟨t, ht, hm⟩ := run_write_fail a (.lit v) (f := .logFail skipped.length) rfl (skipped ++ rest ++ tail) hn ho hb
    obtain ⟨u, fs, hu, hmu, -⟩ := h' tail t (hm.kept.params.trans hp) (hm.eqEnabled.trans he) hm.noReset (hm.answers ha)
    refine ⟨u, failedCw a v ++ fs, ?_, hm.trans hmu, fun hs => absurd hb (ne_fail_of_shows hs)⟩
    rw [List.cons_append, ht, run_drop, List.append_assoc, List.drop_left, hu]

theorem imageWrites_length (img : List (Byte × Source)) : (imageWrites img).length = img.length := by
  induction img with
  | nil => rfl
  | cons q rest ih => simp [imageWrites, ih]

/-- The image writes with the closing write: a failure passes over what is left of the image. -/
theorem fragment_imageWrites (k : Kind) (img : Image) :
    Fragment s₀ (imageWrites (litImage img) ++ [closingWrite s₀.params k]) 0 none
      (img.map (fun q => .wrote q.1 q.2) ++ [.wrote (switchOf s₀.params k).addr (closingValue k s₀)]) := by
  induction img with
  | nil => exact fragment_closingWrite k
  | cons q img ih =>
    have := fragment_write_logFail (a := q.1) (v := q.2) ih (fragment_closingWrite k)
    rwa [imageWrites_length] at this

theorem fragment_begin : Fragment s₀ [.begin] 0 none [] :=
  fragment_of_go fun _ _ hn => ⟨_, rfl, (setOk_moves true (noReset_settled hn)).of_settled hn⟩

/-- A bracket, whatever the Device answers, leads to what follows it. -/
theorem fragment_bracket (k : Kind) (img : Image) :
    Fragment s₀ (bracket s₀.params k (litImage img)) 0 none (bracketEvents s₀ k img) := by
  have hw := fragment_write_logFail (a := (ctrlVal s₀.params k false).1) (v := (ctrlVal s₀.params k false).2)
    (fragment_imageWrites (s₀ := s₀) k img) (fragment_closingWrite k)
  rw [imageWrites_length] at hw
  have := fragment_begin.append hw
  simpa [bracket, bracketEvents, bracketWrites] using this

/-! ### Statements that pass over none -/

/-- The statements of a bring-up outside its brackets. -/
def Micro.plain : Micro → Bool
  | .log _ => true
  | .setState _ => true
  | .gpio _ _ => true
  | .wait _ => true
  | .write _ (.lit _) .log => true
  | _ => false

/-- The events of a plain statement where no write fails. -/
def Micro.events (p : Params) : Micro → List Event
  | .log e => [.log e 0]
  | .setState d => [.state d 0]
  | .gpio l a => [.pin l (lineLevel p l a) 0]
  | .write a (.lit v) _ => [.wrote a v]
  | _ => []

/-- The state a statement sets. -/
def Micro.sets : Micro → Option DeviceState
  | .setState d => some d
  | _ => none

/-- The last state a list of statements sets. -/
def lastSet : List Micro → Option DeviceState
  | [] => none
  | m :: ms => (lastSet ms).or m.sets

theorem fragment_plain {m : Micro} (hm : m.plain = true) : Fragment s₀ [m] m.cost m.sets (m.events s₀.params) := by
  cases m
  case log e =>
    exact fragment_of_go fun s _ hn =>
      ⟨_, rfl, (logErr_moves e (noReset_settled hn)).of_settled hn⟩
  case setState d =>
    exact fragment_of_go fun s _ hn =>
      ⟨_, rfl, (setState_moves d (noReset_settled hn)).of_settled hn⟩
  case gpio l a =>
    refine fragment_of_go fun s hp hn => ⟨_, rfl, ?_⟩
    rw [settled_params hn, hp]
    exact (gpio_moves l _ (noReset_settled hn)).of_settled hn
  case wait d => exact fragment_of_go fun s _ hn => ⟨_, rfl, wait_moves d hn⟩
  case write a v f =>
    cases v <;> cases f <;> cases hm
    exact fragment_cw a _ (.inl rfl)
  all_goals cases hm

theorem fragment_plains {ms : List Micro} (hm : ∀ m ∈ ms, m.plain = true) :
    Fragment s₀ ms (waits ms) (lastSet ms) (ms.flatMap (Micro.events s₀.params)) := by
  induction ms with
  | nil => exact fragment_nil
  | cons m ms ih =>
    obtain ⟨h, hr⟩ := List.forall_mem_cons.1 hm
    exact (fragment_plain h).append (ih hr)

/-- A plain statement writes in one event or makes none. -/
theorem eq_cw_of_events {p : Params} {m : Micro} (hm : m.plain = true) {pre post : List Event} {a : Byte} {v : Bytes}
    (h : m.events p = pre ++ .wrote a v :: post) : m = cw a v ∧ pre = [] ∧ post = [] := by
  have hone : ∀ e, m.events p = [e] → pre = [] ∧ e = .wrote a v ∧ post = [] := by
    intro e he
    rw [he, List.cons_eq_append_iff] at h
    obtain ⟨rfl, h⟩ | ⟨_, -, h⟩ := h
    · obtain ⟨rfl, rfl⟩ := List.cons.inj h; exact ⟨rfl, rfl, rfl⟩
    · simp at h
  cases m
  case log e => exact absurd (hone _ rfl).2.1 nofun
  case setState d => exact absurd (hone _ rfl).2.1 nofun
  case gpio l b => exact absurd (hone _ rfl).2.1 nofun
  case write b u f =>
    cases u <;> cases f <;> cases hm
    obtain ⟨hpre, hw, hpost⟩ := hone _ rfl
    cases hw
    exact ⟨rfl, hpre, hpost⟩
  all_goals simp [Micro.events] at h

/-- Where one write of plain statements alone fails, its Log follows it, and every other event is as before (R85). -/
theorem fragment_plains_fail {ms : List Micro} (hm : ∀ m ∈ ms, m.plain = true) {pre post : List Event} {a : Byte}
    {v : Bytes} (he : ms.flatMap (Micro.events s₀.params) = pre ++ .wrote a v :: post) :
    Fragment s₀ ms (waits ms) (lastSet ms) (pre ++ failedCw a v ++ post) := by
  induction ms generalizing pre with
  | nil => simp at he
  | cons m ms ih =>
    obtain ⟨h, hr⟩ := List.forall_mem_cons.1 hm
    have later : ∀ mid, ms.flatMap (Micro.events s₀.params) = mid ++ .wrote a v :: post →
        Fragment s₀ (m :: ms) (waits (m :: ms)) (lastSet (m :: ms))
          (m.events s₀.params ++ mid ++ failedCw a v ++ post) := by
      intro mid hmid
      have := (fragment_plain h).append (ih hr hmid)
      rwa [← List.append_assoc, ← List.append_assoc] at this
    rw [List.flatMap_cons] at he
    obtain ⟨mid, rfl, hms⟩ | ⟨mid, hev, hmid⟩ := List.append_eq_append_iff.1 he
    · exact later mid hms
    · cases mid with
      | nil =>
        rw [List.append_nil] at hev
        have := later [] hmid.symm
        rwa [List.append_nil, hev] at this
      | cons e mid =>
        obtain ⟨rfl, rfl⟩ := List.cons.inj hmid
        obtain ⟨rfl, rfl, rfl⟩ := eq_cw_of_events h hev
        exact (fragment_cw a v (.inr rfl)).append (fragment_plains hr)

end

end Sys2Proof.Machine

/-! Bring-up (R86, R100): BRINGUP and RESUME as plain statements, two banks, and plain statements. -/

namespace Sys2Proof.Machine

/-! ### The parts of the rule -/

/-- The statements of a bring-up before its banks. -/
def bringupHead (p : Params) : List Micro :=
  [.setState .resetting] ++ powerUp p ++ [.setState .configuring] ++ configGroup1 p

/-- The statements of its banks, with the preset `i`. -/
def bankRules (p : Params) (i : Byte) : List Micro :=
  (if p.cfg.drcEnable then drcAtBringup p else []) ++ (if p.cfg.eqEnable then eqAtBringup p i else [])

/-- The statements after the banks, those of RESUME's restore among them. -/
def bringupTail (i : Instr) (s : State) : List Micro :=
  initMuxOverride s.params ++ configGroup2 s.params ++ [.setState .running] ++ runningEntry s.params ++
  (if i = .resume ∧ s.snapValid = true then restoreSnapshot s.params s.snap else [])

/-- What BRINGUP and RESUME run once their state check has passed. -/
def bringupParts (i : Instr) (s : State) : List Micro :=
  bringupHead s.params ++ bankRules s.params s.eqPreset ++ bringupTail i s

theorem exec_bringup_parts {i : Instr} (hi : i = .bringup ∨ i = .resume) (s : State) :
    exec i s = runRule (.require dsForBringup :: bringupParts i s) s := by
  have hbody : bringupBody s.params s.eqPreset = bringupHead s.params ++ bankRules s.params s.eqPreset ++
      (initMuxOverride s.params ++ configGroup2 s.params ++ [.setState .running] ++ runningEntry s.params) := by
    simp [bringupBody, bringupHead, bankRules]
  obtain rfl | rfl := hi
  · have : bringupParts .bringup s = bringupBody s.params s.eqPreset := by simp [hbody, bringupParts, bringupTail]
    rw [this]; rfl
  · have : bringupParts .resume s = bringupBody s.params s.eqPreset ++
        (if s.snapValid then restoreSnapshot s.params s.snap else []) := by simp [hbody, bringupParts, bringupTail]
    rw [this]; rfl

theorem plain_bringupHead (p : Params) : ∀ m ∈ bringupHead p, m.plain = true := by
  cases hb : pinsBound p <;> simp [bringupHead, powerUp, hb, configGroup1, cwReg, cw, Micro.plain]

theorem plain_bringupTail (i : Instr) (s : State) : ∀ m ∈ bringupTail i s, m.plain = true := by
  have hmux : ∀ m ∈ initMuxOverride s.params, m.plain = true := by
    unfold initMuxOverride
    split
    · simp
    · split <;> simp [cw, Micro.plain]
  have hmid : ∀ m ∈ configGroup2 s.params ++ [.setState .running] ++ runningEntry s.params, m.plain = true := by
    simp [configGroup2, runningEntry, cwReg, cw, Micro.plain]
  have hsnap : ∀ m ∈ (if i = .resume ∧ s.snapValid = true then restoreSnapshot s.params s.snap else []),
      m.plain = true := by
    split <;> simp [restoreSnapshot, cw, Micro.plain]
  simp only [bringupTail, List.append_assoc, List.forall_mem_append] at hmid hsnap ⊢
  exact ⟨hmux, hmid.1, hmid.2.1, hmid.2.2, hsnap⟩

theorem waits_append (as bs : List Micro) : waits (as ++ bs) = waits as + waits bs := by simp [waits]

theorem waits_bringupHead (p : Params) : waits (bringupHead p) = (if pinsBound p then 27000 else 0) + 50000 := by
  cases hb : pinsBound p <;>
    simp [bringupHead, powerUp, hb, configGroup1, cwReg, cw, waits, Micro.cost, Config.tPuA, Config.tPuB, Config.tPuC,
      Config.tPuD, Config.tOsc]

theorem waits_bringupTail (i : Instr) (s : State) : 170000 ≤ waits (bringupTail i s) := by
  have : waits (configGroup2 s.params) = 170000 := by simp [configGroup2, cwReg, cw, waits, Micro.cost, Config.tStart]
  simp only [bringupTail, waits_append, this]
  omega

theorem lastSet_append (as bs : List Micro) : lastSet (as ++ bs) = (lastSet bs).or (lastSet as) := by
  induction as with
  | nil => simp [lastSet]
  | cons m ms ih => simp [lastSet, ih, Option.or_assoc]

theorem lastSet_bringupTail (i : Instr) (s : State) : lastSet (bringupTail i s) = some .running := by
  have hr : lastSet (runningEntry s.params) = none := rfl
  have hs : lastSet (if i = .resume ∧ s.snapValid = true then restoreSnapshot s.params s.snap else []) = none := by
    split <;> rfl
  simp [bringupTail, lastSet_append, hr, hs, lastSet, Micro.sets]

theorem events_bringupHead (s : State) : (bringupHead s.params).flatMap (Micro.events s.params) = bringupBefore s := by
  cases hb : pinsBound s.params <;>
    simp [bringupHead, powerUp, hb, configGroup1, cwReg, cw, Micro.events, bringupBefore, bringupStart, bringupGroup1,
      Event.wroteReg]

theorem events_bringupTail (i : Instr) (s : State) :
    (bringupTail i s).flatMap (Micro.events s.params) = bringupAfter i s := by
  have hmux : (initMuxOverride s.params).flatMap (Micro.events s.params) = bringupMux s.params := by
    cases h : s.params.cfg.initMux with
    | none => simp only [initMuxOverride, bringupMux, h, List.flatMap_nil]
    | some v =>
      by_cases hl : v.length = 4
      · simp only [initMuxOverride, bringupMux, h, if_pos hl, List.flatMap_singleton]
        rfl
      · simp only [initMuxOverride, bringupMux, h, if_neg hl, List.flatMap_singleton]
        rfl
  have h2 : (configGroup2 s.params).flatMap (Micro.events s.params) = bringupGroup2 s.params := rfl
  have hvol : masterVolume s.params = s.params.cfg.masterVol.elim s.params.regs.vol[0].val fun v => [v] := by
    unfold masterVolume; split <;> simp [*]
  have hend : ([Micro.setState .running] ++ runningEntry s.params).flatMap (Micro.events s.params) = bringupEnd s.params := by
    simp [runningEntry, bringupEnd, cwReg, cw, Micro.events, hvol, Event.wroteReg]
  have hsnap : (if i = .resume ∧ s.snapValid = true then restoreSnapshot s.params s.snap else []).flatMap
      (Micro.events s.params) = if i = .resume then restoreEvents s else [] := by
    by_cases hi : i = .resume <;> by_cases hv : s.snapValid = true <;> simp [hi, hv, restoreEvents]
    rfl
  rw [bringupTail, List.append_assoc _ [_], List.flatMap_append, List.flatMap_append, List.flatMap_append, hmux, h2, hend,
    hsnap]
  rfl

/-! ### The banks -/

theorem fragment_log {s₀ : State} (e : Err) : Fragment s₀ [.log e] 0 none [.log e 0] := fragment_plain rfl

theorem fragment_drc (s : State) :
    Fragment s (if s.params.cfg.drcEnable then drcAtBringup s.params else []) 0 none (bringupDrc s) := by
  cases he : s.params.cfg.drcEnable with
  | false => simpa [bringupDrc, he] using fragment_nil
  | true =>
    cases hd : platformDrc s.params with
    | none => simpa [bringupDrc, he, hd, drcAtBringup] using fragment_log _
    | some img => simpa [bringupDrc, he, hd, drcAtBringup] using fragment_bracket .drc img

theorem fragment_eq (s : State) :
    Fragment s (if s.params.cfg.eqEnable then eqAtBringup s.params s.eqPreset else []) 0 none (bringupEq s) := by
  cases he : s.params.cfg.eqEnable with
  | false => simpa [bringupEq, he] using fragment_nil
  | true =>
    cases hd : platformEq s.params s.eqPreset with
    | none => simpa [bringupEq, he, hd, eqAtBringup] using fragment_log _
    | some img => simpa [bringupEq, he, hd, eqAtBringup] using fragment_bracket .eq img

theorem fragment_banks (s : State) : Fragment s (bankRules s.params s.eqPreset) 0 none (bringupBanks s) :=
  (fragment_drc s).append (fragment_eq s)

/-! ### The run -/

/-- A bring-up in which nothing fails before the banks, or after them. -/
theorem fragment_head (s : State) :
    Fragment s (bringupHead s.params) (waits (bringupHead s.params)) (lastSet (bringupHead s.params)) (bringupBefore s) :=
  events_bringupHead s ▸ fragment_plains (plain_bringupHead s.params)

theorem fragment_tail (i : Instr) (s : State) :
    Fragment s (bringupTail i s) (waits (bringupTail i s)) (lastSet (bringupTail i s)) (bringupAfter i s) :=
  events_bringupTail i s ▸ fragment_plains (plain_bringupTail i s)

/-- A granted BRINGUP or RESUME that is let in runs to its completion, with the waits of its parts, in Running. -/
theorem bringup_completes {i : Instr} {s : State} {h : Nat} {es₁ es₃ : List Event} (hi : i = .bringup ∨ i = .resume)
    (g : Granted h s) (hu : Undisturbed s) (hd : admits i s.ds = true)
    (h₁ : Fragment s (bringupHead s.params) (waits (bringupHead s.params)) (lastSet (bringupHead s.params)) es₁)
    (h₃ : Fragment s (bringupTail i s) (waits (bringupTail i s)) (lastSet (bringupTail i s)) es₃) :
    ∃ u fs, exec i s = .next (complete u) ∧
      Moves (waits (bringupHead s.params) + waits (bringupTail i s)) (some .running) fs s u ∧ u.waitUntil ≤ u.now ∧
      (Shows (es₁ ++ bringupBanks s ++ es₃) s → fs = es₁ ++ bringupBanks s ++ es₃) := by
  obtain ⟨hn, ha⟩ := hu
  have hin : s.ds ∈ dsForBringup := (mem_dsForBringup _).2 (by
    obtain rfl | rfl := hi
    · exact (admits_bringup _).1 hd
    · exact (admits_resume _).1 hd)
  have m₀ := (advance_moves 1 (noReset_settled hn)).of_settled hn
  obtain ⟨t, fs, hrun, hm, hfs⟩ := (h₁.append (fragment_banks s)).append h₃ [] (advance 1 (settled s)) m₀.kept.params
    m₀.eqEnabled m₀.noReset (m₀.answers ha)
  have hset := settled_moves hm.noReset
  have hall := (m₀.trans hm).trans hset
  rw [lastSet_bringupTail] at hall
  refine ⟨settled t, fs, ?_, by simpa using hall, ?_, fun hs => hfs ((m₀.shows (es := [])).1 hs).2⟩
  · rw [exec_bringup_parts hi, runRule_granted g, run_admitted _ hn hin]
    rw [List.append_nil] at hrun
    rw [bringupParts, hrun, run_done hm.noReset]
  · rw [settled_waitUntil hm.noReset]
    exact settled_ready hm.noReset

/-! ### The answer -/

theorem Event.logged?_untimed (e : Event) : e.untimed.logged? = e.logged? := by cases e <;> rfl

theorem responseTo_untimed (data : Bytes) (es : List Event) : responseTo data (es.map Event.untimed) = responseTo data es := by
  simp only [responseTo, List.filterMap_map, Function.comp_def, Event.logged?_untimed]

theorem responseTo_resp (data : Bytes) (es : List Event) (h : Nat) (r : Response) :
    responseTo data (es ++ [.resp h r.status r.info r.data 0]) = responseTo data es := by
  simp [responseTo, List.filterMap_append, List.filterMap_cons, Event.logged?]

/-- A granted command that comes to completion through `fs` answers with the first error `fs` logs, or OK. -/
theorem complete_moves {c : Nat} {d : Option DeviceState} {fs : List Event} {s u : State} {h : Nat} (g : Granted h s)
    (m : Moves c d fs s u) :
    (complete u).ds = d.getD s.ds ∧ respAt (complete u) h = some (responseTo [] fs) ∧
      TraceGains s (complete u)
        (fs ++ [.resp h (responseTo [] fs).status (responseTo [] fs).info (responseTo [] fs).data 0]) := by
  obtain ⟨hl, hh, -, hf, hsc⟩ := g
  have hr : responseOf u = responseTo [] fs := by
    have hfe := m.firstErr
    rw [hf, Option.none_or] at hfe
    cases hlog : fs.filterMap Event.logged? with
    | nil => simp [responseTo, hlog, responseOf, hfe, m.data, hsc, Scratch.empty]
    | cons e es => simp [responseTo, hlog, responseOf, hfe]
  obtain ⟨hresp, htr, -, -⟩ := complete_spec (m.kept.lock.trans hl) (by rw [m.kept.count]; exact hh)
  obtain ⟨gs, htrace, hgs⟩ := m.trace
  rw [hr] at hresp htr
  refine ⟨by rw [complete_ds, m.ds], hresp, traceGains_of (by rw [htr, htrace, List.append_assoc]) ?_⟩
  rw [List.map_append, hgs]
  rfl

/-! ### One failed write among successful ones -/

/-- An event that is no transaction but a write that succeeded. -/
def Event.took (e : Event) : Bool := e.result? == if e.isWrite then some true else none

theorem results_took {es : List Event} (h : ∀ e ∈ es, e.took = true) :
    results es = List.replicate (es.countP Event.isWrite) true := by
  induction es with
  | nil => rfl
  | cons e es ih =>
    obtain ⟨he, hr⟩ := List.forall_mem_cons.1 h
    have hres : e.result? = if e.isWrite then some true else none := beq_iff_eq.1 he
    have ih : List.filterMap Event.result? es = _ := ih hr
    cases hw : e.isWrite <;> simp [results, hres, hw, ih, List.replicate_succ]

theorem took_events {p : Params} {m : Micro} : ∀ e ∈ m.events p, e.took = true := by
  cases m
  case write a v f => cases v <;> simp [Micro.events, Event.took, Event.wrote, Event.result?, Event.isWrite]
  all_goals simp [Micro.events, Event.took, Event.result?, Event.isWrite]

theorem took_flatMap {p : Params} (ms : List Micro) : ∀ e ∈ ms.flatMap (Micro.events p), e.took = true := by
  intro e he
  obtain ⟨m, -, hm⟩ := List.mem_flatMap.1 he
  exact took_events e hm

theorem took_bringupBefore (s : State) : ∀ e ∈ bringupBefore s, e.took = true := events_bringupHead s ▸ took_flatMap _

theorem took_bringupAfter (i : Instr) (s : State) : ∀ e ∈ bringupAfter i s, e.took = true :=
  events_bringupTail i s ▸ took_flatMap _

theorem took_bracketEvents (s : State) (k : Kind) (img : Image) : ∀ e ∈ bracketEvents s k img, e.took = true := by
  intro e he
  obtain ⟨q, -, rfl⟩ := List.mem_map.1 he
  rfl

theorem took_bringupBanks (s : State) : ∀ e ∈ bringupBanks s, e.took = true := by
  have hlog : ∀ x, ∀ e ∈ [Event.log x 0], e.took = true := by intro x e he; obtain rfl := List.mem_singleton.1 he; rfl
  refine List.forall_mem_append.2 ⟨?_, ?_⟩
  · unfold bringupDrc
    split
    · simp
    · exact hlog _
    · exact took_bracketEvents s _ _
  · unfold bringupEq
    split
    · simp
    · exact hlog _
    · exact took_bracketEvents s _ _

theorem gives_oks (th : Answer) (oks : List Bytes) (dev : List Answer) :
    Gives th (List.replicate oks.length true) (oks.map .ok ++ dev) := by
  induction oks with
  | nil => trivial
  | cons b bs ih => exact ⟨rfl, ih⟩

theorem gives_all_ok {th : Answer} (h : th.isOk = true) (n : Nat) (later : List Bytes) :
    Gives th (List.replicate n true) (later.map .ok) := by
  induction n generalizing later with
  | zero => trivial
  | succ n ih =>
    cases later with
    | nil => exact ⟨h, ih []⟩
    | cons b bs => exact ⟨rfl, ih bs⟩

/-- A Device that fails one transaction alone gives the results of a trace in which one write alone fails, if it is the
same one. -/
theorem shows_failure {s : State} {lead trail : List Event} {a : Byte} {v : Bytes} {oks later : List Bytes}
    (hd : s.env.device = oks.map .ok ++ .fail :: later.map .ok) (hth : s.env.thereafter.isOk = true)
    (hlead : ∀ e ∈ lead, e.took = true) (htrail : ∀ e ∈ trail, e.took = true)
    (hlen : oks.length = lead.countP Event.isWrite) : Shows (lead ++ failedCw a v ++ trail) s := by
  have hfail : results (failedCw a v) = [false] := rfl
  rw [Shows, List.append_assoc, results_append, results_append, results_took hlead, results_took htrail, hfail, hd,
    gives_append, gives_append, ← hlen]
  have hdrop : (oks.map Answer.ok ++ Answer.fail :: later.map Answer.ok).drop (List.replicate oks.length true).length =
      .fail :: later.map .ok := by simp
  rw [hdrop]
  exact ⟨gives_oks _ _ _, ⟨rfl, trivial⟩, gives_all_ok hth _ later⟩

theorem answers_of_one_failure {s : State} {h : Nat} {oks later : List Bytes} (g : Granted h s)
    (hd : s.env.device = oks.map .ok ++ .fail :: later.map .ok) (hth : s.env.thereafter.isOk = true) :
    answers s = true := by
  obtain ⟨-, -, -, -, hsc⟩ := g
  have : s.env.thereafter ≠ .silent := by rintro e; simp [e, Answer.isOk] at hth
  simp [answers, hd, hsc, Scratch.empty, this]

/-- Settles O22: every part of a bring-up leads to what follows it whatever the Device answers (`Fragment`), and a CW
that fails alone puts its Log into the events of the part it lies in and changes no other (`fragment_plains_fail`). -/
theorem bringupAlwaysEndsRunning : Obligations.BringupAlwaysEndsRunning := by
  refine ⟨?always, fun a i => ⟨rfl, rfl, rfl, rfl⟩, ?bestEffort, ?oneFails⟩
  case always =>
    intro i s h hi g hu hd
    obtain ⟨u, fs, hx, hm, -, -⟩ := bringup_completes hi g hu hd (fragment_head s) (fragment_tail i s)
    obtain ⟨hds, hresp, htr, hes⟩ := complete_moves g hm
    refine ⟨_, hx, hds, complete_lock u, htr, ?_⟩
    rw [hresp, ← responseTo_untimed [] (newEvents s _), hes, responseTo_resp]
  case bestEffort =>
    intro a v s rest hn ho
    constructor
    · rintro ⟨b, hb⟩
      obtain ⟨t, ht, hm⟩ := run_write_ok a (.lit v) .log rest hn ho hb
      obtain ⟨fs, h1, h2⟩ := hm.trace
      exact ⟨t, ht, traceGains_of h1 h2, hm.ds⟩
    · intro hb
      obtain ⟨t, ht, hm⟩ := run_write_fail a (.lit v) (f := .log) rfl rest hn ho hb
      obtain ⟨fs, h1, h2⟩ := hm.trace
      exact ⟨t, ht, traceGains_of h1 h2, hm.ds⟩
  case oneFails =>
    intro i s h pre a v post es oks later hi g hn hd hdev hth hwhere r
    have hu : Undisturbed s := ⟨hn, answers_of_one_failure g hdev hth⟩
    have finish : ∀ {es₁ es₃},
        Fragment s (bringupHead s.params) (waits (bringupHead s.params)) (lastSet (bringupHead s.params)) es₁ →
        Fragment s (bringupTail i s) (waits (bringupTail i s)) (lastSet (bringupTail i s)) es₃ →
        es = es₁ ++ bringupBanks s ++ es₃ → Shows es s →
        ∃ t, exec i s = .next t ∧ t.ds = .running ∧ t.lock = none ∧ respAt t h = some r ∧
          TraceGains s t (es ++ [.resp h r.status r.info r.data 0]) := by
      intro es₁ es₃ h₁ h₃ he hs
      obtain ⟨u, fs, hx, hm, -, hfs⟩ := bringup_completes hi g hu hd h₁ h₃
      have : fs = es := by rw [he]; exact hfs (he ▸ hs)
      subst this
      obtain ⟨hds, hresp, htr⟩ := complete_moves g hm
      exact ⟨_, hx, hds, complete_lock u, hresp, htr⟩
    obtain ⟨hb, hlen, he⟩ | ⟨hb, hlen, he⟩ := hwhere
    · have htook := took_bringupBefore s
      rw [hb, List.forall_mem_append, List.forall_mem_cons] at htook
      refine finish (fragment_plains_fail (plain_bringupHead _) ((events_bringupHead s).trans hb)) (fragment_tail i s) he ?_
      rw [he, List.append_assoc _ (bringupBanks s), List.append_assoc _ post]
      exact shows_failure hdev hth htook.1 (List.forall_mem_append.2 ⟨htook.2.2, List.forall_mem_append.2
        ⟨took_bringupBanks s, took_bringupAfter i s⟩⟩) hlen
    · have htook := took_bringupAfter i s
      rw [hb, List.forall_mem_append, List.forall_mem_cons] at htook
      refine finish (fragment_head s) (fragment_plains_fail (plain_bringupTail i s) ((events_bringupTail i s).trans hb))
        (by rw [he]; simp only [List.append_assoc]) ?_
      rw [he]
      exact shows_failure hdev hth (List.forall_mem_append.2 ⟨List.forall_mem_append.2
        ⟨took_bringupBefore s, took_bringupBanks s⟩, htook.1⟩) htook.2.2 hlen

end Sys2Proof.Machine

/-! The least time from Grant to Resp (R102). -/

namespace Sys2Proof.Machine

/-! ### Every command that is answered and not reset away completes -/

/-- A granted, undisturbed command ends in its completion, from a state no earlier. -/
theorem exec_completes {i : Instr} {s t : State} {h : Nat} (g : Granted h s) (hu : Undisturbed s)
    (hx : exec i s = .next t) : ∃ u, t = complete u ∧ Kept s u := by
  obtain ⟨rule, hrule⟩ := exec_eq_runRule i s
  obtain ⟨u, hrun, hk, -, -⟩ := run_ends (E := fun _ => True) (fun _ _ _ _ => trivial) 0 hu.1 hu.2
    (blames_of_granted g _) (ms := rule)
  refine ⟨u, ?_, hk⟩
  rw [← hrun]
  exact Host.Outcome.next.inj (hx.symm.trans (hrule.trans (runRule_granted g rule)))

theorem complete_getLast {s u : State} {h : Nat} (g : Granted h s) (k : Kept s u) :
    ∃ c n d, (complete u).trace.getLast? = some (.resp h c n d (complete u).now) := by
  obtain ⟨-, htr, -, -⟩ := complete_spec (k.lock.trans g.1) (by rw [k.count]; exact g.2.1)
  exact ⟨_, _, _, by rw [htr, complete_now, List.getLast?_concat]⟩

/-- A bring-up takes the waits of its parts. -/
theorem bringup_takes {i : Instr} {s t : State} {h : Nat} (hi : i = .bringup ∨ i = .resume) (g : Granted h s)
    (hu : Undisturbed s) (hd : admits i s.ds = true) (hx : exec i s = .next t) :
    s.now + (if pinsBound s.params then 247000 else 220000) ≤ t.now := by
  obtain ⟨u, fs, hx', hm, hw, -⟩ := bringup_completes hi g hu hd (fragment_head s) (fragment_tail i s)
  obtain rfl := Host.Outcome.next.inj (hx'.symm.trans hx)
  have hdue := hm.due
  have hu' : due u = u.now := max_eq_left hw
  have htail := waits_bringupTail i s
  have hs := now_le_due s
  rw [waits_bringupHead, hu'] at hdue
  rw [complete_now]
  cases hb : pinsBound s.params <;> simp only [hb, if_true, Bool.false_eq_true, if_false] at hdue ⊢ <;> omega

/-! ### Commands that answer OK have taken every wait of their rule -/

/-- A rule that passes over no statement, and whose response is OK, took all its waits. -/
theorem rule_takes {s t : State} {h : Nat} {allowed : List DeviceState} {ms : List Micro} (g : Granted h s)
    (hu : Undisturbed s) (hm : PastCheck ms) (ho : ∀ m ∈ ms, m.onward = true)
    (hx : runRule (.require allowed :: ms) s = .next t) (hr : respAt t h = some ⟨.ok, 0, []⟩) :
    s.now + waits ms ≤ t.now := by
  have hcodes : ∀ m ∈ .require allowed :: ms, ∀ c, m.code = some c → c ≠ .ok :=
    List.forall_mem_cons.2 ⟨by rintro c ⟨⟩; decide, fun m h' c hc => ((Status.late_iff c).1 (hm m h' c hc)).2⟩
  obtain ⟨u, hrun, hk, hb, htime⟩ := run_ends hcodes 0 hu.1 hu.2 (blames_of_granted g _)
  obtain rfl := Host.Outcome.next.inj ((runRule_granted g _).symm.trans hx)
  rw [hrun, respAt_complete g hk] at hr
  have hok : u.firstErr = none := by
    cases hf : u.firstErr with
    | none => rfl
    | some e =>
      rw [responseOf_err hf] at hr
      exact absurd (congrArg Response.status (Option.some.inj hr)) (hb e hf)
  have := htime rfl (List.forall_mem_cons.2 ⟨rfl, ho⟩) hok
  have hw : waits (.require allowed :: ms) = waits ms := by simp [waits, Micro.cost]
  have hs := now_le_due s
  rw [hrun, complete_now]
  omega

/-- A rule of a state check and a raise answers no OK. -/
theorem raise_not_ok {s t : State} {h : Nat} {allowed : List DeviceState} {e : Err} (g : Granted h s)
    (hn : noReset s = true) (he : e.code ≠ .ok) (hx : runRule [.require allowed, .raise e] s = .next t) :
    respAt t h ≠ some ⟨.ok, 0, []⟩ := by
  have key : ∀ f : Err, f.code ≠ .ok → (∃ u, runRule [.require allowed, .raise e] s = .next u ∧ Rejects s u h f) →
      respAt t h ≠ some ⟨.ok, 0, []⟩ := by
    rintro f hf ⟨u, hu, -, hr, -⟩ hok
    obtain rfl := Host.Outcome.next.inj (hu.symm.trans hx)
    exact hf (congrArg Response.status (Option.some.inj (hr.symm.trans hok)))
  by_cases hd : s.ds ∈ allowed
  · exact key e he (rejects_second [] g hn hd)
  · exact key (.state s.ds) nofun (rejects_state _ g hn hd)

/-- SHUTDOWN, SUSPEND and RST_PULSE are such a raise with an unbound pin; with bound pins they wait as R82 and R83
say. -/
theorem sequence_takes {s t : State} {h n : Nat} {ms : List Micro} {e : Err} (g : Granted h s) (hu : Undisturbed s)
    (hx : runRule (.require dsForRunning :: if pinsBound s.params then ms else [.raise e]) s = .next t)
    (he : e.code ≠ .ok) (hm : PastCheck ms) (ho : ∀ m ∈ ms, m.onward = true) (hw : pinsBound s.params = true → waits ms = n)
    (hr : respAt t h = some ⟨.ok, 0, []⟩) : s.now + n ≤ t.now := by
  cases hb : pinsBound s.params with
  | false =>
    rw [hb] at hx
    exact absurd hr (raise_not_ok g hu.1 he hx)
  | true =>
    rw [hb] at hx
    exact hw hb ▸ rule_takes g hu hm ho hx hr

/-! ### No greatest time -/

/-- `s` where a tick of `n` is all that is to come. -/
def tickAhead (n : Nat) (s : State) : State := { s with env := { s.env with world := [[.tick n]] } }

/-- The state in which a tick of `n` has passed, and nobody acts. -/
def afterTick (n : Nat) (s : State) : State := tick n { s with env := { s.env with world := [] } }

/-- A run depends on the state its first micro-step is taken in. -/
theorem run_congr {s t : State} (ms : List Micro) (hs : calm s = true) (ht : calm t = true)
    (h : settled s = settled t) : run ms 0 s = run ms 0 t := by
  cases ms with
  | nil => rw [run_nil, run_nil, microStep_calm hs, microStep_calm ht, h]
  | cons m rest => rw [run_cons, run_cons, microStep_calm hs, microStep_calm ht, h]

/-- Time never goes back in a run. -/
theorem run_now {ms : List Micro} {s : State} (h : noReset s = true) : s.now ≤ (run ms 0 s).now := by
  have c : Carries ms (fun u => noReset u = true ∧ s.now ≤ u.now) (fun u => s.now ≤ u.now) := by
    constructor
    case settled => exact fun u hu _ => ⟨noReset_settled hu.1, hu.2.trans (settled_now_le hu.1)⟩
    case abandoned => exact fun u hu hc => absurd (calm_of_noReset hu.1) (by simp [hc])
    case perform => exact fun m _ u hu => ⟨(perform_works m u).noReset hu.1, hu.2.trans (perform_works m u).now.ge⟩
    case waiting =>
      intro m _ u t hu ht
      have w := perform_works m u
      rw [ht] at w
      exact hu.2.trans w.now.ge
    case log => exact fun e u hu => ⟨by simpa using hu.1, hu.2⟩
    case recover => exact fun m _ u d e t _ _ v hv _ => ⟨by simpa using hv.1, hv.2⟩
    case advance => exact fun n u hu => ⟨by simpa using hu.1, hu.2⟩
    case complete => exact fun u hu => by simpa using hu.2
  exact run_carries c 0 s ⟨h, Nat.le_refl _⟩

/-- A tick before the first micro-step delays the whole command. -/
theorem exec_delayed {s : State} {h : Nat} (i : Instr) (n : Nat) (g : Granted h s) :
    ∃ t, exec i (tickAhead n s) = .next t ∧ s.now + n ≤ t.now := by
  obtain ⟨rule, hrule⟩ := exec_eq_runRule i (tickAhead n s)
  have g' : Granted h (tickAhead n s) := g
  refine ⟨_, hrule.trans (runRule_granted g' rule), ?_⟩
  rw [run_congr (s := tickAhead n s) (t := afterTick n s) rule rfl rfl rfl]
  exact run_now (s := afterTick n s) rfl

/-- Settles O24: the waits of a rule add up along any run that takes them all (`run_ends`, `Moves.due`), and a tick may
come before the first micro-step. -/
theorem commandsTakeTheirMinimumTime : Obligations.CommandsTakeTheirMinimumTime := by
  refine ⟨?least, fun i s h n => exec_delayed i n⟩
  intro i s h t g hu hx
  obtain ⟨u, rfl, hk⟩ := exec_completes g hu hx
  refine ⟨complete_getLast g hk, by rw [complete_now]; exact hk.now, fun hi hd => bringup_takes hi g hu hd hx, ?stop, ?pulse⟩
  case stop =>
    rintro (rfl | rfl) hr
    · refine sequence_takes g hu hx (by decide) ?_ ?_ (fun _ => ?_) hr
      · simp [PastCheck, Micro.code, Status.late]
      · simp [Micro.onward]
      · simp [waits, Micro.cost, Config.tStop, Config.tSdRstPd]
    · refine sequence_takes g hu hx (by decide) ?_ ?_ (fun hb => ?_) hr
      · exact .append (by simp [PastCheck, Micro.code, Status.late, takeSnapshot]) (pastCheck_powerDown _)
      · cases hb : pinsBound s.params <;> simp [takeSnapshot, powerDown, hb, Micro.onward]
      · simp [takeSnapshot, powerDown, hb, waits, Micro.cost, Config.tStop, Config.tSdRstPd]
  case pulse =>
    rintro rfl hr
    refine sequence_takes g hu hx (by decide) ?_ ?_ (fun _ => ?_) hr
    · simp [PastCheck, Micro.code]
    · simp [Micro.onward]
    · simp [waits, Micro.cost, Config.tRstHold, Config.tRstPost]

end Sys2Proof.Machine

/-! Polarity (R84): two runs that differ in the polarities alone, side by side. -/

namespace Sys2Proof.Machine

/-! ### Two states that differ in the polarities -/

/-- `s` with other polarities, and with what they show in: the lines' levels and the trace. -/
def recast (rst pd : Bool) (pinRst pinPd : PinLevel) (tr : List Event) (s : State) : State :=
  { s with params := withPolarity s.params rst pd, pinRst, pinPd, trace := tr }

/-- `t` is `s` under the polarities `rst` and `pd`, as runs from one trace `tr` leave them: the events since then agree
when levels are read as asserted or deasserted. -/
structure Twin (p : Params) (rst pd : Bool) (tr : List Event) (s t : State) : Prop where
  params : s.params = p
  recast : ∃ a b es fs, t = Machine.recast rst pd a b (tr ++ fs) s ∧ s.trace = tr ++ es ∧
    fs.map (Event.asserted (withPolarity p rst pd)) = es.map (Event.asserted p)

section
variable {p : Params} {rst pd : Bool} {tr : List Event} {s t : State}

/-- An operation that neither reads nor writes the polarities, the lines and the trace. -/
structure Blind (f : State → State) : Prop where
  recast : ∀ rst pd a b tr s, f (Machine.recast rst pd a b tr s) = Machine.recast rst pd a b tr (f s)
  params : ∀ s, (f s).params = s.params
  trace : ∀ s, (f s).trace = s.trace

theorem Twin.blind {f : State → State} (hf : Blind f) (h : Twin p rst pd tr s t) : Twin p rst pd tr (f s) (f t) := by
  obtain ⟨hp, a, b, es, fs, rfl, ht, he⟩ := h
  exact ⟨(hf.params s).trans hp, a, b, es, fs, hf.recast .., (hf.trace s).trans ht, he⟩

/-- Events that read the same keep the traces in step. -/
theorem Twin.emit {e f : Event} (hef : f.asserted (withPolarity p rst pd) = e.asserted p) (h : Twin p rst pd tr s t) :
    Twin p rst pd tr (emit e s) (emit f t) := by
  obtain ⟨hp, a, b, es, fs, rfl, ht, he⟩ := h
  refine ⟨hp, a, b, es ++ [e], fs ++ [f], ?_, by rw [emit_trace, ht, List.append_assoc], ?_⟩
  · simp [Machine.emit, Machine.recast]
  · rw [List.map_append, List.map_append, he, List.map_singleton, List.map_singleton, hef]

/-- An event that is no Pin event reads the same under every polarity. -/
theorem asserted_of_not_pin {e : Event} (h : e.isPin = false) (q : Params) : e.asserted q = e := by
  cases e with
  | pin l v t => cases h
  | _ => rfl

/-- A field that a twin shares. -/
theorem Twin.same {α : Sort*} (get : State → α) (hg : ∀ rst pd a b tr s, get (Machine.recast rst pd a b tr s) = get s)
    (h : Twin p rst pd tr s t) : get t = get s := by
  obtain ⟨-, a, b, es, fs, rfl, -, -⟩ := h
  exact hg ..

/-- An event stamped now, and no Pin event. -/
theorem Twin.stamp {ev : Nat → Event} (hev : ∀ n, (ev n).isPin = false) (h : Twin p rst pd tr s t) :
    Twin p rst pd tr (Machine.emit (ev s.now) s) (Machine.emit (ev t.now) t) := by
  rw [h.same State.now fun _ _ _ _ _ _ => rfl]
  exact h.emit (by rw [asserted_of_not_pin (hev _), asserted_of_not_pin (hev _)])

/-! ### The other agents -/

theorem blind_tick (d : Nat) : Blind (tick d) := ⟨fun _ _ _ _ _ _ => rfl, fun _ => rfl, fun _ => rfl⟩

theorem blind_hostStageWrite (i : StageIx) (v : Byte) : Blind (hostStageWrite i v) :=
  ⟨fun _ _ _ _ _ _ => rfl, fun _ => rfl, fun _ => rfl⟩

theorem blind_issue (h : Nat) (w : Word32) : Blind (issue h w) where
  recast rst pd a b tr s := by
    have hready : issueReady (recast rst pd a b tr s) h = issueReady s h := rfl
    unfold issue
    rw [hready]
    split <;> rfl
  params s := issue_params s h w
  trace s := issue_trace s h w

theorem Twin.blockReset (h : Twin p rst pd tr s t) : Twin p rst pd tr (blockReset s) (blockReset t) := by
  obtain ⟨hp, a, b, es, fs, rfl, ht, he⟩ := h
  refine ⟨hp, .z, .z, es ++ [.reset s.now], fs ++ [.reset s.now], ?_, ?_, ?_⟩
  · rw [← List.append_assoc]; rfl
  · rw [blockReset_trace, ht, List.append_assoc]
  · rw [List.map_append, List.map_append, he]; rfl

theorem Twin.applyAct (x : Act) (h : Twin p rst pd tr s t) : Twin p rst pd tr (applyAct x s) (applyAct x t) := by
  cases x with
  | tick d => exact h.blind (blind_tick d)
  | stageWrite i v => exact h.blind (blind_hostStageWrite i v)
  | issue g w => exact h.blind (blind_issue g w)
  | reset => exact h.blockReset

theorem Twin.applyActs (acts : List Act) (h : Twin p rst pd tr s t) :
    Twin p rst pd tr (applyActs acts s) (applyActs acts t) := by
  induction acts generalizing s t with
  | nil => exact h
  | cons x rest ih => exact ih (h.applyAct x)

theorem Twin.actsNow (h : Twin p rst pd tr s t) : actsNow t = actsNow s := h.same Machine.actsNow fun _ _ _ _ _ _ => rfl

theorem Twin.agentsAct (h : Twin p rst pd tr s t) : Twin p rst pd tr (agentsAct s) (agentsAct t) := by
  have hn : Twin p rst pd tr (nextSlot s) (nextSlot t) :=
    h.blind ⟨fun _ _ _ _ _ _ => rfl, fun _ => rfl, fun _ => rfl⟩
  rw [Machine.agentsAct, Machine.agentsAct, h.actsNow]
  exact hn.applyActs _

theorem Twin.settled (h : Twin p rst pd tr s t) : Twin p rst pd tr (settled s) (settled t) :=
  h.agentsAct.blind (f := awaitTime) ⟨fun _ _ _ _ _ _ => rfl, fun _ => rfl, fun _ => rfl⟩

theorem Twin.microStep {k k' : State → State}
    (hk : ∀ u v, Twin p rst pd tr u v → Twin p rst pd tr (k u) (k' v)) (h : Twin p rst pd tr s t) :
    Twin p rst pd tr (microStep s k) (microStep t k') := by
  have hc : calm t = calm s := by rw [calm, calm, h.actsNow]
  cases hs : calm s with
  | true =>
    rw [microStep_calm hs, microStep_calm (hc.trans hs)]
    exact hk _ _ h.settled
  | false =>
    rw [microStep_reset hs, microStep_reset (hc.trans hs)]
    exact h.agentsAct

/-! ### The block's own operations -/

theorem Twin.setState (d : DeviceState) (h : Twin p rst pd tr s t) : Twin p rst pd tr (setState d s) (setState d t) := by
  have hb : Blind fun u : State => { u with ds := d } := ⟨fun _ _ _ _ _ _ => rfl, fun _ => rfl, fun _ => rfl⟩
  exact (h.blind hb).stamp (ev := .state d) fun _ => rfl

theorem Twin.logErr (e : Err) (h : Twin p rst pd tr s t) : Twin p rst pd tr (logErr e s) (logErr e t) := by
  have hb : Blind fun u : State => { u with firstErr := u.firstErr.or (some e) } :=
    ⟨fun _ _ _ _ _ _ => rfl, fun _ => rfl, fun _ => rfl⟩
  exact (h.blind hb).stamp (ev := .log e) fun _ => rfl

theorem Twin.complete (h : Twin p rst pd tr s t) : Twin p rst pd tr (complete s) (complete t) := by
  have hl : t.lock = s.lock := h.same State.lock fun _ _ _ _ _ _ => rfl
  have hr : responseOf t = responseOf s := h.same responseOf fun _ _ _ _ _ _ => rfl
  cases hs : s.lock with
  | none =>
    rw [Machine.complete, Machine.complete, hl, hs]
    exact h
  | some g =>
    simp only [Machine.complete, hl, hs, hr]
    have hb : Blind fun u : State => { u with
        hosts := u.hosts.modify g fun q => { q with resp := some (responseOf s) }, lock := none, scratch := .empty } :=
      ⟨fun _ _ _ _ _ _ => rfl, fun _ => rfl, fun _ => rfl⟩
    exact (h.blind hb).stamp (ev := .resp g _ _ _) fun _ => rfl

theorem beq_beq_cancel : ∀ a b : Bool, ((a == b) == b) = a := by decide

/-- A level reads as the assertion it was driven for, under every polarity (R19). -/
theorem asserted_lineLevel (q : Params) (l : Line) (asserted : Bool) (n : Nat) :
    (Event.pin l (lineLevel q l asserted) n).asserted q = .pin l asserted n := by
  cases l <;> simp only [Event.asserted, lineLevel, beq_beq_cancel]

theorem Twin.gpio (l : Line) (asserted : Bool) (h : Twin p rst pd tr s t) :
    Twin p rst pd tr (gpio l (lineLevel s.params l asserted) s) (gpio l (lineLevel t.params l asserted) t) := by
  have hn : t.now = s.now := h.same State.now fun _ _ _ _ _ _ => rfl
  have hev : (Event.pin l (lineLevel t.params l asserted) t.now).asserted (withPolarity p rst pd) =
      (Event.pin l (lineLevel s.params l asserted) s.now).asserted p := by
    obtain ⟨hp, a, b, es, fs, rfl, -, -⟩ := h
    have : (Machine.recast rst pd a b (tr ++ fs) s).params = withPolarity p rst pd := by rw [← hp]; rfl
    rw [this, hp, asserted_lineLevel, asserted_lineLevel, hn]
  unfold Machine.gpio
  refine Twin.emit hev ?_
  obtain ⟨hp, a, b, es, fs, rfl, ht, he⟩ := h
  cases l with
  | rst => exact ⟨hp, _, b, es, fs, rfl, ht, he⟩
  | pd => exact ⟨hp, a, _, es, fs, rfl, ht, he⟩

/-- Replies alike, from states alike. -/
inductive TwinReply (R : State → State → Prop) : Reply → Reply → Prop
  | ok (b : Bytes) {s t : State} (h : R s t) : TwinReply R (.ok b s) (.ok b t)
  | fail {s t : State} (h : R s t) : TwinReply R (.fail s) (.fail t)
  | waiting {s t : State} (h : R s t) : TwinReply R (.waiting s) (.waiting t)

theorem Twin.transact (h : Twin p rst pd tr s t) : TwinReply (Twin p rst pd tr) (transact s) (transact t) := by
  have ho : t.scratch.outstanding = s.scratch.outstanding := h.same (·.scratch.outstanding) fun _ _ _ _ _ _ => rfl
  have ha : nextAnswer t = nextAnswer s := h.same nextAnswer fun _ _ _ _ _ _ => rfl
  have hd : Twin p rst pd tr (drawn s) (drawn t) := h.blind ⟨fun _ _ _ _ _ _ => rfl, fun _ => rfl, fun _ => rfl⟩
  cases hs : s.scratch.outstanding with
  | true => rw [transact_outstanding hs, transact_outstanding (ho.trans hs)]; exact .waiting h
  | false =>
    cases hx : nextAnswer s with
    | ok b => rw [transact_ok hs hx, transact_ok (ho.trans hs) (ha.trans hx)]; exact .ok b hd
    | fail => rw [transact_fail hs hx, transact_fail (ho.trans hs) (ha.trans hx)]; exact .fail hd
    | silent =>
      rw [transact_silent hs hx, transact_silent (ho.trans hs) (ha.trans hx)]
      exact .waiting (hd.blind (f := awaiting) ⟨fun _ _ _ _ _ _ => rfl, fun _ => rfl, fun _ => rfl⟩)

theorem Twin.xfer (d : Dir) (a : Byte) (v : Bytes) (ok : Bool) (h : Twin p rst pd tr s t) :
    Twin p rst pd tr (Machine.emit (.xfer d a v ok s.now) s) (Machine.emit (.xfer d a v ok t.now) t) :=
  h.stamp (ev := .xfer d a v ok) fun _ => rfl

theorem Twin.memWrite (a : Byte) (v : Bytes) (h : Twin p rst pd tr s t) :
    TwinReply (Twin p rst pd tr) (memWrite a v s) (memWrite a v t) := by
  have hx := h.transact
  simp only [Machine.memWrite]
  cases hs : Machine.transact s <;> cases ht : Machine.transact t <;> rw [hs, ht] at hx <;> cases hx
  case ok.ok.ok h => exact .ok [] (h.xfer ..)
  case fail.fail.fail h => exact .fail (h.xfer ..)
  case waiting.waiting.waiting h => exact .waiting h

theorem Twin.memRead (a : Byte) (n : Nat) (h : Twin p rst pd tr s t) :
    TwinReply (Twin p rst pd tr) (memRead a n s) (memRead a n t) := by
  have hx := h.transact
  simp only [Machine.memRead]
  cases hs : Machine.transact s <;> cases ht : Machine.transact t <;> rw [hs, ht] at hx <;> cases hx
  case ok.ok.ok b s' t' h =>
    have hb : (readBytes n b t').1 = (readBytes n b s').1 :=
      h.same (fun u => (readBytes n b u).1) fun _ _ _ _ _ _ => rfl
    have hd : Twin p rst pd tr (readBytes n b s').2 (readBytes n b t').2 :=
      h.blind (f := fun u => (readBytes n b u).2) ⟨fun _ _ _ _ _ _ => rfl, fun _ => rfl, fun _ => rfl⟩
    dsimp only
    rw [hb]
    exact .ok _ (hd.xfer ..)
  case fail.fail.fail h => exact .fail (h.xfer ..)
  case waiting.waiting.waiting h => exact .waiting h

/-! ### Statements -/

/-- Effects alike, from states alike. -/
inductive TwinEffect (R : State → State → Prop) : Effect → Effect → Prop
  | go (n : Nat) {s t : State} (h : R s t) : TwinEffect R (.go n s) (.go n t)
  | logged (e : Err) (n : Nat) {s t : State} (h : R s t) : TwinEffect R (.logged e n s) (.logged e n t)
  | raised (r : Option DeviceState) (e : Err) {s t : State} (h : R s t) : TwinEffect R (.raised r e s) (.raised r e t)
  | waiting {s t : State} (h : R s t) : TwinEffect R (.waiting s) (.waiting t)

theorem Twin.onFailure (a : Byte) (f : OnFail) (h : Twin p rst pd tr s t) :
    TwinEffect (Twin p rst pd tr) (onFailure a f s) (onFailure a f t) := by
  cases f with
  | log => exact .logged _ _ h
  | logSkip n => exact .logged _ _ h
  | logFail n => exact .logged _ _ (h.blind ⟨fun _ _ _ _ _ _ => rfl, fun _ => rfl, fun _ => rfl⟩)
  | raise => exact .raised _ _ h
  | raiseTo d => exact .raised _ _ h

theorem blind_stageRead (i n : Nat) : Blind fun u => (stageRead i n u).2 where
  recast := by
    intro rst pd a b tr s
    have hd := (stageRead_congr (s := s) (t := Machine.recast rst pd a b tr s) rfl rfl rfl rfl i n).2
    rw [stageRead_state, stageRead_state i n s, hd]
    rfl
  params s := (stageRead_works i n s).params
  trace s := by rw [stageRead_state]; rfl

/-- A statement does the same under every polarity. -/
theorem Twin.perform (m : Micro) (h : Twin p rst pd tr s t) :
    TwinEffect (Twin p rst pd tr) (perform m s) (perform m t) := by
  have hds : t.ds = s.ds := h.same State.ds fun _ _ _ _ _ _ => rfl
  have hsc : t.scratch = s.scratch := h.same State.scratch fun _ _ _ _ _ _ => rfl
  cases m <;> simp only [Machine.perform]
  case require l =>
    rw [hds]
    split
    · exact .go _ h
    · exact .raised _ _ h
  case raise e => exact .raised _ _ h
  case log e => exact .go _ (h.logErr e)
  case setState d => exact .go _ (h.setState d)
  case unmute =>
    rw [hds]
    split
    · exact .go _ (h.setState _)
    · exact .go _ h
  case gpio l a => exact .go _ (h.gpio l a)
  case write a v f =>
    have hv : v.bytes t = v.bytes s := h.same v.bytes fun _ _ _ _ _ _ => by cases v with
      | closing k => cases k <;> rfl
      | _ => rfl
    have hx := h.memWrite a (v.bytes s)
    rw [hv]
    cases hs : Machine.memWrite a (v.bytes s) s <;> cases ht : Machine.memWrite a (v.bytes s) t <;> rw [hs, ht] at hx <;>
      cases hx
    case ok.ok.ok h => exact .go _ h
    case fail.fail.fail h => exact h.onFailure a f
    case waiting.waiting.waiting h => exact .waiting h
  case read a n =>
    have hx := h.memRead a n
    cases hs : Machine.memRead a n s <;> cases ht : Machine.memRead a n t <;> rw [hs, ht] at hx <;> cases hx
    case ok.ok.ok b s' t' h =>
      exact .go _ (h.blind (f := fun u => setBuf (u.scratch.buf ++ b) u)
        ⟨fun _ _ _ _ _ _ => rfl, fun _ => rfl, fun _ => rfl⟩)
    case fail.fail.fail h => exact .raised _ _ h
    case waiting.waiting.waiting h => exact .waiting h
  case loadStage n =>
    have hb : (stageRead 0 n t).1 = (stageRead 0 n s).1 :=
      h.same (fun u => (stageRead 0 n u).1) fun rst pd a b tr s =>
        (stageRead_congr (s := s) (t := Machine.recast rst pd a b tr s) rfl rfl rfl rfl 0 n).1
    rw [hb]
    exact .go _ ((h.blind (blind_stageRead 0 n)).blind (f := setBuf _)
      ⟨fun _ _ _ _ _ _ => rfl, fun _ => rfl, fun _ => rfl⟩)
  case parse =>
    rw [hsc]
    split
    · exact .go _ (h.blind ⟨fun _ _ _ _ _ _ => rfl, fun _ => rfl, fun _ => rfl⟩)
    · exact .raised _ _ h
  case ifOk n =>
    rw [hsc]
    exact .go _ h
  case answerBuf =>
    exact .go _ (h.blind (f := fun u => setData u.scratch.buf u) ⟨fun _ _ _ _ _ _ => rfl, fun _ => rfl, fun _ => rfl⟩)
  case answerStatus =>
    exact .go _ (h.blind (f := fun u => setData (statusData u) u) ⟨fun _ _ _ _ _ _ => rfl, fun _ => rfl, fun _ => rfl⟩)
  all_goals exact .go _ (h.blind ⟨fun _ _ _ _ _ _ => rfl, fun _ => rfl, fun _ => rfl⟩)

/-! ### Runs -/

theorem Twin.advance (n : Nat) (h : Twin p rst pd tr s t) : Twin p rst pd tr (advance n s) (advance n t) :=
  h.blind ⟨fun _ _ _ _ _ _ => rfl, fun _ => rfl, fun _ => rfl⟩

theorem Twin.abort (r : Option DeviceState) (e : Err) (h : Twin p rst pd tr s t) :
    Twin p rst pd tr (abort r e s) (abort r e t) := by
  have hlog : ∀ u v, Twin p rst pd tr u v →
      Twin p rst pd tr (Machine.microStep (Machine.logErr e u) Machine.complete)
        (Machine.microStep (Machine.logErr e v) Machine.complete) :=
    fun u v huv => (huv.logErr e).microStep fun _ _ => Twin.complete
  cases r with
  | none => exact h.microStep hlog
  | some d => exact h.microStep fun u v huv => (huv.setState d).microStep hlog

theorem Twin.run (ms : List Micro) (k : Nat) (h : Twin p rst pd tr s t) :
    Twin p rst pd tr (run ms k s) (run ms k t) := by
  induction ms generalizing k s t with
  | nil => rw [run_nil, run_nil]; exact h.microStep fun _ _ => Twin.complete
  | cons m rest ih =>
    cases k with
    | succ k => exact ih k h
    | zero =>
      rw [run_cons, run_cons]
      refine h.microStep fun u v huv => ?_
      have hx := huv.perform m
      cases hu : Machine.perform m u <;> cases hv : Machine.perform m v <;> rw [hu, hv] at hx <;> cases hx
      case go.go.go h => exact ih _ (h.advance _)
      case logged.logged.logged h =>
        exact h.microStep fun _ _ h' => ih _ ((h'.logErr _).advance _)
      case raised.raised.raised h => exact (h.advance _).abort _ _
      case waiting.waiting.waiting h => exact h

/-- A rule is the same under every polarity. -/
theorem exec_repolarized (i : Instr) (s : State) (rst pd : Bool) :
    ∃ rule, exec i s = runRule rule s ∧
      exec i { s with params := withPolarity s.params rst pd } =
        runRule rule { s with params := withPolarity s.params rst pd } := by
  cases i <;> exact ⟨_, rfl, rfl⟩

end

/-- Settles O60: the two runs are taken side by side (`Twin`), and every statement keeps them in step. -/
theorem polarityChangesLevelsOnly : Obligations.PolarityChangesLevelsOnly := by
  refine ⟨?_, fun p hb => by simp [powerUp, powerDown, resetPulse, hb]⟩
  intro i s t rst pd hx s'
  obtain ⟨rule, hrule, hrule'⟩ := exec_repolarized i s rst pd
  obtain ⟨hl, rfl⟩ := runRule_next (hrule.symm.trans hx)
  have hl' : lockHeld s' = true := hl
  have hstart : Twin s.params rst pd s.trace s s' :=
    ⟨rfl, s.pinRst, s.pinPd, [], [], by simp [recast, s'], by simp, rfl⟩
  obtain ⟨-, a, b, es, fs, hr, ht, he⟩ := hstart.run (rule.drop s.seqPc) 0
  refine ⟨_, hrule'.trans (runRule_held hl' rule), ?_⟩
  have ht' : (run (rule.drop s'.seqPc) 0 s').trace = s'.trace ++ fs := by
    rw [show s'.seqPc = s.seqPc from rfl, hr]; rfl
  rw [newEvents_append ht, newEvents_append ht', he]

end Sys2Proof.Machine

/-! The volume and clock-control decodes (R111, R112). -/

namespace Sys2Proof.Machine

/-- R111: `2 × dB = 48 - v`. -/
theorem volumeHalfDb_eq (v : Byte) : volumeHalfDb v = 48 - (v.toNat : Int) := rfl

/-- `FS` is `v[7:5]` (R112). -/
theorem getLsbD_clockFs (v : Byte) {k : Nat} (hk : k < 3) : (clockFs v).getLsbD k = v.getLsbD (5 + k) := by
  simp [clockFs, hk]

/-- `RATIO` is `v[4:2]` (R112). -/
theorem getLsbD_clockRatio (v : Byte) {k : Nat} (hk : k < 3) : (clockRatio v).getLsbD k = v.getLsbD (2 + k) := by
  simp [clockRatio, hk]

theorem sampleRateOf_eq_r44k1or48k_iff (c : BitVec 3) : sampleRateOf c = some .r44k1or48k ↔ c = 0b011 := by
  unfold sampleRateOf
  split
  case isTrue h => exact iff_of_true rfl h
  case isFalse h => exact iff_of_false nofun h

theorem mclkRatioOf_eq_fs256_iff (c : BitVec 3) : mclkRatioOf c = some .fs256 ↔ c = 0b011 := by
  unfold mclkRatioOf
  split
  case isTrue h => exact iff_of_true rfl h
  case isFalse h => exact iff_of_false (by split <;> nofun) h

/-- The test for 0b101 comes after the test for 0b011, which it does not overlap. -/
theorem mclkRatioOf_eq_fs512_iff (c : BitVec 3) : mclkRatioOf c = some .fs512 ↔ c = 0b101 := by
  unfold mclkRatioOf
  split
  case isTrue h => exact iff_of_false nofun (by rw [h]; decide)
  case isFalse =>
    split
    case isTrue h => exact iff_of_true rfl h
    case isFalse h => exact iff_of_false nofun h

/-- Settles O32: the four volume bytes are instances of the formula, and the two clock bytes are named through the
codes their fields hold. -/
theorem volumeAndClockDecode : Obligations.VolumeAndClockDecode := by
  refine ⟨volumeHalfDb_eq, ?_, ?_, ?_, ?_, fun v k hk => ⟨getLsbD_clockFs v hk, getLsbD_clockRatio v hk⟩,
    sampleRateOf_eq_r44k1or48k_iff, mclkRatioOf_eq_fs256_iff, mclkRatioOf_eq_fs512_iff, ?_, ?_, ?_, ?_⟩
  iterate 4 · rw [volumeHalfDb_eq]; decide
  · exact (sampleRateOf_eq_r44k1or48k_iff _).mpr (by decide)
  · exact (mclkRatioOf_eq_fs256_iff _).mpr (by decide)
  · exact (sampleRateOf_eq_r44k1or48k_iff _).mpr (by decide)
  · exact (mclkRatioOf_eq_fs512_iff _).mpr (by decide)

end Sys2Proof.Machine

/-! Coefficient images (R119): slices one after another give back the bytes they were cut from. -/

namespace Sys2Proof.Machine

/-- The first `k` slices of `n` bytes each are the first `n * k` bytes. -/
theorem flatten_slices (b : Bytes) (n k : Nat) :
    ((List.range k).map fun j => slice b (n * j) n).flatten = b.take (n * k) := by
  induction k with
  | zero => simp
  | succ k ih =>
    rw [List.range_succ, List.map_append, List.flatten_append, ih, Nat.mul_succ, List.take_add]
    simp [slice]

/-- Slices of `n` bytes each that use up the bytes give them back. -/
theorem flatten_slices_all {b : Bytes} {n k : Nat} (h : b.length = n * k) :
    ((List.range k).map fun j => slice b (n * j) n).flatten = b := by
  rw [flatten_slices, ← h, List.take_length]

/-- The byte strings of an EQ image, in order (R117). -/
theorem loadEq_bytes {blob : Bytes} {img : Image} (h : loadEq blob = some img) :
    img.map Prod.snd = (List.range 18).map fun j => slice blob (20 * j) 20 := by
  simp only [loadEq] at h
  split at h
  · obtain rfl := Option.some.inj h
    rfl
  · cases h

/-- The byte strings of a DRC image, in order: the three of `main` for each channel, then those of `tko` (R118). -/
theorem loadDrc_bytes {main tko : Bytes} {img : Image} (h : loadDrc main tko = some img) :
    let m := (List.range 3).map fun j => slice main (8 * j) 8
    let t := (List.range 3).map fun j => slice tko (4 * j) 4
    img.map Prod.snd = m ++ m ++ (t ++ t) := by
  simp only [loadDrc] at h
  split at h
  · obtain rfl := Option.some.inj h
    rfl
  · cases h

theorem loadDrc_some {main tko : Bytes} (hm : main.length = 24) (ht : tko.length = 12) :
    ∃ img, loadDrc main tko = some img := by
  simp [loadDrc, hm, ht, Config.drcMainBytes, Config.drcTkoBytes]

theorem eqAddrs_rising : eqAddrs.Pairwise fun a b => a.toNat < b.toNat := by decide

theorem drcAddrs_rising : drcAddrs.Pairwise fun a b => a.toNat < b.toNat := by decide

/-- Settles O36: an image's addresses are its table's, which rise, and its byte strings are consecutive slices, which
give back what they were cut from (`flatten_slices_all`). -/
theorem imagesRoundTrip : Obligations.ImagesRoundTrip := by
  constructor
  · intro blob hblob
    have hload := loadEq_some hblob
    refine ⟨_, hload, ?_, ?_⟩
    · rw [loadEq_addrs hload]; exact eqAddrs_rising
    · rw [loadEq_bytes hload]; exact flatten_slices_all hblob
  · intro main tko hmain htko
    obtain ⟨img, hload⟩ := loadDrc_some hmain htko
    have haddrs := loadDrc_addrs hload
    have hm := flatten_slices_all (n := 8) (k := 3) hmain
    have ht := flatten_slices_all (n := 4) (k := 3) htko
    refine ⟨img, hload, by rw [haddrs]; exact drcAddrs_rising, haddrs, ?_, ?_, ?_, ?_⟩ <;>
      simp only [List.map_take, List.map_drop, loadDrc_bytes hload]
    · exact hm
    · exact hm
    · exact ht
    · exact ht

end Sys2Proof.Machine

/-! The commit bracket (R122, R123) over an image of any sources: which writes it makes, whatever their results. -/

namespace Sys2Proof.Machine

/-! ### What a trace writes -/

theorem writesOf_append (es fs : List Event) : writesOf (es ++ fs) = writesOf es ++ writesOf fs :=
  List.filterMap_append

theorem writesOf_untimed (es : List Event) : writesOf (es.map Event.untimed) = writesOf es := by
  rw [writesOf, List.filterMap_map]
  refine List.filterMap_congr fun e _ => ?_
  cases e with
  | xfer d a v ok t => cases d <;> rfl
  | _ => rfl

theorem Event.isXfer_untimed (e : Event) : e.untimed.isXfer = e.isXfer := by cases e <;> rfl

theorem countP_isXfer_untimed (es : List Event) : (es.map Event.untimed).countP Event.isXfer = es.countP Event.isXfer := by
  simp only [List.countP_map, Function.comp_def, Event.isXfer_untimed]

/-- Every transaction has a result. -/
theorem results_length (es : List Event) : (results es).length = es.countP Event.isXfer := by
  rw [results, List.length_filterMap_eq_countP]
  congr 1
  funext e
  cases e <;> rfl

/-! ### A run of writes -/

/-- What a list of sources sends. -/
def sent (s : State) (img : List (Byte × Source)) : Image := img.map fun q => (q.1, q.2.bytes s)

theorem sent_append_singleton (s : State) (img : List (Byte × Source)) (q : Byte × Source) :
    sent s (img ++ [q]) = sent s img ++ [(q.1, q.2.bytes s)] := by
  simp [sent]

/-- `t` comes after `s` by the writes `ws`, whatever their results: they are the transactions of the events between,
and what any later write sends is as before. -/
structure Writes (ws : Image) (s t : State) : Prop where
  moves : ∃ es, Moves 0 none es s t ∧ writesOf es = ws ∧ es.countP Event.isXfer = ws.length
  bytes : ∀ v : Source, v.bytes t = v.bytes s

theorem Writes.trans {ws ws' : Image} {s t u : State} (a : Writes ws s t) (b : Writes ws' t u) :
    Writes (ws ++ ws') s u where
  moves := by
    obtain ⟨es, hm, hw, hc⟩ := a.moves
    obtain ⟨fs, hm', hw', hc'⟩ := b.moves
    exact ⟨es ++ fs, hm.trans hm', by rw [writesOf_append, hw, hw'],
      by rw [List.countP_append, hc, hc', List.length_append]⟩
  bytes v := (b.bytes v).trans (a.bytes v)

theorem Writes.undisturbed {ws : Image} {s t : State} (a : Writes ws s t) (h : Undisturbed s) : Undisturbed t := by
  obtain ⟨es, hm, -, -⟩ := a.moves
  exact ⟨hm.noReset, hm.answers h.2⟩

theorem sent_of_writes {ws : Image} {s t : State} (a : Writes ws s t) (img : List (Byte × Source)) :
    sent t img = sent s img :=
  List.map_congr_left fun q _ => by rw [a.bytes]

/-- The Device's next answers have the results `bs`. -/
def Answering (bs : List Bool) (s : State) : Prop := Gives s.env.thereafter bs s.env.device

/-- Each write takes one answer of the Device. -/
theorem Writes.answering {ws : Image} {s t : State} (a : Writes ws s t) {as bs : List Bool}
    (hlen : as.length = ws.length) (h : Answering (as ++ bs) s) : Answering bs t := by
  obtain ⟨es, hm, -, hc⟩ := a.moves
  rw [Answering, hm.thereafter, hm.device, results_length, hc, ← hlen]
  exact (gives_append.1 h).2

/-- The events between are the new ones of the trace. -/
theorem newEvents_of_writes {ws : Image} {s t : State} (a : Writes ws s t) :
    t.trace = s.trace ++ newEvents s t ∧ writesOf (newEvents s t) = ws ∧
      (newEvents s t).countP Event.isXfer = ws.length := by
  obtain ⟨es, hm, hw, hc⟩ := a.moves
  obtain ⟨fs, htr, hfs⟩ := hm.trace
  obtain ⟨htrace, hes⟩ := traceGains_of htr hfs
  rw [← hes, writesOf_untimed] at hw
  rw [← hes, countP_isXfer_untimed] at hc
  exact ⟨htrace, hw, hc⟩

/-- A part of a run that makes no transaction and changes nothing a write sends. -/
theorem Moves.writes {es : List Event} {s t : State} (m : Moves 0 none es s t) (hw : writesOf es = [])
    (hc : es.countP Event.isXfer = 0) (hb : ∀ v : Source, v.bytes t = v.bytes s) : Writes [] s t :=
  ⟨⟨es, m, hw, hc⟩, hb⟩

theorem settled_writes {s : State} (h : noReset s = true) : Writes [] s (settled s) :=
  (settled_moves h).writes rfl rfl (settled_bytes h)

theorem advance_writes (n : Nat) {s : State} (h : noReset s = true) : Writes [] s (advance n s) :=
  (advance_moves n h).writes rfl rfl fun v => by cases v <;> rfl

theorem setOk_writes (b : Bool) {s : State} (h : noReset s = true) : Writes [] s (setOk b s) :=
  (setOk_moves b h).writes rfl rfl fun v => by cases v <;> rfl

theorem logErr_writes (e : Err) {s : State} (h : noReset s = true) : Writes [] s (logErr e s) :=
  (logErr_moves e h).writes rfl rfl fun v => by cases v <;> rfl

theorem xfer_writes (a : Byte) (v : Bytes) (ok : Bool) {s : State} (h : noReset s = true) :
    Writes [(a, v)] s (emit (.xfer .write a v ok s.now) (drawn s)) :=
  ⟨⟨_, xfer_moves a v ok h, rfl, rfl⟩, fun v => by cases v <;> rfl⟩

/-- A write of a bracket, whatever its result: one transaction, and then what follows it, or, where it fails, what
follows the `n` statements after it. -/
theorem run_write_logFail {s : State} (a : Byte) (v : Source) (n : Nat) (rest : List Micro) (h : Undisturbed s) :
    ∃ t, run (.write a v (.logFail n) :: rest) 0 s = run (if (nextAnswer s).isOk then rest else rest.drop n) 0 t ∧
      Writes [(a, v.bytes s)] s t := by
  obtain ⟨hn, ha⟩ := h
  have hs := noReset_settled hn
  have ho : (settled s).scratch.outstanding = false := by rw [settled_scratch hn]; exact (nextAnswer_of_answers ha).1
  have hx := fun ok => (settled_writes hn).trans (xfer_writes a (v.bytes s) ok hs)
  have hnx := fun ok => (xfer_moves a (v.bytes s) ok hs).noReset
  obtain ⟨b, hb⟩ | hb := nextAnswer_cases ha
  · have hp := perform_write_ok a v (.logFail n) ho ((settled_nextAnswer hn).trans hb)
    rw [settled_bytes hn] at hp
    exact ⟨_, by simp only [run_go hn rest hp, hb, Answer.isOk, if_true],
      (hx true).trans (advance_writes 1 (hnx true))⟩
  · have hp := perform_write_fail a v (.logFail n) ho ((settled_nextAnswer hn).trans hb)
    rw [settled_bytes hn] at hp
    have hf := noReset_settled (setOk_moves false (hnx false)).noReset
    refine ⟨_, by rw [run_logged hn rest hp, run_drop, hb]; rfl, ?_⟩
    exact ((((hx false).trans (setOk_writes false (hnx false))).trans
      (settled_writes (setOk_moves false (hnx false)).noReset)).trans (logErr_writes _ hf)).trans
      (advance_writes (n + 1) (logErr_moves _ hf).noReset)

/-- A write of a bracket that the Device takes. -/
theorem run_write_taken {s : State} (a : Byte) (v : Source) (n : Nat) (rest : List Micro) (h : Undisturbed s)
    (hok : Answering [true] s) :
    ∃ t, run (.write a v (.logFail n) :: rest) 0 s = run rest 0 t ∧ Writes [(a, v.bytes s)] s t := by
  have hnext : (nextAnswer s).isOk = true := hok.1
  simpa only [hnext, if_true] using run_write_logFail a v n rest h

/-- A write of a bracket that fails passes over the statements it names. -/
theorem run_write_broken {s : State} (a : Byte) (v : Source) (skipped rest : List Micro) (h : Undisturbed s)
    (hfail : Answering [false] s) :
    ∃ t, run (.write a v (.logFail skipped.length) :: (skipped ++ rest)) 0 s = run rest 0 t ∧
      Writes [(a, v.bytes s)] s t := by
  have hnext : (nextAnswer s).isOk = false := hfail.1
  simpa only [hnext, Bool.false_eq_true, if_false, List.drop_left] using
    run_write_logFail a v skipped.length (skipped ++ rest) h

/-! ### The parts of a bracket -/

theorem answering_append {as bs : List Bool} {s : State} (h : Answering (as ++ bs) s) : Answering as s :=
  (gives_append.1 h).1

/-- The image writes up to one that does not succeed, or all of them. -/
theorem run_imageWrites_taken (pre post : List (Byte × Source)) (rest : List Micro) {s : State} (h : Undisturbed s)
    (hok : Answering (List.replicate pre.length true) s) :
    ∃ t, run (imageWrites (pre ++ post) ++ rest) 0 s = run (imageWrites post ++ rest) 0 t ∧
      Writes (sent s pre) s t := by
  induction pre generalizing s with
  | nil => exact ⟨s, rfl, (Moves.refl h.1).writes rfl rfl fun _ => rfl⟩
  | cons q pre ih =>
    obtain ⟨t, hrun, hw⟩ := run_write_taken q.1 q.2 (pre ++ post).length (imageWrites (pre ++ post) ++ rest) h
      (answering_append (bs := List.replicate pre.length true) hok)
    obtain ⟨u, hrun', hw'⟩ := ih (hw.undisturbed h) (hw.answering (as := [true]) rfl hok)
    rw [sent_of_writes hw] at hw'
    exact ⟨u, hrun.trans hrun', hw.trans hw'⟩

/-- An image write that fails passes over what is left of the image. -/
theorem run_imageWrites_broken (q : Byte × Source) (post : List (Byte × Source)) (rest : List Micro) {s : State}
    (h : Undisturbed s) (hfail : Answering [false] s) :
    ∃ t, run (imageWrites (q :: post) ++ rest) 0 s = run rest 0 t ∧ Writes [(q.1, q.2.bytes s)] s t := by
  have := run_write_broken q.1 q.2 (imageWrites post) rest h hfail
  rwa [imageWrites_length] at this

/-- The first statements of a bracket: no transaction, and then the disable write. -/
theorem run_begin (k : Kind) (img : List (Byte × Source)) (rest : List Micro) {s : State} (h : Undisturbed s) :
    ∃ t, run (bracket s.params k img ++ rest) 0 s =
        run (.write (ctrlVal s.params k false).1 (.lit (ctrlVal s.params k false).2) (.logFail (imageWrites img).length) ::
          (imageWrites img ++ closingWrite s.params k :: rest)) 0 t ∧ Writes [] s t := by
  have hs := noReset_settled h.1
  refine ⟨advance 1 (setOk true (settled s)), ?_,
    ((settled_writes h.1).trans (setOk_writes true hs)).trans (advance_writes 1 (setOk_moves true hs).noReset)⟩
  rw [← run_go h.1 _ (m := .begin) rfl, imageWrites_length]
  simp [bracket]

/-- A bracket whose disable write the Device takes comes to its image. -/
theorem run_disable_taken (k : Kind) (img : List (Byte × Source)) (rest : List Micro) {s : State} (h : Undisturbed s)
    (hok : Answering [true] s) :
    ∃ t, run (bracket s.params k img ++ rest) 0 s = run (imageWrites img ++ closingWrite s.params k :: rest) 0 t ∧
      Writes [ctrlVal s.params k false] s t := by
  obtain ⟨t, hbegin, hw⟩ := run_begin k img rest h
  obtain ⟨u, hoff, hw'⟩ := run_write_taken _ _ _ _ (hw.undisturbed h) (hw.answering (as := []) rfl hok)
  exact ⟨u, hbegin.trans hoff, hw.trans hw'⟩

/-- A bracket whose disable write fails passes over its image. -/
theorem run_disable_broken (k : Kind) (img : List (Byte × Source)) (rest : List Micro) {s : State} (h : Undisturbed s)
    (hfail : Answering [false] s) :
    ∃ t, run (bracket s.params k img ++ rest) 0 s = run (closingWrite s.params k :: rest) 0 t ∧
      Writes [ctrlVal s.params k false] s t := by
  obtain ⟨t, hbegin, hw⟩ := run_begin k img rest h
  obtain ⟨u, hoff, hw'⟩ := run_write_broken _ _ _ _ (hw.undisturbed h) (hw.answering (as := []) rfl hfail)
  exact ⟨u, hbegin.trans hoff, hw.trans hw'⟩

/-- The closing write, whatever its result, ends the bracket that has made the writes `ws` of its image. -/
theorem run_closingWrite (k : Kind) {ws : Image} (rest : List Micro) {s t : State} (h : Undisturbed s)
    (w : Writes (ctrlVal s.params k false :: ws) s t) :
    ∃ u, run (closingWrite s.params k :: rest) 0 t = run rest 0 u ∧ Writes (bracketWrites s k ws) s u := by
  obtain ⟨u, hrun, hw⟩ := run_write_logFail (switchOf s.params k).addr (.closing k) 0 rest (w.undisturbed h)
  rw [List.drop_zero, ite_self] at hrun
  rw [w.bytes] at hw
  exact ⟨u, hrun, w.trans hw⟩

/-! ### The bracket -/

/-- A bracket that no failure breaks before its closing write makes every write of its image. -/
theorem run_bracket_whole (k : Kind) (img : List (Byte × Source)) (rest : List Micro) {s : State} (h : Undisturbed s)
    (hok : Answering (List.replicate (img.length + 1) true) s) :
    ∃ t, run (bracket s.params k img ++ rest) 0 s = run rest 0 t ∧ Writes (bracketWrites s k (sent s img)) s t := by
  obtain ⟨t, hoff, hw⟩ := run_disable_taken k img rest h (answering_append (bs := List.replicate img.length true) hok)
  obtain ⟨u, himg, hw'⟩ := run_imageWrites_taken img [] (closingWrite s.params k :: rest) (hw.undisturbed h)
    (hw.answering (as := [true]) rfl hok)
  rw [List.append_nil] at himg
  rw [sent_of_writes hw] at hw'
  obtain ⟨v, hclose, hall⟩ := run_closingWrite k rest h (hw.trans hw')
  exact ⟨v, hoff.trans (himg.trans hclose), hall⟩

/-- A bracket whose disable write fails makes no write of its image. -/
theorem run_bracket_disableFails (k : Kind) (img : List (Byte × Source)) (rest : List Micro) {s : State}
    (h : Undisturbed s) (hfail : Answering [false] s) :
    ∃ t, run (bracket s.params k img ++ rest) 0 s = run rest 0 t ∧ Writes (bracketWrites s k []) s t := by
  obtain ⟨t, hoff, hw⟩ := run_disable_broken k img rest h hfail
  obtain ⟨u, hclose, hall⟩ := run_closingWrite k rest h hw
  exact ⟨u, hoff.trans hclose, hall⟩

/-- A bracket in which a write of the image fails makes the writes of its image up to that one. -/
theorem run_bracket_imageFails (k : Kind) (pre : List (Byte × Source)) (q : Byte × Source)
    (post : List (Byte × Source)) (rest : List Micro) {s : State} (h : Undisturbed s)
    (hfail : Answering (List.replicate (pre.length + 1) true ++ [false]) s) :
    ∃ t, run (bracket s.params k (pre ++ q :: post) ++ rest) 0 s = run rest 0 t ∧
      Writes (bracketWrites s k (sent s (pre ++ [q]))) s t := by
  have hok : Answering (true :: List.replicate pre.length true) s := answering_append hfail
  obtain ⟨t, hoff, hw⟩ := run_disable_taken k (pre ++ q :: post) rest h
    (answering_append (bs := List.replicate pre.length true) hok)
  obtain ⟨u, hpre, hw'⟩ := run_imageWrites_taken pre (q :: post) (closingWrite s.params k :: rest) (hw.undisturbed h)
    (hw.answering (as := [true]) rfl hok)
  have hu := hw.trans hw'
  obtain ⟨v, hq, hw''⟩ := run_imageWrites_broken q post (closingWrite s.params k :: rest) (hu.undisturbed h)
    (hu.answering (by simp [sent]) hfail)
  rw [hu.bytes] at hw''
  have hv := hu.trans hw''
  rw [sent_of_writes hw, List.append_assoc, ← sent_append_singleton] at hv
  obtain ⟨x, hclose, hall⟩ := run_closingWrite k rest h hv
  exact ⟨x, hoff.trans (hpre.trans (hq.trans hclose)), hall⟩

/-! ### What the Device answers -/

/-- A Device that always succeeds gives success as often as it is asked. -/
theorem answering_of_succeeds {s : State} (h : succeeds s = true) (n : Nat) : Answering (List.replicate n true) s := by
  induction n generalizing s with
  | zero => trivial
  | succ n ih =>
    obtain ⟨hd, b, hb, -⟩ := transact_succeeds h
    exact ⟨congrArg Answer.isOk hb, ih hd⟩

theorem answering_of_fail {s : State} (h : nextAnswer s = .fail) : Answering [false] s :=
  ⟨congrArg Answer.isOk h, trivial⟩

/-- A script of successes and then a failure. -/
theorem answering_of_device {s : State} {oks : List Bytes} {later : List Answer}
    (h : s.env.device = oks.map .ok ++ .fail :: later) :
    Answering (List.replicate oks.length true ++ [false]) s := by
  rw [Answering, gives_append, h]
  refine ⟨gives_oks _ oks _, ?_⟩
  rw [List.length_replicate, ← List.length_map (f := Answer.ok), List.drop_left]
  exact ⟨rfl, trivial⟩

/-! ### The claim -/

theorem loadEq_length {blob : Bytes} {img : Image} (h : loadEq blob = some img) : img.length = 18 := by
  rw [← List.length_map (f := Prod.fst), loadEq_addrs h]; rfl

theorem loadDrc_length {main tko : Bytes} {img : Image} (h : loadDrc main tko = some img) : img.length = 12 := by
  rw [← List.length_map (f := Prod.fst), loadDrc_addrs h]; rfl

/-- The transactions a bracket adds to the trace, two more than the writes of its image that it makes. -/
theorem bracket_newEvents {k : Kind} {img : List (Byte × Source)} {s t : State}
    (a : Writes (bracketWrites s k (sent s img)) s t) :
    t.trace = s.trace ++ newEvents s t ∧ writesOf (newEvents s t) = bracketWrites s k (sent s img) ∧
      (newEvents s t).countP Event.isXfer = img.length + 2 := by
  have hlen : (bracketWrites s k (sent s img)).length = img.length + 2 := by simp [bracketWrites, sent]
  exact hlen ▸ newEvents_of_writes a

/-- Settles O39: each write of a bracket is one transaction whatever its result (`run_write_logFail`), and its result
alone decides whether the rest of the image follows. -/
theorem bracketShape : Obligations.BracketShape := by
  refine ⟨?whole, ?disableFails, ?imageFails, fun blob img => loadEq_length, fun main tko img => loadDrc_length, rfl, rfl⟩
  case whole =>
    intro s k img rest hs
    obtain ⟨t, hrun, hw⟩ := run_bracket_whole k img rest ⟨hs.1, answers_of_succeeds hs.2⟩ (answering_of_succeeds hs.2 _)
    exact ⟨t, hrun, bracket_newEvents hw⟩
  case disableFails =>
    intro s k img rest hu hfail
    obtain ⟨t, hrun, hw⟩ := run_bracket_disableFails k img rest hu (answering_of_fail hfail)
    exact ⟨t, hrun, bracket_newEvents (img := []) hw⟩
  case imageFails =>
    intro s k img rest i oks later hu hi hlen hdev
    have hpre : (img.take i).length = i := List.length_take_of_le hi.le
    have hsplit : img.take i ++ img[i] :: img.drop (i + 1) = img := by
      rw [← List.drop_eq_getElem_cons hi, List.take_append_drop]
    have hans := answering_of_device hdev
    rw [hlen, ← hpre] at hans
    obtain ⟨t, hrun, hw⟩ := run_bracket_imageFails k (img.take i) img[i] (img.drop (i + 1)) rest hu hans
    rw [hsplit] at hrun
    rw [← List.take_succ_eq_append_getElem hi] at hw
    have hshape := bracket_newEvents hw
    rw [List.length_take_of_le hi] at hshape
    exact ⟨t, hrun, hshape⟩

end Sys2Proof.Machine

/-! Rejected banks (R120): a check that fails before a commit begins. -/

namespace Sys2Proof.Machine

/-! ### Bring-up -/

theorem drcAtBringup_rejected {p : Params} (h : platformDrc p = none) : drcAtBringup p = [.log .configDrc] := by
  simp only [drcAtBringup, h]

theorem eqAtBringup_rejected {p : Params} {i : Byte} (h : platformEq p i = none) :
    eqAtBringup p i = [.log (.configEq i)] := by
  simp only [eqAtBringup, h]

/-! ### SELECT_PRESET -/

theorem presetOperand_wrongLength {p : Params} {a : Byte} {q : Preset} (hq : p.cfg.presets[a.toNat]? = some q)
    (hl : q.blob.length ≠ 360) : presetOperand p a = .error (.configEq a) := by
  simp [presetOperand, hq, hl, Config.eqBlobBytes]

theorem selectPresetRule_rejected {p : Params} {a : Byte} {e : Err} (h : presetOperand p a = .error e) :
    selectPresetRule p a = [.require dsForRunning, .raise e] := by
  simp only [selectPresetRule, h]

/-! ### PATCH_APPLY -/

/-- `t` is `s` in every field of the block but its locals and its place in the rule. -/
structure Untouched (s t : State) : Prop where
  lock : t.lock = s.lock
  count : t.hosts.length = s.hosts.length
  firstErr : t.firstErr = s.firstErr
  trace : t.trace = s.trace
  ds : t.ds = s.ds
  eqEnabled : t.eqEnabled = s.eqEnabled
  eqPreset : t.eqPreset = s.eqPreset
  pinRst : t.pinRst = s.pinRst
  pinPd : t.pinPd = s.pinPd
  snapValid : t.snapValid = s.snapValid
  snap : t.snap = s.snap
  params : t.params = s.params
  waitUntil : t.waitUntil = s.waitUntil
  cur : t.cur = s.cur

theorem Untouched.trans {s t u : State} (a : Untouched s t) (b : Untouched t u) : Untouched s u where
  lock := b.lock.trans a.lock
  count := b.count.trans a.count
  firstErr := b.firstErr.trans a.firstErr
  trace := b.trace.trans a.trace
  ds := b.ds.trans a.ds
  eqEnabled := b.eqEnabled.trans a.eqEnabled
  eqPreset := b.eqPreset.trans a.eqPreset
  pinRst := b.pinRst.trans a.pinRst
  pinPd := b.pinPd.trans a.pinPd
  snapValid := b.snapValid.trans a.snapValid
  snap := b.snap.trans a.snap
  params := b.params.trans a.params
  waitUntil := b.waitUntil.trans a.waitUntil
  cur := b.cur.trans a.cur

theorem settled_untouched {s : State} (h : noReset s = true) : Untouched s (settled s) := by
  have p := (settled_spec (calm_of_noReset h)).passes
  exact ⟨p.lock, p.count, p.firstErr, p.trace, p.ds, p.eqEnabled, p.eqPreset, p.pinRst, p.pinPd, p.snapValid, p.snap,
    p.params, p.waitUntil, p.cur⟩

theorem advance_untouched (n : Nat) (s : State) : Untouched s (advance n s) := by constructor <;> rfl

theorem setBuf_untouched (b : Bytes) (n : Nat) (s : State) : Untouched s (setBuf b (withDraws n s)) := by
  constructor <;> rfl

/-- A granted command that raises with nothing of the block touched before rejects its word. -/
theorem Untouched.rejects {s u : State} {h : Nat} {e : Err} (a : Untouched s u) (g : Granted h s)
    (hn : noReset u = true) : Rejects s (abort none e u) h e := by
  obtain ⟨hl, hh, -, hf, -⟩ := g
  exact abort_rejects (a.lock.trans hl) (a.count ▸ hh) hn (a.firstErr.trans hf) a.trace a.ds a.eqEnabled a.eqPreset
    a.pinRst a.pinPd a.snapValid a.snap a.params a.waitUntil a.cur

@[simp] theorem noReset_withDraws (n : Nat) (s : State) : noReset (withDraws n s) = noReset s := noReset_congr rfl

/-- Where nothing but time passes a stage read made in the settled state gives the bytes of the state before. -/
theorem stageRead_settled {s : State} (h : onlyTime s = true) (i n : Nat) :
    (stageRead i n (settled s)).1 = (stageRead i n s).1 := by
  have hn := noReset_of_onlyTime h
  have ticks := settled_ticks h
  exact (stageRead_congr (settled_lock hn) (by simp [ticks.hosts]) (by simp [ticks.stage]) (settled_draws hn) i n).1

/-- The text a statement `loadStage` reads, where nothing but time passes, with nothing else of the block touched. -/
theorem run_loadStage {s : State} (n : Nat) (rest : List Micro) (h : onlyTime s = true) :
    ∃ t, run (.loadStage n :: rest) 0 s = run rest 0 t ∧ t.scratch.buf = (stageRead 0 n s).1 ∧
      noReset t = true ∧ Untouched s t := by
  have hn := noReset_of_onlyTime h
  have hp : perform (.loadStage n) (settled s) = .go 0 (setBuf (stageRead 0 n s).1
      (withDraws (stageRead 0 n (settled s)).2.env.draws (settled s))) := by
    simp only [perform, ← stageRead_state, stageRead_settled h]
  exact ⟨_, run_go hn rest hp, rfl, by simpa using noReset_settled hn,
    ((settled_untouched hn).trans (setBuf_untouched _ _ _)).trans (advance_untouched 1 _)⟩

/-- A text that does not parse raises. -/
theorem run_parse_error {s : State} {a : Byte} (rest : List Micro) (h : noReset s = true)
    (hp : parsePatch s.scratch.buf = .error a) :
    run (.parse :: rest) 0 s = abort none (.patchParse a) (advance (rest.length + 1) (settled s)) :=
  run_raised h rest (by simp only [perform, settled_scratch h, hp])

theorem textOperand_ok {l : Half} (h1 : 1 ≤ l.toNat) (h2 : l.toNat ≤ 4096) : textOperand l = .ok l.toNat := by
  simp [textOperand, h1, h2, Config.stageBytes]

theorem patchApplyRule_admitted {p : Params} {l : Half} {n : Nat} (h : textOperand l = .ok n) :
    patchApplyRule p l = .require dsForRunning :: .loadStage n :: .parse :: muteGuard p := by
  simp only [patchApplyRule, h]
  rfl

/-- PATCH_APPLY of a text that does not parse is rejected before its mute guard (R130). -/
theorem patchApply_rejects {s : State} {h n : Nat} {a : Byte} (rest : List Micro) (g : Granted h s)
    (ht : onlyTime s = true) (hd : s.ds ∈ dsForRunning) (hp : parsePatch (stageRead 0 n s).1 = .error a) :
    Rejects s (run (.require dsForRunning :: .loadStage n :: .parse :: rest) 0 s) h (.patchParse a) := by
  have hn := noReset_of_onlyTime ht
  have hgate : Untouched s (advance 1 (settled s)) := (settled_untouched hn).trans (advance_untouched 1 _)
  have hta : onlyTime (advance 1 (settled s)) = true := onlyTime_settled ht
  obtain ⟨t, hload, hbuf, hnt, hread⟩ := run_loadStage n (.parse :: rest) hta
  have hadv := (stageRead_congr (s := settled s) (t := advance 1 (settled s)) rfl rfl rfl rfl 0 n).1
  rw [run_admitted _ hn hd, hload, run_parse_error rest hnt (by rw [hbuf, hadv, stageRead_settled ht, hp])]
  exact (((hgate.trans hread).trans (settled_untouched hnt)).trans (advance_untouched _ _)).rejects g
    (by simpa using noReset_settled hnt)

/-- Settles O38: a bank that fails its check leaves no bracket in the rule of bring-up (`drcAtBringup_rejected`,
`eqAtBringup_rejected`) and raises before the first write in SELECT_PRESET and PATCH_APPLY. -/
theorem rejectedBankMakesNoTransaction : Obligations.RejectedBankMakesNoTransaction := by
  refine ⟨?drc, ?eq, ?preset, ?patch⟩
  case drc =>
    intro s rest hn hbank
    rw [drcAtBringup_rejected hbank]
    obtain ⟨t, τ, hrun, -, htrace, hds, -⟩ := run_log hn .configDrc rest
    exact ⟨t, τ, hrun, htrace, hds⟩
  case eq =>
    intro s i rest hn hbank
    rw [eqAtBringup_rejected hbank]
    obtain ⟨t, τ, hrun, -, htrace, hds, -⟩ := run_log hn (.configEq i) rest
    exact ⟨t, τ, hrun, htrace, hds⟩
  case preset =>
    intro s h a q g hn hd hq hl
    have hrule := selectPresetRule_rejected (presetOperand_wrongLength hq hl)
    obtain ⟨t, hrun, hrej⟩ := rejects_second (e := .configEq a) [] g hn ((mem_dsForRunning _).2 hd)
    exact ⟨t, by rw [← hrun, ← hrule]; rfl, hrej⟩
  case patch =>
    intro s h l a g ht hd h1 h2 hp
    have hrule := patchApplyRule_admitted (p := s.params) (textOperand_ok h1 h2)
    refine ⟨_, ?_, patchApply_rejects (muteGuard s.params) g ht ((mem_dsForRunning _).2 hd) hp⟩
    rw [← hrule]
    exact runRule_granted g _

end Sys2Proof.Machine

/-! STATUS (R139, R140): what the one statement of its rule leaves for completion, and the fields of its data. -/

namespace Sys2Proof.Machine

/-! ### The data (R140) -/

/-- Byte 0 of the data: the state code, with bits 7:3 reserved. -/
def statusByte0 (s : State) : Byte := s.ds.code.setWidth 8

/-- Byte 1 of the data: `snap_valid` above `eq_enabled`, with bits 7:2 reserved. -/
def statusByte1 (s : State) : Byte := flagByte s.eqEnabled ||| flagByte s.snapValid <<< 1

theorem statusData_eq (s : State) : statusData s = [statusByte0 s, statusByte1 s, s.eqPreset, 0] := rfl

theorem statusByte0_reserved (s : State) : (statusByte0 s).extractLsb' 3 5 = 0 := by
  ext k hk
  simp [statusByte0]

theorem statusByte0_ds (s : State) : (statusByte0 s).extractLsb' 0 3 = s.ds.code := by
  ext k hk
  simp [statusByte0, hk, show k < 8 by omega]

theorem getLsbD_flagByte (b : Bool) (k : Nat) : (flagByte b).getLsbD k = (decide (k = 0) && b) := by
  cases k <;> simp [flagByte]

/-- Bit 0 is `eq_enabled`, bit 1 is `snap_valid`, and no other bit of byte 1 is set. -/
theorem getLsbD_statusByte1 (s : State) (k : Nat) :
    (statusByte1 s).getLsbD k = (decide (k = 0) && s.eqEnabled || decide (k = 1) && s.snapValid) := by
  simp only [statusByte1, BitVec.getLsbD_or, BitVec.getLsbD_shiftLeft, getLsbD_flagByte]
  match k with
  | 0 | 1 | k + 2 => simp

theorem statusByte1_eqEnabled (s : State) : (statusByte1 s).getLsbD 0 = s.eqEnabled := by
  rw [getLsbD_statusByte1]; simp

theorem statusByte1_snapValid (s : State) : (statusByte1 s).getLsbD 1 = s.snapValid := by
  rw [getLsbD_statusByte1]; simp

theorem statusByte1_reserved (s : State) : (statusByte1 s).extractLsb' 2 6 = 0 := by
  ext k hk
  simp [getLsbD_statusByte1, show 2 + k ≠ 1 by omega]

/-! ### The run (R139) -/

/-- STATUS answers OK with `statusData`, emits its Resp event alone, and leaves every field of the block as it was. -/
theorem exec_status {s : State} {h : Nat} (g : Granted h s) (hn : noReset s = true) :
    ∃ t, exec .status s = .next t ∧ OnlyResponds s t ∧ respAt t h = some ⟨.ok, 0, statusData s⟩ ∧
      TraceGains s t [.resp h .ok 0 (statusData s) 0] := by
  have hq : quiet statusRule 0 (still s) = .done (still (setData (statusData s) (still s))) := rfl
  obtain ⟨t, hrun, hlock, hresp, htrace, hds, hen, hpreset, hrst, hpd, hvalid, hsnap, hparams, hcur, hwait⟩ :=
    runRule_quiet (es := []) g hn (by simp [statusRule, Micro.offStage]) hq (by simp [Function.comp_def])
  have hok : responseOf (still (setData (statusData s) (still s))) = ⟨.ok, 0, statusData s⟩ := by
    obtain ⟨-, -, -, hfirst, -⟩ := g
    exact responseOf_ok hfirst
  rw [hok] at hresp htrace
  exact ⟨t, hrun, ⟨hds, hen, hpreset, hrst, hpd, hvalid, hsnap, hparams,
    hwait (by simp [statusRule, Micro.prompt]), hcur, hlock⟩, hresp, htrace⟩

/-- Settles O50: the response carries `statusData` (`exec_status`), whose bytes hold the fields of R140's table bit by
bit. -/
theorem statusReportsTheBlock : Obligations.StatusReportsTheBlock := by
  refine ⟨fun s h g hn => ?_, rfl⟩
  obtain ⟨t, hrun, honly, hresp, htrace⟩ := exec_status g hn
  rw [statusData_eq] at hresp htrace
  exact ⟨t, statusByte0 s, statusByte1 s, s.eqPreset, 0, hrun, honly, hresp, htrace, statusByte0_reserved s,
    statusByte0_ds s, statusByte1_reserved s, statusByte1_snapValid s, statusByte1_eqEnabled s, rfl, rfl⟩

end Sys2Proof.Machine

/-! Encoding and decoding undo each other (R69, R70, R80): a command is its row with the operands that stand in the
word's fields. -/

namespace Sys2Proof

/-! ### The operands of a word -/

/-- The command of the opcode `opc` with the fields of `w` as its operands (R68, R69). -/
def Instr.ofOpcode (w : Word32) (opc : Byte) : Option Instr :=
  match opc.toNat with
  | 0x01 => some .bringup
  | 0x02 => some .shutdown
  | 0x03 => some .rstPulse
  | 0x04 => some .suspend
  | 0x05 => some .resume
  | 0x10 => some (.regRead (aField w) (lField w))
  | 0x11 => some (.regWrite (aField w) (lField w))
  | 0x20 => some (.setEnabled (eField w))
  | 0x21 => some (.selectPreset (aField w))
  | 0x22 => some (.patchApply (lField w))
  | 0x30 => some .status
  | _ => none

/-- A word decodes to the command of its row's opcode, with the word's fields as operands. -/
theorem ofOpcode_of_decode {w : Word32} {i : Instr} (h : decode w = .ok i) :
    Instr.ofOpcode w (opcField i.row.value) = some i := by
  revert h
  fun_cases decode w
  case case12 => nofun
  all_goals (rintro ⟨⟩; rfl)

/-! ### The word of an opcode with its operands, as a number -/

theorem toNat_fieldAt {k : Nat} (v : BitVec k) (n : Nat) (h : k + n ≤ 32) :
    (fieldAt v n).toNat = v.toNat * 2 ^ n := by
  have hv : v.toNat * 2 ^ n < 2 ^ 32 :=
    calc v.toNat * 2 ^ n < 2 ^ k * 2 ^ n := Nat.mul_lt_mul_of_pos_right v.isLt (by positivity)
      _ = 2 ^ (k + n) := (Nat.pow_add ..).symm
      _ ≤ 2 ^ 32 := Nat.pow_le_pow_right (by decide) h
  have hk : v.toNat < 2 ^ 32 := v.isLt.trans_le (Nat.pow_le_pow_right (by decide) (by omega))
  rw [fieldAt, BitVec.toNat_shiftLeft, BitVec.toNat_setWidth, Nat.mod_eq_of_lt hk, Nat.shiftLeft_eq,
    Nat.mod_eq_of_lt hv]

/-- A field put above what is there adds its value in its place. -/
theorem toNat_or_fieldAt {k : Nat} (w : Word32) (v : BitVec k) (n : Nat) (h : k + n ≤ 32) (hw : w.toNat < 2 ^ n) :
    (w ||| fieldAt v n).toNat = w.toNat + v.toNat * 2 ^ n := by
  rw [BitVec.toNat_or, toNat_fieldAt v n h, ← Nat.shiftLeft_eq, Nat.lor_comm, ← Nat.shiftLeft_add_eq_or_of_lt hw,
    Nat.add_comm]

/-- An opcode with its `A` operand (R67). -/
theorem toNat_word_a {v : Word32} (hv : v.toNat < 256) (a : Byte) :
    (v ||| fieldAt a 8).toNat = v.toNat + 256 * a.toNat := by
  rw [toNat_or_fieldAt v a 8 (by decide) hv]; omega

/-- An opcode with its `L` operand (R67). -/
theorem toNat_word_l {v : Word32} (hv : v.toNat < 256) (l : Half) :
    (v ||| fieldAt l 16).toNat = v.toNat + 65536 * l.toNat := by
  rw [toNat_or_fieldAt v l 16 (by decide) (by omega)]; omega

/-- An opcode with both. -/
theorem toNat_word_al {v : Word32} (hv : v.toNat < 256) (a : Byte) (l : Half) :
    (v ||| fieldAt a 8 ||| fieldAt l 16).toNat = v.toNat + 256 * a.toNat + 65536 * l.toNat := by
  have ha := toNat_word_a hv a
  rw [toNat_or_fieldAt _ l 16 (by decide) (by omega), ha]; omega

theorem toNat_aField (w : Word32) : (aField w).toNat = w.toNat / 256 % 256 := by
  simp [aField, Nat.shiftRight_eq_div_pow]

theorem toNat_lField (w : Word32) : (lField w).toNat = w.toNat / 65536 := by
  have := w.isLt
  simp only [lField, BitVec.extractLsb'_toNat, Nat.shiftRight_eq_div_pow]
  omega

/-- The operands of an encoded command stand in its word's fields. -/
theorem ofOpcode_encode (i : Instr) : Instr.ofOpcode (encode i) (opcField i.row.value) = some i := by
  have ha : ∀ {w : Word32} {a : Byte}, w.toNat / 256 % 256 = a.toNat → aField w = a := fun h =>
    BitVec.eq_of_toNat_eq ((toNat_aField _).trans h)
  have hl : ∀ {w : Word32} {l : Half}, w.toNat / 65536 = l.toNat → lField w = l := fun h =>
    BitVec.eq_of_toNat_eq ((toNat_lField _).trans h)
  cases i
  case regRead a l =>
    have hw := toNat_word_al (v := rowRegRead.value) (by decide) a l
    exact congrArg some (congrArg₂ _ (ha (by rw [encode, hw]; simp [rowRegRead]; omega))
      (hl (by rw [encode, hw]; simp [rowRegRead]; omega)))
  case regWrite a l =>
    have hw := toNat_word_al (v := rowRegWrite.value) (by decide) a l
    exact congrArg some (congrArg₂ _ (ha (by rw [encode, hw]; simp [rowRegWrite]; omega))
      (hl (by rw [encode, hw]; simp [rowRegWrite]; omega)))
  case setEnabled e => cases e <;> rfl
  case selectPreset a =>
    have hw := toNat_word_a (v := rowSelectPreset.value) (by decide) a
    exact congrArg some (congrArg _ (ha (by rw [encode, hw]; simp [rowSelectPreset]; omega)))
  case patchApply l =>
    have hw := toNat_word_l (v := rowPatchApply.value) (by decide) l
    exact congrArg some (congrArg _ (hl (by rw [encode, hw]; simp [rowPatchApply]; omega)))
  all_goals rfl

/-- The word of a command lies in its row. -/
theorem matchesWord_encode (i : Instr) : i.row.matchesWord (encode i) = true := by
  rw [Row.matchesWord, beq_iff_eq]
  cases i
  case bringup => exact Laws.EncodeInRow.bringup
  case shutdown => exact Laws.EncodeInRow.shutdown
  case rstPulse => exact Laws.EncodeInRow.rstPulse
  case suspend => exact Laws.EncodeInRow.suspend
  case resume => exact Laws.EncodeInRow.resume
  case regRead a l => exact Laws.EncodeInRow.regRead a l
  case regWrite a l => exact Laws.EncodeInRow.regWrite a l
  case setEnabled e => exact Laws.EncodeInRow.setEnabled e
  case selectPreset a => exact Laws.EncodeInRow.selectPreset a
  case patchApply l => exact Laws.EncodeInRow.patchApply l
  case status => exact Laws.EncodeInRow.status

/-- Settles O2: the word of `i` lies in its row alone, so it decodes to a command of that row, and both that command and
`i` are the row's opcode with the fields of the word (`ofOpcode_of_decode`, `ofOpcode_encode`). -/
theorem decodeInvertsEncode : Obligations.DecodeInvertsEncode := by
  intro i
  have hi := matchesWord_encode i
  obtain ⟨j, hj⟩ := (decode_ok_iff _).2 ⟨i.row, i.row_mem_opcodeRows, hi⟩
  have hrow : j.row = i.row :=
    matchingRow_unique j.row_mem_opcodeRows i.row_mem_opcodeRows (matchesWord_of_decode hj) hi
  have hop := ofOpcode_of_decode hj
  rw [hrow, ofOpcode_encode i] at hop
  rw [hj, Option.some.inj hop]

/-! ### A legal word is the word of its command -/

/-- An `A` operand put back in its field. -/
theorem fieldAt_aField (w : Word32) : fieldAt (aField w) 8 = w &&& 0x0000FF00 := by
  refine Laws.word_ext fun k hk => ?_
  interval_cases k <;> simp [fieldAt, aField]

/-- An `L` operand put back in its field. -/
theorem fieldAt_lField (w : Word32) : fieldAt (lField w) 16 = w &&& 0xFFFF0000 := by
  refine Laws.word_ext fun k hk => ?_
  interval_cases k <;> simp [fieldAt, lField]

/-- The enable flag put back in its bit. -/
theorem fieldAt_eField (w : Word32) : fieldAt (BitVec.ofBool (eField w)) 8 = w &&& 0x00000100 := by
  refine Laws.word_ext fun k hk => ?_
  interval_cases k <;> simp [fieldAt, eField]

/-- A row that fixes the bits `m` and leaves the others to operands gives back the word it matches. -/
theorem value_or_operands {r : Row} {w m : Word32} (h : r.matchesWord w = true) (hm : r.mask ||| m = BitVec.allOnes 32) :
    r.value ||| w &&& m = w := by
  rw [← beq_iff_eq.1 h, ← BitVec.and_or_distrib_left, hm, BitVec.and_allOnes]

/-- A row that fixes every bit matches one word. -/
theorem eq_of_matchesWord {r : Row} {w : Word32} (hr : r.mask = BitVec.allOnes 32) (h : r.matchesWord w = true) :
    r.value = w := by
  rw [← beq_iff_eq.1 h, hr, BitVec.and_allOnes]

/-- Settles O3: the row of a legal word fixes the bits that are no operand's (`value_or_operands`), and `encode` puts the
operands back where `decode` took them from. -/
theorem encodeInvertsDecode : Obligations.EncodeInvertsDecode := by
  intro w i h
  have hm := matchesWord_of_decode h
  have hop := ofOpcode_of_decode h
  cases i
  case regRead a l =>
    obtain ⟨rfl, rfl⟩ := Instr.regRead.inj (Option.some.inj hop)
    rw [encode, fieldAt_aField, fieldAt_lField, BitVec.or_assoc, ← BitVec.and_or_distrib_left]
    exact value_or_operands hm (by decide)
  case regWrite a l =>
    obtain ⟨rfl, rfl⟩ := Instr.regWrite.inj (Option.some.inj hop)
    rw [encode, fieldAt_aField, fieldAt_lField, BitVec.or_assoc, ← BitVec.and_or_distrib_left]
    exact value_or_operands hm (by decide)
  case setEnabled e =>
    obtain rfl := Instr.setEnabled.inj (Option.some.inj hop)
    rw [encode, fieldAt_eField]
    exact value_or_operands hm (by decide)
  case selectPreset a =>
    obtain rfl := Instr.selectPreset.inj (Option.some.inj hop)
    rw [encode, fieldAt_aField]
    exact value_or_operands hm (by decide)
  case patchApply l =>
    obtain rfl := Instr.patchApply.inj (Option.some.inj hop)
    rw [encode, fieldAt_lField]
    exact value_or_operands hm (by decide)
  all_goals exact eq_of_matchesWord rfl hm

/-! ### Worked encodings -/

theorem decode_of_encode {w : Word32} {i : Instr} (h : encode i = w) : decode w = .ok i := h ▸ decodeInvertsEncode i

/-- Settles O1: the six legal words are the words of their commands; the two illegal ones lie in no row. -/
theorem workedEncodingsDecode : Obligations.WorkedEncodingsDecode := by
  refine ⟨decode_of_encode ?_, decode_of_encode ?_, decode_of_encode ?_, decode_of_encode ?_, decode_of_encode ?_,
    decode_of_encode ?_, ?_, ?_⟩ <;> decide

end Sys2Proof

/-! Invariants of single states: what every act, grant, statement and completion keeps, every step keeps. -/

namespace Sys2Proof.Machine

/-! ### The induction over a step, said once -/

/-- A predicate that no part of a step breaks, wherever in a command it is taken. -/
structure Invariant (I : State → Prop) : Prop where
  act : ∀ a s, I s → I (applyAct a s)
  slot : ∀ s, I s → I (nextSlot s)
  time : ∀ s, I s → I (awaitTime s)
  grant : ∀ h w s, h < s.hosts.length → I s → I (grant h w s)
  work : ∀ s t, Works s t → I s → I t
  complete : ∀ s, I s → I (complete s)

namespace Invariant

variable {I : State → Prop} (v : Invariant I)
include v

theorem agentsAct {s : State} (h : I s) : I (agentsAct s) :=
  List.foldlRecOn (actsNow s) _ (v.slot s h) fun _ hu a _ => v.act a _ hu

theorem settled {s : State} (h : I s) : I (settled s) := v.time _ (v.agentsAct h)

theorem carries (ms : List Micro) : Carries ms I I where
  settled _ h _ := v.settled h
  abandoned _ h _ := v.agentsAct h
  perform m _ s h := v.work _ _ (perform_works m s) h
  waiting m _ s t h ht := by
    have w := perform_works m s
    rw [ht] at w
    exact v.work _ _ w h
  log e s h := v.work _ _ (logErr_works e s) h
  recover _ _ _ d _ _ _ _ u h _ := v.work _ _ (setState_works d u) h
  advance n s h := v.work _ _ (advance_works n s) h
  complete s h := v.complete s h

theorem execWord {w : Word32} {s t : State} (h : I s) (ht : execWord w s = .next t) : I t := by
  obtain ⟨rule, hrule⟩ := execWord_eq_runRule w s
  obtain ⟨-, rfl⟩ := runRule_next (hrule.symm.trans ht)
  exact run_carries (v.carries _) 0 s h

theorem step {s t : State} (h : I s) (ht : step s = .next t) : I t := by
  obtain ⟨-, -, hx⟩ | ⟨-, rfl⟩ | ⟨g, w, -, hn, hx⟩ := step_next ht
  · exact v.execWord h hx
  · exact v.agentsAct h
  · obtain ⟨p, hp, -⟩ := nextCommand_some hn
    have hg : g < (Machine.settled s).hosts.length := (List.getElem?_eq_some_iff.1 hp).1
    exact v.execWord (v.grant g w _ hg (v.settled h)) hx

end Invariant

/-! ### Stamps (R62) -/

theorem stampsSorted_append {tr es : List Event} {n : Nat} (h : stampsSorted tr = true) (hle : ∀ e ∈ tr, e.stamp ≤ n)
    (hes : ∀ e ∈ es, e.stamp = n) : stampsSorted (tr ++ es) = true := by
  have hconst : es.map Event.stamp = List.replicate es.length n :=
    List.eq_replicate_iff.2 ⟨by simp, by simpa using hes⟩
  simp only [stampsSorted, decide_eq_true_eq, List.map_append, List.pairwise_append] at h ⊢
  refine ⟨h, hconst ▸ List.pairwise_replicate.2 (.inr (Nat.le_refl n)), ?_⟩
  rintro a ha b hb
  obtain ⟨e, he, rfl⟩ := List.mem_map.1 ha
  obtain ⟨f, hf, rfl⟩ := List.mem_map.1 hb
  exact (hle e he).trans (hes f hf).ge

/-- Time passes, and events of that time are appended. -/
theorem Stamped.extend {s t : State} {es : List Event} (h : Stamped s) (hn : s.now ≤ t.now)
    (ht : t.trace = s.trace ++ es) (hes : ∀ e ∈ es, e.stamp = t.now) : Stamped t := by
  obtain ⟨hs, hle⟩ := h
  have hle' : ∀ e ∈ s.trace, e.stamp ≤ t.now := fun e he => (hle e he).trans hn
  refine ⟨ht ▸ stampsSorted_append hs hle' hes, fun e he => ?_⟩
  rw [ht] at he
  exact (List.mem_append.1 he).elim (hle' e) fun he => (hes e he).le

theorem Stamped.later {s t : State} (h : Stamped s) (hn : s.now ≤ t.now) (ht : t.trace = s.trace) : Stamped t :=
  h.extend (es := []) hn (by simp [ht]) (by simp)

theorem applyAct_stamped (a : Act) {s : State} (h : Stamped s) : Stamped (applyAct a s) := by
  by_cases ha : a = .reset
  · subst ha
    exact Stamped.extend (t := blockReset s) h (blockReset_now s).ge (blockReset_trace s) (by simp [Event.stamp])
  · have p := applyAct_passes ha s
    exact h.later p.now p.trace

theorem complete_stamped {s : State} (h : Stamped s) : Stamped (complete s) := by
  cases hl : s.lock with
  | none => rwa [complete, hl]
  | some g =>
    refine h.extend (es := [.resp g (responseOf s).status (responseOf s).info (responseOf s).data s.now])
      (complete_now s).ge ?_ (by simp [Event.stamp])
    simp only [complete, hl]
    rfl

theorem stamped_invariant : Invariant Stamped where
  act a _ h := applyAct_stamped a h
  slot _ h := h
  time s h := h.later (le_max_left _ _) rfl
  grant g w s _ h := h.extend (grant_now s g w).ge (grant_trace s g w) (by simp [Event.stamp])
  work s t w h := by
    obtain ⟨es, hes, hstamp⟩ := w.trace
    exact h.extend w.now.ge hes fun e he => (hstamp e he).1.trans w.now.symm
  complete _ h := complete_stamped h

/-- Settles O54: time never goes back, and every event is stamped with the time it is made at (`Stamped.extend`). -/
theorem stampsNeverDecrease : Obligations.StampsNeverDecrease := fun _ _ h ht => stamped_invariant.step h ht

/-! ### Well-kept states -/

theorem applyAct_wellKept (a : Act) {s : State} (h : WellKept s) : WellKept (applyAct a s) := by
  obtain ⟨hp, hc, hl, hs⟩ := h
  by_cases ha : a = .reset
  · subst ha
    exact ⟨hp, List.length_replicate, nofun, rfl⟩
  · have p := applyAct_passes ha s
    exact ⟨p.params ▸ hp, by rw [p.count, hc, p.params], by rw [p.lock, p.count]; exact hl, p.stage hs⟩

theorem wellKept_invariant : Invariant WellKept where
  act a _ h := applyAct_wellKept a h
  slot _ h := h
  time _ h := h
  grant g w s hg h := by
    obtain ⟨hp, hc, -, hs⟩ := h
    have hlen : (grant g w s).hosts.length = s.hosts.length := List.length_modify ..
    refine ⟨hp, hlen.trans hc, fun g' hg' => ?_, hs⟩
    obtain rfl := Option.some.inj (hg'.symm.trans (grant_lock s g w))
    rwa [hlen]
  work s t w h := by
    obtain ⟨hp, hc, hl, hs⟩ := h
    exact ⟨w.params ▸ hp, by rw [w.hosts, w.params, hc], by rw [w.lock, w.hosts]; exact hl, w.stage ▸ hs⟩
  complete s h := by
    obtain ⟨hp, hc, -, hs⟩ := h
    refine ⟨by simpa using hp, ?_, by simp, by simpa using hs⟩
    cases hl : s.lock with
    | none => simpa [complete, hl] using hc
    | some g => simpa [complete, hl, emit] using hc

theorem lockHeld_of_wellKept {s : State} {h : Nat} (k : WellKept s) (hl : s.lock = some h) : lockHeld s = true := by
  obtain ⟨-, -, hlock, -⟩ := k
  simp [lockHeld, hl, hlock h hl]

/-- Any word runs where a host of the block holds the lock. -/
theorem execWord_goes {s : State} (w : Word32) (h : lockHeld s = true) : ∃ t, execWord w s = .next t := by
  obtain ⟨rule, hrule⟩ := execWord_eq_runRule w s
  exact ⟨_, hrule.trans (runRule_held h rule)⟩

theorem step_idle {s : State} (ha : s.params.admitted = true) (hl : s.lock = none)
    (hn : nextCommand (agentsAct s) = none) : step s = .next (agentsAct s) := by
  simp [step, ha, hl, hn]

theorem step_held {s : State} {h : Nat} (ha : s.params.admitted = true) (hl : s.lock = some h) :
    step s = execWord s.cur s := by
  simp [step, ha, hl]

/-- From a well-kept state the machine steps. -/
theorem step_goes {s : State} (k : WellKept s) : ∃ t, step s = .next t := by
  have hp := k.1
  cases hl : s.lock with
  | some h => exact step_held hp hl ▸ execWord_goes _ (lockHeld_of_wellKept k hl)
  | none =>
    cases hn : nextCommand (agentsAct s) with
    | none => exact ⟨_, step_idle hp hl hn⟩
    | some q =>
      obtain ⟨h, w⟩ := q
      obtain ⟨p, hh, -⟩ := nextCommand_some hn
      have hg : h < (settled s).hosts.length := (List.getElem?_eq_some_iff.1 hh).1
      have kg := wellKept_invariant.grant h w _ hg (wellKept_invariant.settled k)
      exact step_grants hp hl hn ▸ execWord_goes w (lockHeld_of_wellKept kg (grant_lock ..))

/-- Settles O56: a well-kept state steps (`step_goes`), and well-keptness is an `Invariant`. -/
theorem nothingIsFatal : Obligations.NothingIsFatal := by
  intro s k
  obtain ⟨t, ht⟩ := step_goes k
  exact ⟨t, ht, wellKept_invariant.step k ht⟩

end Sys2Proof.Machine

/-! Rules checked statement by statement: an observer that knows some facts about the state goes through a rule as its
run may go, and what it finds of every way holds of the run. -/

namespace Sys2Proof.Machine

/-! ### Observers -/

/-- An observer of rules, with what it knows as an `α`. `asks m a on out` is what it asks of a statement `m` met with the
knowledge `a`: `on n b` that what follows the next `n` statements may be met with `b`, `out b` that the command may end
with `b`. -/
structure Watch (α : Type) where
  asks : Micro → α → (Nat → α → Prop) → (α → Prop) → Prop
  ends : α → Prop

/-- The observer finds nothing wrong on any way through the rule, the first `k` statements of it passed over. -/
def Watch.Passes {α : Type} (w : Watch α) : List Micro → Nat → α → Prop
  | [], _, a => w.ends a
  | _ :: rest, k + 1, a => w.Passes rest k a
  | m :: rest, 0, a => w.asks m a (w.Passes rest) w.ends

theorem Watch.passes_drop {α : Type} (w : Watch α) (ms : List Micro) (k : Nat) (a : α) :
    w.Passes ms k a ↔ w.Passes (ms.drop k) 0 a := by
  induction ms generalizing k with
  | nil => simp [Passes]
  | cons m rest ih =>
    cases k with
    | zero => rfl
    | succ k => exact ih k

/-- Passing over the whole of `as` comes to what follows it. -/
theorem Watch.passes_append_length {α : Type} {w : Watch α} {as bs : List Micro} {a : α} (h : w.Passes bs 0 a) :
    w.Passes (as ++ bs) as.length a := by
  rwa [w.passes_drop, List.drop_left]

/-- What a statement did is one of the ways the observer was shown: `know a s` says that the knowledge `a` is right of
`s`, and `Q` what is to hold where the run stops. -/
def Effect.Within {α : Type} (know : α → State → Prop) (Q : State → Prop) (on : Nat → α → Prop) (out : α → Prop) :
    Effect → Prop
  | .go n t => ∃ b, on n b ∧ know b t
  | .logged e n t => ∃ b c, know b t ∧ (∀ u, know b u → know c (logErr e u)) ∧ on n c
  | .raised none e t => ∃ b c, know b t ∧ (∀ u, know b u → know c (logErr e u)) ∧ out c
  | .raised (some d) e t =>
    ∃ a b c, know a t ∧ (∀ u, know a u → know b (setState d u)) ∧ (∀ u, know b u → know c (logErr e u)) ∧ out c
  | .waiting t => Q t

/-- The observer's knowledge stays right at every boundary and across every statement. -/
structure Watch.Sound {α : Type} (w : Watch α) (know : α → State → Prop) (Q : State → Prop) : Prop where
  settled : ∀ a s, know a s → calm s = true → know a (settled s)
  abandoned : ∀ a s, know a s → calm s = false → Q (agentsAct s)
  advance : ∀ a n s, know a s → know a (advance n s)
  complete : ∀ a s, w.ends a → know a s → Q (complete s)
  perform : ∀ m a s on out, know a s → w.asks m a on out → (perform m s).Within know Q on out

section
variable {α : Type} {w : Watch α} {know : α → State → Prop} {Q : State → Prop}

theorem Watch.Sound.finish (v : w.Sound know Q) {a : α} {s : State} (he : w.ends a) (h : know a s) :
    Q (microStep s Machine.complete) :=
  microStep_ind (fun hc => v.complete a _ he (v.settled a s h hc)) (fun hc => v.abandoned a s h hc)

/-- The induction over a run, for knowledge that changes along the rule. -/
theorem run_watched (v : w.Sound know Q) {ms : List Micro} {k : Nat} {a : α} {s : State} (hp : w.Passes ms k a)
    (h : know a s) : Q (run ms k s) := by
  induction ms generalizing k a s with
  | nil => rw [run_nil]; exact v.finish hp h
  | cons m rest ih =>
    cases k with
    | succ k => exact ih hp h
    | zero =>
      rw [run_cons]
      refine microStep_ind (fun hc => ?_) (fun hc => v.abandoned a s h hc)
      have hm := v.perform m a _ _ _ (v.settled a s h hc) hp
      cases hx : Machine.perform m (Machine.settled s) with
      | go n t =>
        rw [hx] at hm
        obtain ⟨b, hon, hb⟩ := hm
        exact ih hon (v.advance b _ t hb)
      | logged e n t =>
        rw [hx] at hm
        obtain ⟨b, c, hb, hlog, hon⟩ := hm
        exact microStep_ind (fun hc => ih hon (v.advance c _ _ (hlog _ (v.settled b t hb hc))))
          (fun hc => v.abandoned b t hb hc)
      | raised r e t =>
        rw [hx] at hm
        cases r with
        | none =>
          obtain ⟨b, c, hb, hlog, hout⟩ := hm
          have hb' := v.advance b (rest.length + 1) t hb
          exact microStep_ind (fun hc => v.finish hout (hlog _ (v.settled b _ hb' hc)))
            (fun hc => v.abandoned b _ hb' hc)
        | some d =>
          obtain ⟨b, b', c, hb, hset, hlog, hout⟩ := hm
          have hb' := v.advance b (rest.length + 1) t hb
          refine microStep_ind (fun hc => ?_) (fun hc => v.abandoned b _ hb' hc)
          have hs := hset _ (v.settled b _ hb' hc)
          exact microStep_ind (fun hc => v.finish hout (hlog _ (v.settled b' _ hs hc)))
            (fun hc => v.abandoned b' _ hs hc)
      | waiting t =>
        rw [hx] at hm
        exact hm

end

/-! ### Statements that no observer of the trace sees -/

/-- `t` differs from `s` in nothing that the trace, `ds`, the parameters and the Device show. -/
structure Unseen (s t : State) : Prop where
  trace : t.trace = s.trace
  ds : t.ds = s.ds
  params : t.params = s.params
  answers : answers t = answers s

/-- A statement that goes on to the next one and is seen by no one. -/
def Micro.unseen : Micro → Bool
  | .wait _ => true
  | .loadStage _ => true
  | .begin => true
  | .saveSnap => true
  | .markSnap => true
  | .setEnabled _ => true
  | .setPreset _ => true
  | .answerBuf => true
  | .answerStatus => true
  | _ => false

theorem perform_unseen {m : Micro} (hm : m.unseen = true) (s : State) : ∃ t, perform m s = .go 0 t ∧ Unseen s t := by
  cases m
  case loadStage n =>
    refine ⟨_, rfl, ?_⟩
    rw [stageRead_state]
    exact ⟨rfl, rfl, rfl, rfl⟩
  case wait | begin | saveSnap | markSnap | setEnabled | setPreset | answerBuf | answerStatus =>
    exact ⟨_, rfl, rfl, rfl, rfl, rfl⟩
  all_goals cases hm

theorem answers_settled {s : State} (hc : calm s = true) : answers (settled s) = answers s := by
  have p := (settled_spec hc).passes
  simp only [answers, p.scratch, p.env, nextSlot_scratch, nextSlot_env]

theorem settled_unseen {s : State} (hc : calm s = true) : Unseen s (settled s) := by
  have p := (settled_spec hc).passes
  exact ⟨p.trace, p.ds, p.params, answers_settled hc⟩

/-! ### Automata that read the trace -/

/-- The events since the trace `tr` take the automaton `δ` from `q₀` to `q`. -/
def Reads {β : Type} (δ : Option β → Event → Option β) (tr : List Event) (q₀ q : Option β) (s : State) : Prop :=
  ∃ es, s.trace = tr ++ es ∧ es.foldl δ q₀ = q

section
variable {β : Type} {δ : Option β → Event → Option β} {tr : List Event} {q₀ q : Option β} {s t : State}

theorem reads_start (s : State) : Reads δ s.trace q₀ q₀ s := ⟨[], by simp, rfl⟩

theorem Reads.same (h : Reads δ tr q₀ q s) (ht : t.trace = s.trace) : Reads δ tr q₀ q t := by
  obtain ⟨es, hes, hq⟩ := h
  exact ⟨es, ht.trans hes, hq⟩

theorem Reads.event {e : Event} (h : Reads δ tr q₀ q s) (ht : t.trace = s.trace ++ [e]) : Reads δ tr q₀ (δ q e) t := by
  obtain ⟨es, hes, hq⟩ := h
  exact ⟨es ++ [e], by rw [ht, hes, List.append_assoc], by rw [List.foldl_append, hq]; rfl⟩

end

/-! ### Parts of a rule -/

/-- The part `ms` of a rule takes the observer's knowledge from `a` to `b`, and finds nothing wrong if what follows does
not. -/
def Watch.Leads {α : Type} (w : Watch α) (ms : List Micro) (a b : α) : Prop :=
  ∀ rest, w.Passes rest 0 b → w.Passes (ms ++ rest) 0 a

section
variable {α : Type} {w : Watch α}

theorem Watch.leads_nil (a : α) : w.Leads [] a a := fun _ h => h

theorem Watch.Leads.append {as bs : List Micro} {a b c : α} (h : w.Leads as a b) (g : w.Leads bs b c) :
    w.Leads (as ++ bs) a c := by
  intro rest hr
  rw [List.append_assoc]
  exact h _ (g _ hr)

/-- A part that is there only under a condition. -/
theorem Watch.Leads.ite {c : Prop} [Decidable c] {ms : List Micro} {a : α} (h : w.Leads ms a a) :
    w.Leads (if c then ms else []) a a := by
  split
  · exact h
  · exact w.leads_nil a

theorem Watch.Leads.passes {ms : List Micro} {a b : α} (h : w.Leads ms a b) (he : w.ends b) : w.Passes ms 0 a := by
  have := h [] he
  rwa [List.append_nil] at this

/-- Statements after each of which the observer goes on as it was. -/
theorem Watch.leads_of_forall {ms : List Micro} {a : α} (h : ∀ m ∈ ms, w.Leads [m] a a) : w.Leads ms a a := by
  induction ms with
  | nil => exact w.leads_nil a
  | cons m rest ih =>
    obtain ⟨hm, hr⟩ := List.forall_mem_cons.1 h
    exact hm.append (bs := rest) (ih hr)

end

end Sys2Proof.Machine

/-! The lifecycle (R31, R93): every State event is a move of the table, and between commands `ds` is stable. -/

namespace Sys2Proof.Machine

/-- Where one of the acts is a block reset: what holds up to it and then from it on. -/
theorem agentsAct_abandoned {P R : State → Prop} {s : State} (hc : calm s = false) (h : P (nextSlot s))
    (hp : ∀ a u, a ≠ .reset → P u → P (applyAct a u)) (hpr : ∀ u, P u → R (blockReset u))
    (hr : ∀ a u, R u → R (applyAct a u)) : R (agentsAct s) := by
  have hmem : .reset ∈ actsNow s := by simpa [calm] using hc
  have key : ∀ (acts : List Act) (u : State), .reset ∈ acts → P u → R (applyActs acts u) := by
    intro acts
    induction acts with
    | nil => intro u hm; cases hm
    | cons a rest ih =>
      intro u hm hu
      by_cases ha : a = .reset
      · subst ha
        exact List.foldlRecOn (motive := R) rest _ (hpr u hu) fun v hv b _ => hr b v hv
      · exact ih _ ((List.mem_cons.1 hm).resolve_left (Ne.symm ha)) (hp a u ha hu)
  exact key _ _ hmem h

/-! ### The observer -/

/-- What a failed write asks of the lifecycle (R104): a recovery step is a move too (R149). -/
def OnFail.life (f : OnFail) (d : DeviceState) (on : Nat → DeviceState → Prop) (out : DeviceState → Prop) : Prop :=
  match f with
  | .log => on 0 d
  | .logSkip n => on n d
  | .logFail n => on n d
  | .raise => out d
  | .raiseTo d' => legalMove d d' = true ∧ out d'

/-- The observer that knows `ds`. -/
def lifeWatch : Watch DeviceState where
  asks m d on out :=
    match m with
    | .require l => (d ∈ l → on 0 d) ∧ (d ∉ l → out d)
    | .raise _ => out d
    | .setState d' => legalMove d d' = true ∧ on 0 d'
    | .unmute => if d = .muted then on 0 .running else on 0 d
    | .write _ _ f => on 0 d ∧ f.life d on out
    | .read _ _ => on 0 d ∧ out d
    | .parse => on 0 d ∧ out d
    | .ifOk n => on 0 d ∧ on n d
    | _ => on 0 d
  ends d := stable d = true

section
variable {tr : List Event} {d₀ : DeviceState}

/-- The State events since `tr` are moves of the table from `d₀` to `d`, and `ds` is `d`; the Device answers. -/
structure Lives (tr : List Event) (d₀ d : DeviceState) (s : State) : Prop where
  answers : answers s = true
  ds : s.ds = d
  reads : Reads lifeStep tr (some d₀) (some d) s

/-- Between commands: the lock is free and the moves have come to a stable state. -/
structure Lived (tr : List Event) (d₀ : DeviceState) (s : State) : Prop where
  lives : Lives tr d₀ s.ds s
  lock : s.lock = none
  stable : stable s.ds = true

theorem Lives.unseen {d : DeviceState} {s t : State} (h : Lives tr d₀ d s) (u : Unseen s t) : Lives tr d₀ d t :=
  ⟨u.answers.trans h.answers, u.ds.trans h.ds, h.reads.same u.trace⟩

/-- An event that is no State event and no reset. -/
theorem lifeStep_other {e : Event} (he : e.inner = true) (hs : e.state? = none) (d : DeviceState) :
    lifeStep (some d) e = some d := by
  cases e with
  | state => cases hs
  | reset => cases he
  | _ => rfl

theorem Lives.emit {d : DeviceState} {s t : State} {e : Event} (h : Lives tr d₀ d s) (he : e.inner = true)
    (hs : e.state? = none) (ht : t.trace = s.trace ++ [e]) (hds : t.ds = s.ds)
    (ha : Machine.answers t = Machine.answers s) : Lives tr d₀ d t :=
  ⟨ha.trans h.answers, hds.trans h.ds, lifeStep_other he hs d ▸ h.reads.event ht⟩

theorem Lives.logErr {d : DeviceState} {s : State} (h : Lives tr d₀ d s) (e : Err) : Lives tr d₀ d (logErr e s) :=
  h.emit (e := .log e s.now) rfl rfl rfl rfl rfl

theorem Lives.setState {d d' : DeviceState} {s : State} (h : Lives tr d₀ d s) (hm : legalMove d d' = true) :
    Lives tr d₀ d' (setState d' s) := by
  refine ⟨h.answers, rfl, ?_⟩
  have := h.reads.event (t := Machine.setState d' s) (setState_trace s d')
  simpa only [lifeStep, if_pos hm] using this

/-- A block reset comes to Uninitialized from wherever it was. -/
theorem Lives.blockReset {d : DeviceState} {s : State} (h : Lives tr d₀ d s) : Lived tr d₀ (blockReset s) := by
  refine ⟨⟨?_, rfl, h.reads.event (blockReset_trace s)⟩, rfl, rfl⟩
  have ha := h.answers
  simp only [Machine.answers, Bool.and_eq_true] at ha ⊢
  exact ⟨⟨rfl, ha.1.2⟩, ha.2⟩

theorem Lives.act {d : DeviceState} {s : State} {a : Act} (ha : a ≠ .reset) (h : Lives tr d₀ d s) :
    Lives tr d₀ d (applyAct a s) := by
  have p := applyAct_passes ha s
  exact h.unseen ⟨p.trace, p.ds, p.params, by simp only [Machine.answers, p.scratch, p.env]⟩

theorem Lived.act (a : Act) {s : State} (h : Lived tr d₀ s) : Lived tr d₀ (applyAct a s) := by
  by_cases ha : a = .reset
  · subst ha
    exact h.lives.blockReset
  · have p := applyAct_passes ha s
    exact ⟨p.ds.symm ▸ h.lives.act ha, p.lock.trans h.lock, p.ds.symm ▸ h.stable⟩

theorem Lived.agentsAct {s : State} (h : Lived tr d₀ s) : Lived tr d₀ (agentsAct s) := by
  have hslot : Lived tr d₀ (nextSlot s) := ⟨h.lives.unseen ⟨rfl, rfl, rfl, rfl⟩, h.lock, h.stable⟩
  exact List.foldlRecOn (actsNow s) _ hslot fun _ hu a _ => hu.act a

theorem Lives.complete {d : DeviceState} {s : State} (h : Lives tr d₀ d s) (hd : Machine.stable d = true) :
    Lived tr d₀ (complete s) := by
  have hds : (Machine.complete s).ds = d := (complete_ds s).trans h.ds
  refine ⟨hds.symm ▸ ?_, complete_lock s, hds.symm ▸ hd⟩
  cases hl : s.lock with
  | none => simpa only [Machine.complete, hl] using h
  | some g =>
    have ha := h.answers
    simp only [Machine.answers, Bool.and_eq_true] at ha
    refine ⟨?_, hds, ?_⟩
    · simp only [Machine.complete, hl, Machine.answers, Bool.and_eq_true]
      exact ⟨⟨rfl, ha.1.2⟩, ha.2⟩
    · exact h.reads.event (e := .resp g (responseOf s).status (responseOf s).info (responseOf s).data s.now)
        (by simp only [Machine.complete, hl]; rfl)

/-- A transaction of whatever result is no move. -/
theorem Lives.xfer {d : DeviceState} {s : State} (h : Lives tr d₀ d s) (dir : Dir) (a : Byte) (v : Bytes) (ok : Bool) :
    Lives tr d₀ d (Machine.emit (.xfer dir a v ok s.now) (drawn s)) :=
  ⟨(transact_answers h.answers).1, h.ds,
    lifeStep_other (e := .xfer dir a v ok s.now) rfl rfl d ▸ h.reads.event rfl⟩

theorem Lives.onFailure {d : DeviceState} {s : State} (h : Lives tr d₀ d s) (a : Byte) (f : OnFail)
    {on : Nat → DeviceState → Prop} {out : DeviceState → Prop} (hf : f.life d on out) :
    (onFailure a f s).Within (Lives tr d₀) (Lived tr d₀) on out := by
  have hlog : ∀ e u, Lives tr d₀ d u → Lives tr d₀ d (Machine.logErr e u) := fun e _ hu => hu.logErr e
  cases f with
  | log => exact ⟨d, d, h, hlog _, hf⟩
  | logSkip n => exact ⟨d, d, h, hlog _, hf⟩
  | logFail n => exact ⟨d, d, h.unseen ⟨rfl, rfl, rfl, rfl⟩, hlog _, hf⟩
  | raise => exact ⟨d, d, h, hlog _, hf⟩
  | raiseTo d' => exact ⟨d, d', d', h, fun _ hu => hu.setState hf.1, fun _ hu => hu.logErr _, hf.2⟩

theorem lives_perform (m : Micro) {d : DeviceState} {s : State} {on : Nat → DeviceState → Prop}
    {out : DeviceState → Prop} (h : Lives tr d₀ d s) (hm : lifeWatch.asks m d on out) :
    (perform m s).Within (Lives tr d₀) (Lived tr d₀) on out := by
  have hlog : ∀ e u, Lives tr d₀ d u → Lives tr d₀ d (Machine.logErr e u) := fun e _ hu => hu.logErr e
  have hds := h.ds
  have hquiet : m.unseen = true → on 0 d → (perform m s).Within (Lives tr d₀) (Lived tr d₀) on out := by
    intro hu hon
    obtain ⟨t, ht, ut⟩ := perform_unseen hu s
    rw [ht]
    exact ⟨d, hon, h.unseen ut⟩
  cases m
  case require l =>
    simp only [perform, List.contains_iff_mem, hds]
    split
    next hin => exact ⟨d, hm.1 hin, h⟩
    next hout => exact ⟨d, d, h, hlog _, hm.2 hout⟩
  case raise e => exact ⟨d, d, h, hlog _, hm⟩
  case log e => exact ⟨d, hm, h.logErr e⟩
  case setState d' => exact ⟨d', hm.2, h.setState hm.1⟩
  case unmute =>
    simp only [perform, hds]
    simp only [lifeWatch] at hm
    split
    next hmu =>
      rw [if_pos hmu] at hm
      exact ⟨.running, hm, h.setState (by rw [hmu]; rfl)⟩
    next hmu =>
      rw [if_neg hmu] at hm
      exact ⟨d, hm, h⟩
  case gpio l a =>
    refine ⟨d, hm, h.emit (e := .pin l _ s.now) rfl rfl (gpio_trace s l _) (gpio_ds s l _) ?_⟩
    simp only [Machine.answers, gpio_scratch, gpio_env]
  case write a v f =>
    obtain ⟨hok, hfail⟩ := hm
    simp only [perform, memWrite]
    obtain ⟨-, ⟨b, ht⟩ | ht⟩ := transact_answers h.answers <;> rw [ht]
    · exact ⟨d, hok, h.xfer _ _ _ _⟩
    · exact (h.xfer _ _ _ _).onFailure a f hfail
  case read a n =>
    obtain ⟨hok, hfail⟩ := hm
    simp only [perform, memRead]
    obtain ⟨-, ⟨b, ht⟩ | ht⟩ := transact_answers h.answers <;> rw [ht]
    · exact ⟨d, hok, (h.xfer .read a _ true).unseen ⟨rfl, rfl, rfl, rfl⟩⟩
    · exact ⟨d, d, h.xfer _ _ _ _, hlog _, hfail⟩
  case parse =>
    simp only [perform]
    split
    · exact ⟨d, hm.1, h.unseen ⟨rfl, rfl, rfl, rfl⟩⟩
    · exact ⟨d, d, h, hlog _, hm.2⟩
  case ifOk n =>
    refine ⟨d, ?_, h⟩
    split
    · exact hm.1
    · exact hm.2
  all_goals exact hquiet rfl hm

theorem life_sound (tr : List Event) (d₀ : DeviceState) : lifeWatch.Sound (Lives tr d₀) (Lived tr d₀) where
  settled _ _ h hc := h.unseen (settled_unseen hc)
  abandoned d _ h hc := agentsAct_abandoned (P := Lives tr d₀ d) hc (h.unseen ⟨rfl, rfl, rfl, rfl⟩)
    (fun _ _ ha hu => hu.act ha) (fun _ hu => hu.blockReset) fun a _ hu => hu.act a
  advance _ _ _ h := h.unseen ⟨rfl, rfl, rfl, rfl⟩
  complete _ _ he h := h.complete he
  perform m _ _ _ _ h hm := lives_perform m h hm

end

/-! ### The rules -/

/-- A write that a rule logs and passes on from, whatever its result. -/
theorem life_write (a : Byte) (v : Source) (d : DeviceState) : lifeWatch.Leads [.write a v .log] d d :=
  fun _ h => ⟨h, h⟩

theorem life_cw (a : Byte) (v : Bytes) (d : DeviceState) : lifeWatch.Leads [cw a v] d d := life_write a _ d

theorem life_imageWrites (img : List (Byte × Source)) (d : DeviceState) : lifeWatch.Leads (imageWrites img) d d := by
  induction img with
  | nil => exact Watch.leads_nil d
  | cons q img ih =>
    intro rest h
    exact ⟨ih rest h, imageWrites_length img ▸ Watch.passes_append_length h⟩

theorem life_closingWrite (p : Params) (k : Kind) (d : DeviceState) : lifeWatch.Leads [closingWrite p k] d d :=
  fun _ h => ⟨h, h⟩

theorem life_bracket (p : Params) (k : Kind) (img : List (Byte × Source)) (d : DeviceState) :
    lifeWatch.Leads (bracket p k img) d d := by
  intro rest h
  have hc : lifeWatch.Passes (closingWrite p k :: rest) 0 d := life_closingWrite p k d rest h
  simp only [bracket, List.append_assoc, List.cons_append, List.nil_append]
  exact ⟨life_imageWrites img d _ hc, imageWrites_length img ▸ Watch.passes_append_length hc⟩

theorem life_guardedBrackets (p : Params) (d : DeviceState) : lifeWatch.Leads (guardedBrackets p) d d := by
  refine ((life_bracket p .drc _ d).append (bs := .ifOk _ :: bracket p .eq _) fun rest h => ?_)
  exact ⟨life_bracket p .eq _ d rest h, Watch.passes_append_length h⟩

theorem life_muteGuard (p : Params) : lifeWatch.Leads (muteGuard p) .running .running := by
  intro rest h
  have hlast : ∀ d, d = .running ∨ d = .muted →
      lifeWatch.Passes (.write p.regs.softMute.addr (.lit p.regs.softMute.off) .log :: .unmute :: rest) 0 d := by
    rintro d (rfl | rfl) <;> exact ⟨h, h⟩
  have hguard := life_guardedBrackets p .muted _ (hlast _ (.inr rfl))
  simp only [muteGuard, List.append_assoc, List.cons_append, List.nil_append]
  refine ⟨⟨rfl, hguard⟩, ?_⟩
  show lifeWatch.Passes (_ :: _) (1 + _) _
  rw [Nat.add_comm]
  exact Watch.passes_append_length (hlast _ (.inl rfl))

theorem life_powerUp (p : Params) :
    lifeWatch.Leads (powerUp p ++ [.setState .configuring]) .resetting .configuring := by
  intro rest h
  cases hb : pinsBound p <;> simpa [powerUp, hb, Watch.Passes, lifeWatch, legalMove] using h

/-- Statements that write best-effort, wait or log leave the lifecycle where it is. -/
theorem life_steady {ms : List Micro} (hm : ∀ m ∈ ms, m.plain = true ∧ m.sets = none) (d : DeviceState) :
    lifeWatch.Leads ms d d := by
  refine Watch.leads_of_forall fun m h => ?_
  obtain ⟨hplain, hsets⟩ := hm m h
  cases m
  case setState => cases hsets
  case log | gpio | wait => exact fun _ h => h
  case write a v f =>
    cases v <;> cases f <;> cases hplain
    exact life_write a _ d
  all_goals cases hplain

theorem life_banks (p : Params) (i : Byte) : lifeWatch.Leads (bankRules p i) .configuring .configuring := by
  refine Watch.Leads.append (Watch.Leads.ite ?_) (Watch.Leads.ite ?_)
  · unfold drcAtBringup
    split
    · exact fun _ h => h
    · exact life_bracket _ _ _ _
  · unfold eqAtBringup
    split
    · exact fun _ h => h
    · exact life_bracket _ _ _ _

theorem life_head (p : Params) {d : DeviceState} (hd : d ∈ dsForBringup) :
    lifeWatch.Leads (bringupHead p) d .configuring := by
  have hg : lifeWatch.Leads (configGroup1 p) .configuring .configuring :=
    life_steady (by simp [configGroup1, cwReg, cw, Micro.plain, Micro.sets]) _
  have hr : lifeWatch.Leads [.setState .resetting] d .resetting := by
    obtain rfl | rfl := (mem_dsForBringup d).1 hd <;> exact fun _ h => ⟨rfl, h⟩
  have := (hr.append (life_powerUp p)).append hg
  rwa [← List.append_assoc] at this

theorem life_tail (i : Instr) (s : State) : lifeWatch.Leads (bringupTail i s) .configuring .running := by
  have hmux : lifeWatch.Leads (initMuxOverride s.params) .configuring .configuring := by
    unfold initMuxOverride
    split
    · exact Watch.leads_nil _
    · split
      · exact life_cw _ _ _
      · exact fun _ h => h
  have h2 : lifeWatch.Leads (configGroup2 s.params) .configuring .configuring :=
    life_steady (by simp [configGroup2, cwReg, cw, Micro.plain, Micro.sets]) _
  have hset : lifeWatch.Leads [.setState .running] .configuring .running := fun _ h => ⟨rfl, h⟩
  have hentry : lifeWatch.Leads (runningEntry s.params) .running .running :=
    life_steady (by simp [runningEntry, cwReg, cw, Micro.plain, Micro.sets]) _
  have hsnap : lifeWatch.Leads (restoreSnapshot s.params s.snap) .running .running :=
    life_steady (by simp [restoreSnapshot, cw, Micro.plain, Micro.sets]) _
  exact (((hmux.append h2).append hset).append hentry).append hsnap.ite

/-- A rule that begins with a state check, in a state between commands. -/
theorem life_require {l : List DeviceState} {ms : List Micro} {d : DeviceState} (hd : stable d = true)
    (h : d ∈ l → lifeWatch.Passes ms 0 d) : lifeWatch.Passes (.require l :: ms) 0 d :=
  ⟨h, fun _ => hd⟩

theorem life_bringup (i : Instr) (s : State) {d : DeviceState} (hd : stable d = true) :
    lifeWatch.Passes (.require dsForBringup :: bringupParts i s) 0 d :=
  life_require hd fun hin => (((life_head s.params hin).append (life_banks _ _)).append (life_tail i s)).passes rfl

theorem life_powerDown (p : Params) : lifeWatch.Passes (powerDown p) 0 .running := by
  cases hb : pinsBound p <;>
    simp [powerDown, hb, Watch.Passes, lifeWatch, OnFail.life, legalMove, stable]

/-- Every command's rule, from a state between commands. -/
theorem life_rule (i : Instr) (s : State) {d : DeviceState} (hd : stable d = true) :
    ∃ rule, exec i s = runRule rule s ∧ lifeWatch.Passes rule 0 d := by
  have running : ∀ {ms : List Micro}, lifeWatch.Passes ms 0 .running →
      lifeWatch.Passes (.require dsForRunning :: ms) 0 d := fun h =>
    life_require hd fun hin => (mem_dsForRunning d).1 hin ▸ h
  cases i
  case bringup => exact ⟨_, exec_bringup_parts (.inl rfl) s, life_bringup _ s hd⟩
  case resume => exact ⟨_, exec_bringup_parts (.inr rfl) s, life_bringup _ s hd⟩
  case shutdown => exact ⟨_, rfl, running (life_powerDown _)⟩
  case rstPulse =>
    refine ⟨_, rfl, running ?_⟩
    cases hb : pinsBound s.params <;> simp [resetPulse, hb, Watch.Passes, lifeWatch, legalMove, stable]
  case suspend =>
    refine ⟨_, rfl, running ?_⟩
    split
    · have hsnap : lifeWatch.Leads (takeSnapshot s.params) .running .running := fun rest h => by
        simpa [takeSnapshot, Watch.Passes, lifeWatch, stable] using h
      exact hsnap _ (life_powerDown _)
    · rfl
  case regRead a l =>
    refine ⟨_, rfl, running ?_⟩
    split
    · rfl
    · exact ⟨rfl, rfl⟩
  case regWrite a l =>
    refine ⟨_, rfl, running ?_⟩
    split
    · rfl
    · exact ⟨rfl, rfl⟩
  case setEnabled e => exact ⟨_, rfl, running ⟨⟨rfl, rfl⟩, rfl⟩⟩
  case selectPreset a =>
    refine ⟨_, rfl, running ?_⟩
    split
    · rfl
    · exact life_bracket _ _ _ _ _ ⟨rfl, rfl⟩
  case patchApply l =>
    refine ⟨_, rfl, running ?_⟩
    split
    · rfl
    · exact ⟨(life_muteGuard _).passes rfl, rfl⟩
  case status => exact ⟨_, rfl, hd⟩

/-! ### The step -/

theorem execWord_lives {tr : List Event} {d₀ : DeviceState} {w : Word32} {s t : State} (h : Lives tr d₀ s.ds s)
    (hd : stable s.ds = true) (hpc : s.seqPc = 0) (ht : execWord w s = .next t) : Lived tr d₀ t := by
  have hrule : ∃ rule, execWord w s = runRule rule s ∧ lifeWatch.Passes rule 0 s.ds := by
    unfold execWord
    split
    · exact life_rule _ s hd
    · exact ⟨_, rfl, hd⟩
  obtain ⟨rule, hx, hp⟩ := hrule
  obtain ⟨-, rfl⟩ := runRule_next (hx.symm.trans ht)
  rw [hpc, List.drop_zero]
  exact run_watched (life_sound tr d₀) hp h

theorem Lived.awaitTime {tr : List Event} {d₀ : DeviceState} {s : State} (h : Lived tr d₀ s) :
    Lived tr d₀ (awaitTime s) :=
  ⟨h.lives.unseen ⟨rfl, rfl, rfl, rfl⟩, h.lock, h.stable⟩

theorem Lived.grant {tr : List Event} {d₀ : DeviceState} {s : State} (h : Lived tr d₀ s) (g : Nat) (w : Word32) :
    Lives tr d₀ s.ds (grant g w s) := by
  have ha := h.lives.answers
  simp only [answers, Bool.and_eq_true] at ha
  refine ⟨?_, rfl, h.lives.reads.event (e := .grant g w s.now) (grant_trace s g w)⟩
  simp only [answers, Bool.and_eq_true]
  exact ⟨⟨rfl, ha.1.2⟩, ha.2⟩

/-- A step between commands comes to a state between commands, by moves of the table. -/
theorem step_lives {s t : State} (hl : s.lock = none) (ha : answers s = true) (hd : stable s.ds = true)
    (ht : step s = .next t) : Lived s.trace s.ds t := by
  have h : Lived s.trace s.ds s := ⟨⟨ha, rfl, reads_start s⟩, hl, hd⟩
  obtain ⟨g, hg, -⟩ | ⟨-, rfl⟩ | ⟨g, w, -, -, hx⟩ := step_next ht
  · cases hg.symm.trans hl
  · exact h.agentsAct
  · have hs : Lived s.trace s.ds (settled s) := h.agentsAct.awaitTime
    exact execWord_lives (s := Machine.grant g w (settled s)) (hs.grant g w) hs.stable rfl hx

/-- Settles O57: the rules are checked statement by statement with `ds` known (`life_rule`), and what the check finds
holds of every run of theirs (`run_watched`). -/
theorem stateIsStableBetweenCommands : Obligations.StateIsStableBetweenCommands := by
  intro s t hl ha hd ht
  have h := step_lives hl ha hd ht
  exact ⟨h.lock, h.lives.answers, h.stable⟩

/-- Settles O58: the same check asks that every SetState is a move of the table. -/
theorem lifecycleFollowsItsTransitions : Obligations.LifecycleFollowsItsTransitions := by
  intro s t hl ha hd hlife ht
  have h := step_lives hl ha hd ht
  obtain ⟨es, htr, hq⟩ := h.lives.reads
  refine ⟨h.lock, h.lives.answers, h.stable, ?_⟩
  rw [lifeEnd] at hlife
  rw [lifeEnd, htr, List.foldl_append, hlife, hq]

end Sys2Proof.Machine

/-! Brackets (R136): every coefficient write of every rule lies between a disable write and a closing write of its
bank. -/

namespace Sys2Proof.Machine

/-! ### One event -/

theorem kindOf_eq_none_iff (a : Byte) : kindOf a = none ↔ isCoefficient a = false := by
  unfold kindOf isCoefficient
  cases eqAddrs.contains a <;> cases drcAddrs.contains a <;> simp

theorem kindOf_of_mem {k : Kind} {a : Byte} (h : a ∈ k.addrs) : kindOf a = some k := by
  revert a
  cases k <;> decide

/-- What the observer knows of a guard: no coefficient has been written since its bank was closed, or bank `k` may be
written. -/
inductive Ward where
  | clean
  | opened (k : Kind)

def Ward.Holds : Ward → Guard → Prop
  | .clean, g => ∀ k, g ≠ .dirty k
  | .opened k, g => (∃ ks, g = .opened ks ∧ k ∈ ks) ∨ g = .dirty k

theorem guardStep_inner (p : Params) (g : Guard) {e : Event} (he : e.inner = true) (hx : e.isXfer = false) :
    guardStep p (some g) e = some g := by
  cases e with
  | xfer => cases hx
  | grant | resp | reset => cases he
  | pin | state | log => rfl

theorem guardStep_read (p : Params) {g : Guard} (hg : Ward.clean.Holds g) (a : Byte) (v : Bytes) (ok : Bool) (n : Nat) :
    guardStep p (some g) (.xfer .read a v ok n) = some .shut := by
  cases g with
  | dirty k => exact absurd rfl (hg k)
  | shut | opened => rfl

/-- Grant and Resp find no bank open. -/
theorem guardStep_grant (p : Params) {g : Guard} (hg : Ward.clean.Holds g) (h : Nat) (w : Word32) (n : Nat) :
    guardStep p (some g) (.grant h w n) = some .shut := by
  cases g with
  | dirty k => exact absurd rfl (hg k)
  | shut | opened => rfl

theorem guardStep_resp (p : Params) {g : Guard} (hg : Ward.clean.Holds g) (h : Nat) (c : Status) (i : Half) (d : Bytes)
    (n : Nat) : guardStep p (some g) (.resp h c i d n) = some .shut := by
  cases g with
  | dirty k => exact absurd rfl (hg k)
  | shut | opened => rfl

/-- A control register is written while no bank is dirty, or the dirty bank's own. -/
theorem guardStep_control (p : Params) {g : Guard} {a : Byte} (ha : kindOf a = none)
    (hg : ∀ k, g = .dirty k → a = (switchOf p k).addr) (v : Bytes) (ok : Bool) (n : Nat) :
    guardStep p (some g) (.xfer .write a v ok n) = some (.opened (opensBy p a v ok)) := by
  cases g with
  | dirty k => simp only [guardStep, ha, if_pos (hg k rfl)]
  | shut | opened => simp only [guardStep, ha]

theorem guardStep_coefficient (p : Params) {g : Guard} {a : Byte} {k : Kind} (ha : kindOf a = some k)
    (hg : (Ward.opened k).Holds g) (v : Bytes) (ok : Bool) (n : Nat) :
    guardStep p (some g) (.xfer .write a v ok n) = some (.dirty k) := by
  obtain ⟨ks, rfl, hk⟩ | rfl := hg
  · simp only [guardStep, ha, List.contains_iff_mem.2 hk, if_true]
  · simp only [guardStep, ha, if_true]

theorem mem_opensBy (p : Params) (k : Kind) : k ∈ opensBy p (switchOf p k).addr (switchOf p k).off true := by
  cases k <;> simp [opensBy]

/-! ### The observer -/

/-- What a write asks of the brackets: `ok` of its success, `bad` of its failure. -/
def wardWrite (p : Params) (a : Byte) (v : Source) (ok bad : Ward → Prop) : Ward → Prop
  | .clean => kindOf a = none ∧ bad .clean ∧
      (ok .clean ∨ ∃ k, a = (switchOf p k).addr ∧ v = .lit (switchOf p k).off ∧ ok (.opened k))
  | .opened k => (kindOf a = some k ∧ ok (.opened k) ∧ bad (.opened k)) ∨
      (kindOf a = none ∧ a = (switchOf p k).addr ∧ ok .clean ∧ bad .clean)

/-- Where a rule goes on after a write that failed (R104). -/
def OnFail.next {α : Type} (f : OnFail) (on : Nat → α → Prop) (out : α → Prop) (x : α) : Prop :=
  match f with
  | .log => on 0 x
  | .logSkip n => on n x
  | .logFail n => on n x
  | .raise => out x
  | .raiseTo _ => out x

/-- The observer of the brackets. -/
def wardWatch (p : Params) : Watch Ward where
  asks m x on out :=
    match m with
    | .require _ => on 0 x ∧ out x
    | .raise _ => out x
    | .write a v f => wardWrite p a v (on 0) (f.next on out) x
    | .read _ _ => x = .clean ∧ on 0 .clean ∧ out .clean
    | .parse => on 0 x ∧ out x
    | .ifOk n => on 0 x ∧ on n x
    | _ => on 0 x
  ends x := x = .clean

section
variable {p : Params}

/-- The Device answers, the parameters are `p`, and the trace leaves the brackets as `x` says. -/
structure Guarded (p : Params) (x : Ward) (s : State) : Prop where
  answers : answers s = true
  params : s.params = p
  guard : ∃ g, guardEnd p s.trace = some g ∧ x.Holds g

/-- Between commands: the lock is free and no bank is open. -/
structure Closed (p : Params) (s : State) : Prop where
  guarded : Guarded p .clean s
  lock : s.lock = none

theorem guardEnd_append (p : Params) (tr : List Event) (e : Event) :
    guardEnd p (tr ++ [e]) = guardStep p (guardEnd p tr) e := by
  rw [guardEnd, List.foldl_append]
  rfl

theorem Guarded.unseen {x : Ward} {s t : State} (h : Guarded p x s) (u : Unseen s t) : Guarded p x t :=
  ⟨u.answers.trans h.answers, u.params.trans h.params, u.trace.symm ▸ h.guard⟩

/-- An event that takes every guard `x` holds of to one `y` holds of. -/
theorem Guarded.event {x y : Ward} {s t : State} {e : Event} (h : Guarded p x s)
    (he : ∀ g, x.Holds g → ∃ g', guardStep p (some g) e = some g' ∧ y.Holds g') (ht : t.trace = s.trace ++ [e])
    (hp : t.params = s.params) (ha : Machine.answers t = true) : Guarded p y t := by
  obtain ⟨g, hg, hx⟩ := h.guard
  obtain ⟨g', hg', hy⟩ := he g hx
  exact ⟨ha, hp.trans h.params, g', by rw [ht, guardEnd_append, hg, hg'], hy⟩

theorem Guarded.inner {x : Ward} {s t : State} {e : Event} (h : Guarded p x s) (he : e.inner = true)
    (hx : e.isXfer = false) (ht : t.trace = s.trace ++ [e]) (hp : t.params = s.params)
    (ha : Machine.answers t = Machine.answers s) : Guarded p x t :=
  h.event (fun g hg => ⟨g, guardStep_inner p g he hx, hg⟩) ht hp (ha.trans h.answers)

theorem Guarded.logErr {x : Ward} {s : State} (h : Guarded p x s) (e : Err) : Guarded p x (logErr e s) :=
  h.inner (e := .log e s.now) rfl rfl rfl rfl rfl

theorem Guarded.setState {x : Ward} {s : State} (h : Guarded p x s) (d : DeviceState) : Guarded p x (setState d s) :=
  h.inner (e := .state d s.now) rfl rfl rfl rfl rfl

theorem holds_shut : Ward.clean.Holds .shut := nofun

theorem holds_opened (ks : List Kind) : Ward.clean.Holds (.opened ks) := nofun

theorem answers_of_reset {s : State} (h : answers s = true) : answers (blockReset s) = true := by
  simp only [answers, Bool.and_eq_true] at h ⊢
  exact ⟨⟨rfl, h.1.2⟩, h.2⟩

/-- A block reset shuts every bank. -/
theorem Guarded.blockReset {x : Ward} {s : State} (h : Guarded p x s) : Closed p (blockReset s) := by
  refine ⟨h.event (fun g _ => ⟨.shut, ?_, holds_shut⟩) (blockReset_trace s) (blockReset_params s)
    (answers_of_reset h.answers), rfl⟩
  cases g <;> rfl

theorem Guarded.act {x : Ward} {s : State} {a : Act} (ha : a ≠ .reset) (h : Guarded p x s) :
    Guarded p x (applyAct a s) := by
  have q := applyAct_passes ha s
  exact h.unseen ⟨q.trace, q.ds, q.params, by simp only [Machine.answers, q.scratch, q.env]⟩

theorem Closed.act (a : Act) {s : State} (h : Closed p s) : Closed p (applyAct a s) := by
  by_cases ha : a = .reset
  · subst ha
    exact h.guarded.blockReset
  · exact ⟨h.guarded.act ha, (applyAct_passes ha s).lock.trans h.lock⟩

theorem Closed.agentsAct {s : State} (h : Closed p s) : Closed p (agentsAct s) := by
  have hslot : Closed p (nextSlot s) := ⟨h.guarded.unseen ⟨rfl, rfl, rfl, rfl⟩, h.lock⟩
  exact List.foldlRecOn (actsNow s) _ hslot fun _ hu a _ => hu.act a

theorem Guarded.complete {s : State} (h : Guarded p .clean s) : Closed p (complete s) := by
  refine ⟨?_, complete_lock s⟩
  cases hl : s.lock with
  | none => simpa only [Machine.complete, hl] using h
  | some g =>
    have ha := h.answers
    simp only [Machine.answers, Bool.and_eq_true] at ha
    refine h.event (e := .resp g (responseOf s).status (responseOf s).info (responseOf s).data s.now)
      (fun g hg => ⟨.shut, guardStep_resp p hg .., holds_shut⟩) (by simp only [Machine.complete, hl]; rfl)
      (complete_params s) ?_
    simp only [Machine.complete, hl, Machine.answers, Bool.and_eq_true]
    exact ⟨⟨rfl, ha.1.2⟩, ha.2⟩

theorem Guarded.xfer {x y : Ward} {s : State} {d : Dir} {a : Byte} {v : Bytes} {ok : Bool} (h : Guarded p x s)
    (he : ∀ g, x.Holds g → ∃ g', guardStep p (some g) (.xfer d a v ok s.now) = some g' ∧ y.Holds g') :
    Guarded p y (Machine.emit (.xfer d a v ok s.now) (drawn s)) :=
  h.event he rfl rfl (transact_answers h.answers).1

/-- A write the observer allows does to the brackets what it was told. -/
theorem Guarded.write {x : Ward} {s : State} {a : Byte} {v : Source} {ok bad : Ward → Prop} (h : Guarded p x s)
    (hw : wardWrite p a v ok bad x) :
    (∃ y, ok y ∧ Guarded p y (Machine.emit (.xfer .write a (v.bytes s) true s.now) (drawn s))) ∧
    ∃ y, bad y ∧ Guarded p y (Machine.emit (.xfer .write a (v.bytes s) false s.now) (drawn s)) := by
  have control : kindOf a = none → (∀ g, x.Holds g → ∀ k, g = .dirty k → a = (switchOf p k).addr) →
      ∀ r, Guarded p .clean (Machine.emit (.xfer .write a (v.bytes s) r s.now) (drawn s)) := fun hk hg _ =>
    h.xfer fun g hx => ⟨_, guardStep_control p hk (hg g hx) .., holds_opened _⟩
  cases x with
  | clean =>
    obtain ⟨hk, hbad, hok⟩ := hw
    have hg : ∀ g, Ward.clean.Holds g → ∀ k, g = .dirty k → a = (switchOf p k).addr := fun g hx k hd =>
      absurd hd (hx k)
    refine ⟨?_, .clean, hbad, control hk hg _⟩
    obtain hok | ⟨k, rfl, rfl, hok⟩ := hok
    · exact ⟨.clean, hok, control hk hg _⟩
    · exact ⟨.opened k, hok, h.xfer fun g hx =>
        ⟨_, guardStep_control p hk (hg g hx) .., .inl ⟨_, rfl, mem_opensBy p k⟩⟩⟩
  | opened k =>
    obtain ⟨hk, hok, hbad⟩ | ⟨hk, rfl, hok, hbad⟩ := hw
    · have hstep : ∀ r, Guarded p (.opened k) (Machine.emit (.xfer .write a (v.bytes s) r s.now) (drawn s)) :=
        fun r => h.xfer fun g hx => ⟨_, guardStep_coefficient p hk hx .., .inr rfl⟩
      exact ⟨⟨_, hok, hstep true⟩, _, hbad, hstep false⟩
    · have hg : ∀ g, (Ward.opened k).Holds g → ∀ k', g = .dirty k' → (switchOf p k).addr = (switchOf p k').addr := by
        rintro g (⟨ks, rfl, -⟩ | rfl) k' hd
        · cases hd
        · cases hd
          rfl
      exact ⟨⟨_, hok, control hk hg _⟩, _, hbad, control hk hg _⟩

theorem Guarded.onFailure {x : Ward} {s : State} (h : Guarded p x s) (a : Byte) (f : OnFail)
    {on : Nat → Ward → Prop} {out : Ward → Prop} (hf : f.next on out x) :
    (onFailure a f s).Within (Guarded p) (Closed p) on out := by
  have hlog : ∀ e u, Guarded p x u → Guarded p x (Machine.logErr e u) := fun e _ hu => hu.logErr e
  cases f with
  | log => exact ⟨x, x, h, hlog _, hf⟩
  | logSkip n => exact ⟨x, x, h, hlog _, hf⟩
  | logFail n => exact ⟨x, x, h.unseen ⟨rfl, rfl, rfl, rfl⟩, hlog _, hf⟩
  | raise => exact ⟨x, x, h, hlog _, hf⟩
  | raiseTo d => exact ⟨x, x, x, h, fun _ hu => hu.setState d, hlog _, hf⟩

theorem guarded_perform (m : Micro) {x : Ward} {s : State} {on : Nat → Ward → Prop} {out : Ward → Prop}
    (h : Guarded p x s) (hm : (wardWatch p).asks m x on out) : (perform m s).Within (Guarded p) (Closed p) on out := by
  have hlog : ∀ y e u, Guarded p y u → Guarded p y (Machine.logErr e u) := fun _ e _ hu => hu.logErr e
  have hquiet : m.unseen = true → on 0 x → (perform m s).Within (Guarded p) (Closed p) on out := by
    intro hu hon
    obtain ⟨t, ht, ut⟩ := perform_unseen hu s
    rw [ht]
    exact ⟨x, hon, h.unseen ut⟩
  cases m
  case require l =>
    simp only [perform]
    split
    · exact ⟨x, hm.1, h⟩
    · exact ⟨x, x, h, hlog x _, hm.2⟩
  case raise e => exact ⟨x, x, h, hlog x _, hm⟩
  case log e => exact ⟨x, hm, h.logErr e⟩
  case setState d => exact ⟨x, hm, h.setState d⟩
  case unmute =>
    refine ⟨x, hm, ?_⟩
    split
    · exact h.setState _
    · exact h
  case gpio l a =>
    refine ⟨x, hm, h.inner (e := .pin l _ s.now) rfl rfl (gpio_trace s l _) (gpio_params s l _) ?_⟩
    simp only [Machine.answers, gpio_scratch, gpio_env]
  case write a v f =>
    obtain ⟨⟨y, hy, hok⟩, z, hz, hbad⟩ := h.write hm
    simp only [perform, memWrite]
    obtain ⟨-, ⟨b, ht⟩ | ht⟩ := transact_answers h.answers <;> rw [ht]
    · exact ⟨y, hy, hok⟩
    · exact hbad.onFailure a f hz
  case read a n =>
    obtain ⟨rfl, hok, hbad⟩ := hm
    have hx : ∀ v r, Guarded p .clean (Machine.emit (.xfer .read a v r s.now) (drawn s)) := fun v r =>
      h.xfer fun g hg => ⟨_, guardStep_read p hg .., holds_shut⟩
    simp only [perform, memRead]
    obtain ⟨-, ⟨b, ht⟩ | ht⟩ := transact_answers h.answers <;> rw [ht]
    · exact ⟨.clean, hok, (hx _ true).unseen ⟨rfl, rfl, rfl, rfl⟩⟩
    · exact ⟨.clean, .clean, hx _ _, hlog _ _, hbad⟩
  case parse =>
    simp only [perform]
    split
    · exact ⟨x, hm.1, h.unseen ⟨rfl, rfl, rfl, rfl⟩⟩
    · exact ⟨x, x, h, hlog x _, hm.2⟩
  case ifOk n =>
    refine ⟨x, ?_, h⟩
    split
    · exact hm.1
    · exact hm.2
  all_goals exact hquiet rfl hm

theorem ward_sound (p : Params) : (wardWatch p).Sound (Guarded p) (Closed p) where
  settled _ _ h hc := h.unseen (settled_unseen hc)
  abandoned x _ h hc := agentsAct_abandoned (P := Guarded p x) hc (h.unseen ⟨rfl, rfl, rfl, rfl⟩)
    (fun _ _ ha hu => hu.act ha) (fun _ hu => hu.blockReset) fun a _ hu => hu.act a
  advance _ _ _ h := h.unseen ⟨rfl, rfl, rfl, rfl⟩
  complete x _ he h := by
    obtain rfl : x = .clean := he
    exact h.complete
  perform m _ _ _ _ h hm := guarded_perform m h hm

end

/-! ### The rules -/

/-- `a` is the address of a control register of R11. -/
def IsControl (p : Params) (a : Byte) : Prop := ∃ e ∈ p.regs.entries, e.addr = a

theorem kindOf_control {p : Params} (h : controlsOffBanks p = true) {a : Byte} (ha : IsControl p a) :
    kindOf a = none := by
  obtain ⟨e, he, rfl⟩ := ha
  rw [kindOf_eq_none_iff]
  simpa using List.all_eq_true.1 h e he

theorem isControl_vol (p : Params) (k : Nat) (hk : k < 4) : IsControl p p.regs.vol[k].addr :=
  ⟨p.regs.vol[k], by simp [ControlRegs.entries], rfl⟩

theorem isControl_switch (p : Params) (k : Kind) : IsControl p (switchOf p k).addr := by
  cases k
  · exact ⟨⟨p.regs.eqCtrl.addr, p.regs.eqCtrl.on⟩, by simp [ControlRegs.entries], rfl⟩
  · exact ⟨⟨p.regs.drcCtrl.addr, p.regs.drcCtrl.on⟩, by simp [ControlRegs.entries], rfl⟩

theorem isControl_softMute (p : Params) : IsControl p p.regs.softMute.addr :=
  ⟨⟨p.regs.softMute.addr, p.regs.softMute.on⟩, by simp [ControlRegs.entries], rfl⟩

theorem isControl_stop (p : Params) : IsControl p p.regs.stop.addr := by simp [IsControl, ControlRegs.entries]

theorem isControl_inputMux (p : Params) : IsControl p p.regs.inputMux.addr := by simp [IsControl, ControlRegs.entries]

section
variable {p : Params}

/-- A write outside the coefficient banks, between brackets. -/
theorem ward_write {a : Byte} (ha : kindOf a = none) (v : Source) {f : OnFail} {rest : List Micro}
    (h : (wardWatch p).Passes rest 0 .clean)
    (hf : f.next ((wardWatch p).Passes rest) (wardWatch p).ends .clean) :
    (wardWatch p).Passes (.write a v f :: rest) 0 .clean := ⟨ha, hf, .inl h⟩

theorem ward_cw {a : Byte} (ha : kindOf a = none) (v : Bytes) : (wardWatch p).Leads [cw a v] .clean .clean :=
  fun _ h => ward_write ha _ h h

/-- Every write of a plain statement goes to a control register. -/
def Micro.controls (p : Params) : Micro → Prop
  | .write a _ _ => IsControl p a
  | _ => True

theorem ward_plains (hc : controlsOffBanks p = true) {ms : List Micro} (hm : ∀ m ∈ ms, m.plain = true ∧ m.controls p) :
    (wardWatch p).Leads ms .clean .clean := by
  refine Watch.leads_of_forall fun m h => ?_
  obtain ⟨hplain, hctl⟩ := hm m h
  cases m
  case log | gpio | wait | setState => exact fun _ h => h
  case write a v f =>
    cases v <;> cases f <;> cases hplain
    exact ward_cw (kindOf_control hc hctl) _
  all_goals cases hplain

/-- Image writes of a bank that is open. -/
theorem ward_imageWrites {k : Kind} {img : List (Byte × Source)} (hi : ∀ q ∈ img, kindOf q.1 = some k) :
    (wardWatch p).Leads (imageWrites img) (.opened k) (.opened k) := by
  induction img with
  | nil => exact Watch.leads_nil _
  | cons q img ih =>
    obtain ⟨hq, hr⟩ := List.forall_mem_cons.1 hi
    exact fun rest h => .inl ⟨hq, ih hr rest h, imageWrites_length img ▸ Watch.passes_append_length h⟩

/-- A bracket is closed where it ends, whatever fails in it. -/
theorem ward_bracket (hc : controlsOffBanks p = true) {k : Kind} {img : List (Byte × Source)}
    (hi : ∀ q ∈ img, kindOf q.1 = some k) : (wardWatch p).Leads (bracket p k img) .clean .clean := by
  intro rest h
  have hk := kindOf_control hc (isControl_switch p k)
  have hopen : (wardWatch p).Passes (closingWrite p k :: rest) 0 (.opened k) := .inr ⟨hk, rfl, h, h⟩
  have hclean : (wardWatch p).Passes (closingWrite p k :: rest) 0 .clean := ward_write hk _ h h
  simp only [bracket, List.append_assoc, List.cons_append, List.nil_append]
  exact ⟨hk, imageWrites_length img ▸ Watch.passes_append_length hclean,
    .inr ⟨k, rfl, rfl, ward_imageWrites hi _ hopen⟩⟩

theorem kindOf_patchImage (k : Kind) : ∀ q ∈ patchImage k, kindOf q.1 = some k := by
  intro q hq
  obtain ⟨a, ha, rfl⟩ := List.mem_map.1 hq
  exact kindOf_of_mem ha

theorem kindOf_litImage {k : Kind} {img : Image} (h : img.map Prod.fst = k.addrs) :
    ∀ q ∈ litImage img, kindOf q.1 = some k := by
  intro q hq
  obtain ⟨r, hr, rfl⟩ := List.mem_map.1 hq
  exact kindOf_of_mem (h ▸ List.mem_map_of_mem hr)

theorem platformDrc_addrs {img : Image} (h : platformDrc p = some img) : img.map Prod.fst = Kind.drc.addrs := by
  unfold platformDrc at h
  split at h
  · exact loadDrc_addrs h
  · cases h

theorem platformEq_addrs {i : Byte} {img : Image} (h : platformEq p i = some img) :
    img.map Prod.fst = Kind.eq.addrs := by
  unfold platformEq at h
  split at h
  · cases h
  · exact loadEq_addrs h

theorem ward_guardedBrackets (hc : controlsOffBanks p = true) :
    (wardWatch p).Leads (guardedBrackets p) .clean .clean := by
  refine (ward_bracket hc (kindOf_patchImage .drc)).append (bs := .ifOk _ :: bracket p .eq _) fun rest h => ?_
  exact ⟨ward_bracket hc (kindOf_patchImage .eq) rest h, Watch.passes_append_length h⟩

theorem ward_muteGuard (hc : controlsOffBanks p = true) : (wardWatch p).Leads (muteGuard p) .clean .clean := by
  intro rest h
  have hm := kindOf_control hc (isControl_softMute p)
  have hlast : (wardWatch p).Passes
      (.write p.regs.softMute.addr (.lit p.regs.softMute.off) .log :: .unmute :: rest) 0 .clean :=
    ward_write hm _ h h
  have hguard := ward_guardedBrackets hc _ hlast
  simp only [muteGuard, List.append_assoc, List.cons_append, List.nil_append]
  refine ward_write hm _ hguard ?_
  show (wardWatch p).Passes (_ :: _) (1 + _) _
  rw [Nat.add_comm]
  exact Watch.passes_append_length hlast

theorem controls_head : ∀ m ∈ bringupHead p, m.controls p := by
  cases hb : pinsBound p <;>
    simp [bringupHead, powerUp, hb, configGroup1, cwReg, cw, Micro.controls, IsControl, ControlRegs.entries]

theorem controls_tail (i : Instr) (s : State) : ∀ m ∈ bringupTail i s, m.controls s.params := by
  have hmux : ∀ m ∈ initMuxOverride s.params, m.controls s.params := by
    unfold initMuxOverride
    split
    · simp
    · split <;> simp [cw, Micro.controls, isControl_inputMux]
  have h2 : ∀ m ∈ configGroup2 s.params, m.controls s.params := by
    simp [configGroup2, cwReg, cw, Micro.controls, IsControl, ControlRegs.entries]
  have hentry : ∀ m ∈ runningEntry s.params, m.controls s.params := by
    simp [runningEntry, cwReg, cw, Micro.controls, isControl_vol, isControl_softMute]
  have hsnap : ∀ m ∈ (if i = .resume ∧ s.snapValid = true then restoreSnapshot s.params s.snap else []),
      m.controls s.params := by
    split <;> simp [restoreSnapshot, cw, Micro.controls, isControl_vol]
  simp only [bringupTail, List.append_assoc, List.forall_mem_append]
  exact ⟨hmux, h2, by simp [Micro.controls], hentry, hsnap⟩

theorem ward_banks (hc : controlsOffBanks p = true) (i : Byte) :
    (wardWatch p).Leads (bankRules p i) .clean .clean := by
  refine Watch.Leads.append (Watch.Leads.ite ?_) (Watch.Leads.ite ?_)
  · unfold drcAtBringup
    split
    · exact fun _ h => h
    next hd => exact ward_bracket hc (kindOf_litImage (platformDrc_addrs hd))
  · unfold eqAtBringup
    split
    · exact fun _ h => h
    next hd => exact ward_bracket hc (kindOf_litImage (platformEq_addrs hd))

theorem ward_bringup (i : Instr) (s : State) (hc : controlsOffBanks s.params = true) :
    (wardWatch s.params).Passes (.require dsForBringup :: bringupParts i s) 0 .clean := by
  have hhead : (wardWatch s.params).Leads (bringupHead s.params) .clean .clean :=
    ward_plains hc fun m hm => ⟨plain_bringupHead _ m hm, controls_head m hm⟩
  have htail : (wardWatch s.params).Leads (bringupTail i s) .clean .clean :=
    ward_plains hc fun m hm => ⟨plain_bringupTail i s m hm, controls_tail i s m hm⟩
  exact ⟨((hhead.append (ward_banks hc _)).append htail).passes rfl, rfl⟩

theorem ward_powerDown (hc : controlsOffBanks p = true) : (wardWatch p).Passes (powerDown p) 0 .clean := by
  unfold powerDown
  split
  · exact ward_write (kindOf_control hc (isControl_stop p)) _ rfl rfl
  · rfl

theorem ward_takeSnapshot : (wardWatch p).Leads (takeSnapshot p) .clean .clean :=
  fun _ h => ⟨rfl, ⟨rfl, ⟨rfl, ⟨rfl, h, rfl⟩, rfl⟩, rfl⟩, rfl⟩

/-- A raw write is let through to no coefficient (R110). -/
theorem writableOperand_unprotected {a : Byte} {l : Half} {w : Nat} (h : writableOperand p a l = .ok w) :
    isProtected p a = false := by
  unfold writableOperand at h
  split at h
  · cases h
  · split at h
    · cases h
    next hp => exact Bool.eq_false_iff.2 hp

theorem kindOf_unprotected {a : Byte} (h : isProtected p a = false) : kindOf a = none := by
  rw [kindOf_eq_none_iff]
  simp only [isProtected, Bool.or_eq_false_iff] at h
  exact h.1.1

/-- A blob that passes the check of SELECT_PRESET loads (R125). -/
theorem presetOperand_ok {a : Byte} {blob : Bytes} (h : presetOperand p a = .ok blob) : blob.length = 360 := by
  unfold presetOperand at h
  split at h
  · cases h
  · split at h
    next hl => cases h; exact hl
    · cases h

theorem kindOf_presetImage {a : Byte} {blob : Bytes} (h : presetOperand p a = .ok blob) :
    ∀ q ∈ litImage ((loadEq blob).getD []), kindOf q.1 = some .eq := by
  have hload := loadEq_some (presetOperand_ok h)
  rw [hload]
  exact kindOf_litImage (loadEq_addrs hload)

end

/-- Every command's rule, from a state with no bank open. -/
theorem ward_rule (i : Instr) (s : State) (hc : controlsOffBanks s.params = true) :
    ∃ rule, exec i s = runRule rule s ∧ (wardWatch s.params).Passes rule 0 .clean := by
  cases i
  case bringup => exact ⟨_, exec_bringup_parts (.inl rfl) s, ward_bringup _ s hc⟩
  case resume => exact ⟨_, exec_bringup_parts (.inr rfl) s, ward_bringup _ s hc⟩
  case shutdown => exact ⟨_, rfl, ward_powerDown hc, rfl⟩
  case rstPulse =>
    refine ⟨_, rfl, ?_, rfl⟩
    unfold resetPulse
    split <;> rfl
  case suspend =>
    refine ⟨_, rfl, ?_, rfl⟩
    split
    · exact ward_takeSnapshot _ (ward_powerDown hc)
    · rfl
  case regRead a l =>
    refine ⟨_, rfl, ?_, rfl⟩
    split
    · rfl
    · exact ⟨rfl, rfl, rfl⟩
  case regWrite a l =>
    refine ⟨_, rfl, ?_, rfl⟩
    split
    · rfl
    next hw => exact ward_write (kindOf_unprotected (writableOperand_unprotected hw)) _ rfl rfl
  case setEnabled e =>
    have hdrc := kindOf_control hc (isControl_switch s.params .drc)
    have heq := kindOf_control hc (isControl_switch s.params .eq)
    exact ⟨_, rfl, ward_write heq _ (ward_write hdrc _ rfl rfl) rfl, rfl⟩
  case selectPreset a =>
    refine ⟨_, rfl, ?_, rfl⟩
    split
    · rfl
    next hb => exact ward_bracket hc (kindOf_presetImage hb) _ ⟨rfl, rfl⟩
  case patchApply l =>
    refine ⟨_, rfl, ?_, rfl⟩
    split
    · rfl
    · exact ⟨(ward_muteGuard hc).passes rfl, rfl⟩
  case status => exact ⟨_, rfl, rfl⟩

/-! ### The step -/

theorem execWord_closed {w : Word32} {s t : State} (h : Guarded s.params .clean s)
    (hc : controlsOffBanks s.params = true) (hpc : s.seqPc = 0) (ht : execWord w s = .next t) : Closed s.params t := by
  have hrule : ∃ rule, execWord w s = runRule rule s ∧ (wardWatch s.params).Passes rule 0 .clean := by
    unfold execWord
    split
    · exact ward_rule _ s hc
    · exact ⟨_, rfl, rfl⟩
  obtain ⟨rule, hx, hp⟩ := hrule
  obtain ⟨-, rfl⟩ := runRule_next (hx.symm.trans ht)
  rw [hpc, List.drop_zero]
  exact run_watched (ward_sound s.params) hp h

theorem Closed.grant {p : Params} {s : State} (h : Closed p s) (g : Nat) (w : Word32) :
    Guarded p .clean (grant g w s) := by
  have ha := h.guarded.answers
  simp only [answers, Bool.and_eq_true] at ha
  refine h.guarded.event (e := .grant g w s.now) (fun g hg => ⟨.shut, guardStep_grant p hg .., holds_shut⟩)
    (grant_trace s g w) (grant_params s g w) ?_
  simp only [answers, Bool.and_eq_true]
  exact ⟨⟨rfl, ha.1.2⟩, ha.2⟩

/-- A step between commands leaves no bank open. -/
theorem step_closed {s t : State} (h : Closed s.params s) (hc : controlsOffBanks s.params = true)
    (ht : step s = .next t) : Closed s.params t := by
  obtain ⟨g, hg, -⟩ | ⟨-, rfl⟩ | ⟨g, w, -, -, hx⟩ := step_next ht
  · exact absurd (hg.symm.trans h.lock) nofun
  · exact h.agentsAct
  · have ha := h.agentsAct
    have hs : Closed s.params (settled s) := ⟨ha.guarded.unseen ⟨rfl, rfl, rfl, rfl⟩, ha.lock⟩
    have hg := hs.grant g w
    have hp := hg.params
    rw [← hp] at hg hc ⊢
    exact execWord_closed hg hc rfl hx

/-- Settles O59: an observer that knows which bank is open goes through every rule (`ward_rule`): a failed disable write
passes over the image, and the closing write always comes. -/
theorem coefficientWritesAreBracketed : Obligations.CoefficientWritesAreBracketed := by
  intro s t hl ha _ hc hg ht
  have h := step_closed ⟨⟨ha, rfl, hg⟩, hl⟩ hc ht
  refine ⟨h.lock, h.guarded.answers, h.guarded.params, ?_⟩
  rw [h.guarded.params]
  exact h.guarded.guard

end Sys2Proof.Machine

/-! Runs that fall through their statements: what a quiet run computes, and when its events are stamped. -/

namespace Sys2Proof.Machine

/-! ### Quiet runs of a part of a rule -/

/-- The quiet run of statements each of which goes on to the next; `none` where one does not. -/
def flow : List Micro → State → Option State
  | [], q => some q
  | m :: ms, q =>
    match perform m q with
    | .go 0 t => flow ms (still t)
    | _ => none

theorem flow_cons {m : Micro} {ms : List Micro} {q t : State} (h : perform m q = .go 0 t) :
    flow (m :: ms) q = flow ms (still t) := by
  simp only [flow, h]

theorem flow_wait {d : Nat} {ms : List Micro} {q : State} (h : still (wait d q) = q) :
    flow (.wait d :: ms) q = flow ms q := by
  rw [flow_cons (t := wait d q) rfl, h]

theorem flow_append {as : List Micro} {q r : State} (h : flow as q = some r) (bs : List Micro) :
    flow (as ++ bs) q = flow bs r := by
  induction as generalizing q with
  | nil => cases h; rfl
  | cons m as ih =>
    simp only [flow] at h
    split at h
    next t hm => exact (flow_cons hm).trans (ih h)
    · cases h

/-- `t` is later than `s` by `c` at least, and the events between are stamped in between. -/
structure Later (c : Nat) (s t : State) : Prop where
  kept : Kept s t
  noReset : noReset t = true
  due : Machine.due s + c ≤ Machine.due t
  stamps : ∃ es, t.trace = s.trace ++ es ∧ ∀ e ∈ es, Machine.due s ≤ e.stamp ∧ e.stamp ≤ t.now

theorem Later.trans {c d : Nat} {s t u : State} (a : Later c s t) (b : Later d t u) : Later (c + d) s u where
  kept := a.kept.trans b.kept
  noReset := b.noReset
  due := by have := a.due; have := b.due; omega
  stamps := by
    obtain ⟨es, ht, hes⟩ := a.stamps
    obtain ⟨fs, hu, hfs⟩ := b.stamps
    refine ⟨es ++ fs, by rw [hu, ht, List.append_assoc], fun e he => ?_⟩
    obtain he | he := List.mem_append.1 he
    · exact ⟨(hes e he).1, (hes e he).2.trans b.kept.now⟩
    · have := hfs e he
      have := a.due
      omega

theorem Later.refl {s : State} (h : Machine.noReset s = true) : Later 0 s s :=
  ⟨.refl s, h, Nat.le_refl _, [], by simp, by simp⟩

/-- One statement: its events are stamped when it is due or later, and it asks for its wait. -/
theorem perform_later (m : Micro) {s : State} (h : noReset s = true) {n : Nat} {t : State}
    (hp : perform m (settled s) = .go n t) : Later m.cost s (advance (n + 1) t) := by
  have w := perform_works m (settled s)
  have hd := perform_due m (settled s)
  rw [hp] at w hd
  simp only [Effect.state] at w hd
  obtain ⟨es, ht, hes⟩ := w.trace
  refine ⟨((settled_kept h).trans w.kept).trans (advance_works _ _).kept, by simpa using w.noReset (noReset_settled h),
    (Nat.add_le_add_right (settled_due h) _).trans hd, es, ?_, fun e he => ?_⟩
  · exact ht.trans (congrArg (· ++ es) (settled_trace h))
  · rw [(hes e he).1]
    exact ⟨settled_due h, w.now.ge⟩

/-- What a flow computes is what the run of the part does, up to what comes after it. -/
theorem run_flow {ms : List Micro} (hm : ∀ m ∈ ms, m.offStage = true) {s q : State} (h : noReset s = true)
    (hf : flow ms (still s) = some q) (rest : List Micro) :
    ∃ t, run (ms ++ rest) 0 s = run rest 0 t ∧ still t = q ∧ Later (waits ms) s t ∧
      ((∀ m ∈ ms, m.prompt = true) → t.waitUntil = s.waitUntil) := by
  induction ms generalizing s with
  | nil =>
    cases hf
    exact ⟨s, rfl, rfl, .refl h, fun _ => rfl⟩
  | cons m ms ih =>
    obtain ⟨hm, hr⟩ := List.forall_mem_cons.1 hm
    have hp := still_perform hm (settled s)
    rw [still_settled h] at hp
    simp only [flow] at hf
    split at hf
    next r hq =>
      rw [hq] at hp
      cases hx : perform m (settled s) with
      | go n t =>
        rw [hx] at hp
        obtain ⟨rfl, hst⟩ := Effect.go.inj hp
        have hl := perform_later m h hx
        rw [hst] at hf
        obtain ⟨u, hu, hsu, hlu, hwu⟩ := ih hr (s := advance 1 t) hl.noReset hf
        refine ⟨u, (run_go h _ hx).trans hu, hsu, hl.trans hlu, fun hpr => ?_⟩
        obtain ⟨hpm, hpr⟩ := List.forall_mem_cons.1 hpr
        have hwt := perform_waitUntil hpm (settled s)
        rw [hx] at hwt
        exact (hwu hpr).trans (hwt.trans (settled_waitUntil h))
      | logged | raised | waiting => rw [hx] at hp; cases hp
    · cases hf

/-- A rule that falls through to its end, as `runRule_quiet` has it. -/
theorem quiet_of_flow {ms : List Micro} {q r : State} (h : flow ms q = some r) : quiet ms 0 q = .done r := by
  induction ms generalizing q with
  | nil => cases h; rfl
  | cons m ms ih =>
    simp only [flow] at h
    split at h
    next hm => simp only [quiet, hm]; exact ih h
    · cases h

/-! ### Events with their stamps -/

/-- An event with the stamp `n`. -/
def Event.stampedAt (n : Nat) : Event → Event
  | .pin l v _ => .pin l v n
  | .xfer d a b r _ => .xfer d a b r n
  | .state d _ => .state d n
  | .log e _ => .log e n
  | .grant h w _ => .grant h w n
  | .resp h c i d _ => .resp h c i d n
  | .reset _ => .reset n

theorem Event.untimed_stampedAt (e : Event) : e.untimed.stampedAt e.stamp = e := by cases e <;> rfl

theorem Later.events {c : Nat} {s t : State} (h : Later c s t) {us : List Event}
    (hu : (still t).trace = (still s).trace ++ us) :
    ∃ es, t.trace = s.trace ++ es ∧ es.map Event.untimed = us ∧ ∀ e ∈ es, Machine.due s ≤ e.stamp ∧ e.stamp ≤ t.now := by
  obtain ⟨es, ht, hes⟩ := h.stamps
  refine ⟨es, ht, ?_, hes⟩
  rw [still_trace, still_trace, ht, List.map_append] at hu
  exact List.append_cancel_left hu

/-- Where the still part is the same, no event has been made. -/
theorem Later.silent {c : Nat} {s t : State} (h : Later c s t) (hs : still t = still s) : t.trace = s.trace := by
  obtain ⟨es, ht, hes, -⟩ := h.events (us := []) (by rw [hs, List.append_nil])
  rw [ht, List.map_eq_nil_iff.1 hes, List.append_nil]

/-! ### A rule in three parts with two waits between them -/

theorem apart_of_le {d n : Nat} {es fs : List Event} (hes : ∀ e ∈ es, e.stamp + d ≤ n) (hfs : ∀ f ∈ fs, n ≤ f.stamp) :
    apart d es fs := fun e he f hf => (hes e he).trans (hfs f hf)

/-- What a granted command does whose rule waits twice and falls through to its end: its events in three parts, a wait
apart, and the fields a flow of its parts computes. -/
theorem runRule_flow {h : Nat} {s a b c : State} {as bs cs : List Micro} {d d' : Nat} {us vs ws : List Event}
    (g : Granted h s) (hn : noReset s = true) (hm : ∀ m ∈ as ++ bs ++ cs, m.offStage = true)
    (ha : flow as (still s) = some a) (hb : flow bs a = some b) (hc : flow cs b = some c)
    (hwa : still (wait d a) = a) (hwb : still (wait d' b) = b)
    (ea : a.trace = (still s).trace ++ us) (eb : b.trace = a.trace ++ vs) (ec : c.trace = b.trace ++ ws) :
    ∃ t es₁ es₂ es₃, runRule (as ++ .wait d :: (bs ++ .wait d' :: cs)) s = .next t ∧
      t.trace = s.trace ++ (es₁ ++ es₂ ++ es₃) ∧ es₁.map Event.untimed = us ∧ es₂.map Event.untimed = vs ∧
      es₃.map Event.untimed = ws ++ [.resp h (responseOf c).status (responseOf c).info (responseOf c).data 0] ∧
      apart d es₁ es₂ ∧ apart d' es₂ es₃ ∧ t.lock = none ∧ respAt t h = some (responseOf c) ∧ t.ds = c.ds ∧
      t.pinRst = c.pinRst ∧ t.pinPd = c.pinPd ∧ t.eqEnabled = c.eqEnabled ∧ t.eqPreset = c.eqPreset ∧
      t.snapValid = c.snapValid ∧ t.snap = c.snap := by
  simp only [List.forall_mem_append] at hm
  obtain ⟨⟨hma, hmb⟩, hmc⟩ := hm
  obtain ⟨s₁, r1, q1, l1, -⟩ := run_flow hma hn ha (.wait d :: (bs ++ .wait d' :: cs))
  obtain ⟨s₂, r2, q2, l2, -⟩ := run_flow (ms := [.wait d]) (by simp [Micro.offStage]) l1.noReset
    (by rw [q1, flow_wait hwa]; rfl)
    (bs ++ .wait d' :: cs)
  obtain ⟨s₃, r3, q3, l3, -⟩ := run_flow hmb l2.noReset (by rw [q2]; exact hb) (.wait d' :: cs)
  obtain ⟨s₄, r4, q4, l4, -⟩ := run_flow (ms := [.wait d']) (by simp [Micro.offStage]) l3.noReset
    (by rw [q3, flow_wait hwb]; rfl)
    cs
  obtain ⟨s₅, r5, q5, l5, -⟩ := run_flow hmc l4.noReset (by rw [q4]; exact hc) []
  have hn5 := l5.noReset
  have hk : Kept s (settled s₅) :=
    (((l1.kept.trans l2.kept).trans (l3.kept.trans l4.kept)).trans l5.kept).trans (settled_kept hn5)
  have hst : still (settled s₅) = c := (still_settled hn5).trans q5
  have hrun : run (as ++ .wait d :: (bs ++ .wait d' :: cs)) 0 s = complete (settled s₅) := by
    rw [List.append_nil] at r5
    exact r1.trans (r2.trans (r3.trans (r4.trans (r5.trans (run_done hn5)))))
  obtain ⟨es₁, t1, u1, b1⟩ := l1.events (us := us) (by rw [q1, ea])
  obtain ⟨es₂, t3, u3, b3⟩ := l3.events (us := vs) (by rw [q3, q2, eb])
  obtain ⟨es₃, t5, u5, b5⟩ := l5.events (us := ws) (by rw [q5, q4, ec])
  have t2 := l2.silent (q2.trans q1.symm)
  have t4 := l4.silent (q4.trans q3.symm)
  obtain ⟨hresp, htr, -, -⟩ := complete_spec (hk.lock.trans g.1) (by rw [hk.count]; exact g.2.1)
  have hro : responseOf (settled s₅) = responseOf c := by rw [← hst]; rfl
  rw [hro] at hresp htr
  have hnow : due s₄ ≤ (settled s₅).now := by have := l5.due; have := settled_due hn5; omega
  refine ⟨_, es₁, es₂, es₃ ++ [.resp h (responseOf c).status (responseOf c).info (responseOf c).data (settled s₅).now],
    (runRule_granted g _).trans (congrArg _ hrun), ?_, u1, u3, ?_, ?_, ?_, complete_lock _, hresp, ?_⟩
  · rw [htr, settled_trace hn5, t5, t4, t3, t2, t1]
    simp only [List.append_assoc]
  · rw [List.map_append, u5]
    rfl
  · refine apart_of_le (n := due s₂) (fun e he => ?_) fun e he => (b3 e he).1
    have := (b1 e he).2
    have := now_le_due s₁
    have := l2.due
    simp only [waits, List.map_cons, List.map_nil, List.sum_cons, List.sum_nil, Micro.cost] at this
    omega
  · refine apart_of_le (n := due s₄) (fun e he => ?_) ?_
    · have := (b3 e he).2
      have := now_le_due s₃
      have := l4.due
      simp only [waits, List.map_cons, List.map_nil, List.sum_cons, List.sum_nil, Micro.cost] at this
      omega
    · simp only [List.forall_mem_append, List.forall_mem_singleton]
      exact ⟨fun e he => (b5 e he).1, hnow⟩
  · rw [← hst]
    simp

end Sys2Proof.Machine

/-! Statements on still states: what each does there, as an equation. -/

namespace Sys2Proof.Machine

/-- A state with nothing in it that other agents act on. -/
def Still (q : State) : Prop := still q = q

theorem still_of_still (s : State) : Still (still s) := still_still s

/-- A write that the Device took, as a still state shows it. -/
def took (a : Byte) (v : Bytes) (q : State) : State := emit (.wrote a v) (drawn q)

/-- A write that the Device failed. -/
def missed (a : Byte) (v : Bytes) (q : State) : State := emit (.failed a v) (drawn q)

/-- A read that the Device answered with `b`, which the rule has added to its bytes. -/
def got (a : Byte) (b : Bytes) (q : State) : State :=
  setBuf (q.scratch.buf ++ b) (emit (.xfer .read a b true 0) (drawn q))

/-! What they leave, field by field: each statement is proved once, and a chain of them is read by `simp`. -/

section
variable (a : Byte) (v : Bytes) (q : State)

@[simp] theorem took_ds : (took a v q).ds = q.ds := rfl
@[simp] theorem took_eqEnabled : (took a v q).eqEnabled = q.eqEnabled := rfl
@[simp] theorem took_eqPreset : (took a v q).eqPreset = q.eqPreset := rfl
@[simp] theorem took_pinRst : (took a v q).pinRst = q.pinRst := rfl
@[simp] theorem took_pinPd : (took a v q).pinPd = q.pinPd := rfl
@[simp] theorem took_snapValid : (took a v q).snapValid = q.snapValid := rfl
@[simp] theorem took_snap : (took a v q).snap = q.snap := rfl
@[simp] theorem took_firstErr : (took a v q).firstErr = q.firstErr := rfl
@[simp] theorem took_params : (took a v q).params = q.params := rfl
@[simp] theorem took_lock : (took a v q).lock = q.lock := rfl
@[simp] theorem took_scratch : (took a v q).scratch = q.scratch := rfl
@[simp] theorem took_device : (took a v q).env.device = q.env.device.tail := rfl
@[simp] theorem took_thereafter : (took a v q).env.thereafter = q.env.thereafter := rfl
@[simp] theorem took_trace : (took a v q).trace = q.trace ++ [.wrote a v] := rfl

@[simp] theorem missed_ds : (missed a v q).ds = q.ds := rfl
@[simp] theorem missed_eqEnabled : (missed a v q).eqEnabled = q.eqEnabled := rfl
@[simp] theorem missed_eqPreset : (missed a v q).eqPreset = q.eqPreset := rfl
@[simp] theorem missed_pinRst : (missed a v q).pinRst = q.pinRst := rfl
@[simp] theorem missed_pinPd : (missed a v q).pinPd = q.pinPd := rfl
@[simp] theorem missed_snapValid : (missed a v q).snapValid = q.snapValid := rfl
@[simp] theorem missed_snap : (missed a v q).snap = q.snap := rfl
@[simp] theorem missed_firstErr : (missed a v q).firstErr = q.firstErr := rfl
@[simp] theorem missed_params : (missed a v q).params = q.params := rfl
@[simp] theorem missed_lock : (missed a v q).lock = q.lock := rfl
@[simp] theorem missed_scratch : (missed a v q).scratch = q.scratch := rfl
@[simp] theorem missed_device : (missed a v q).env.device = q.env.device.tail := rfl
@[simp] theorem missed_thereafter : (missed a v q).env.thereafter = q.env.thereafter := rfl
@[simp] theorem missed_trace : (missed a v q).trace = q.trace ++ [.failed a v] := rfl

@[simp] theorem got_ds : (got a v q).ds = q.ds := rfl
@[simp] theorem got_eqEnabled : (got a v q).eqEnabled = q.eqEnabled := rfl
@[simp] theorem got_eqPreset : (got a v q).eqPreset = q.eqPreset := rfl
@[simp] theorem got_pinRst : (got a v q).pinRst = q.pinRst := rfl
@[simp] theorem got_pinPd : (got a v q).pinPd = q.pinPd := rfl
@[simp] theorem got_snapValid : (got a v q).snapValid = q.snapValid := rfl
@[simp] theorem got_snap : (got a v q).snap = q.snap := rfl
@[simp] theorem got_firstErr : (got a v q).firstErr = q.firstErr := rfl
@[simp] theorem got_params : (got a v q).params = q.params := rfl
@[simp] theorem got_lock : (got a v q).lock = q.lock := rfl
@[simp] theorem got_scratch : (got a v q).scratch = { q.scratch with buf := q.scratch.buf ++ v } := rfl
@[simp] theorem got_device : (got a v q).env.device = q.env.device.tail := rfl
@[simp] theorem got_thereafter : (got a v q).env.thereafter = q.env.thereafter := rfl
@[simp] theorem got_trace : (got a v q).trace = q.trace ++ [.xfer .read a v true 0] := rfl

end

section
variable {q : State} (h : Still q)
include h

theorem Still.now : q.now = 0 := by rw [← h]; rfl

theorem Still.setState (d : DeviceState) : Still (setState d q) := by
  rw [← h, Still]
  simp [still, Machine.setState, emit, Function.comp_def]

theorem Still.gpio (l : Line) (v : Bool) : Still (gpio l v q) := by
  rw [← h, Still]
  cases l <;> simp [still, Machine.gpio, emit, Function.comp_def]

theorem Still.wait (d : Nat) : still (wait d q) = q := by
  conv_rhs => rw [← h]
  rfl

theorem Still.logErr (e : Err) : Still (logErr e q) := by
  rw [← h, Still]
  simp [still, Machine.logErr, emit, Function.comp_def]

theorem Still.took (a : Byte) (v : Bytes) : Still (took a v q) := by
  rw [← h, Still]
  simp [still, Machine.took, emit, drawn, Event.wrote, Function.comp_def]

theorem Still.missed (a : Byte) (v : Bytes) : Still (missed a v q) := by
  rw [← h, Still]
  simp [still, Machine.missed, emit, drawn, Event.failed, Function.comp_def]

theorem Still.got (a : Byte) (b : Bytes) : Still (got a b q) := by
  rw [← h, Still]
  simp [still, Machine.got, emit, drawn, setBuf, Function.comp_def]

theorem Still.setOk (b : Bool) : Still (setOk b q) := by
  rw [← h]
  exact congrArg (Machine.setOk b) (still_still q)

theorem Still.saveSnap : Still (saveSnap q) := by
  rw [← h]
  exact congrArg Machine.saveSnap (still_still q)

theorem Still.markSnap : Still (markSnap q) := by
  rw [← h]
  exact congrArg Machine.markSnap (still_still q)

theorem Still.setEqEnabled (e : Bool) : Still (setEqEnabled e q) := by
  rw [← h]
  exact congrArg (Machine.setEqEnabled e) (still_still q)

theorem Still.setPreset (i : Byte) : Still (setPreset i q) := by
  rw [← h]
  exact congrArg (Machine.setPreset i) (still_still q)

theorem Still.setData (b : Bytes) : Still (setData b q) := by
  rw [← h]
  exact congrArg (Machine.setData b) (still_still q)

end

/-! ### The Device on a still state -/

/-- The result of an answer; none where the Device is silent. -/
def Answer.result? : Answer → Option Bool
  | .ok _ => some true
  | .fail => some false
  | .silent => none

/-- A Device with script `dev`, and `th` after that, answers next, with the results `bs`. -/
def Hears (th : Answer) : List Bool → List Answer → Prop
  | [], _ => True
  | b :: bs, dev => (dev.headD th).result? = some b ∧ Hears th bs dev.tail

theorem hears_append {th : Answer} {as bs : List Bool} {dev : List Answer} :
    Hears th (as ++ bs) dev ↔ Hears th as dev ∧ Hears th bs (dev.drop as.length) := by
  induction as generalizing dev with
  | nil => simp [Hears]
  | cons a as ih => simp [Hears, ih, and_assoc]

/-- A script says what is heard. -/
theorem hears_script (th : Answer) {as rest : List Answer} {bs : List Bool}
    (h : as.map Answer.result? = bs.map some) : Hears th bs (as ++ rest) := by
  induction bs generalizing as with
  | nil => trivial
  | cons b bs ih =>
    obtain ⟨a, as, rfl, ha, has⟩ := List.map_eq_cons_iff.1 h
    exact ⟨ha, ih has⟩

theorem hears_of_isOk {th : Answer} (h : th.isOk = true) (n : Nat) {dev : List Answer}
    (hd : ∀ a ∈ dev, a.isOk = true) : Hears th (List.replicate n true) dev := by
  have result_isOk : ∀ a : Answer, a.isOk = true → a.result? = some true := by
    intro a ha
    cases a with
    | ok b => rfl
    | fail | silent => cases ha
  induction n generalizing dev with
  | zero => trivial
  | succ n ih =>
    refine ⟨result_isOk _ ?_, ih fun a ha => hd a (List.mem_of_mem_tail ha)⟩
    cases dev with
    | nil => exact h
    | cons a dev => exact hd a List.mem_cons_self

/-- No transaction is outstanding, and the Device's next answers have the results `bs`. -/
structure Ready (bs : List Bool) (q : State) : Prop where
  free : q.scratch.outstanding = false
  hears : Hears q.env.thereafter bs q.env.device

theorem ready_of_succeeds {s : State} (h : succeeds s = true) (n : Nat) : Ready (List.replicate n true) (still s) := by
  simp only [succeeds, Bool.and_eq_true, Bool.not_eq_true', List.all_eq_true] at h
  obtain ⟨⟨ho, hd⟩, hth⟩ := h
  exact ⟨ho, hears_of_isOk hth n hd⟩

theorem ready_of_script {s : State} {as rest : List Answer} {bs : List Bool} (ho : s.scratch = .empty)
    (hd : s.env.device = as ++ rest) (h : as.map Answer.result? = bs.map some) : Ready bs (still s) :=
  ⟨by rw [still_scratch, ho]; rfl, by rw [still_device, hd]; exact hears_script _ h⟩

theorem ready_of_nextAnswer {s : State} {b : Bool} (ho : s.scratch = .empty) (h : (nextAnswer s).result? = some b) :
    Ready [b] (still s) :=
  ⟨by rw [still_scratch, ho]; rfl, h, trivial⟩

/-- What an operation leaves to be heard that makes `n` transactions. -/
theorem Ready.later {as bs : List Bool} {q t : State} (h : Ready (as ++ bs) q)
    (ho : t.scratch.outstanding = q.scratch.outstanding) (hd : t.env.device = q.env.device.drop as.length)
    (hth : t.env.thereafter = q.env.thereafter) : Ready bs t :=
  ⟨ho.trans h.free, by rw [hd, hth]; exact (hears_append.1 h.hears).2⟩

theorem Ready.tail {b : Bool} {bs : List Bool} {q t : State} (h : Ready (b :: bs) q)
    (ho : t.scratch.outstanding = q.scratch.outstanding) (hd : t.env.device = q.env.device.tail)
    (hth : t.env.thereafter = q.env.thereafter) : Ready bs t :=
  h.later (as := [b]) ho (by rw [hd, List.length_singleton, List.drop_one]) hth

theorem Ready.same {bs : List Bool} {q t : State} (h : Ready bs q) (ho : t.scratch.outstanding = q.scratch.outstanding)
    (hd : t.env.device = q.env.device) (hth : t.env.thereafter = q.env.thereafter) : Ready bs t :=
  h.later (as := []) ho hd hth

theorem Ready.left {as bs : List Bool} {q : State} (h : Ready (as ++ bs) q) : Ready as q :=
  ⟨h.free, (hears_append.1 h.hears).1⟩

theorem Ready.ok {bs : List Bool} {q : State} (h : Ready (true :: bs) q) : ∃ b, nextAnswer q = .ok b := by
  have hr : (nextAnswer q).result? = some true := h.hears.1
  cases ha : nextAnswer q with
  | ok b => exact ⟨b, rfl⟩
  | fail | silent => rw [ha] at hr; cases hr

theorem Ready.fail {bs : List Bool} {q : State} (h : Ready (false :: bs) q) : nextAnswer q = .fail := by
  have hr : (nextAnswer q).result? = some false := h.hears.1
  cases ha : nextAnswer q with
  | fail => rfl
  | ok | silent => rw [ha] at hr; cases hr

/-! ### The statements -/

section
variable {q : State} (h : Still q) (ms : List Micro)

theorem flow_require {l : List DeviceState} (h : Still q) (hd : q.ds ∈ l) : flow (.require l :: ms) q = flow ms q := by
  rw [flow_cons (t := q) (by simp [perform, hd]), h]

include h

theorem flow_setState (d : DeviceState) : flow (.setState d :: ms) q = flow ms (setState d q) := by
  rw [flow_cons rfl, h.setState d]

theorem flow_gpio (l : Line) (a : Bool) : flow (.gpio l a :: ms) q = flow ms (gpio l (lineLevel q.params l a) q) := by
  rw [flow_cons rfl, h.gpio]

theorem flow_log (e : Err) : flow (.log e :: ms) q = flow ms (logErr e q) := by
  rw [flow_cons rfl, h.logErr]

theorem flow_begin : flow (.begin :: ms) q = flow ms (setOk true q) := by
  rw [flow_cons rfl, h.setOk]

theorem flow_saveSnap : flow (.saveSnap :: ms) q = flow ms (saveSnap q) := by
  rw [flow_cons rfl, h.saveSnap]

theorem flow_markSnap : flow (.markSnap :: ms) q = flow ms (markSnap q) := by
  rw [flow_cons rfl, h.markSnap]

theorem flow_setEnabled (e : Bool) : flow (.setEnabled e :: ms) q = flow ms (setEqEnabled e q) := by
  rw [flow_cons rfl, h.setEqEnabled]

theorem flow_setPreset (i : Byte) : flow (.setPreset i :: ms) q = flow ms (setPreset i q) := by
  rw [flow_cons rfl, h.setPreset]

theorem flow_answerBuf : flow (.answerBuf :: ms) q = flow ms (setData q.scratch.buf q) := by
  rw [flow_cons rfl, h.setData]

theorem flow_ifOk (n : Nat) (ho : q.scratch.ok = true) : flow (.ifOk n :: ms) q = flow ms q := by
  rw [flow_cons (t := q) (by simp [perform, ho]), h]

theorem flow_write {bs : List Bool} (r : Ready (true :: bs) q) (a : Byte) (v : Source) (f : OnFail) :
    flow (.write a v f :: ms) q = flow ms (took a (v.bytes q) q) := by
  obtain ⟨b, hb⟩ := r.ok
  rw [flow_cons (perform_write_ok a v f r.free hb), h.now]
  exact congrArg (flow ms) (h.took a (v.bytes q))

theorem flow_read {b : Bytes} {rest : List Answer} (ho : q.scratch.outstanding = false)
    (hd : q.env.device = .ok b :: rest) (a : Byte) : flow (.read a b.length :: ms) q = flow ms (got a b q) := by
  have ha : nextAnswer q = .ok b := by simp [nextAnswer, hd]
  rw [flow_cons (perform_read_ok a ho ha), h.now]
  exact congrArg (flow ms) (h.got a b)

end

/-! ### Where a run leaves the straight line -/

theorem quiet_of_flow_append {as : List Micro} {q r : State} (h : flow as q = some r) (bs : List Micro) :
    quiet (as ++ bs) 0 q = quiet bs 0 r := by
  induction as generalizing q with
  | nil => cases h; rfl
  | cons m as ih =>
    simp only [flow] at h
    split at h
    next hm => simp only [List.cons_append, quiet, hm]; exact ih h
    · cases h

theorem quiet_skip (as bs : List Micro) (q : State) : quiet (as ++ bs) as.length q = quiet bs 0 q := by
  induction as with
  | nil => rfl
  | cons m as ih => exact ih

section
variable {q : State} (h : Still q) (ms : List Micro)
include h

theorem perform_write_missed {bs : List Bool} (r : Ready (false :: bs) q) (a : Byte) (v : Source) (f : OnFail) :
    perform (.write a v f) q = onFailure a f (missed a (v.bytes q) q) := by
  rw [perform_write_fail a v f r.free r.fail, h.now]
  rfl

theorem quiet_write_raise {bs : List Bool} (r : Ready (false :: bs) q) (a : Byte) (v : Source) :
    quiet (.write a v .raise :: ms) 0 q = .done (logErr (.transport a) (missed a (v.bytes q) q)) := by
  simp only [quiet, perform_write_missed h r, onFailure]
  exact congrArg Rest.done ((h.missed a _).logErr _)

theorem quiet_write_raiseTo {bs : List Bool} (r : Ready (false :: bs) q) (a : Byte) (v : Source) (d : DeviceState) :
    quiet (.write a v (.raiseTo d) :: ms) 0 q =
      .done (logErr (.transport a) (setState d (missed a (v.bytes q) q))) := by
  simp only [quiet, perform_write_missed h r, onFailure]
  exact congrArg Rest.done (((h.missed a _).setState d).logErr _)

theorem quiet_write_log {bs : List Bool} (r : Ready (false :: bs) q) (a : Byte) (v : Source) :
    quiet (.write a v .log :: ms) 0 q = quiet ms 0 (logErr (.transport a) (missed a (v.bytes q) q)) := by
  simp only [quiet, perform_write_missed h r, onFailure]
  rw [(h.missed a _).logErr _]

theorem quiet_write_logSkip {bs : List Bool} (r : Ready (false :: bs) q) (a : Byte) (v : Source) (n : Nat) :
    quiet (.write a v (.logSkip n) :: ms) 0 q = quiet ms n (logErr (.transport a) (missed a (v.bytes q) q)) := by
  simp only [quiet, perform_write_missed h r, onFailure]
  rw [(h.missed a _).logErr _]

theorem quiet_write_logFail {bs : List Bool} (r : Ready (false :: bs) q) (a : Byte) (v : Source) (n : Nat) :
    quiet (.write a v (.logFail n) :: ms) 0 q =
      quiet ms n (logErr (.transport a) (setOk false (missed a (v.bytes q) q))) := by
  simp only [quiet, perform_write_missed h r, onFailure]
  rw [((h.missed a _).setOk false).logErr _]

theorem quiet_ifOk_skip (n : Nat) (ho : q.scratch.ok = false) : quiet (.ifOk n :: ms) 0 q = quiet ms n q := by
  simp only [quiet, perform, ho, Bool.false_eq_true, if_false]
  rw [h]

end

end Sys2Proof.Machine

/-! The pin sequences (R82, R83, R96, R97, R98): SHUTDOWN, SUSPEND and RST_PULSE, each three parts with a wait between
them. -/

namespace Sys2Proof.Machine

/-! ### Reading stamps off -/

theorem exists_stamp_of_untimed {es : List Event} {u : Event} {us : List Event} (h : es.map Event.untimed = u :: us) :
    ∃ n fs, es = u.stampedAt n :: fs ∧ fs.map Event.untimed = us := by
  obtain ⟨e, fs, rfl, rfl, hfs⟩ := List.map_eq_cons_iff.1 h
  exact ⟨e.stamp, fs, by rw [Event.untimed_stampedAt], hfs⟩

/-! ### Power-down -/

theorem powerDown_bound {p : Params} (h : pinsBound p = true) :
    powerDown p = [.setState .shuttingDown, .write p.regs.stop.addr (.lit p.regs.stop.val) (.raiseTo .running)] ++
      .wait Config.tStop :: ([.gpio .rst true] ++ .wait Config.tSdRstPd :: [.gpio .pd true, .setState .off]) := by
  simp [powerDown, h]

theorem powerDown_unbound {p : Params} (h : pinsBound p = false) : powerDown p = [.raise .seqShutdown] := by
  simp [powerDown, h]

/-- What PowerDown leaves of a still state `q`. -/
def poweredDown (p : Params) (q : State) : State :=
  setState .off (gpio .pd (lineLevel p .pd true) (gpio .rst (lineLevel p .rst true)
    (took p.regs.stop.addr p.regs.stop.val (setState .shuttingDown q))))

/-- A rule that falls through to PowerDown, with bound pins and a stop write that succeeds (R82). -/
theorem powerDown_completes {h : Nat} {s q : State} {lead : List Micro} {us : List Event} (g : Granted h s)
    (hn : noReset s = true) (hb : pinsBound s.params = true) (hm : ∀ m ∈ lead, m.offStage = true)
    (hf : flow lead (still s) = some q) (hq : Still q) (hp : q.params = s.params) (hr : Ready [true] q)
    (ht : q.trace = (still s).trace ++ us) (he : q.firstErr = none) (hd : q.scratch.data = []) :
    let p := s.params
    ∃ t es t₀ t₁ t₂ t₃ t₄ t₅, runRule (lead ++ powerDown p) s = .next t ∧ es.map Event.untimed = us ∧ t.ds = .off ∧
      t.lock = none ∧ t.pinRst = .driven (lineLevel p .rst true) ∧ t.pinPd = .driven (lineLevel p .pd true) ∧
      t.snap = q.snap ∧ t.snapValid = q.snapValid ∧ respAt t h = some ⟨.ok, 0, []⟩ ∧
      t.trace = s.trace ++ (es ++
        [.state .shuttingDown t₀, .xfer .write p.regs.stop.addr p.regs.stop.val true t₁,
         .pin .rst (lineLevel p .rst true) t₂, .pin .pd (lineLevel p .pd true) t₃, .state .off t₄,
         .resp h .ok 0 [] t₅]) ∧
      t₁ + 170000 ≤ t₂ ∧ t₂ + 5 ≤ t₃ := by
  intro p
  have h₁ := hq.setState .shuttingDown
  have h₂ := h₁.took p.regs.stop.addr p.regs.stop.val
  have h₃ := h₂.gpio .rst (lineLevel p .rst true)
  have h₄ := h₃.gpio .pd (lineLevel p .pd true)
  have r₁ : Ready [true] (setState .shuttingDown q) := hr.same rfl rfl rfl
  have ha : flow (lead ++ [.setState .shuttingDown, .write p.regs.stop.addr (.lit p.regs.stop.val) (.raiseTo .running)])
      (still s) = some (took p.regs.stop.addr p.regs.stop.val (setState .shuttingDown q)) := by
    rw [flow_append hf, flow_setState hq, flow_write h₁ _ r₁]
    rfl
  have hbs : flow [.gpio .rst true] (took p.regs.stop.addr p.regs.stop.val (setState .shuttingDown q)) =
      some (gpio .rst (lineLevel p .rst true) (took p.regs.stop.addr p.regs.stop.val (setState .shuttingDown q))) := by
    rw [flow_gpio h₂]
    simp only [took, emit_params, drawn_params, setState_params, hp]
    rfl
  have hcs : flow [.gpio .pd true, .setState .off] (gpio .rst (lineLevel p .rst true)
      (took p.regs.stop.addr p.regs.stop.val (setState .shuttingDown q))) = some (poweredDown p q) := by
    rw [flow_gpio h₃]
    simp only [took, gpio_params, emit_params, drawn_params, setState_params, hp]
    exact flow_setState h₄ [] .off
  obtain ⟨t, es₁, es₂, es₃, hrun, htr, u₁, u₂, u₃, a₁, a₂, hlock, hresp, hds, hrst, hpd, -, -, hvalid, hsnap⟩ :=
    runRule_flow (us := us ++ [.state .shuttingDown 0, .wrote p.regs.stop.addr p.regs.stop.val])
      (vs := [.pin .rst (lineLevel p .rst true) 0]) (ws := [.pin .pd (lineLevel p .pd true) 0, .state .off 0]) g hn
      (by
        simp only [List.forall_mem_append]
        exact ⟨⟨⟨hm, by simp [Micro.offStage]⟩, by simp [Micro.offStage]⟩, by simp [Micro.offStage]⟩)
      ha hbs hcs (h₂.wait Config.tStop) (h₃.wait Config.tSdRstPd)
      (by simp [took, ht, hq.now]) (by simp [took, hq.now]) (by simp [poweredDown, took, hq.now])
  have hok : responseOf (poweredDown p q) = ⟨.ok, 0, []⟩ := by
    rw [responseOf_ok (by simp [poweredDown, took, he])]
    simp [poweredDown, took, hd]
  rw [hok] at u₃ hresp
  obtain ⟨es, fs₁, rfl, hes, v₁⟩ := List.map_eq_append_iff.1 u₁
  obtain ⟨t₀, gs₁, rfl, v₂⟩ := exists_stamp_of_untimed v₁
  obtain ⟨t₁, gs₂, rfl, v₃⟩ := exists_stamp_of_untimed v₂
  obtain rfl := List.map_eq_nil_iff.1 v₃
  obtain ⟨t₂, gs₃, rfl, v₄⟩ := exists_stamp_of_untimed u₂
  obtain rfl := List.map_eq_nil_iff.1 v₄
  obtain ⟨t₃, gs₄, rfl, v₅⟩ := exists_stamp_of_untimed u₃
  obtain ⟨t₄, gs₅, rfl, v₆⟩ := exists_stamp_of_untimed v₅
  obtain ⟨t₅, gs₆, rfl, v₇⟩ := exists_stamp_of_untimed v₆
  obtain rfl := List.map_eq_nil_iff.1 v₇
  refine ⟨t, es, t₀, t₁, t₂, t₃, t₄, t₅, ?_, hes, hds, hlock, ?_, ?_, ?_, ?_, hresp, ?_, ?_, ?_⟩
  · rw [powerDown_bound hb, ← hrun]
    simp only [List.append_assoc, p]
  · rw [hrst]
    simp [poweredDown]
  · rw [hpd]
    simp [poweredDown]
  · rw [hsnap]
    simp [poweredDown, took]
  · rw [hvalid]
    simp [poweredDown, took]
  · rw [htr]
    simp only [List.append_assoc]
    rfl
  · exact a₁ (Event.stampedAt t₁ (.wrote p.regs.stop.addr p.regs.stop.val)) (by simp) _ (List.mem_singleton_self _)
  · exact a₂ _ (List.mem_singleton_self _) (Event.stampedAt t₃ (.pin .pd (lineLevel p .pd true) 0)) (by simp)

end Sys2Proof.Machine

/-! SHUTDOWN, SUSPEND and RST_PULSE: what each completes with, what a failed transaction leaves, and the unbound pin. -/

namespace Sys2Proof.Machine

theorem granted_still {h : Nat} {s : State} (g : Granted h s) :
    (still s).firstErr = none ∧ (still s).scratch = .empty := ⟨g.2.2.2.1, g.2.2.2.2⟩

theorem flow_running {s : State} (hd : s.ds = .running) : flow [.require dsForRunning] (still s) = some (still s) :=
  flow_require [] (still_of_still s) (by simp [hd, dsForRunning])

/-- Settles O16: SHUTDOWN is its state check and PowerDown (`powerDown_completes`). -/
theorem shutdownPowersTheChipDown : Obligations.ShutdownPowersTheChipDown := by
  intro s h g hu hd hb
  obtain ⟨hf, hsc⟩ := granted_still g
  obtain ⟨t, es, t₀, t₁, t₂, t₃, t₄, t₅, hrun, hes, hds, hlock, hrst, hpd, -, -, hresp, htr, h₁, h₂⟩ :=
    powerDown_completes (us := []) g hu.1 hb (by simp [Micro.offStage]) (flow_running hd) (still_of_still s) rfl
      (ready_of_succeeds hu.2 1) (List.append_nil _).symm hf (by rw [hsc]; rfl)
  obtain rfl := List.map_eq_nil_iff.1 hes
  exact ⟨t, t₀, t₁, t₂, t₃, t₄, t₅, hrun, hds, hlock, hrst, hpd, hresp, htr, h₁, h₂⟩

/-! ### The snapshot of SUSPEND (R98) -/

/-- A still state in which the volumes have been read. -/
def readVols (p : Params) (b₀ b₁ b₂ b₃ : Byte) (q : State) : State :=
  got p.regs.vol[3].addr [b₃] (got p.regs.vol[2].addr [b₂] (got p.regs.vol[1].addr [b₁] (got p.regs.vol[0].addr [b₀] q)))

/-- The reads with their snapshot, and nothing else. -/
def snapped (p : Params) (b₀ b₁ b₂ b₃ : Byte) (q : State) : State := markSnap (saveSnap (readVols p b₀ b₁ b₂ b₃ q))

/-- The events of the four reads. -/
def readEvents (p : Params) (b₀ b₁ b₂ b₃ : Byte) : List Event :=
  [.xfer .read p.regs.vol[0].addr [b₀] true 0, .xfer .read p.regs.vol[1].addr [b₁] true 0,
   .xfer .read p.regs.vol[2].addr [b₂] true 0, .xfer .read p.regs.vol[3].addr [b₃] true 0]

section
variable {p : Params} {b₀ b₁ b₂ b₃ : Byte} {q : State}

theorem flow_readVol {q : State} {r : CtlReg} {b : Byte} {rest : List Answer} (h : Still q) (ms : List Micro)
    (ho : q.scratch.outstanding = false) (hd : q.env.device = .ok [b] :: rest) :
    flow (.read r.addr 1 :: ms) q = flow ms (got r.addr [b] q) := flow_read h ms ho hd r.addr

theorem flow_takeSnapshot {rest : List Answer} (h : Still q) (ho : q.scratch.outstanding = false)
    (hd : q.env.device = .ok [b₀] :: .ok [b₁] :: .ok [b₂] :: .ok [b₃] :: rest) :
    flow (takeSnapshot p) q = some (snapped p b₀ b₁ b₂ b₃ q) := by
  have h₁ := h.got p.regs.vol[0].addr [b₀]
  have h₂ := h₁.got p.regs.vol[1].addr [b₁]
  have h₃ := h₂.got p.regs.vol[2].addr [b₂]
  have h₄ := h₃.got p.regs.vol[3].addr [b₃]
  have d₁ : (got p.regs.vol[0].addr [b₀] q).env.device = .ok [b₁] :: .ok [b₂] :: .ok [b₃] :: rest := by simp [hd]
  have d₂ : (got p.regs.vol[1].addr [b₁] (got p.regs.vol[0].addr [b₀] q)).env.device = .ok [b₂] :: .ok [b₃] :: rest := by
    simp [hd]
  have d₃ : (got p.regs.vol[2].addr [b₂] (got p.regs.vol[1].addr [b₁] (got p.regs.vol[0].addr [b₀] q))).env.device =
      .ok [b₃] :: rest := by simp [hd]
  rw [takeSnapshot, flow_readVol h _ ho hd, flow_readVol h₁ _ (by simp [ho]) d₁,
    flow_readVol h₂ _ (by simp [ho]) d₂, flow_readVol h₃ _ (by simp [ho]) d₃,
    flow_saveSnap h₄, flow_markSnap h₄.saveSnap]
  rfl

theorem still_snapped (h : Still q) : Still (snapped p b₀ b₁ b₂ b₃ q) :=
  ((((h.got _ _).got _ _).got _ _).got _ _).saveSnap.markSnap

theorem snapped_trace : (snapped p b₀ b₁ b₂ b₃ q).trace = q.trace ++ readEvents p b₀ b₁ b₂ b₃ := by
  simp [snapped, readVols, readEvents]

theorem snapped_params : (snapped p b₀ b₁ b₂ b₃ q).params = q.params := by
  simp [snapped, readVols]

theorem snapped_pinRst : (snapped p b₀ b₁ b₂ b₃ q).pinRst = q.pinRst := by
  simp [snapped, readVols]

theorem snapped_pinPd : (snapped p b₀ b₁ b₂ b₃ q).pinPd = q.pinPd := by
  simp [snapped, readVols]

theorem snapped_firstErr : (snapped p b₀ b₁ b₂ b₃ q).firstErr = q.firstErr := by
  simp [snapped, readVols]

theorem snapped_data : (snapped p b₀ b₁ b₂ b₃ q).scratch.data = q.scratch.data := by
  simp [snapped, readVols]

theorem snapped_snap (hb : q.scratch.buf = []) : (snapped p b₀ b₁ b₂ b₃ q).snap = #v[b₀, b₁, b₂, b₃] := by
  simp [snapped, readVols, saveSnap, hb]

theorem snapped_ready {bs : List Bool} (h : Ready (true :: true :: true :: true :: bs) q) :
    Ready bs (snapped p b₀ b₁ b₂ b₃ q) := by
  have r₁ : Ready _ (got p.regs.vol[0].addr [b₀] q) := h.tail rfl rfl rfl
  have r₂ : Ready _ (got p.regs.vol[1].addr [b₁] (got p.regs.vol[0].addr [b₀] q)) := r₁.tail rfl rfl rfl
  have r₃ : Ready _ (got p.regs.vol[2].addr [b₂] (got p.regs.vol[1].addr [b₁] (got p.regs.vol[0].addr [b₀] q))) :=
    r₂.tail rfl rfl rfl
  exact r₃.tail rfl rfl rfl

end

theorem suspendRule_bound {p : Params} (h : pinsBound p = true) :
    suspendRule p = [.require dsForRunning] ++ takeSnapshot p ++ powerDown p := by
  simp [suspendRule, h]

/-- The lead of SUSPEND: its state check, the four reads and the snapshot. -/
theorem flow_suspendLead {s : State} {b₀ b₁ b₂ b₃ : Byte} {rest : List Answer} (hd : s.ds = .running)
    (hsc : s.scratch = .empty) (hdev : s.env.device = .ok [b₀] :: .ok [b₁] :: .ok [b₂] :: .ok [b₃] :: rest) :
    flow ([.require dsForRunning] ++ takeSnapshot s.params) (still s) = some (snapped s.params b₀ b₁ b₂ b₃ (still s)) :=
  (flow_append (flow_running hd) _).trans
    (flow_takeSnapshot (still_of_still s) (by rw [still_scratch, hsc]; rfl) hdev)

theorem offStage_suspendLead (p : Params) : ∀ m ∈ [.require dsForRunning] ++ takeSnapshot p, m.offStage = true := by
  simp [takeSnapshot, Micro.offStage]

/-- Settles O20: the four reads fill the snapshot, and PowerDown follows (`powerDown_completes`). -/
theorem suspendTakesTheSnapshot : Obligations.SuspendTakesTheSnapshot := by
  intro s h b₀ b₁ b₂ b₃ b₄ rest g hn hd hb hdev p
  obtain ⟨hf, hsc⟩ := granted_still g
  have hready : Ready [true, true, true, true, true] (still s) :=
    ready_of_script (as := [.ok [b₀], .ok [b₁], .ok [b₂], .ok [b₃], .ok b₄]) hsc hdev rfl
  obtain ⟨t, es, t₄, t₅, t₆, t₇, t₈, t₉, hrun, hes, hds, hlock, hrst, hpd, hsnap, hvalid, hresp, htr, h₁, h₂⟩ :=
    powerDown_completes (q := snapped s.params b₀ b₁ b₂ b₃ (still s)) g hn hb (offStage_suspendLead _)
      (flow_suspendLead hd g.2.2.2.2 hdev) (still_snapped (still_of_still s)) snapped_params (snapped_ready hready)
      snapped_trace (snapped_firstErr.trans hf) (by rw [snapped_data, hsc]; rfl)
  rw [snapped_snap (by rw [hsc]; rfl)] at hsnap
  obtain ⟨t₀, es₁, rfl, hes₁⟩ := exists_stamp_of_untimed hes
  obtain ⟨t₁, es₂, rfl, hes₂⟩ := exists_stamp_of_untimed hes₁
  obtain ⟨t₂, es₃, rfl, hes₃⟩ := exists_stamp_of_untimed hes₂
  obtain ⟨t₃, es₄, rfl, hes₄⟩ := exists_stamp_of_untimed hes₃
  obtain rfl := List.map_eq_nil_iff.1 hes₄
  refine ⟨t, t₀, t₁, t₂, t₃, t₄, t₅, t₆, t₇, t₈, t₉, ?_, hsnap, hvalid, hds, hlock, hrst, hpd, hresp, htr, h₁, h₂⟩
  rw [← hrun, ← suspendRule_bound hb]
  rfl

/-! ### RST_PULSE -/

theorem resetPulse_bound {p : Params} (h : pinsBound p = true) :
    .require dsForRunning :: resetPulse p = [.require dsForRunning, .setState .resetting, .gpio .rst true] ++
      .wait Config.tRstHold :: ([.gpio .rst false] ++ .wait Config.tRstPost :: [.setState .uninitialized]) := by
  simp [resetPulse, h]

/-- Settles O19: three parts with a wait between them (`runRule_flow`), none of which drives PD. -/
theorem rstPulsePulsesTheResetLine : Obligations.RstPulsePulsesTheResetLine := by
  intro s h g hn hd hb p
  obtain ⟨hf, hsc⟩ := granted_still g
  have h₀ := still_of_still s
  have h₁ := h₀.setState .resetting
  have h₂ := h₁.gpio .rst (lineLevel p .rst true)
  have h₃ := h₂.gpio .rst (lineLevel p .rst false)
  have ha : flow [.require dsForRunning, .setState .resetting, .gpio .rst true] (still s) =
      some (gpio .rst (lineLevel p .rst true) (setState .resetting (still s))) := by
    rw [flow_require _ h₀ (by simp [hd, dsForRunning]), flow_setState h₀, flow_gpio h₁]
    rfl
  have hbs : flow [.gpio .rst false] (gpio .rst (lineLevel p .rst true) (setState .resetting (still s))) =
      some (gpio .rst (lineLevel p .rst false) (gpio .rst (lineLevel p .rst true) (setState .resetting (still s)))) := by
    rw [flow_gpio h₂, gpio_params]
    rfl
  obtain ⟨t, es₁, es₂, es₃, hrun, htr, u₁, u₂, u₃, a₁, a₂, hlock, hresp, hds, hrst, hpd, hee, hep, hvalid, hsnap⟩ :=
    runRule_flow (us := [.state .resetting 0, .pin .rst (lineLevel p .rst true) 0])
      (vs := [.pin .rst (lineLevel p .rst false) 0]) (ws := [.state .uninitialized 0]) g hn
      (by simp [Micro.offStage]) ha hbs (flow_setState h₃ [] .uninitialized) (h₂.wait Config.tRstHold)
      (h₃.wait Config.tRstPost) (by simp) (by simp) (by simp)
  rw [responseOf_ok (by simpa using hf)] at u₃ hresp
  have hdata : (setState .uninitialized (gpio .rst (lineLevel p .rst false)
      (gpio .rst (lineLevel p .rst true) (setState .resetting (still s))))).scratch.data = [] := by
    simp [g.2.2.2.2, Scratch.empty]
  rw [hdata] at u₃ hresp
  obtain ⟨t₀, es₁, rfl, v₁⟩ := exists_stamp_of_untimed u₁
  obtain ⟨t₁, es₁, rfl, v₂⟩ := exists_stamp_of_untimed v₁
  obtain rfl := List.map_eq_nil_iff.1 v₂
  obtain ⟨t₂, es₂, rfl, v₃⟩ := exists_stamp_of_untimed u₂
  obtain rfl := List.map_eq_nil_iff.1 v₃
  obtain ⟨t₃, es₃, rfl, v₄⟩ := exists_stamp_of_untimed u₃
  obtain ⟨t₄, es₃, rfl, v₅⟩ := exists_stamp_of_untimed v₄
  obtain rfl := List.map_eq_nil_iff.1 v₅
  refine ⟨t, t₀, t₁, t₂, t₃, t₄, ?_, hds, hlock, ?_, ?_, ?_, ?_, ?_, ?_, hresp, htr, ?_, ?_, ?_⟩
  · rw [← hrun, ← resetPulse_bound hb]
    rfl
  · rw [hrst]; simp
  · rw [hpd]; simp
  · rw [hee]; simp
  · rw [hep]; simp
  · rw [hvalid]; simp
  · rw [hsnap]; simp
  · exact a₁ (Event.stampedAt t₁ (.pin .rst (lineLevel p .rst true) 0)) (by simp) _ (List.mem_singleton_self _)
  · exact a₂ _ (List.mem_singleton_self _) (Event.stampedAt t₃ (.state .uninitialized 0)) (by simp)
  · exact a₂ _ (List.mem_singleton_self _) (Event.stampedAt t₄ (.resp h .ok 0 [] 0)) (by simp)

/-! ### Failures -/

theorem responseOf_raised {q : State} (e : Err) (h : q.firstErr = none) : responseOf (logErr e q) = ⟨e.code, e.info, []⟩ :=
  responseOf_err (by rw [logErr_firstErr, h]; rfl)

theorem quiet_powerDown_fails {p : Params} {q : State} (hb : pinsBound p = true) (h : Still q) (r : Ready [false] q) :
    quiet (powerDown p) 0 q = .done (logErr (.transport p.regs.stop.addr)
      (setState .running (missed p.regs.stop.addr p.regs.stop.val (setState .shuttingDown q)))) := by
  have r' : Ready [false] (setState .shuttingDown q) := r.same rfl rfl rfl
  rw [powerDown_bound hb]
  exact (quiet_of_flow_append (flow_setState h [] .shuttingDown) _).trans
    (quiet_write_raiseTo (h.setState .shuttingDown) _ r' _ _ _)

theorem offStage_powerDown (p : Params) : ∀ m ∈ powerDown p, m.offStage = true := by
  cases hb : pinsBound p <;> simp [powerDown, hb, Micro.offStage]

/-- A rule that falls through to PowerDown with bound pins, whose stop write fails (R82, R149). -/
theorem powerDown_recovers {h : Nat} {s q : State} {lead : List Micro} {us : List Event} (g : Granted h s)
    (hn : noReset s = true) (hb : pinsBound s.params = true) (hm : ∀ m ∈ lead, m.offStage = true)
    (hf : flow lead (still s) = some q) (hq : Still q) (hr : Ready [false] q)
    (ht : q.trace = (still s).trace ++ us) (he : q.firstErr = none) :
    let p := s.params
    let e := Err.transport p.regs.stop.addr
    ∃ t, runRule (lead ++ powerDown p) s = .next t ∧ t.ds = .running ∧ t.lock = none ∧ t.pinRst = q.pinRst ∧
      t.pinPd = q.pinPd ∧ t.snap = q.snap ∧ t.snapValid = q.snapValid ∧ respAt t h = some ⟨e.code, e.info, []⟩ ∧
      TraceGains s t (us ++ [.state .shuttingDown 0, .failed p.regs.stop.addr p.regs.stop.val, .state .running 0, .log e 0,
        .resp h e.code e.info [] 0]) := by
  intro p e
  obtain ⟨t, hrun, hlock, hresp, hgains, hds, -, -, hrst, hpd, hvalid, hsnap, -, -, -⟩ :=
    runRule_quiet (rule := lead ++ powerDown p)
      (es := us ++ [.state .shuttingDown 0, .failed p.regs.stop.addr p.regs.stop.val, .state .running 0, .log e 0]) g hn
      (List.forall_mem_append.2 ⟨hm, offStage_powerDown _⟩)
      ((quiet_of_flow_append hf _).trans (quiet_powerDown_fails hb hq hr)) (by simp [missed, ht, hq.now, e])
  rw [responseOf_raised _ (by simpa [missed] using he)] at hresp hgains
  rw [List.append_assoc] at hgains
  exact ⟨t, hrun, hds, hlock, hrst, hpd, hsnap, hvalid, hresp, hgains⟩

/-- Settles O17: PowerDown's one recovery step, after nothing and after the snapshot (`powerDown_recovers`). -/
theorem shutdownRecoversFromAFailedStop : Obligations.ShutdownRecoversFromAFailedStop := by
  refine ⟨?shutdown, ?suspend⟩
  case shutdown =>
    intro s h g hn hfail hd hb p e
    obtain ⟨hf, hsc⟩ := granted_still g
    obtain ⟨t, hrun, hds, hlock, hrst, hpd, -, -, hresp, hgains⟩ :=
      powerDown_recovers (us := []) g hn hb (by simp [Micro.offStage]) (flow_running hd) (still_of_still s)
        (ready_of_nextAnswer hsc (by rw [hfail]; rfl)) (List.append_nil _).symm hf
    exact ⟨t, hrun, hds, hlock, hrst, hpd, hresp, hgains⟩
  case suspend =>
    intro s h b₀ b₁ b₂ b₃ rest g hn hd hb hdev p e
    obtain ⟨hf, hsc⟩ := granted_still g
    have hready : Ready [true, true, true, true, false] (still s) :=
      ready_of_script (as := [.ok [b₀], .ok [b₁], .ok [b₂], .ok [b₃], .fail]) hsc hdev rfl
    obtain ⟨t, hrun, hds, hlock, hrst, hpd, hsnap, hvalid, hresp, hgains⟩ :=
      powerDown_recovers (q := snapped s.params b₀ b₁ b₂ b₃ (still s)) g hn hb (offStage_suspendLead _)
        (flow_suspendLead hd g.2.2.2.2 hdev) (still_snapped (still_of_still s)) (snapped_ready hready) snapped_trace
        (snapped_firstErr.trans hf)
    rw [snapped_snap (by rw [hsc]; rfl)] at hsnap
    rw [snapped_pinRst, still_pinRst] at hrst
    rw [snapped_pinPd, still_pinPd] at hpd
    refine ⟨t, ?_, hds, hlock, hrst, hpd, hsnap, hvalid, hresp, hgains⟩
    rw [← hrun, ← suspendRule_bound hb]
    rfl

/-- Settles O18: with an unbound pin each rule is its state check and a raise. -/
theorem unboundPinsMakeNoSequence : Obligations.UnboundPinsMakeNoSequence := by
  intro s h g hn hd hb
  have hin : s.ds ∈ dsForRunning := (mem_dsForRunning _).2 hd
  refine ⟨?_, ?_, ?_⟩
  · have hrule : shutdownRule s.params = [.require dsForRunning, .raise .seqShutdown] := by
      rw [shutdownRule, powerDown_unbound hb]
    rw [show exec .shutdown s = runRule (shutdownRule s.params) s from rfl, hrule]
    exact rejects_second [] g hn hin
  · have hrule : suspendRule s.params = [.require dsForRunning, .raise .seqShutdown] := by
      simp [suspendRule, hb]
    rw [show exec .suspend s = runRule (suspendRule s.params) s from rfl, hrule]
    exact rejects_second [] g hn hin
  · have hrule : rstPulseRule s.params = [.require dsForRunning, .raise .seqPulse] := by
      simp [rstPulseRule, resetPulse, hb]
    rw [show exec .rstPulse s = runRule (rstPulseRule s.params) s from rfl, hrule]
    exact rejects_second [] g hn hin

end Sys2Proof.Machine

/-! Abort (R148, R149, R152), and a rule that falls through to a raise. -/

namespace Sys2Proof.Machine

/-- The error a raise of `e` answers with: the first one logged (R41). -/
def answeredErr (e : Err) (s : State) : Err := (s.firstErr.or (some e)).getD e

theorem firstErr_raised (e : Err) (s : State) : (logErr e s).firstErr = some (answeredErr e s) := by
  cases hf : s.firstErr <;> simp [answeredErr, hf]

/-- The Log of a raise and its completion, from the settled state before the Log. -/
theorem log_completes {s u : State} {h : Nat} {e : Err} {es : List Event} (hn : noReset u = true)
    (hl : u.lock = some h) (hh : h < u.hosts.length) (ht : u.trace = s.trace ++ es) :
    let t := complete (settled (logErr e u))
    let f := answeredErr e u
    respAt t h = some ⟨f.code, f.info, []⟩ ∧
      TraceGains s t (es.map Event.untimed ++ [.log e 0, .resp h f.code f.info [] 0]) := by
  intro t f
  have h1 : noReset (logErr e u) = true := (noReset_logErr e u).trans hn
  obtain ⟨hresp, htr, -, -⟩ := complete_spec (s := settled (logErr e u)) ((settled_lock h1).trans hl)
    (by rw [settled_count h1]; exact hh)
  rw [responseOf_err (e := f) ((settled_firstErr h1).trans (firstErr_raised e u))] at hresp htr
  refine ⟨hresp, traceGains_of
    (fs := es ++ [.log e u.now, .resp h f.code f.info [] (settled (logErr e u)).now]) ?_ (by simp)⟩
  rw [htr, settled_trace h1, logErr_trace, ht]
  simp only [List.append_assoc]
  rfl

theorem logged_settled_fields {u : State} (e : Err) (hn : noReset u = true) :
    OnlyResponds u (complete (settled (logErr e u))) := by
  have h1 : noReset (logErr e u) = true := (noReset_logErr e u).trans hn
  refine ⟨?_, ?_, ?_, ?_, ?_, ?_, ?_, ?_, ?_, ?_, complete_lock _⟩ <;>
    simp [settled_ds h1, settled_eqEnabled h1, settled_eqPreset h1, settled_pinRst h1, settled_pinPd h1,
      settled_snapValid h1, settled_snap h1, settled_params h1, settled_waitUntil h1, settled_cur h1]

theorem onlyResponds_of_settled {s t : State} (hn : noReset s = true) (o : OnlyResponds (settled s) t) :
    OnlyResponds s t := by
  simpa only [OnlyResponds, settled_ds hn, settled_eqEnabled hn, settled_eqPreset hn, settled_pinRst hn,
    settled_pinPd hn, settled_snapValid hn, settled_snap hn, settled_params hn, settled_waitUntil hn, settled_cur hn] using o

theorem answeredErr_settled (e : Err) {s : State} (hn : noReset s = true) :
    answeredErr e (settled s) = answeredErr e s := by
  rw [answeredErr, settled_firstErr hn, answeredErr]

/-- An abort without a recovery step. -/
theorem abort_none_spec {s : State} {h : Nat} (e : Err) (hl : s.lock = some h) (hh : h < s.hosts.length)
    (hn : noReset s = true) :
    let f := answeredErr e s
    OnlyResponds s (abort none e s) ∧ respAt (abort none e s) h = some ⟨f.code, f.info, []⟩ ∧
      TraceGains s (abort none e s) [.log e 0, .resp h f.code f.info [] 0] := by
  have h1 := noReset_settled hn
  obtain ⟨hresp, hgains⟩ := log_completes (s := s) (u := settled s) (e := e) (es := []) h1 ((settled_lock hn).trans hl)
    (by rw [settled_count hn]; exact hh) (by rw [settled_trace hn, List.append_nil])
  rw [answeredErr_settled e hn] at hresp hgains
  rw [abort_none hn]
  exact ⟨onlyResponds_of_settled hn (logged_settled_fields e h1), hresp, hgains⟩

/-- An abort with a recovery step. -/
theorem abort_some_spec {s : State} {h : Nat} (d : DeviceState) (e : Err) (hl : s.lock = some h)
    (hh : h < s.hosts.length) (hn : noReset s = true) :
    let f := answeredErr e s
    OnlyResponds (setState d s) (abort (some d) e s) ∧ respAt (abort (some d) e s) h = some ⟨f.code, f.info, []⟩ ∧
      TraceGains s (abort (some d) e s) [.state d 0, .log e 0, .resp h f.code f.info [] 0] := by
  have h1 := noReset_settled hn
  have h2 : noReset (setState d (settled s)) = true := (noReset_setState d _).trans h1
  have h3 := noReset_settled h2
  obtain ⟨hresp, hgains⟩ := log_completes (s := s) (u := settled (setState d (settled s))) (e := e)
    (es := [.state d (settled s).now]) h3 ((settled_lock h2).trans ((settled_lock hn).trans hl))
    (by rw [settled_count h2, setState_hosts, settled_count hn]; exact hh)
    (by rw [settled_trace h2, setState_trace, settled_trace hn])
  have hf : answeredErr e (settled (setState d (settled s))) = answeredErr e s :=
    (answeredErr_settled e h2).trans (answeredErr_settled e hn)
  rw [hf] at hresp hgains
  have o := onlyResponds_of_settled h2 (logged_settled_fields e h3)
  simp only [OnlyResponds, setState_ds, setState_eqEnabled, setState_eqPreset, setState_pinRst, setState_pinPd,
    setState_snapValid, setState_snap, setState_params, setState_waitUntil, setState_cur, settled_eqEnabled hn,
    settled_eqPreset hn, settled_pinRst hn, settled_pinPd hn, settled_snapValid hn, settled_snap hn, settled_params hn,
    settled_waitUntil hn, settled_cur hn] at o
  rw [abort_some hn]
  exact ⟨o, hresp, hgains⟩

/-- Settles O12: the Log and the completion, after the recovery step where there is one. -/
theorem abortLogsAndCompletes : Obligations.AbortLogsAndCompletes := by
  intro s h e d hl hh hn f
  obtain ⟨⟨hds, hee, hep, hrst, hpd, hvalid, hsnap, -, -, -, hlock⟩, hresp, hgains⟩ := abort_some_spec d e hl hh hn
  exact ⟨abort_none_spec e hl hh hn, hds, hlock, hee, hep, hrst, hpd, hvalid, hsnap, hresp, hgains⟩

/-! ### A rule that falls through to a raise -/

/-- A still state that has the fields of `q`, but for its trace and its locals. -/
abbrev SameFields (q r : State) : Prop :=
  r.ds = q.ds ∧ r.eqEnabled = q.eqEnabled ∧ r.eqPreset = q.eqPreset ∧ r.pinRst = q.pinRst ∧ r.pinPd = q.pinPd ∧
  r.snapValid = q.snapValid ∧ r.snap = q.snap ∧ r.firstErr = q.firstErr

/-- What a granted command does whose rule falls through to a statement that raises, no statement before it waiting or
writing a field: its Log and its response follow the events so far, and nothing of the block changes. -/
theorem runRule_raises {h : Nat} {s q r : State} {as ms : List Micro} {m : Micro} {e : Err} {es : List Event}
    (g : Granted h s) (hn : noReset s = true) (hm : ∀ n ∈ as ++ [m], n.offStage = true ∧ n.prompt = true)
    (hf : flow as (still s) = some q) (hp : perform m q = .raised none e r) (hr : still r = r)
    (ht : r.trace = (still s).trace ++ es) (hs : SameFields (still s) r) :
    ∃ t, runRule (as ++ m :: ms) s = .next t ∧ OnlyResponds s t ∧ respAt t h = some ⟨e.code, e.info, []⟩ ∧
      TraceGains s t (es ++ [.log e 0, .resp h e.code e.info [] 0]) := by
  obtain ⟨hma, hmm⟩ := List.forall_mem_append.1 hm
  obtain ⟨hoff, hprompt⟩ := hmm m (List.mem_singleton_self m)
  obtain ⟨u, hrun, hu, hlater, hwait⟩ := run_flow (fun n hn => (hma n hn).1) hn hf (m :: ms)
  have hnu := hlater.noReset
  have hst := still_perform hoff (settled u)
  rw [still_settled hnu, hu, hp] at hst
  have hworks := perform_works m (settled u)
  have hwaits := perform_waitUntil hprompt (settled u)
  cases hx : perform m (settled u) with
  | go n v | logged e' n v | waiting v => rw [hx] at hst; cases hst
  | raised rec e' v =>
    rw [hx] at hst hworks hwaits
    obtain ⟨rfl, rfl, hv⟩ := Effect.raised.inj hst
    rw [hr] at hv
    have hk : Kept s (advance (ms.length + 1) v) :=
      ((hlater.kept.trans (settled_kept hnu)).trans hworks.kept).trans (advance_works _ v).kept
    obtain ⟨fs, hfs⟩ := hk.trace
    have hfe : v.firstErr = none := by
      obtain ⟨-, -, -, -, -, -, -, hfe⟩ := hs
      rw [hv] at hfe
      exact hfe.trans g.2.2.2.1
    have huntimed : fs.map Event.untimed = es := by
      rw [hv, still_trace, still_trace, show v.trace = s.trace ++ fs from hfs, List.map_append] at ht
      exact List.append_cancel_left ht
    obtain ⟨ho, hresp, hgains⟩ := abort_none_spec e (s := advance (ms.length + 1) v) (hk.lock.trans g.1)
      (by rw [hk.count]; exact g.2.1) (hworks.noReset (noReset_settled hnu))
    have hans : answeredErr e (advance (ms.length + 1) v) = e := by simp [answeredErr, hfe]
    rw [hans] at hresp hgains
    refine ⟨_, (runRule_granted g _).trans (congrArg _ (hrun.trans (run_raised hnu ms hx))), ?_, hresp, ?_⟩
    · obtain ⟨o₁, o₂, o₃, o₄, o₅, o₆, o₇, o₈, o₉, o₁₀, o₁₁⟩ := ho
      obtain ⟨s₁, s₂, s₃, s₄, s₅, s₆, s₇, -⟩ := hs
      rw [hv] at s₁ s₂ s₃ s₄ s₅ s₆ s₇
      exact ⟨o₁.trans s₁, o₂.trans s₂, o₃.trans s₃, o₄.trans s₄, o₅.trans s₅, o₆.trans s₆, o₇.trans s₇,
        o₈.trans hk.params, o₉.trans (hwaits.trans ((settled_waitUntil hnu).trans (hwait fun n hn => (hma n hn).2))),
        o₁₀.trans hk.cur, o₁₁⟩
    · obtain ⟨htr, hun⟩ := hgains
      refine traceGains_of (fs := fs ++ newEvents (advance (ms.length + 1) v) (abort none e (advance (ms.length + 1) v))) ?_ ?_
      · rw [htr, hfs, List.append_assoc]
      · rw [List.map_append, hun, huntimed]

end Sys2Proof.Machine

/-! Quiet runs whose events say everything they change: statements, writes, failed writes, and brackets (R85, R122). -/

namespace Sys2Proof.Machine

/-! ### What a list of events says of the block's fields -/

/-- `ds` after the events `es`. -/
def stateAfter (es : List Event) (d : DeviceState) : DeviceState := es.foldl (fun d e => e.state?.getD d) d

/-- The level of a line an event drives. -/
def Event.level? (l : Line) : Event → Option PinLevel
  | .pin l' v _ => if l' = l then some (.driven v) else none
  | _ => none

/-- The level of a line after the events `es`. -/
def levelAfter (l : Line) (es : List Event) (x : PinLevel) : PinLevel := es.foldl (fun x e => (e.level? l).getD x) x

/-- `r` comes after the still state `q` with the events `es`, which say everything that has changed but `ok`. -/
structure Yields (es : List Event) (q r : State) : Prop where
  still : Still r
  ds : r.ds = stateAfter es q.ds
  pinRst : r.pinRst = levelAfter .rst es q.pinRst
  pinPd : r.pinPd = levelAfter .pd es q.pinPd
  eqEnabled : r.eqEnabled = q.eqEnabled
  eqPreset : r.eqPreset = q.eqPreset
  snapValid : r.snapValid = q.snapValid
  snap : r.snap = q.snap
  params : r.params = q.params
  blocks : r.scratch.blocks = q.scratch.blocks
  buf : r.scratch.buf = q.scratch.buf
  data : r.scratch.data = q.scratch.data
  outstanding : r.scratch.outstanding = q.scratch.outstanding
  device : r.env.device = q.env.device.drop (results es).length
  thereafter : r.env.thereafter = q.env.thereafter
  firstErr : r.firstErr = q.firstErr.or (es.filterMap Event.logged?).head?
  trace : r.trace = q.trace ++ es

theorem Yields.trans {es fs : List Event} {q r t : State} (a : Yields es q r) (b : Yields fs r t) :
    Yields (es ++ fs) q t where
  still := b.still
  ds := by rw [b.ds, a.ds, stateAfter, stateAfter, stateAfter, List.foldl_append]
  pinRst := by rw [b.pinRst, a.pinRst, levelAfter, levelAfter, levelAfter, List.foldl_append]
  pinPd := by rw [b.pinPd, a.pinPd, levelAfter, levelAfter, levelAfter, List.foldl_append]
  eqEnabled := b.eqEnabled.trans a.eqEnabled
  eqPreset := b.eqPreset.trans a.eqPreset
  snapValid := b.snapValid.trans a.snapValid
  snap := b.snap.trans a.snap
  params := b.params.trans a.params
  blocks := b.blocks.trans a.blocks
  buf := b.buf.trans a.buf
  data := b.data.trans a.data
  outstanding := b.outstanding.trans a.outstanding
  device := by rw [b.device, a.device, List.drop_drop, results_append, List.length_append]
  thereafter := b.thereafter.trans a.thereafter
  firstErr := by rw [b.firstErr, a.firstErr, List.filterMap_append, List.head?_append, Option.or_assoc]
  trace := by rw [b.trace, a.trace, List.append_assoc]

theorem Yields.bytes {es : List Event} {q r : State} (a : Yields es q r) (v : Source) : v.bytes r = v.bytes q := by
  cases v <;> simp [Source.bytes, closingValue, a.buf, a.blocks, a.params, a.eqEnabled]

theorem Yields.sent {es : List Event} {q r : State} (a : Yields es q r) (img : List (Byte × Source)) :
    sent r img = sent q img := List.map_congr_left fun w _ => by rw [a.bytes]

/-- The answers left to be heard. -/
theorem Yields.ready {es : List Event} {q r : State} (a : Yields es q r) {bs : List Bool}
    (h : Ready (results es ++ bs) q) : Ready bs r := h.later a.outstanding a.device a.thereafter

theorem Yields.responseOf {es : List Event} {q r : State} (a : Yields es q r) (hf : q.firstErr = none) :
    responseOf r = responseTo q.scratch.data es := by
  have hfe := a.firstErr
  rw [hf, Option.none_or] at hfe
  cases hlog : es.filterMap Event.logged? with
  | nil => rw [hlog] at hfe; simp [responseTo, hlog, Machine.responseOf, hfe, a.data]
  | cons e fs => rw [hlog] at hfe; simp [responseTo, hlog, Machine.responseOf, hfe]

section
variable {q : State} (h : Still q)
include h

theorem yields_refl : Yields [] q q := by
  constructor <;> simp [stateAfter, levelAfter, results, h]

theorem yields_setOk (b : Bool) : Yields [] q (setOk b q) := by
  constructor <;> simp [stateAfter, levelAfter, results, h.setOk b]

theorem yields_setState (d : DeviceState) : Yields [.state d 0] q (setState d q) := by
  constructor <;> simp [stateAfter, levelAfter, results, h.setState d, h.now, Event.state?, Event.level?, Event.result?,
    Event.logged?, List.filterMap_cons]

theorem yields_gpio (l : Line) (v : Bool) : Yields [.pin l v 0] q (gpio l v q) := by
  constructor <;> simp [stateAfter, levelAfter, results, h.gpio l v, h.now, Event.state?, Event.level?, Event.result?,
    Event.logged?, List.filterMap_cons]
  all_goals split <;> rfl

theorem yields_log (e : Err) : Yields [.log e 0] q (logErr e q) := by
  constructor <;> simp [stateAfter, levelAfter, results, h.logErr e, h.now, Event.state?, Event.level?, Event.result?,
    Event.logged?, List.filterMap_cons]

theorem yields_took (a : Byte) (v : Bytes) : Yields [.wrote a v] q (took a v q) := by
  constructor <;> simp [stateAfter, levelAfter, results, h.took a v, Event.state?, Event.level?, Event.result?,
    Event.logged?, Event.wrote]

theorem yields_missed (a : Byte) (v : Bytes) : Yields [.failed a v] q (missed a v q) := by
  constructor <;> simp [stateAfter, levelAfter, results, h.missed a v, Event.state?, Event.level?, Event.result?,
    Event.logged?, Event.failed]

theorem yields_failedCw (a : Byte) (v : Bytes) : Yields (failedCw a v) q (logErr (.transport a) (missed a v q)) :=
  (yields_missed h a v).trans (yields_log (h.missed a v) _)

/-- The failure of a bracket's write: its Log, and `ok` false (R122). -/
theorem yields_broken (a : Byte) (v : Bytes) :
    Yields (failedCw a v) q (logErr (.transport a) (setOk false (missed a v q))) := by
  have := ((yields_missed h a v).trans (yields_setOk (h.missed a v) false)).trans
    (yields_log ((h.missed a v).setOk false) (.transport a))
  simpa [failedCw] using this

end

/-! ### Plain statements -/

/-- A list of statements that yields the events `es` from the still state `q`, if the Device's answers are those. -/
def FlowsTo (ms : List Micro) (es : List Event) (q r : State) : Prop := flow ms q = some r ∧ Yields es q r

theorem FlowsTo.append {as bs : List Micro} {es fs : List Event} {q r t : State} (a : FlowsTo as es q r)
    (b : FlowsTo bs fs r t) : FlowsTo (as ++ bs) (es ++ fs) q t :=
  ⟨(flow_append a.1 bs).trans b.1, a.2.trans b.2⟩

theorem flowsTo_nil {q : State} (h : Still q) : FlowsTo [] [] q q := ⟨rfl, yields_refl h⟩

theorem flowsTo_write {q : State} {bs : List Bool} (h : Still q) (r : Ready (true :: bs) q) (a : Byte) (v : Source)
    (f : OnFail) : FlowsTo [.write a v f] [.wrote a (v.bytes q)] q (took a (v.bytes q) q) :=
  ⟨flow_write h [] r a v f, yields_took h a _⟩

theorem flowsTo_setState {q : State} (h : Still q) (d : DeviceState) :
    FlowsTo [.setState d] [.state d 0] q (setState d q) := ⟨flow_setState h [] d, yields_setState h d⟩

theorem flowsTo_plain {m : Micro} {q : State} {bs : List Bool} (hm : m.plain = true) (h : Still q)
    (hr : Ready (results (m.events q.params) ++ bs) q) : ∃ r, FlowsTo [m] (m.events q.params) q r := by
  cases m
  case log e => exact ⟨_, flow_log h [] e, yields_log h e⟩
  case setState d => exact ⟨_, flowsTo_setState h d⟩
  case gpio l a => exact ⟨_, flow_gpio h [] l a, yields_gpio h l _⟩
  case wait d => exact ⟨q, flow_wait (h.wait d), yields_refl h⟩
  case write a v f =>
    cases v <;> cases f <;> cases hm
    exact ⟨_, flowsTo_write h hr a (.lit _) .log⟩
  all_goals cases hm

theorem flowsTo_plains {ms : List Micro} {q : State} {bs : List Bool} (hm : ∀ m ∈ ms, m.plain = true) (h : Still q)
    (hr : Ready (results (ms.flatMap (Micro.events q.params)) ++ bs) q) :
    ∃ r, FlowsTo ms (ms.flatMap (Micro.events q.params)) q r := by
  induction ms generalizing q with
  | nil => exact ⟨q, flowsTo_nil h⟩
  | cons m ms ih =>
    obtain ⟨hp, hps⟩ := List.forall_mem_cons.1 hm
    rw [List.flatMap_cons, results_append, List.append_assoc] at hr
    obtain ⟨r, hr₁⟩ := flowsTo_plain hp h hr
    have hready := hr₁.2.ready hr
    rw [← hr₁.2.params] at hready
    obtain ⟨t, ht⟩ := ih hps hr₁.2.still hready
    rw [hr₁.2.params] at ht
    exact ⟨t, hr₁.append ht⟩

/-! ### The bracket -/

/-- The events of writes that all succeed. -/
def wroteAll (ws : Image) : List Event := ws.map fun w => .wrote w.1 w.2

theorem results_wroteAll (ws : Image) : results (wroteAll ws) = List.replicate ws.length true := by
  induction ws with
  | nil => rfl
  | cons w ws ih => exact congrArg (true :: ·) ih

/-- The statements of a bracket after `ok <- true`: its disable and image writes, and the closing write. -/
def guardedWrites (p : Params) (k : Kind) (img : List (Byte × Source)) : List (Byte × Source) :=
  ((ctrlVal p k false).1, .lit (ctrlVal p k false).2) :: img

theorem bracket_eq (p : Params) (k : Kind) (img : List (Byte × Source)) :
    bracket p k img = .begin :: (imageWrites (guardedWrites p k img) ++ [closingWrite p k]) := rfl

theorem bracketWrites_sent (q : State) (k : Kind) (img : List (Byte × Source)) :
    bracketWrites q k (sent q img) =
      sent q (guardedWrites q.params k img) ++ [((switchOf q.params k).addr, closingValue k q)] := rfl

theorem flowsTo_imageWrites {q : State} {bs : List Bool} (h : Still q) (img : List (Byte × Source))
    (hr : Ready (List.replicate img.length true ++ bs) q) :
    ∃ r, FlowsTo (imageWrites img) (wroteAll (sent q img)) q r ∧ r.scratch.ok = q.scratch.ok := by
  induction img generalizing q with
  | nil => exact ⟨q, flowsTo_nil h, rfl⟩
  | cons w img ih =>
    have hw := flowsTo_write (bs := List.replicate img.length true ++ bs) h hr w.1 w.2 (.logFail img.length)
    obtain ⟨r, hr₁, hok⟩ := ih hw.2.still (hw.2.ready (es := [.wrote w.1 (w.2.bytes q)]) hr)
    rw [hw.2.sent] at hr₁
    exact ⟨r, hw.append hr₁, hok⟩

/-- A bracket in which nothing fails. -/
theorem flowsTo_bracket {q : State} {bs : List Bool} (h : Still q) (k : Kind) (img : List (Byte × Source))
    (hr : Ready (List.replicate (img.length + 2) true ++ bs) q) :
    ∃ r, FlowsTo (bracket q.params k img) (bracketEvents q k (sent q img)) q r ∧ r.scratch.ok = true := by
  have hb : FlowsTo [.begin] [] q (setOk true q) := ⟨flow_begin h [], yields_setOk h true⟩
  have hready : Ready (List.replicate (guardedWrites q.params k img).length true ++ true :: bs) q := by
    have : (guardedWrites q.params k img).length = img.length + 1 := rfl
    rw [this, ← List.singleton_append (l := bs), ← List.append_assoc]
    exact List.replicate_succ' ▸ hr
  have hbegun := hb.2.ready (es := []) hready
  obtain ⟨r, hi, hok⟩ := flowsTo_imageWrites hb.2.still (guardedWrites q.params k img) hbegun
  have hall := hb.append hi
  have hlast : Ready (true :: bs) r := hi.2.ready (by
    rw [results_wroteAll, show (sent _ (guardedWrites q.params k img)).length = _ from List.length_map _]
    exact hbegun)
  have hc := flowsTo_write hall.2.still hlast (switchOf q.params k).addr (.closing k) (.logFail 0)
  rw [hall.2.bytes] at hc
  refine ⟨took (switchOf q.params k).addr (closingValue k q) r, ?_, hok⟩
  have := hall.append hc
  rw [hb.2.sent] at this
  rw [bracketEvents, bracketWrites_sent, List.map_append]
  exact this

/-- The last write of a run of writes. -/
theorem quiet_closingWrite_broken {q : State} {bs : List Bool} (h : Still q) (ms : List Micro) (p : Params) (k : Kind)
    (hr : Ready (false :: bs) q) :
    quiet (closingWrite p k :: ms) 0 q = quiet ms 0 (logErr (.transport (switchOf p k).addr)
      (setOk false (missed (switchOf p k).addr (closingValue k q) q))) :=
  quiet_write_logFail h ms hr (switchOf p k).addr (.closing k) 0

/-- The image writes and the closing write, where write `n` of the image alone fails: those left are passed over. -/
theorem quiet_imageWrites_broken {q : State} {bs : List Bool} (h : Still q) (p : Params) (k : Kind)
    (img : List (Byte × Source)) (ms : List Micro) {n : Nat} {w : Byte × Source} (hw : img[n]? = some w)
    (hr : Ready (List.replicate n true ++ false :: true :: bs) q) :
    ∃ r, quiet (imageWrites img ++ closingWrite p k :: ms) 0 q = quiet ms 0 r ∧ r.scratch.ok = false ∧
      Yields (wroteAll (sent q (img.take n)) ++ failedCw w.1 (w.2.bytes q) ++
        [.wrote (switchOf p k).addr (closingValue k q)]) q r := by
  induction img generalizing q n with
  | nil => simp at hw
  | cons v img ih =>
    cases n with
    | zero =>
      obtain rfl := Option.some.inj hw
      have hy := yields_broken h v.1 (v.2.bytes q)
      have hc := flowsTo_write hy.still (hy.ready (es := failedCw v.1 (v.2.bytes q)) hr) (switchOf p k).addr (.closing k)
        (.logFail 0)
      rw [hy.bytes] at hc
      refine ⟨_, ?_, ?_, hy.trans hc.2⟩
      · rw [imageWrites, List.cons_append, quiet_write_logFail h _ hr, ← imageWrites_length img, quiet_skip]
        exact quiet_of_flow_append hc.1 ms
      · simp
    | succ n =>
      have hv := flowsTo_write (bs := List.replicate n true ++ false :: true :: bs) h hr v.1 v.2 (.logFail img.length)
      obtain ⟨r, hq, hok, hy⟩ := ih hv.2.still (by simpa using hw) (hv.2.ready (es := [.wrote v.1 (v.2.bytes q)]) hr)
      rw [hv.2.sent, hv.2.bytes, show closingValue k _ = _ from hv.2.bytes (.closing k)] at hy
      refine ⟨r, (quiet_of_flow_append hv.1 _).trans hq, hok, ?_⟩
      exact hv.2.trans hy

theorem brokenEvents_image {ws : Image} {n : Nat} {w c : Byte × Bytes} (hw : ws[n]? = some w) :
    brokenEvents (ws ++ [c]) n = wroteAll (ws.take n) ++ failedCw w.1 w.2 ++ [.wrote c.1 c.2] := by
  have hn : n < ws.length := (List.getElem?_eq_some_iff.1 hw).1
  have hmax : max (n + 1) ((ws ++ [c]).length - 1) = ws.length := by
    rw [List.length_append, List.length_singleton]
    omega
  rw [brokenEvents, hmax, List.drop_left, List.take_append_of_le_length hn.le, List.getElem?_append_left hn, hw]
  rfl

theorem brokenEvents_last (ws : Image) (c : Byte × Bytes) :
    brokenEvents (ws ++ [c]) ws.length = wroteAll ws ++ failedCw c.1 c.2 := by
  have hmax : max (ws.length + 1) ((ws ++ [c]).length - 1) = (ws ++ [c]).length := by
    rw [List.length_append, List.length_singleton]
    omega
  rw [brokenEvents, hmax, List.drop_length, List.take_left, List.getElem?_concat_length]
  exact List.append_nil _

/-- A bracket whose write `n` alone fails (R122): `ok` is false at its end. -/
theorem quiet_bracket_broken {q : State} {bs : List Bool} (h : Still q) (k : Kind) (img : List (Byte × Source))
    (ms : List Micro) {n : Nat} {w : Byte × Bytes} (hw : (bracketWrites q k (sent q img))[n]? = some w)
    (hr : Ready (List.replicate n true ++ false :: true :: bs) q) :
    ∃ r, quiet (bracket q.params k img ++ ms) 0 q = quiet ms 0 r ∧ r.scratch.ok = false ∧
      Yields (brokenEvents (bracketWrites q k (sent q img)) n) q r := by
  have hb : FlowsTo [.begin] [] q (setOk true q) := ⟨flow_begin h [], yields_setOk h true⟩
  have hready := hb.2.ready (es := []) hr
  have hbegin : quiet (bracket q.params k img ++ ms) 0 q =
      quiet (imageWrites (guardedWrites q.params k img) ++ closingWrite q.params k :: ms) 0 (setOk true q) := by
    rw [bracket_eq, List.cons_append, List.append_assoc]
    exact quiet_of_flow_append hb.1 _
  rw [bracketWrites_sent] at hw ⊢
  have hlen : (sent q (guardedWrites q.params k img)).length = (guardedWrites q.params k img).length := List.length_map _
  obtain hlt | hge := Nat.lt_or_ge n (guardedWrites q.params k img).length
  · rw [List.getElem?_append_left (by rw [hlen]; exact hlt)] at hw
    rw [brokenEvents_image hw]
    rw [sent, List.getElem?_map] at hw
    obtain ⟨v, hv, rfl⟩ := Option.map_eq_some_iff.1 hw
    obtain ⟨r, hq, hok, hy⟩ := quiet_imageWrites_broken hb.2.still q.params k _ ms hv hready
    rw [hb.2.sent, hb.2.bytes, show closingValue k _ = _ from hb.2.bytes (.closing k)] at hy
    refine ⟨r, hbegin.trans hq, hok, ?_⟩
    have hall := hb.2.trans hy
    rw [sent, List.map_take] at hall
    exact hall
  · have hn : n = (sent q (guardedWrites q.params k img)).length := by
      have := (List.getElem?_eq_some_iff.1 hw).1
      rw [List.length_append, List.length_singleton] at this
      omega
    subst hn
    rw [List.getElem?_concat_length] at hw
    obtain rfl := Option.some.inj hw
    rw [hlen] at hready
    obtain ⟨r, hi, -⟩ := flowsTo_imageWrites hb.2.still (guardedWrites q.params k img) hready
    have hall := hb.2.trans hi.2
    have hlast : Ready (false :: true :: bs) r := hi.2.ready (by
      rw [results_wroteAll, hb.2.sent, hlen]
      exact hready)
    rw [brokenEvents_last]
    have hy := yields_broken hall.still (switchOf q.params k).addr (closingValue k r)
    rw [show closingValue k r = closingValue k q from hall.bytes (.closing k)] at hy
    refine ⟨logErr (.transport (switchOf q.params k).addr)
      (setOk false (missed (switchOf q.params k).addr (closingValue k q) r)), ?_, rfl, ?_⟩
    · rw [hbegin, quiet_of_flow_append hi.1, quiet_closingWrite_broken hall.still ms q.params k hlast,
        show closingValue k r = closingValue k q from hall.bytes (.closing k)]
    · rw [← hb.2.sent]
      exact hall.trans hy

end Sys2Proof.Machine

/-! What a granted command leaves that comes to completion, and the commands that read or write one register. -/

namespace Sys2Proof.Machine

/-! ### The completion of a run -/

/-- The command of host `h`, granted in `s`, has completed in `t` from the still state `q`, after the events `es`. -/
structure Answered (h : Nat) (es : List Event) (q s t : State) : Prop where
  lock : t.lock = none
  resp : respAt t h = some (responseOf q)
  gains : TraceGains s t (es ++ [.resp h (responseOf q).status (responseOf q).info (responseOf q).data 0])
  ds : t.ds = q.ds
  eqEnabled : t.eqEnabled = q.eqEnabled
  eqPreset : t.eqPreset = q.eqPreset
  pinRst : t.pinRst = q.pinRst
  pinPd : t.pinPd = q.pinPd
  snapValid : t.snapValid = q.snapValid
  snap : t.snap = q.snap
  params : t.params = s.params
  cur : t.cur = s.cur

/-- A rule that comes to `rest` in `u` and from there, as the quiet run of `rest` says, to completion. -/
theorem runRule_from {h : Nat} {s u q : State} {rule rest : List Micro} {es : List Event} (g : Granted h s)
    (hrun : run rule 0 s = run rest 0 u) (hk : Kept s u) (hn : noReset u = true) (hm : ∀ m ∈ rest, m.offStage = true)
    (hq : quiet rest 0 (still u) = .done q) (he : q.trace = (still s).trace ++ es) :
    ∃ t, runRule rule s = .next t ∧ Answered h es q s t ∧
      ((∀ m ∈ rest, m.prompt = true) → t.waitUntil = u.waitUntil) := by
  have hquiet := run_quiet hm 0 hn
  rw [hq] at hquiet
  obtain ⟨v, hv, hst, hkv⟩ := hquiet
  have hksv := hk.trans hkv
  obtain ⟨fs, hf⟩ := hksv.trace
  obtain ⟨hresp, htr, -, -⟩ := complete_spec (hksv.lock.trans g.1) (by rw [hksv.count]; exact g.2.1)
  have hfs : fs.map Event.untimed = es := by
    rw [← hst, still_trace, still_trace, hf, List.map_append] at he
    exact List.append_cancel_left he
  have hro : responseOf v = responseOf q := by rw [← hst]; rfl
  rw [hro] at hresp htr
  refine ⟨complete v, (runRule_granted g _).trans (congrArg _ (hrun.trans hv)), ?_, fun hp => ?_⟩
  · refine ⟨complete_lock v, hresp, traceGains_of
      (fs := fs ++ [.resp h (responseOf q).status (responseOf q).info (responseOf q).data v.now])
      (by rw [htr, hf, List.append_assoc]) (by rw [List.map_append, hfs]; rfl), ?_, ?_, ?_, ?_, ?_, ?_, ?_, ?_, ?_⟩
    case refine_8 => rw [complete_params, hksv.params]
    case refine_9 => rw [complete_cur, hksv.cur]
    all_goals rw [← hst]; simp
  · rw [← hv]
    exact run_waitUntil hp 0 hn

/-- The same for a rule from its first statement. -/
theorem runRule_answered {h : Nat} {s q : State} {rule : List Micro} {es : List Event} (g : Granted h s)
    (hn : noReset s = true) (hm : ∀ m ∈ rule, m.offStage = true) (hq : quiet rule 0 (still s) = .done q)
    (he : q.trace = (still s).trace ++ es) :
    ∃ t, runRule rule s = .next t ∧ Answered h es q s t ∧
      ((∀ m ∈ rule, m.prompt = true) → t.waitUntil = s.waitUntil) :=
  runRule_from g rfl (.refl s) hn hm hq he

theorem Answered.onlyResponds {h : Nat} {es : List Event} {q s t : State} (a : Answered h es q s t)
    (hw : t.waitUntil = s.waitUntil) (ds : q.ds = s.ds) (eqEnabled : q.eqEnabled = s.eqEnabled)
    (eqPreset : q.eqPreset = s.eqPreset) (pinRst : q.pinRst = s.pinRst) (pinPd : q.pinPd = s.pinPd)
    (snapValid : q.snapValid = s.snapValid) (snap : q.snap = s.snap) : OnlyResponds s t :=
  ⟨a.ds.trans ds, a.eqEnabled.trans eqEnabled, a.eqPreset.trans eqPreset, a.pinRst.trans pinRst, a.pinPd.trans pinPd,
    a.snapValid.trans snapValid, a.snap.trans snap, a.params, hw, a.cur, a.lock⟩

/-! ### REG_READ (R109) -/

theorem registerOperand_ok {p : Params} {a : Byte} {l : Half} {w : Nat} (h : regmap p a = some w) (hl : l.toNat = w) :
    registerOperand p a l = .ok w := by
  simp [registerOperand, h, hl]

theorem regReadRule_admitted {p : Params} {a : Byte} {l : Half} {w : Nat} (h : registerOperand p a l = .ok w) :
    regReadRule p a l = [.require dsForRunning] ++ [.read a w, .answerBuf] := by
  simp only [regReadRule, h]
  rfl

theorem perform_read_missed {q : State} (h : Still q) {bs : List Bool} (r : Ready (false :: bs) q) (a : Byte) (n : Nat) :
    perform (.read a n) q = .raised none (.transport a) (emit (.xfer .read a [] false 0) (drawn q)) := by
  rw [perform_read_fail a n r.free r.fail, h.now]

theorem still_readMissed {q : State} (h : Still q) (a : Byte) : Still (emit (.xfer .read a [] false 0) (drawn q)) := by
  rw [← h, Still]
  simp [still, emit, drawn, Function.comp_def]

/-- Settles O26: the one read, and its bytes or its failure. -/
theorem regReadReturnsTheBytesRead : Obligations.RegReadReturnsTheBytesRead := by
  intro s h a l w g hn hd hmap hl
  obtain ⟨hf, hsc⟩ := granted_still g
  have hrule : exec (.regRead a l) s = runRule ([.require dsForRunning] ++ [.read a w, .answerBuf]) s :=
    congrArg (runRule · s) (regReadRule_admitted (registerOperand_ok hmap hl))
  have h₀ := still_of_still s
  refine ⟨fun b rest hdev hb => ?_, fun hfail => ?_⟩
  · subst hb
    have hflow : flow ([.require dsForRunning] ++ [.read a b.length, .answerBuf]) (still s) =
        some (setData b (got a b (still s))) := by
      rw [flow_append (flow_running hd), flow_read h₀ _ (by rw [hsc]; rfl) hdev, flow_answerBuf (h₀.got a b),
        show (got a b (still s)).scratch.buf = b by rw [got_scratch, hsc]; rfl]
      rfl
    obtain ⟨t, hrun, ha, hw⟩ := runRule_answered (es := [.xfer .read a b true 0]) g hn (by simp [Micro.offStage])
      (quiet_of_flow hflow) (by simp)
    have hresp : responseOf (setData b (got a b (still s))) = ⟨.ok, 0, b⟩ := responseOf_ok (by simpa using hf)
    have ⟨_, hresp', hgains, _, _, _, _, _, _, _, _, _⟩ := ha
    rw [hresp] at hresp' hgains
    refine ⟨t, hrule.trans hrun, ha.onlyResponds (hw (by simp [Micro.prompt])) ?_ ?_ ?_ ?_ ?_ ?_ ?_, hresp', hgains⟩ <;>
      simp
  · have hr : Ready [false] (still s) := ready_of_nextAnswer g.2.2.2.2 (by rw [hfail]; rfl)
    obtain ⟨t, hrun, ho, hresp, hgains⟩ := runRule_raises (es := [.xfer .read a [] false 0]) (ms := [.answerBuf]) g hn
      (by simp [Micro.offStage, Micro.prompt]) (flow_running hd) (perform_read_missed h₀ hr a w) (still_readMissed h₀ a)
      (by simp) (by simp [SameFields])
    exact ⟨t, hrule.trans hrun, ho, hresp, hgains⟩

/-! ### The reads of SUSPEND (R98) -/

/-- The read of a volume. -/
def readOf (r : CtlReg) : Micro := .read r.addr 1

/-- The event of its read. -/
def readEvent (r : CtlReg) (b : Byte) : Event := .xfer .read r.addr [b] true 0

theorem vol_toList (v : Vector CtlReg 4) : v.toList = [v[0], v[1], v[2], v[3]] := by
  refine List.ext_getElem (by simp) fun i h₁ h₂ => ?_
  have hi : i < 4 := by simpa using h₁
  interval_cases i <;> simp

theorem takeSnapshot_eq (p : Params) : takeSnapshot p = p.regs.vol.toList.map readOf ++ [.saveSnap, .markSnap] := by
  rw [vol_toList]
  rfl

/-- Reads that succeed change nothing but the bytes read. -/
theorem flow_reads {q : State} {rs : List CtlReg} {bs : Bytes} {rest : List Answer} (h : Still q)
    (ho : q.scratch.outstanding = false) (hd : q.env.device = bs.map (fun b => .ok [b]) ++ rest)
    (hl : bs.length ≤ rs.length) :
    ∃ r, flow ((rs.take bs.length).map readOf) q = some r ∧ Still r ∧ r.scratch.outstanding = false ∧
      r.env.device = rest ∧ r.trace = q.trace ++ List.zipWith readEvent rs bs ∧ SameFields q r := by
  induction bs generalizing q rs with
  | nil => exact ⟨q, rfl, h, ho, hd, by simp, by simp [SameFields]⟩
  | cons b bs ih =>
    cases rs with
    | nil => exact absurd hl (Nat.not_succ_le_zero _)
    | cons v rs =>
      obtain ⟨r, hf, hst, hor, hdr, htr, hs⟩ := ih (h.got v.addr [b]) (by simpa using ho)
        (by rw [got_device, hd]; rfl) (Nat.le_of_succ_le_succ hl)
      refine ⟨r, (flow_readVol h _ ho hd).trans hf, hst, hor, hdr, ?_, by simpa [SameFields] using hs⟩
      rw [htr, got_trace, List.append_assoc]
      rfl

/-- Settles O21: the reads before the failed one leave no mark on the block, and it raises (`runRule_raises`). -/
theorem suspendReadFailureChangesNothing : Obligations.SuspendReadFailureChangesNothing := by
  intro s h bs rest hk g hn hd hb hdev
  obtain ⟨hf, hsc⟩ := granted_still g
  have h₀ := still_of_still s
  have hlen : bs.length < s.params.regs.vol.toList.length := by simpa using hk
  have hvol : s.params.regs.vol.toList[bs.length] = s.params.regs.vol[bs.length] := by simp
  have hsplit : suspendRule s.params =
      ([.require dsForRunning] ++ (s.params.regs.vol.toList.take bs.length).map readOf) ++
        readOf s.params.regs.vol[bs.length] ::
          ((s.params.regs.vol.toList.drop (bs.length + 1)).map readOf ++ [.saveSnap, .markSnap] ++ powerDown s.params) := by
    conv_lhs => rw [suspendRule_bound hb, takeSnapshot_eq, ← List.take_append_drop bs.length s.params.regs.vol.toList,
      List.drop_eq_getElem_cons hlen, hvol]
    simp only [List.map_append, List.map_cons, List.append_assoc, List.cons_append]
  obtain ⟨r, hflow, hst, hor, hdr, htr, hs⟩ := flow_reads h₀ (by rw [hsc]; rfl) hdev hlen.le
  have hready : Ready [false] r := ⟨hor, by rw [hdr]; exact ⟨rfl, trivial⟩⟩
  have hreads : ∀ n ∈ [.require dsForRunning] ++ (s.params.regs.vol.toList.take bs.length).map readOf ++
      [readOf s.params.regs.vol[bs.length]], n.offStage = true ∧ n.prompt = true := by
    simp only [List.forall_mem_append, List.forall_mem_map, List.forall_mem_singleton]
    exact ⟨⟨⟨rfl, rfl⟩, fun _ _ => ⟨rfl, rfl⟩⟩, rfl, rfl⟩
  obtain ⟨t, hrun, ho, hresp, hgains⟩ := runRule_raises
    (es := List.zipWith readEvent s.params.regs.vol.toList bs ++
      [.xfer .read s.params.regs.vol[bs.length].addr [] false 0])
    (ms := (s.params.regs.vol.toList.drop (bs.length + 1)).map readOf ++ [.saveSnap, .markSnap] ++ powerDown s.params) g
    hn hreads ((flow_append (flow_running hd) _).trans hflow)
    (perform_read_missed hst hready s.params.regs.vol[bs.length].addr 1) (still_readMissed hst _)
    (by rw [emit_trace, drawn_trace, htr, List.append_assoc]) (by simpa [SameFields] using hs)
  rw [List.append_assoc] at hgains
  refine ⟨t, ?_, ho, hresp, hgains⟩
  rw [← hrun]
  exact congrArg (runRule · s) hsplit

end Sys2Proof.Machine

/-! The checks of operands, REG_WRITE, SET_ENABLED and SELECT_PRESET (R109, R110, R124, R125). -/

namespace Sys2Proof.Machine

/-! ### Operands (R71, R147) -/

/-- A rule that is its state check and the raise of `e`. -/
theorem exec_rejects {h : Nat} {s : State} {i : Instr} {e : Err} (g : Granted h s) (hn : noReset s = true)
    (hd : s.ds = .running) (hrule : exec i s = runRule [.require dsForRunning, .raise e] s) :
    ∃ t, exec i s = .next t ∧ Rejects s t h e := by
  rw [hrule]
  exact rejects_second [] g hn ((mem_dsForRunning _).2 hd)

theorem regReadRule_rejected {p : Params} {a : Byte} {l : Half} {e : Err} (h : registerOperand p a l = .error e) :
    regReadRule p a l = [.require dsForRunning, .raise e] := by
  simp only [regReadRule, h]

theorem regWriteRule_rejected {p : Params} {a : Byte} {l : Half} {e : Err} (h : writableOperand p a l = .error e) :
    regWriteRule p a l = [.require dsForRunning, .raise e] := by
  simp only [regWriteRule, h]

theorem patchApplyRule_rejected {p : Params} {l : Half} {e : Err} (h : textOperand l = .error e) :
    patchApplyRule p l = [.require dsForRunning, .raise e] := by
  simp only [patchApplyRule, h]

theorem registerOperand_notFound {p : Params} {a : Byte} {l : Half} (h : regmap p a = none) :
    registerOperand p a l = .error (.notFound a) := by
  simp [registerOperand, h]

theorem registerOperand_length {p : Params} {a : Byte} {l : Half} {w : Nat} (h : regmap p a = some w) (hl : l.toNat ≠ w) :
    registerOperand p a l = .error (.length l) := by
  simp [registerOperand, h, hl]

theorem writableOperand_of_error {p : Params} {a : Byte} {l : Half} {e : Err} (h : registerOperand p a l = .error e) :
    writableOperand p a l = .error e := by
  simp only [writableOperand, h]

theorem writableOperand_protected {p : Params} {a : Byte} {l : Half} {w : Nat} (h : registerOperand p a l = .ok w)
    (hp : isProtected p a = true) : writableOperand p a l = .error (.protected a) := by
  simp [writableOperand, h, hp]

/-- Settles O27: each check that fails leaves the state check and its raise of the rule. -/
theorem registerCommandsCheckTheirOperands : Obligations.RegisterCommandsCheckTheirOperands := by
  intro s h a l g hn hd
  have both : ∀ e, registerOperand s.params a l = .error e →
      (∃ t, exec (.regRead a l) s = .next t ∧ Rejects s t h e) ∧
      (∃ t, exec (.regWrite a l) s = .next t ∧ Rejects s t h e) := fun e he =>
    ⟨exec_rejects g hn hd (congrArg (runRule · s) (regReadRule_rejected he)),
      exec_rejects g hn hd (congrArg (runRule · s) (regWriteRule_rejected (writableOperand_of_error he)))⟩
  refine ⟨fun hnone => both _ (registerOperand_notFound hnone), fun w hw hl => both _ (registerOperand_length hw hl),
    fun hw hp => ?_⟩
  exact exec_rejects g hn hd
    (congrArg (runRule · s) (regWriteRule_rejected (writableOperand_protected (registerOperand_ok hw rfl) hp)))

theorem presetOperand_index {p : Params} {a : Byte} (h : p.cfg.numPresets ≤ a.toNat) :
    presetOperand p a = .error (.index a) := by
  simp [presetOperand, List.getElem?_eq_none (show p.cfg.presets.length ≤ a.toNat from h)]

/-- Settles O43: the index, and then the blob. -/
theorem selectPresetChecksTheIndex : Obligations.SelectPresetChecksTheIndex := by
  intro s h a g hn hd
  exact ⟨fun hi => exec_rejects g hn hd (congrArg (runRule · s) (selectPresetRule_rejected (presetOperand_index hi))),
    fun q hq hl => exec_rejects g hn hd
      (congrArg (runRule · s) (selectPresetRule_rejected (presetOperand_wrongLength hq hl)))⟩

/-- Settles O46. -/
theorem patchChecksItsLength : Obligations.PatchChecksItsLength := by
  intro s h l g hn hd hl
  have herr : textOperand l = .error (.length l) := by
    rw [textOperand, Config.stageBytes, if_neg (by omega)]
  exact exec_rejects g hn hd (congrArg (runRule · s) (patchApplyRule_rejected herr))

/-! ### REG_WRITE (R110) -/

/-- The still state in which the bytes `v` have been read from the stage, with `d` draws. -/
def loaded (v : Bytes) (d : Nat) (s : State) : State := setBuf v (withDraws d (still s))

theorem still_loaded (v : Bytes) (d : Nat) (s : State) : Still (loaded v d s) :=
  congrArg (fun u => setBuf v (withDraws d u)) (still_still s)

theorem loaded_same (v : Bytes) (d : Nat) (s : State) : SameFields (still s) (loaded v d s) :=
  ⟨rfl, rfl, rfl, rfl, rfl, rfl, rfl, rfl⟩

theorem loaded_ready {v : Bytes} {d : Nat} {s : State} {bs : List Bool} (h : Ready bs (still s)) : Ready bs (loaded v d s) :=
  h.same rfl rfl rfl

/-- Where nothing but time passes a statement that reads the stage leaves those bytes in its locals, and nothing else of
the block changed. -/
theorem run_load {s : State} (n : Nat) (rest : List Micro) (ht : onlyTime s = true) :
    ∃ u d, run (.loadStage n :: rest) 0 s = run rest 0 u ∧ noReset u = true ∧ Kept s u ∧ u.waitUntil = s.waitUntil ∧
      still u = loaded (stageRead 0 n s).1 d s := by
  have hn := noReset_of_onlyTime ht
  have hp : perform (.loadStage n) (settled s) =
      .go 0 (setBuf (stageRead 0 n s).1 (withDraws (stageRead 0 n (settled s)).2.env.draws (settled s))) := by
    simp only [perform, ← stageRead_state, stageRead_settled ht]
  refine ⟨_, (stageRead 0 n (settled s)).2.env.draws, run_go hn rest hp, noReset_settled hn,
    (settled_kept hn).trans (read_kept _ _ _), settled_waitUntil hn, ?_⟩
  rw [loaded, ← still_settled hn]
  rfl

/-- A rule of a state check and such a read. -/
theorem run_loaded {s : State} (n : Nat) (rest : List Micro) (ht : onlyTime s = true) (hd : s.ds = .running) :
    ∃ u d, run (.require dsForRunning :: .loadStage n :: rest) 0 s = run rest 0 u ∧ noReset u = true ∧ Kept s u ∧
      u.waitUntil = s.waitUntil ∧ still u = loaded (stageRead 0 n s).1 d s := by
  have hn := noReset_of_onlyTime ht
  have h₁ : onlyTime (advance 1 (settled s)) = true := onlyTime_settled ht
  obtain ⟨u, d, hrun, hnu, hk, hw, hst⟩ := run_load n rest h₁
  have hadv := (stageRead_congr (s := settled s) (t := advance 1 (settled s)) rfl rfl rfl rfl 0 n).1
  rw [hadv, stageRead_settled ht] at hst
  refine ⟨u, d, (run_admitted _ hn ((mem_dsForRunning _).2 hd)).trans hrun, hnu,
    ((settled_kept hn).trans (advance_works 1 (settled s)).kept).trans hk, ?_, ?_⟩
  · rw [hw, advance_waitUntil, settled_waitUntil hn]
  · rw [hst, loaded, loaded, show still (advance 1 (settled s)) = still (settled s) from rfl, still_settled hn]

theorem regWriteRule_admitted {p : Params} {a : Byte} {l : Half} (h : regmap p a = some l.toNat)
    (hp : isProtected p a = false) :
    regWriteRule p a l = .require dsForRunning :: .loadStage l.toNat :: [.write a .buf .raise] := by
  simp [regWriteRule, writableOperand, registerOperand, h, hp]

/-- Settles O28: the stage read gives `v` (`stageRead_known`), and the one write sends it. -/
theorem regWriteWritesTheStage : Obligations.RegWriteWritesTheStage := by
  intro s h a l v g ht hd hmap hp hlen hstage
  obtain ⟨hf, hsc⟩ := granted_still g
  obtain ⟨u, d, hrun, hn, hk, hw, hst⟩ := run_loaded l.toNat [.write a .buf .raise] ht hd
  have hread : (stageRead 0 l.toNat s).1 = v := by
    rw [← hlen, stageRead_known (v := v) fun k hk => by rw [Nat.zero_add]; exact hstage k hk]
  rw [hread] at hst
  have hrule : exec (.regWrite a l) s = runRule (.require dsForRunning :: .loadStage l.toNat :: [.write a .buf .raise]) s :=
    congrArg (runRule · s) (regWriteRule_admitted hmap hp)
  have hq := still_loaded v d s
  obtain ⟨s₁, s₂, s₃, s₄, s₅, s₆, s₇, s₈⟩ := loaded_same v d s
  refine ⟨fun ⟨b, hb⟩ => ?_, fun hfail => ?_⟩
  · have hr : Ready [true] (loaded v d s) := loaded_ready (ready_of_nextAnswer g.2.2.2.2 (by rw [hb]; rfl))
    obtain ⟨t, hex, ha, hwait⟩ := runRule_from (es := [.wrote a v]) g hrun hk hn (by simp [Micro.offStage])
      (by rw [hst]; exact quiet_of_flow (flow_write hq [] hr a .buf .raise)) rfl
    have ⟨_, hresp, hgains, _, _, _, _, _, _, _, _, _⟩ := ha
    have hro : responseOf (took a v (loaded v d s)) = ⟨.ok, 0, []⟩ := by
      rw [responseOf_ok (by rw [took_firstErr]; exact s₈.trans hf), took_scratch, loaded,
        show (setBuf v (withDraws d (still s))).scratch.data =
        (still s).scratch.data from rfl, hsc]
      rfl
    rw [show Source.bytes (loaded v d s) .buf = v from rfl, hro] at hresp hgains
    exact ⟨t, hrule.trans hex, ha.onlyResponds ((hwait (by simp [Micro.prompt])).trans hw) s₁ s₂ s₃ s₄ s₅ s₆ s₇, hresp,
      hgains⟩
  · have hr : Ready [false] (loaded v d s) := loaded_ready (ready_of_nextAnswer g.2.2.2.2 (by rw [hfail]; rfl))
    obtain ⟨t, hex, ha, hwait⟩ := runRule_from (es := failedCw a v) g hrun hk hn (by simp [Micro.offStage])
      (by rw [hst]; exact quiet_write_raise hq [] hr a .buf) (yields_failedCw hq a v).trace
    have ⟨_, hresp, hgains, _, _, _, _, _, _, _, _, _⟩ := ha
    rw [responseOf_raised _ (by rw [missed_firstErr]; exact s₈.trans hf)] at hresp hgains
    exact ⟨t, hrule.trans hex, ha.onlyResponds ((hwait (by simp [Micro.prompt])).trans hw) s₁ s₂ s₃ s₄ s₅ s₆ s₇, hresp,
      hgains⟩

/-! ### SET_ENABLED (R124) -/

/-- The first two statements of SET_ENABLED. -/
theorem flow_firstSwitch {s : State} {bs : List Bool} (hd : s.ds = .running) (hr : Ready (true :: bs) (still s))
    (q : Byte × Bytes) :
    flow [.require dsForRunning, .write q.1 (.lit q.2) .raise] (still s) = some (took q.1 q.2 (still s)) :=
  (flow_append (flow_running hd) _).trans (flow_write (still_of_still s) [] hr q.1 (.lit q.2) .raise)

/-- Settles O40: the two writes, and then the flag. -/
theorem setEnabledWritesBothControls : Obligations.SetEnabledWritesBothControls := by
  intro s h e g hu hd p
  obtain ⟨hf, hsc⟩ := granted_still g
  have hq := ctrlVal p .eq e
  have hr : Ready [true, true] (still s) := ready_of_succeeds hu.2 2
  have h₁ := (still_of_still s).took (ctrlVal p .eq e).1 (ctrlVal p .eq e).2
  have hr₁ : Ready [true] (took (ctrlVal p .eq e).1 (ctrlVal p .eq e).2 (still s)) := hr.tail rfl rfl rfl
  have hflow : flow (setEnabledRule p e) (still s) = some (setEqEnabled e
      (took (ctrlVal p .drc e).1 (ctrlVal p .drc e).2 (took (ctrlVal p .eq e).1 (ctrlVal p .eq e).2 (still s)))) := by
    have hhead := flow_append (flow_firstSwitch hd hr (ctrlVal p .eq e))
      [.write (ctrlVal p .drc e).1 (.lit (ctrlVal p .drc e).2) .raise, .setEnabled e]
    refine hhead.trans ((flow_write h₁ _ hr₁ _ _ _).trans (flow_setEnabled (h₁.took _ _) [] e))
  obtain ⟨t, hrun, ha, -⟩ := runRule_answered
    (es := [.wrote (ctrlVal p .eq e).1 (ctrlVal p .eq e).2, .wrote (ctrlVal p .drc e).1 (ctrlVal p .drc e).2]) g hu.1
    (by simp [setEnabledRule, Micro.offStage]) (quiet_of_flow hflow) (by simp)
  obtain ⟨hlock, hresp, hgains, hds, hee, hep, -, -, -, -, -, -⟩ := ha
  rw [responseOf_ok (by simpa using hf), show (setEqEnabled e _).scratch.data = [] by
    simp [g.2.2.2.2, Scratch.empty]] at hresp hgains
  exact ⟨t, hrun, hee, hep, hds.trans hd, hlock, hresp, hgains⟩

/-- Settles O41: the first write raises, or the second (`runRule_raises`). -/
theorem setEnabledFailureKeepsTheFlag : Obligations.SetEnabledFailureKeepsTheFlag := by
  intro s h e g hn hd p q d
  have h₀ := still_of_still s
  refine ⟨fun hfail => ?_, fun b rest hdev => ?_⟩
  · have hr : Ready [false] (still s) := ready_of_nextAnswer g.2.2.2.2 (by rw [hfail]; rfl)
    exact runRule_raises (es := [.failed q.1 q.2]) (ms := [.write d.1 (.lit d.2) .raise, .setEnabled e]) g hn
      (by simp [Micro.offStage, Micro.prompt]) (flow_running hd) (perform_write_missed h₀ hr q.1 (.lit q.2) .raise)
      (h₀.missed _ _) (missed_trace _ _ _) (by simp [SameFields])
  · have hr : Ready [true, false] (still s) := ready_of_script (as := [.ok b, .fail]) g.2.2.2.2 hdev rfl
    have h₁ := h₀.took q.1 q.2
    have hr₁ : Ready [false] (took q.1 q.2 (still s)) := hr.tail rfl rfl rfl
    exact runRule_raises (es := [.wrote q.1 q.2, .failed d.1 d.2]) (ms := [.setEnabled e]) g hn
      (by simp [Micro.offStage, Micro.prompt]) (flow_firstSwitch hd hr q) (perform_write_missed h₁ hr₁ d.1 (.lit d.2) .raise)
      (h₁.missed _ _) (by simp [Source.bytes]) (by simp [SameFields])

end Sys2Proof.Machine

/-! SELECT_PRESET and PATCH_APPLY: their brackets with nothing failing, and with one write failing (R125, R129, R130). -/

namespace Sys2Proof.Machine

/-! ### Events of transactions and logs alone -/

/-- An event that drives no line and sets no state. -/
def Event.onBus : Event → Bool
  | .xfer _ _ _ _ _ => true
  | .log _ _ => true
  | _ => false

theorem stateAfter_onBus {es : List Event} (h : ∀ e ∈ es, e.onBus = true) (d : DeviceState) : stateAfter es d = d := by
  induction es with
  | nil => rfl
  | cons e es ih =>
    obtain ⟨he, hes⟩ := List.forall_mem_cons.1 h
    refine Eq.trans ?_ (ih hes)
    cases e with
    | xfer | log => rfl
    | pin | state | grant | resp | reset => cases he

theorem levelAfter_onBus {es : List Event} (h : ∀ e ∈ es, e.onBus = true) (l : Line) (x : PinLevel) :
    levelAfter l es x = x := by
  induction es with
  | nil => rfl
  | cons e es ih =>
    obtain ⟨he, hes⟩ := List.forall_mem_cons.1 h
    refine Eq.trans ?_ (ih hes)
    cases e with
    | xfer | log => rfl
    | pin | state | grant | resp | reset => cases he

theorem onBus_wroteAll (ws : Image) : ∀ e ∈ wroteAll ws, e.onBus = true := by
  intro e he
  obtain ⟨w, -, rfl⟩ := List.mem_map.1 he
  rfl

theorem logged_wroteAll (ws : Image) : (wroteAll ws).filterMap Event.logged? = [] := by
  rw [List.filterMap_eq_nil_iff]
  intro e he
  obtain ⟨w, -, rfl⟩ := List.mem_map.1 he
  rfl

section
variable {ws : Image} {n : Nat} {w : Byte × Bytes} (hw : ws[n]? = some w)
include hw

theorem brokenEvents_eq : brokenEvents ws n =
    wroteAll (ws.take n) ++ failedCw w.1 w.2 ++ wroteAll (ws.drop (max (n + 1) (ws.length - 1))) := by
  rw [brokenEvents, hw]
  rfl

theorem onBus_brokenEvents : ∀ e ∈ brokenEvents ws n, e.onBus = true := by
  rw [brokenEvents_eq hw]
  simp only [List.forall_mem_append]
  exact ⟨⟨onBus_wroteAll _, by simp [failedCw, Event.failed, Event.onBus]⟩, onBus_wroteAll _⟩

theorem logged_brokenEvents : (brokenEvents ws n).filterMap Event.logged? = [.transport w.1] := by
  rw [brokenEvents_eq hw, List.filterMap_append, List.filterMap_append, logged_wroteAll, logged_wroteAll]
  rfl

/-- The answers the events show, and one more: what is left to be heard where two successes follow the failure. -/
theorem results_brokenEvents :
    ∃ bs, results (brokenEvents ws n) ++ true :: bs = List.replicate n true ++ [false, true, true] := by
  have hn : n < ws.length := (List.getElem?_eq_some_iff.1 hw).1
  have hlen : (ws.take n).length = n := by rw [List.length_take, Nat.min_eq_left hn.le]
  rw [brokenEvents_eq hw, results_append, results_append, results_wroteAll, results_wroteAll, hlen, List.length_drop,
    show results (failedCw w.1 w.2) = [false] from rfl]
  obtain hlast | hlast : ws.length = n + 1 ∨ n + 1 < ws.length := by omega
  · exact ⟨[true], by rw [Nat.max_eq_left (by omega), hlast, Nat.sub_self]; simp⟩
  · have hone : ws.length - max (n + 1) (ws.length - 1) = 1 := by omega
    exact ⟨[], by rw [hone]; simp⟩

end

/-- The answer of a command whose events log one error. -/
theorem responseTo_logged {es : List Event} {e : Err} (h : es.filterMap Event.logged? = [e]) (data : Bytes) :
    responseTo data es = ⟨e.code, e.info, []⟩ := by
  simp only [responseTo, h]

theorem responseTo_none {es : List Event} (h : es.filterMap Event.logged? = []) (data : Bytes) :
    responseTo data es = ⟨.ok, 0, data⟩ := by
  simp only [responseTo, h]

/-! ### SELECT_PRESET (R125) -/

theorem selectPresetRule_admitted {p : Params} {a : Byte} {q : Preset} {img : Image}
    (hq : p.cfg.presets[a.toNat]? = some q) (hi : loadEq q.blob = some img) :
    selectPresetRule p a = [.require dsForRunning] ++ (bracket p .eq (litImage img) ++ [.ifOk 1, .setPreset a]) := by
  have hl : q.blob.length = Config.eqBlobBytes := by
    by_contra hne
    rw [loadEq, if_neg hne] at hi
    cases hi
  simp [selectPresetRule, presetOperand, hq, hl, hi]

theorem sent_litImage (s : State) (img : Image) : sent s (litImage img) = img := by
  rw [sent, litImage, List.map_map]
  exact List.map_id img

theorem offStage_imageWrites (img : List (Byte × Source)) : ∀ m ∈ imageWrites img, m.offStage = true ∧ m.prompt = true := by
  induction img with
  | nil => simp [imageWrites]
  | cons w img ih => exact List.forall_mem_cons.2 ⟨⟨rfl, rfl⟩, ih⟩

theorem offStage_bracket (p : Params) (k : Kind) (img : List (Byte × Source)) :
    ∀ m ∈ bracket p k img, m.offStage = true ∧ m.prompt = true := by
  rw [bracket_eq]
  simp only [List.forall_mem_cons, List.forall_mem_append]
  exact ⟨⟨rfl, rfl⟩, offStage_imageWrites _, ⟨rfl, rfl⟩, nofun⟩

theorem offStage_selectPreset (p : Params) (img : List (Byte × Source)) (a : Byte) :
    ∀ m ∈ [.require dsForRunning] ++ (bracket p .eq img ++ [.ifOk 1, .setPreset a]), m.offStage = true ∧ m.prompt = true := by
  simp only [List.forall_mem_append, List.forall_mem_singleton, List.forall_mem_cons]
  exact ⟨⟨rfl, rfl⟩, offStage_bracket _ _ _, ⟨rfl, rfl⟩, rfl, rfl⟩

theorem bracketEvents_still (s : State) (k : Kind) (img : Image) : bracketEvents (still s) k img = bracketEvents s k img :=
  rfl

/-- Settles O42: the bracket leaves `ok`, and the index is written. -/
theorem selectPresetCommitsTheBank : Obligations.SelectPresetCommitsTheBank := by
  intro s h a q img g hu hd hq hi
  have hlen : (litImage img).length + 2 = 20 := by rw [litImage, List.length_map, loadEq_length hi]
  obtain ⟨r, hb, hok⟩ := flowsTo_bracket (bs := []) (still_of_still s) .eq (litImage img)
    (by rw [hlen]; exact ready_of_succeeds hu.2 20)
  rw [sent_litImage, bracketEvents_still, still_params] at hb
  have hbus := onBus_wroteAll (bracketWrites s .eq img)
  have hflow : flow ([.require dsForRunning] ++ (bracket s.params .eq (litImage img) ++ [.ifOk 1, .setPreset a])) (still s) =
      some (setPreset a r) := by
    rw [flow_append (flow_running hd), flow_append hb.1, flow_ifOk hb.2.still _ 1 hok, flow_setPreset hb.2.still]
    rfl
  obtain ⟨t, hrun, ha, -⟩ := runRule_answered g hu.1 (fun m hm => (offStage_selectPreset _ _ _ m hm).1)
    (quiet_of_flow hflow) ((setPreset_trace r a).trans hb.2.trace)
  obtain ⟨hlock, hresp, hgains, hds, hee, hep, -, -, -, -, -, -⟩ := ha
  have hro : responseOf (setPreset a r) = ⟨.ok, 0, []⟩ := by
    rw [show responseOf (setPreset a r) = responseOf r from rfl, hb.2.responseOf (granted_still g).1,
      (granted_still g).2]
    exact responseTo_none (logged_wroteAll _) []
  rw [hro] at hresp hgains
  refine ⟨t, (congrArg (runRule · s) (selectPresetRule_admitted hq hi)).trans hrun, hep, hee.trans hb.2.eqEnabled,
    (hds.trans hb.2.ds).trans ((stateAfter_onBus hbus _).trans hd), hlock, hresp, hgains, ?_⟩
  rw [bracketEvents, List.length_map, bracketWrites, List.length_append, List.length_cons, loadEq_length hi]
  rfl

/-- One broken write of SELECT_PRESET's bracket: `ok` is false, and the index is not written. -/
theorem selectPreset_broken {s : State} {h n : Nat} {a : Byte} {q : Preset} {img : Image} {w : Byte × Bytes}
    {oks : List Bytes} {b : Bytes} {later : List Answer} (g : Granted h s) (hn : noReset s = true) (hd : s.ds = .running)
    (hq : s.params.cfg.presets[a.toNat]? = some q) (hi : loadEq q.blob = some img)
    (hw : (bracketWrites s .eq img)[n]? = some w) (hoks : oks.length = n)
    (hdev : s.env.device = oks.map .ok ++ .fail :: .ok b :: later) :
    let e := Err.transport w.1
    ∃ t, exec (.selectPreset a) s = .next t ∧ OnlyResponds s t ∧ respAt t h = some ⟨e.code, e.info, []⟩ ∧
      TraceGains s t (brokenEvents (bracketWrites s .eq img) n ++ [.resp h e.code e.info [] 0]) := by
  intro e
  have hr : Ready (List.replicate n true ++ [false, true]) (still s) :=
    ready_of_script (as := oks.map .ok ++ [.fail, .ok b]) (rest := later) g.2.2.2.2 (by rw [hdev]; simp)
      (by simp [Answer.result?, Function.comp_def, hoks])
  have hsent : bracketWrites (still s) .eq (sent (still s) (litImage img)) = bracketWrites s .eq img := by
    rw [sent_litImage]; rfl
  obtain ⟨r, hbr, hok, hy⟩ := quiet_bracket_broken (still_of_still s) .eq (litImage img) [.ifOk 1, .setPreset a]
    (by rw [hsent]; exact hw) hr
  rw [hsent] at hy
  have hquiet : quiet ([.require dsForRunning] ++ (bracket s.params .eq (litImage img) ++ [.ifOk 1, .setPreset a])) 0
      (still s) = .done r := by
    rw [quiet_of_flow_append (flow_running hd)]
    exact hbr.trans (quiet_ifOk_skip hy.still _ 1 hok)
  obtain ⟨t, hrun, ha, hwait⟩ := runRule_answered g hn (fun m hm => (offStage_selectPreset _ _ _ m hm).1) hquiet hy.trace
  have ⟨_, hresp, hgains, _, _, _, _, _, _, _, _, _⟩ := ha
  have hbus := onBus_brokenEvents hw
  rw [hy.responseOf (granted_still g).1, responseTo_logged (logged_brokenEvents hw)] at hresp hgains
  exact ⟨t, (congrArg (runRule · s) (selectPresetRule_admitted hq hi)).trans hrun,
    ha.onlyResponds (hwait fun m hm => (offStage_selectPreset _ _ _ m hm).2) (hy.ds.trans (stateAfter_onBus hbus _))
      hy.eqEnabled hy.eqPreset (hy.pinRst.trans (levelAfter_onBus hbus _ _)) (hy.pinPd.trans (levelAfter_onBus hbus _ _))
      hy.snapValid hy.snap, hresp, hgains⟩

end Sys2Proof.Machine

/-! PATCH_APPLY of a text that parses (R129, R130): its mute guard with nothing failing, and with one write failing. -/

namespace Sys2Proof.Machine

/-! ### The start -/

/-- The still state in which the text `v` has been read and parsed as `img`. -/
def readIn (v : Bytes) (img : Image) (d : Nat) (s : State) : State := setBlocks img (loaded v d s)

theorem still_readIn (v : Bytes) (img : Image) (d : Nat) (s : State) : Still (readIn v img d s) :=
  congrArg (setBlocks img) (still_loaded v d s)

theorem readIn_ready {v : Bytes} {img : Image} {d : Nat} {s : State} {bs : List Bool} (h : Ready bs (still s)) :
    Ready bs (readIn v img d s) := h.same rfl rfl rfl

theorem flow_parse {v : Bytes} {img : Image} (d : Nat) (s : State) (h : parsePatch v = .ok img) (ms : List Micro) :
    flow (.parse :: ms) (loaded v d s) = flow ms (readIn v img d s) := by
  have hp : perform .parse (loaded v d s) = .go 0 (readIn v img d s) := by
    simp only [perform, show (loaded v d s).scratch.buf = v from rfl, h]
    rfl
  rw [flow_cons hp, still_readIn]

/-- The images of the mute guard. -/
def patchBank (img : Image) (k : Kind) : Image := k.addrs.map fun a => (a, blockOf img a)

theorem sent_patchImage (v : Bytes) (img : Image) (d : Nat) (s : State) (k : Kind) :
    sent (readIn v img d s) (patchImage k) = patchBank img k := by
  rw [sent, patchImage, List.map_map]
  rfl

/-- What the mute guard's brackets send, in every still state that comes after the start by `es`. -/
theorem bracketWrites_patch {v : Bytes} {img : Image} {d : Nat} {s q : State} {es : List Event}
    (y : Yields es (readIn v img d s) q) (k : Kind) :
    bracketWrites q k (sent q (patchImage k)) = bracketWrites s k (patchBank img k) := by
  rw [y.sent, sent_patchImage, bracketWrites, bracketWrites, closingValue, closingValue, y.params, y.eqEnabled]
  rfl

/-! ### The parts of the mute guard -/

theorem muteGuard_eq (p : Params) : muteGuard p =
    .write p.regs.softMute.addr (.lit p.regs.softMute.on) (.logSkip (1 + (guardedBrackets p).length)) ::
      ((.setState .muted :: guardedBrackets p) ++ [.write p.regs.softMute.addr (.lit p.regs.softMute.off) .log, .unmute]) := by
  rw [muteGuard, List.append_assoc]
  rfl

theorem guardedBrackets_eq (p : Params) (ms : List Micro) : guardedBrackets p ++ ms =
    bracket p .drc (patchImage .drc) ++ (.ifOk (bracket p .eq (patchImage .eq)).length ::
      (bracket p .eq (patchImage .eq) ++ ms)) := by
  rw [guardedBrackets]
  simp only [List.append_assoc, List.cons_append, List.nil_append]

theorem offStage_muteGuard (p : Params) : ∀ m ∈ .parse :: muteGuard p, m.offStage = true ∧ m.prompt = true := by
  have hb := offStage_bracket p .drc (patchImage .drc)
  have hb' := offStage_bracket p .eq (patchImage .eq)
  rw [muteGuard_eq, List.cons_append, guardedBrackets_eq]
  simp only [List.forall_mem_cons, List.forall_mem_append]
  exact ⟨⟨rfl, rfl⟩, ⟨rfl, rfl⟩, ⟨rfl, rfl⟩, hb, ⟨rfl, rfl⟩, hb', ⟨rfl, rfl⟩, ⟨rfl, rfl⟩, nofun⟩

theorem flow_unmute {q : State} (h : Still q) (hd : q.ds = .muted) :
    FlowsTo [.unmute] [.state .running 0] q (setState .running q) := by
  have hp : perform .unmute q = .go 0 (setState .running q) := by simp [perform, hd]
  exact ⟨by rw [flow_cons hp, h.setState]; rfl, yields_setState h _⟩

theorem flow_unmute_not {q : State} (h : Still q) (hd : q.ds ≠ .muted) : FlowsTo [.unmute] [] q q := by
  have hp : perform .unmute q = .go 0 q := by simp [perform, hd]
  exact ⟨by rw [flow_cons hp, h]; rfl, yields_refl h⟩

/-- The release of a mute that was set, where its write succeeds. -/
theorem flow_release {q : State} {bs : List Bool} (h : Still q) (hr : Ready (true :: bs) q) (hd : q.ds = .muted) (a : Byte)
    (v : Bytes) :
    ∃ r, FlowsTo [.write a (.lit v) .log, .unmute] [.wrote a v, .state .running 0] q r := by
  have hw := flowsTo_write h hr a (.lit v) .log
  exact ⟨_, hw.append (flow_unmute hw.2.still hd)⟩

/-- The mute write that succeeds, and `Muted`. -/
theorem flow_mute {q : State} {bs : List Bool} (h : Still q) (hr : Ready (true :: bs) q) (a : Byte) (v : Bytes) (n : Nat) :
    ∃ r, FlowsTo [.write a (.lit v) (.logSkip n), .setState .muted] [.wrote a v, .state .muted 0] q r := by
  have hw := flowsTo_write h hr a (.lit v) (.logSkip n)
  exact ⟨_, hw.append (flowsTo_setState hw.2.still .muted)⟩

/-- The mute guard, its mute write together with `Muted`. -/
theorem muteGuard_split (p : Params) : muteGuard p =
    [.write p.regs.softMute.addr (.lit p.regs.softMute.on) (.logSkip (1 + (guardedBrackets p).length)), .setState .muted] ++
      (guardedBrackets p ++ [.write p.regs.softMute.addr (.lit p.regs.softMute.off) .log, .unmute]) := by
  rw [muteGuard, List.append_assoc]

/-- The events of a mute that succeeds. -/
def muteEvents (p : Params) : List Event := [.wrote p.regs.softMute.addr p.regs.softMute.on, .state .muted 0]

/-- The events of its release. -/
def releaseEvents (p : Params) : List Event := [.wrote p.regs.softMute.addr p.regs.softMute.off, .state .running 0]

/-- The events of one bank's bracket, nothing failing. -/
def bankEvents (s : State) (img : Image) (k : Kind) : List Event := bracketEvents s k (patchBank img k)

section
variable {v : Bytes} {img : Image} {d : Nat} {s : State}

/-- One bracket of the mute guard in which nothing fails. -/
theorem flow_patchBracket {q : State} {es : List Event} (y : Yields es (readIn v img d s) q) (k : Kind) {bs : List Bool}
    (hr : Ready (List.replicate ((patchImage k).length + 2) true ++ bs) q) :
    ∃ r, FlowsTo (bracket s.params k (patchImage k)) (bracketEvents s k (patchBank img k)) q r ∧ r.scratch.ok = true := by
  obtain ⟨r, hf, hok⟩ := flowsTo_bracket y.still k (patchImage k) hr
  rw [bracketEvents, bracketWrites_patch y, y.params] at hf
  exact ⟨r, hf, hok⟩

/-- One bracket of the mute guard of which write `n` alone fails. -/
theorem quiet_patchBracket {q : State} {es : List Event} (y : Yields es (readIn v img d s) q) (k : Kind) (ms : List Micro)
    {n : Nat} {w : Byte × Bytes} {bs : List Bool} (hw : (bracketWrites s k (patchBank img k))[n]? = some w)
    (hr : Ready (List.replicate n true ++ false :: true :: bs) q) :
    ∃ r, quiet (bracket s.params k (patchImage k) ++ ms) 0 q = quiet ms 0 r ∧ r.scratch.ok = false ∧
      Yields (brokenEvents (bracketWrites s k (patchBank img k)) n) q r := by
  rw [← bracketWrites_patch y] at hw ⊢
  have := quiet_bracket_broken y.still k (patchImage k) ms hw hr
  rwa [y.params] at this

/-- `Muted` after the mute write, and through both brackets. -/
theorem muted_after {q r : State} {es : List Event} (hq : q.ds = .muted) (y : Yields es q r)
    (h : ∀ e ∈ es, e.onBus = true) : r.ds = .muted := y.ds.trans ((stateAfter_onBus h _).trans hq)

/-- The mute guard in which nothing fails. -/
theorem flow_muteGuard (hr : Ready (List.replicate 36 true) (readIn v img d s)) :
    ∃ r, FlowsTo (muteGuard s.params)
      (muteEvents s.params ++ bankEvents s img .drc ++ bankEvents s img .eq ++ releaseEvents s.params)
      (readIn v img d s) r := by
  obtain ⟨q₁, f₁⟩ := flow_mute (bs := List.replicate 35 true) (still_readIn v img d s) hr s.params.regs.softMute.addr
    s.params.regs.softMute.on (1 + (guardedBrackets s.params).length)
  have r₁ : Ready (List.replicate 35 true) q₁ := f₁.2.ready hr
  obtain ⟨q₂, f₂, ok₂⟩ := flow_patchBracket f₁.2 .drc (bs := List.replicate 21 true) r₁
  have r₂ : Ready (List.replicate 21 true) q₂ := f₂.2.ready r₁
  have y₂ := f₁.2.trans f₂.2
  obtain ⟨q₃, f₃, -⟩ := flow_patchBracket y₂ .eq (bs := [true]) r₂
  have r₃ : Ready [true] q₃ := f₃.2.ready r₂
  have y₃ := y₂.trans f₃.2
  have m₃ : q₃.ds = .muted := muted_after (muted_after f₁.2.ds f₂.2 (onBus_wroteAll _)) f₃.2 (onBus_wroteAll _)
  obtain ⟨q₄, f₄⟩ := flow_release y₃.still r₃ m₃ s.params.regs.softMute.addr s.params.regs.softMute.off
  refine ⟨q₄, ?_, y₃.trans f₄.2⟩
  rw [muteGuard_split, flow_append f₁.1, guardedBrackets_eq, flow_append f₂.1, flow_ifOk y₂.still _ _ ok₂,
    flow_append f₃.1, f₄.1]

end

/-! ### The command -/

/-- A granted PATCH_APPLY of a text that parses completes as the quiet run of its mute guard says. -/
theorem patchApply_answered {s : State} {h : Nat} {l : Half} {img : Image} (g : Granted h s) (ht : onlyTime s = true)
    (hd : s.ds = .running) (h₁ : 1 ≤ l.toNat) (h₂ : l.toNat ≤ 4096)
    (hp : parsePatch (stageRead 0 l.toNat s).1 = .ok img) :
    ∃ v d, ∀ es r, quiet (muteGuard s.params) 0 (readIn v img d s) = .done r → Yields es (readIn v img d s) r →
      ∃ t, exec (.patchApply l) s = .next t ∧ Answered h es r s t ∧ t.waitUntil = s.waitUntil ∧
        respAt t h = some (responseTo [] es) ∧
        TraceGains s t (es ++ [.resp h (responseTo [] es).status (responseTo [] es).info (responseTo [] es).data 0]) := by
  obtain ⟨u, d, hrun, hn, hk, hw, hst⟩ := run_loaded l.toNat (.parse :: muteGuard s.params) ht hd
  refine ⟨(stageRead 0 l.toNat s).1, d, fun es r hq y => ?_⟩
  have hquiet : quiet (.parse :: muteGuard s.params) 0 (still u) = .done r := by
    rw [hst, ← hq]
    exact quiet_of_flow_append (as := [.parse]) (flow_parse d s hp []) _
  obtain ⟨t, hex, ha, hwait⟩ := runRule_from g hrun hk hn (fun m hm => (offStage_muteGuard _ m hm).1) hquiet y.trace
  have hro : responseOf r = responseTo [] es := by
    have hdata : (readIn (stageRead 0 l.toNat s).1 img d s).scratch.data = [] := by
      rw [show (readIn (stageRead 0 l.toNat s).1 img d s).scratch.data = s.scratch.data from rfl, g.2.2.2.2]
      rfl
    have hf : (readIn (stageRead 0 l.toNat s).1 img d s).firstErr = none := g.2.2.2.1
    rw [y.responseOf hf, hdata]
  have hresp := ha.resp
  have hgains := ha.gains
  rw [hro] at hresp hgains
  exact ⟨t, (congrArg (runRule · s) (patchApplyRule_admitted (textOperand_ok h₁ h₂))).trans hex, ha,
    (hwait fun m hm => (offStage_muteGuard _ m hm).2).trans hw, hresp, hgains⟩

theorem logged_bankEvents (s : State) (img : Image) (k : Kind) : (bankEvents s img k).filterMap Event.logged? = [] :=
  logged_wroteAll _

/-- Settles O45: the whole mute guard (`flow_muteGuard`), and its 1, 14, 20 and 1 writes. -/
theorem patchAppliesUnderSoftMute : Obligations.PatchAppliesUnderSoftMute := by
  intro s h l img g ht hs hd h₁ h₂ hp m bank
  obtain ⟨v, d, hfinish⟩ := patchApply_answered g ht hd h₁ h₂ hp
  obtain ⟨r, hf⟩ := flow_muteGuard (readIn_ready (v := v) (img := img) (d := d) (ready_of_succeeds hs 36))
  obtain ⟨t, hex, ha, -, hresp, hgains⟩ := hfinish _ r (quiet_of_flow hf.1) hf.2
  have hlog : (muteEvents s.params ++ bankEvents s img .drc ++ bankEvents s img .eq ++
      releaseEvents s.params).filterMap Event.logged? = [] := by
    simp only [List.filterMap_append, logged_bankEvents]
    rfl
  rw [responseTo_none hlog] at hresp hgains
  have hds : r.ds = .running := by
    rw [hf.2.ds, stateAfter, List.foldl_append]
    rfl
  refine ⟨t, hex, ha.ds.trans hds, ha.lock, ha.eqEnabled.trans hf.2.eqEnabled, ha.eqPreset.trans hf.2.eqPreset, hresp, ?_, ?_⟩
  · rw [List.append_assoc] at hgains
    exact hgains
  · rw [← countP_isXfer_untimed, hgains.2]
    rfl

end Sys2Proof.Machine

/-! PATCH_APPLY with one failed write, wherever it falls (R129). -/

namespace Sys2Proof.Machine

theorem stateAfter_append (es fs : List Event) (d : DeviceState) :
    stateAfter (es ++ fs) d = stateAfter fs (stateAfter es d) := List.foldl_append ..

theorem levelAfter_of_no_pin {es : List Event} (h : ∀ e ∈ es, e.isPin = false) (l : Line) (x : PinLevel) :
    levelAfter l es x = x := by
  induction es with
  | nil => rfl
  | cons e es ih =>
    obtain ⟨he, hes⟩ := List.forall_mem_cons.1 h
    refine Eq.trans ?_ (ih hes)
    cases e with
    | pin => cases he
    | xfer | state | log | grant | resp | reset => rfl

theorem isPin_of_onBus {e : Event} (h : e.onBus = true) : e.isPin = false := by
  cases e with
  | pin => cases h
  | xfer | state | log | grant | resp | reset => rfl

theorem stateAfter_bank (s : State) (img : Image) (k : Kind) (d : DeviceState) :
    stateAfter (bankEvents s img k) d = d := stateAfter_onBus (onBus_wroteAll _) d

section
variable {v : Bytes} {img : Image} {d : Nat} {s : State}

/-- The release in `Muted`, from a bracket's end on. -/
theorem quiet_release {q : State} {bs : List Bool} {es : List Event} (y : Yields es (readIn v img d s) q)
    (hr : Ready (true :: bs) q) (hd : q.ds = .muted) :
    ∃ r, quiet [.write s.params.regs.softMute.addr (.lit s.params.regs.softMute.off) .log, .unmute] 0 q = .done r ∧
      Yields (es ++ releaseEvents s.params) (readIn v img d s) r := by
  obtain ⟨r, hf⟩ := flow_release y.still hr hd s.params.regs.softMute.addr s.params.regs.softMute.off
  exact ⟨r, quiet_of_flow hf.1, y.trans hf.2⟩

/-- A failed mute write: the release write is attempted, and `ds` has never been Muted. -/
theorem quiet_muteFails (hd : s.ds = .running) (hr : Ready [false, true] (readIn v img d s)) :
    ∃ r, quiet (muteGuard s.params) 0 (readIn v img d s) = .done r ∧
      Yields (failedCw s.params.regs.softMute.addr s.params.regs.softMute.on ++
        [.wrote s.params.regs.softMute.addr s.params.regs.softMute.off]) (readIn v img d s) r := by
  have h := still_readIn v img d s
  have y := yields_failedCw h s.params.regs.softMute.addr s.params.regs.softMute.on
  have hw := flowsTo_write y.still (bs := []) (y.ready (es := failedCw _ _) hr) s.params.regs.softMute.addr
    (.lit s.params.regs.softMute.off) .log
  have hu := flow_unmute_not hw.2.still (by rw [hw.2.ds, stateAfter_onBus (by simp [Event.wrote, Event.onBus]), y.ds,
    stateAfter_onBus (by simp [failedCw, Event.failed, Event.onBus]), show (readIn v img d s).ds = s.ds from rfl, hd]; simp)
  refine ⟨_, ?_, y.trans hw.2⟩
  rw [muteGuard_eq, quiet_write_logSkip h _ hr, Nat.add_comm 1, ← List.length_cons (a := Micro.setState .muted), quiet_skip]
  exact quiet_of_flow (hw.append hu).1

/-- One write of the DRC bracket alone fails: the EQ bracket is passed over. -/
theorem quiet_drcFails {n : Nat} {w : Byte × Bytes} (hw : (bracketWrites s .drc (patchBank img .drc))[n]? = some w)
    (hr : Ready (true :: (List.replicate n true ++ [false, true, true])) (readIn v img d s)) :
    ∃ r, quiet (muteGuard s.params) 0 (readIn v img d s) = .done r ∧
      Yields (muteEvents s.params ++ brokenEvents (bracketWrites s .drc (patchBank img .drc)) n ++ releaseEvents s.params)
        (readIn v img d s) r := by
  obtain ⟨q₁, f₁⟩ := flow_mute (still_readIn v img d s) hr s.params.regs.softMute.addr s.params.regs.softMute.on
    (1 + (guardedBrackets s.params).length)
  have r₁ : Ready (List.replicate n true ++ [false, true, true]) q₁ := f₁.2.ready hr
  obtain ⟨q₂, h₂, ok₂, y₂⟩ := quiet_patchBracket f₁.2 .drc
    (.ifOk (bracket s.params .eq (patchImage .eq)).length :: (bracket s.params .eq (patchImage .eq) ++
      [.write s.params.regs.softMute.addr (.lit s.params.regs.softMute.off) .log, .unmute])) hw r₁
  obtain ⟨bs, hbs⟩ := results_brokenEvents hw
  obtain ⟨r, h₃, y₃⟩ := quiet_release (f₁.2.trans y₂) (y₂.ready (hbs ▸ r₁))
    (muted_after f₁.2.ds y₂ (onBus_brokenEvents hw))
  refine ⟨r, ?_, y₃⟩
  rw [muteGuard_split, quiet_of_flow_append f₁.1, guardedBrackets_eq, h₂, quiet_ifOk_skip y₂.still _ _ ok₂, quiet_skip, h₃]

/-- One write of the EQ bracket alone fails. -/
theorem quiet_eqFails {n : Nat} {w : Byte × Bytes} (hw : (bracketWrites s .eq (patchBank img .eq))[n]? = some w)
    (hr : Ready (true :: (List.replicate 14 true ++ (List.replicate n true ++ [false, true, true]))) (readIn v img d s)) :
    ∃ r, quiet (muteGuard s.params) 0 (readIn v img d s) = .done r ∧
      Yields (muteEvents s.params ++ bankEvents s img .drc ++
        brokenEvents (bracketWrites s .eq (patchBank img .eq)) n ++ releaseEvents s.params) (readIn v img d s) r := by
  obtain ⟨q₁, f₁⟩ := flow_mute (still_readIn v img d s) hr s.params.regs.softMute.addr s.params.regs.softMute.on
    (1 + (guardedBrackets s.params).length)
  have r₁ : Ready (List.replicate 14 true ++ (List.replicate n true ++ [false, true, true])) q₁ := f₁.2.ready hr
  obtain ⟨q₂, f₂, ok₂⟩ := flow_patchBracket f₁.2 .drc r₁
  have r₂ : Ready (List.replicate n true ++ [false, true, true]) q₂ := f₂.2.ready r₁
  have y₂ := f₁.2.trans f₂.2
  obtain ⟨q₃, h₃, -, y₃⟩ := quiet_patchBracket y₂ .eq
    [.write s.params.regs.softMute.addr (.lit s.params.regs.softMute.off) .log, .unmute] hw r₂
  obtain ⟨bs, hbs⟩ := results_brokenEvents hw
  obtain ⟨r, h₄, y₄⟩ := quiet_release (y₂.trans y₃) (y₃.ready (hbs ▸ r₂))
    (muted_after (muted_after f₁.2.ds f₂.2 (onBus_wroteAll _)) y₃ (onBus_brokenEvents hw))
  refine ⟨r, ?_, y₄⟩
  rw [muteGuard_split, quiet_of_flow_append f₁.1, guardedBrackets_eq, quiet_of_flow_append f₂.1]
  exact (quiet_of_flow_append (as := [.ifOk _]) (flow_ifOk y₂.still [] _ ok₂) _).trans (h₃.trans h₄)

/-- The release write fails. -/
theorem quiet_releaseFails (hr : Ready (List.replicate 35 true ++ [false]) (readIn v img d s)) :
    ∃ r, quiet (muteGuard s.params) 0 (readIn v img d s) = .done r ∧
      Yields (muteEvents s.params ++ bankEvents s img .drc ++ bankEvents s img .eq ++
        (failedCw s.params.regs.softMute.addr s.params.regs.softMute.off ++ [.state .running 0])) (readIn v img d s) r := by
  obtain ⟨q₁, f₁⟩ := flow_mute (bs := List.replicate 34 true ++ [false]) (still_readIn v img d s) hr
    s.params.regs.softMute.addr s.params.regs.softMute.on (1 + (guardedBrackets s.params).length)
  have r₁ : Ready (List.replicate 34 true ++ [false]) q₁ := f₁.2.ready hr
  obtain ⟨q₂, f₂, ok₂⟩ := flow_patchBracket f₁.2 .drc (bs := List.replicate 20 true ++ [false]) r₁
  have r₂ : Ready (List.replicate 20 true ++ [false]) q₂ := f₂.2.ready r₁
  have y₂ := f₁.2.trans f₂.2
  obtain ⟨q₃, f₃, -⟩ := flow_patchBracket y₂ .eq (bs := [false]) r₂
  have r₃ : Ready [false] q₃ := f₃.2.ready r₂
  have y₃ := y₂.trans f₃.2
  have m₃ : q₃.ds = .muted := muted_after (muted_after f₁.2.ds f₂.2 (onBus_wroteAll _)) f₃.2 (onBus_wroteAll _)
  have y₄ := yields_failedCw y₃.still s.params.regs.softMute.addr s.params.regs.softMute.off
  have hu := flow_unmute y₄.still
    (muted_after m₃ y₄ (by simp [failedCw, Event.failed, Event.onBus]))
  refine ⟨_, ?_, y₃.trans (y₄.trans hu.2)⟩
  rw [muteGuard_split, quiet_of_flow_append f₁.1, guardedBrackets_eq, quiet_of_flow_append f₂.1]
  exact (quiet_of_flow_append (as := [.ifOk _]) (flow_ifOk y₂.still [] _ ok₂) _).trans
    ((quiet_of_flow_append f₃.1 _).trans ((quiet_write_log y₃.still [.unmute] r₃ _ _).trans (quiet_of_flow hu.1)))

end

/-- Events of which `e` is the one error logged, that drive no line, and that leave Running as Running. -/
structure Harmless (e : Err) (es : List Event) : Prop where
  logged : es.filterMap Event.logged? = [e]
  state : stateAfter es .running = .running
  noPin : ∀ x ∈ es, x.isPin = false

theorem noPin_of_onBus {es : List Event} (h : ∀ e ∈ es, e.onBus = true) : ∀ e ∈ es, e.isPin = false :=
  fun e he => isPin_of_onBus (h e he)

theorem noPin_bankEvents (s : State) (img : Image) (k : Kind) : ∀ e ∈ bankEvents s img k, e.isPin = false :=
  noPin_of_onBus (onBus_wroteAll _)

theorem noPin_muteEvents (p : Params) : ∀ e ∈ muteEvents p, e.isPin = false := by
  simp [muteEvents, Event.wrote, Event.isPin]

theorem noPin_releaseEvents (p : Params) : ∀ e ∈ releaseEvents p, e.isPin = false := by
  simp [releaseEvents, Event.wrote, Event.isPin]

theorem harmless_muteFails (a : Byte) (on off : Bytes) :
    Harmless (.transport a) (failedCw a on ++ [.wrote a off]) where
  logged := rfl
  state := rfl
  noPin := by simp [failedCw, Event.failed, Event.wrote, Event.isPin]

theorem harmless_drcFails (p : Params) {ws : Image} {n : Nat} {w : Byte × Bytes} (hw : ws[n]? = some w) :
    Harmless (.transport w.1) (muteEvents p ++ brokenEvents ws n ++ releaseEvents p) where
  logged := by
    rw [List.filterMap_append, List.filterMap_append, logged_brokenEvents hw]
    rfl
  state := by
    rw [stateAfter_append, stateAfter_append, stateAfter_onBus (onBus_brokenEvents hw)]
    rfl
  noPin := by
    simp only [List.forall_mem_append]
    exact ⟨⟨noPin_muteEvents p, noPin_of_onBus (onBus_brokenEvents hw)⟩, noPin_releaseEvents p⟩

theorem harmless_eqFails (s : State) (img : Image) (p : Params) {ws : Image} {n : Nat} {w : Byte × Bytes}
    (hw : ws[n]? = some w) :
    Harmless (.transport w.1) (muteEvents p ++ bankEvents s img .drc ++ brokenEvents ws n ++ releaseEvents p) where
  logged := by
    rw [List.filterMap_append, List.filterMap_append, List.filterMap_append, logged_brokenEvents hw, logged_bankEvents]
    rfl
  state := by
    rw [stateAfter_append, stateAfter_append, stateAfter_append, stateAfter_onBus (onBus_brokenEvents hw), stateAfter_bank]
    rfl
  noPin := by
    simp only [List.forall_mem_append]
    exact ⟨⟨⟨noPin_muteEvents p, noPin_bankEvents s img _⟩, noPin_of_onBus (onBus_brokenEvents hw)⟩, noPin_releaseEvents p⟩

theorem harmless_releaseFails (s : State) (img : Image) (p : Params) (a : Byte) (off : Bytes) :
    Harmless (.transport a) (muteEvents p ++ bankEvents s img .drc ++ bankEvents s img .eq ++
      (failedCw a off ++ [.state .running 0])) where
  logged := by
    rw [List.filterMap_append, List.filterMap_append, List.filterMap_append, logged_bankEvents, logged_bankEvents]
    rfl
  state := by
    simp only [stateAfter_append, stateAfter_bank]
    rfl
  noPin := by
    simp only [List.forall_mem_append]
    exact ⟨⟨⟨noPin_muteEvents p, noPin_bankEvents s img _⟩, noPin_bankEvents s img _⟩,
      by simp [failedCw, Event.failed, Event.isPin]⟩

/-- What answers are heard that a script of successes, one failure and more gives. -/
theorem ready_of_oks {s : State} {oks : List Bytes} {as rest : List Answer} {bs : List Bool} {n : Nat}
    (hsc : s.scratch = .empty) (hn : oks.length = n) (hd : s.env.device = oks.map .ok ++ (as ++ rest))
    (h : as.map Answer.result? = bs.map some) : Ready (List.replicate n true ++ bs) (still s) := by
  refine ready_of_script (as := oks.map .ok ++ as) (rest := rest) hsc (by rw [hd, List.append_assoc]) ?_
  rw [List.map_append, h]
  simp [Answer.result?, Function.comp_def, hn]

/-- Settles O47: the four places of the failure, each through the mute guard to its end. -/
theorem patchReleasesAfterAFailedMute : Obligations.PatchReleasesAfterAFailedMute := by
  intro s h l img g ht hd h₁ h₂ hp m writes answersOnly muted released
  obtain ⟨v, d, hfinish⟩ := patchApply_answered g ht hd h₁ h₂ hp
  have hsc := g.2.2.2.2
  have finish : ∀ {e es r}, quiet (muteGuard s.params) 0 (readIn v img d s) = .done r → Yields es (readIn v img d s) r →
      Harmless e es → answersOnly e es := by
    intro e es r hq y hharm
    obtain ⟨t, hex, ha, hw, hresp, hgains⟩ := hfinish es r hq y
    rw [responseTo_logged hharm.logged] at hresp hgains
    have hds : (readIn v img d s).ds = .running := hd
    exact ⟨t, hex, ha.onlyResponds hw (y.ds.trans (by rw [hds, hharm.state, hd])) y.eqEnabled y.eqPreset
      (y.pinRst.trans (levelAfter_of_no_pin hharm.noPin _ _)) (y.pinPd.trans (levelAfter_of_no_pin hharm.noPin _ _))
      y.snapValid y.snap, hresp, hgains⟩
  refine ⟨fun b rest hdev => ?mute, fun n w b oks c d' rest hw hoks hdev => ?drc,
    fun n w b oks c d' rest hw hoks hdev => ?eq, fun oks rest hoks hdev => ?release⟩
  case mute =>
    obtain ⟨r, hq, y⟩ := quiet_muteFails hd (readIn_ready
      (ready_of_script (as := [.fail, .ok b]) hsc hdev rfl) : Ready [false, true] (readIn v img d s))
    exact finish hq y (harmless_muteFails _ _ _)
  case drc =>
    have hr := ready_of_oks (oks := b :: oks) (as := [.fail, .ok c, .ok d']) (bs := [false, true, true]) hsc
      (congrArg Nat.succ hoks) (by rw [hdev]; rfl) rfl
    obtain ⟨r, hq, y⟩ := quiet_drcFails hw (readIn_ready hr)
    exact finish hq y (harmless_drcFails s.params hw)
  case eq =>
    have hr := ready_of_oks (oks := b :: oks) (as := [.fail, .ok c, .ok d']) (bs := [false, true, true]) hsc
      (congrArg Nat.succ hoks) (by rw [hdev]; rfl) rfl
    rw [show (writes .drc).length = 14 from rfl, List.replicate_succ, List.replicate_add, List.cons_append,
      List.append_assoc] at hr
    obtain ⟨r, hq, y⟩ := quiet_eqFails hw (readIn_ready hr)
    exact finish hq y (harmless_eqFails s img s.params hw)
  case release =>
    have hr := ready_of_oks (as := [.fail]) (bs := [false]) hsc hoks hdev rfl
    obtain ⟨r, hq, y⟩ := quiet_releaseFails (readIn_ready hr : Ready _ (readIn v img d s))
    exact finish hq y (harmless_releaseFails s img s.params _ _)

end Sys2Proof.Machine

/-! A bring-up in which nothing fails (R86, R95, R99): its events in three parts with its two waits between them. -/

namespace Sys2Proof.Machine

/-! ### The three parts -/

/-- The statements of a bring-up before its first wait, once its state check has passed. -/
def partStart (p : Params) : List Micro :=
  [.setState .resetting] ++ powerUp p ++ [.setState .configuring, cwReg p.regs.oscTrim]

/-- The writes of ConfigGroup1 after that wait. -/
def partGroup1 (p : Params) : List Micro :=
  [cwReg p.regs.clockCtrl, cwReg p.regs.serialFmt, cwReg p.regs.sysCtrl, cwReg p.regs.errCtrl, cwReg p.regs.inputMux,
   cwReg p.regs.chSrc, cwReg p.regs.pwmMux]

/-- What stands between the banks and the startup wait. -/
def partGroup2 (p : Params) : List Micro :=
  initMuxOverride p ++ [cwReg p.regs.volCfg, cwReg p.regs.startStop, cwReg p.regs.sdGroup, cwReg p.regs.modLimit,
    cwReg p.regs.exitSd]

/-- The statements between the waits. -/
def partMiddle (s : State) : List Micro := partGroup1 s.params ++ bankRules s.params s.eqPreset ++ partGroup2 s.params

/-- The statements after the startup wait. -/
def partEnd (i : Instr) (s : State) : List Micro :=
  [.setState .running] ++ runningEntry s.params ++
  (if i = .resume ∧ s.snapValid = true then restoreSnapshot s.params s.snap else [])

theorem bringupParts_eq (i : Instr) (s : State) : .require dsForBringup :: bringupParts i s =
    (.require dsForBringup :: partStart s.params) ++ .wait Config.tOsc :: (partMiddle s ++ .wait Config.tStart ::
      partEnd i s) := by
  simp only [bringupParts, bringupHead, configGroup1, bringupTail, configGroup2, partStart, partMiddle, partGroup1,
    partGroup2, partEnd, List.append_assoc, List.cons_append, List.nil_append]

theorem plain_partStart (p : Params) : ∀ m ∈ partStart p, m.plain = true := by
  cases hb : pinsBound p <;> simp [partStart, powerUp, hb, cwReg, cw, Micro.plain]

theorem plain_partGroup1 (p : Params) : ∀ m ∈ partGroup1 p, m.plain = true := by
  simp [partGroup1, cwReg, cw, Micro.plain]

theorem plain_bringupTail_parts (i : Instr) (s : State) :
    (∀ m ∈ partGroup2 s.params, m.plain = true) ∧ ∀ m ∈ partEnd i s, m.plain = true := by
  have h := plain_bringupTail i s
  rw [show bringupTail i s = partGroup2 s.params ++ .wait Config.tStart :: partEnd i s by
    simp only [bringupTail, configGroup2, partGroup2, partEnd, List.append_assoc, List.cons_append, List.nil_append],
    List.forall_mem_append, List.forall_mem_cons] at h
  exact ⟨h.1, h.2.2⟩

theorem events_partStart (s : State) : (partStart s.params).flatMap (Micro.events s.params) = bringupStart s := by
  cases hb : pinsBound s.params <;>
    simp [partStart, powerUp, hb, cwReg, cw, Micro.events, bringupStart, Event.wroteReg]

theorem events_partGroup1 (p : Params) : (partGroup1 p).flatMap (Micro.events p) = bringupGroup1 p := rfl

/-- The events of the statements after the banks, on either side of the startup wait. -/
theorem events_bringupTail_parts (i : Instr) (s : State) :
    (partGroup2 s.params).flatMap (Micro.events s.params) = bringupMux s.params ++ bringupGroup2 s.params ∧
    (partEnd i s).flatMap (Micro.events s.params) =
      bringupEnd s.params ++ (if i = .resume then restoreEvents s else []) := by
  have hmux : (initMuxOverride s.params).flatMap (Micro.events s.params) = bringupMux s.params := by
    cases h : s.params.cfg.initMux with
    | none => simp only [initMuxOverride, bringupMux, h, List.flatMap_nil]
    | some v =>
      by_cases hl : v.length = 4
      · simp only [initMuxOverride, bringupMux, h, if_pos hl, List.flatMap_singleton]
        rfl
      · simp only [initMuxOverride, bringupMux, h, if_neg hl, List.flatMap_singleton]
        rfl
  have h := events_bringupTail i s
  rw [show bringupTail i s = partGroup2 s.params ++ (.wait Config.tStart :: partEnd i s) by
    simp only [bringupTail, configGroup2, partGroup2, partEnd, List.append_assoc, List.cons_append, List.nil_append],
    List.flatMap_append, bringupAfter, List.append_assoc] at h
  have hg : (partGroup2 s.params).flatMap (Micro.events s.params) = bringupMux s.params ++ bringupGroup2 s.params := by
    rw [partGroup2, List.flatMap_append, hmux]
    rfl
  rw [hg] at h
  exact ⟨hg, List.append_cancel_left h⟩

/-! ### The banks -/

/-- The rule of one bank at bring-up: nothing, a Log, or a bracket. -/
theorem flowsTo_bank {s q : State} {es : List Event} {bs : List Bool} (y : Yields es (still s) q) (k : Kind)
    (enabled : Bool) (img : Option Image) (e : Err)
    (hr : Ready (results (match enabled, img with
      | false, _ => []
      | true, none => [.log e 0]
      | true, some img => bracketEvents s k img) ++ bs) q) :
    ∃ r, FlowsTo (if enabled then
        (match img with
          | none => [.log e]
          | some img => bracket s.params k (litImage img)) else [])
      (match enabled, img with
      | false, _ => []
      | true, none => [.log e 0]
      | true, some img => bracketEvents s k img) q r := by
  cases enabled with
  | false => exact ⟨q, flowsTo_nil y.still⟩
  | true =>
    cases img with
    | none => exact ⟨_, flow_log y.still [] e, yields_log y.still e⟩
    | some img =>
      have hlen : results (bracketEvents s k img) = List.replicate ((litImage img).length + 2) true := by
        rw [show bracketEvents s k img = wroteAll (bracketWrites s k img) from rfl, results_wroteAll, bracketWrites,
          litImage, List.length_map, List.length_append, List.length_cons]
        rfl
      obtain ⟨r, hf, -⟩ := flowsTo_bracket (bs := bs) y.still k (litImage img) (hlen ▸ hr)
      rw [sent_litImage, y.params, still_params, bracketEvents, bracketWrites, closingValue, y.params, y.eqEnabled] at hf
      exact ⟨r, hf⟩

theorem flowsTo_drc {s q : State} {es : List Event} {bs : List Bool} (y : Yields es (still s) q)
    (hr : Ready (results (bringupDrc s) ++ bs) q) :
    ∃ r, FlowsTo (if s.params.cfg.drcEnable then drcAtBringup s.params else []) (bringupDrc s) q r :=
  flowsTo_bank y .drc s.params.cfg.drcEnable (platformDrc s.params) .configDrc hr

theorem flowsTo_eq {s q : State} {es : List Event} {bs : List Bool} (y : Yields es (still s) q)
    (hr : Ready (results (bringupEq s) ++ bs) q) :
    ∃ r, FlowsTo (if s.params.cfg.eqEnable then eqAtBringup s.params s.eqPreset else []) (bringupEq s) q r :=
  flowsTo_bank y .eq s.params.cfg.eqEnable (platformEq s.params s.eqPreset) (.configEq s.eqPreset) hr

/-! ### The parts run -/

/-- Plain statements after the events `es` of a run from `still s`. -/
theorem flowsTo_part {s q : State} {es fs : List Event} {ms : List Micro} {bs : List Bool} (y : Yields es (still s) q)
    (hm : ∀ m ∈ ms, m.plain = true) (he : ms.flatMap (Micro.events s.params) = fs) (hr : Ready (results fs ++ bs) q) :
    ∃ r, FlowsTo ms fs q r := by
  have hp : q.params = s.params := y.params
  have := flowsTo_plains (q := q) hm y.still (by rw [hp, he]; exact hr)
  rwa [hp, he] at this

theorem flowsTo_partMiddle {s q : State} {es : List Event} {bs : List Bool} (i : Instr) (y : Yields es (still s) q)
    (hr : Ready (results (bringupMiddle s) ++ bs) q) : ∃ r, FlowsTo (partMiddle s) (bringupMiddle s) q r := by
  rw [bringupMiddle, List.append_assoc, List.append_assoc, List.append_assoc] at hr ⊢
  simp only [results_append, List.append_assoc] at hr
  obtain ⟨q₁, f₁⟩ := flowsTo_part y (plain_partGroup1 _) (events_partGroup1 _) hr
  have r₁ := f₁.2.ready hr
  have y₁ := y.trans f₁.2
  obtain ⟨q₂, f₂⟩ := flowsTo_drc y₁ r₁
  have r₂ := f₂.2.ready r₁
  have y₂ := y₁.trans f₂.2
  obtain ⟨q₃, f₃⟩ := flowsTo_eq y₂ r₂
  have r₃ := f₃.2.ready r₂
  rw [← List.append_assoc, ← results_append] at r₃
  obtain ⟨q₄, f₄⟩ := flowsTo_part (y₂.trans f₃.2) (plain_bringupTail_parts i s).1 (events_bringupTail_parts i s).1 r₃
  have := (f₁.append (f₂.append f₃)).append f₄
  exact ⟨q₄, by simpa only [partMiddle, bankRules, List.append_assoc] using this⟩

theorem offStage_of_plain {m : Micro} (h : m.plain = true) : m.offStage = true := by
  cases m with
  | loadStage => cases h
  | _ => rfl

theorem offStage_bankRules (p : Params) (i : Byte) : ∀ m ∈ bankRules p i, m.offStage = true := by
  have hb := fun k img m hm => (offStage_bracket p k img m hm).1
  have hdrc : ∀ m ∈ drcAtBringup p, m.offStage = true := by
    unfold drcAtBringup
    split
    · simp [Micro.offStage]
    · exact hb _ _
  have heq : ∀ m ∈ eqAtBringup p i, m.offStage = true := by
    unfold eqAtBringup
    split
    · simp [Micro.offStage]
    · exact hb _ _
  rw [bankRules, List.forall_mem_append]
  constructor
  · split
    · exact hdrc
    · simp
  · split
    · exact heq
    · simp

/-- The whole of a bring-up's events but its response. -/
def bringupAll (i : Instr) (s : State) : List Event :=
  bringupStart s ++ bringupMiddle s ++ (bringupEnd s.params ++ (if i = .resume then restoreEvents s else []))

theorem bringupAll_eq (i : Instr) (s : State) :
    bringupAll i s = bringupBefore s ++ bringupBanks s ++ bringupAfter i s := by
  simp only [bringupAll, bringupMiddle, bringupBefore, bringupBanks, bringupAfter, List.append_assoc]

theorem took_bringupAll (i : Instr) (s : State) : ∀ e ∈ bringupAll i s, e.took = true := by
  rw [bringupAll_eq]
  simp only [List.forall_mem_append]
  exact ⟨⟨took_bringupBefore s, took_bringupBanks s⟩, took_bringupAfter i s⟩

/-- A granted BRINGUP or RESUME that is let in and whose transactions succeed. -/
theorem bringup_flows {i : Instr} {s : State} {h : Nat} (hi : i = .bringup ∨ i = .resume) (g : Granted h s)
    (hu : Smooth s) (hd : admits i s.ds = true) :
    let r := responseTo [] (bringupAll i s)
    ∃ t es₁ es₂ es₃, exec i s = .next t ∧ t.trace = s.trace ++ (es₁ ++ es₂ ++ es₃) ∧
      es₁.map Event.untimed = bringupStart s ∧ es₂.map Event.untimed = bringupMiddle s ∧
      es₃.map Event.untimed = bringupEnd s.params ++ (if i = .resume then restoreEvents s else []) ++
        [.resp h r.status r.info r.data 0] ∧
      apart Config.tOsc es₁ es₂ ∧ apart Config.tStart es₂ es₃ ∧ t.lock = none ∧ respAt t h = some r ∧
      t.ds = stateAfter (bringupAll i s) s.ds ∧ t.pinRst = levelAfter .rst (bringupAll i s) s.pinRst ∧
      t.pinPd = levelAfter .pd (bringupAll i s) s.pinPd ∧ t.snapValid = s.snapValid ∧ t.snap = s.snap := by
  intro r
  have hin : s.ds ∈ dsForBringup := (mem_dsForBringup _).2 (by
    obtain rfl | rfl := hi
    · exact (admits_bringup _).1 hd
    · exact (admits_resume _).1 hd)
  have hr : Ready (results (bringupAll i s)) (still s) := by
    rw [results_took (took_bringupAll i s)]
    exact ready_of_succeeds hu.2 _
  rw [bringupAll, results_append, results_append, List.append_assoc] at hr
  obtain ⟨a, f₁⟩ := flowsTo_part (yields_refl (still_of_still s)) (plain_partStart s.params) (events_partStart s) hr
  have r₁ := f₁.2.ready hr
  obtain ⟨b, f₂⟩ := flowsTo_partMiddle i f₁.2 r₁
  have r₂ := f₂.2.ready r₁
  obtain ⟨c, f₃⟩ := flowsTo_part (bs := []) (f₁.2.trans f₂.2) (plain_bringupTail_parts i s).2
    (events_bringupTail_parts i s).2 (by rw [List.append_nil]; exact r₂)
  have y : Yields (bringupAll i s) (still s) c := (f₁.2.trans f₂.2).trans f₃.2
  have hoff : ∀ m ∈ (.require dsForBringup :: partStart s.params) ++ partMiddle s ++ partEnd i s, m.offStage = true := by
    simp only [List.forall_mem_append, List.forall_mem_cons, partMiddle]
    exact ⟨⟨⟨rfl, fun m hm => offStage_of_plain (plain_partStart _ m hm)⟩,
      ⟨fun m hm => offStage_of_plain (plain_partGroup1 _ m hm), offStage_bankRules _ _⟩,
      fun m hm => offStage_of_plain ((plain_bringupTail_parts i s).1 m hm)⟩,
      fun m hm => offStage_of_plain ((plain_bringupTail_parts i s).2 m hm)⟩
  obtain ⟨t, es₁, es₂, es₃, hrun, htr, u₁, u₂, u₃, a₁, a₂, hlock, hresp, hds, hrst, hpd, -, -, hvalid, hsnap⟩ :=
    runRule_flow g hu.1 hoff ((flow_require _ (still_of_still s) hin).trans f₁.1) f₂.1 f₃.1
      (f₁.2.still.wait Config.tOsc) (f₂.2.still.wait Config.tStart) f₁.2.trace f₂.2.trace f₃.2.trace
  have hro : responseOf c = r := by
    rw [y.responseOf (granted_still g).1, (granted_still g).2]
    rfl
  rw [hro] at u₃ hresp
  refine ⟨t, es₁, es₂, es₃, ?_, htr, u₁, u₂, u₃, a₁, a₂, hlock, hresp, hds.trans y.ds, hrst.trans y.pinRst,
    hpd.trans y.pinPd, hvalid.trans y.snapValid, hsnap.trans y.snap⟩
  rw [exec_bringup_parts hi, bringupParts_eq, hrun]

end Sys2Proof.Machine

/-! The counts of a bring-up and what RESUME adds to it (R99, R101). -/

namespace Sys2Proof.Machine

/-! ### Counting -/

theorem countP_isWrite_untimed (es : List Event) : (es.map Event.untimed).countP Event.isWrite = es.countP Event.isWrite := by
  rw [List.countP_map]
  congr 1
  funext e
  cases e with
  | xfer d => cases d <;> rfl
  | pin | state | log | grant | resp | reset => rfl

theorem countP_isPin_untimed (es : List Event) : (es.map Event.untimed).countP Event.isPin = es.countP Event.isPin := by
  rw [List.countP_map]
  congr 1
  funext e
  cases e with
  | pin | xfer | state | log | grant | resp | reset => rfl

/-- Where every transaction is a write that succeeded, the transactions are the writes. -/
theorem countP_isXfer_of_took {es : List Event} (h : ∀ e ∈ es, e.took = true) :
    es.countP Event.isXfer = es.countP Event.isWrite := by
  rw [← results_length, results_took h, List.length_replicate]

theorem countP_isWrite_wroteAll (ws : Image) : (wroteAll ws).countP Event.isWrite = ws.length := by
  induction ws with
  | nil => rfl
  | cons w ws ih =>
    rw [wroteAll, List.map_cons, List.countP_cons_of_pos (by rfl), List.length_cons]
    exact congrArg (· + 1) ih

theorem countP_isPin_of_no_pin {es : List Event} (h : ∀ e ∈ es, e.isPin = false) : es.countP Event.isPin = 0 :=
  List.countP_eq_zero.2 fun e he => by simp [h e he]

/-! ### The parts -/

theorem platformDrc_length {p : Params} {img : Image} (h : platformDrc p = some img) : img.length = 12 := by
  rw [← List.length_map (f := Prod.fst), platformDrc_addrs h]
  rfl

theorem platformEq_length {p : Params} {i : Byte} {img : Image} (h : platformEq p i = some img) : img.length = 18 := by
  rw [← List.length_map (f := Prod.fst), platformEq_addrs h]
  rfl

theorem countP_bracketEvents (s : State) (k : Kind) (img : Image) :
    (bracketEvents s k img).countP Event.isWrite = img.length + 2 := by
  rw [show bracketEvents s k img = wroteAll (bracketWrites s k img) from rfl, countP_isWrite_wroteAll, bracketWrites,
    List.length_append, List.length_cons]
  rfl

theorem countP_bringupDrc (s : State) : (bringupDrc s).countP Event.isWrite =
    if s.params.cfg.drcEnable && (platformDrc s.params).isSome then 14 else 0 := by
  cases he : s.params.cfg.drcEnable with
  | false => simp [bringupDrc, he]
  | true =>
    cases hd : platformDrc s.params with
    | none => simp [bringupDrc, he, hd, Event.isWrite]
    | some img => simp [bringupDrc, he, hd, countP_bracketEvents, platformDrc_length hd]

theorem countP_bringupEq (s : State) : (bringupEq s).countP Event.isWrite =
    if s.params.cfg.eqEnable && (platformEq s.params s.eqPreset).isSome then 20 else 0 := by
  cases he : s.params.cfg.eqEnable with
  | false => simp [bringupEq, he]
  | true =>
    cases hd : platformEq s.params s.eqPreset with
    | none => simp [bringupEq, he, hd, Event.isWrite]
    | some img => simp [bringupEq, he, hd, countP_bracketEvents, platformEq_length hd]

theorem countP_bringupMux (p : Params) : (bringupMux p).countP Event.isWrite =
    if p.cfg.initMux.any (·.length == 4) then 1 else 0 := by
  cases h : p.cfg.initMux with
  | none => simp [bringupMux, h]
  | some v => by_cases hl : v.length = 4 <;> simp [bringupMux, h, hl, Event.wrote, Event.isWrite]

theorem countP_restoreEvents (s : State) :
    (restoreEvents s).countP Event.isWrite = if s.snapValid = true then 4 else 0 := by
  cases h : s.snapValid with
  | false => simp [restoreEvents, h]
  | true =>
    simp only [restoreEvents, h, if_true]
    rfl

theorem countP_bringupStart (s : State) : (bringupStart s).countP Event.isWrite = 1 := by
  cases hb : pinsBound s.params <;> simp [bringupStart, hb, Event.wroteReg, Event.wrote, Event.isWrite]

theorem countP_bringupEnd (p : Params) : (bringupEnd p).countP Event.isWrite = 5 := rfl

/-- The writes of a bring-up in numbers (R101). -/
theorem countP_bringupAll (i : Instr) (s : State) : (bringupAll i s).countP Event.isWrite = 18 +
    ((if s.params.cfg.drcEnable && (platformDrc s.params).isSome then 14 else 0) +
      (if s.params.cfg.eqEnable && (platformEq s.params s.eqPreset).isSome then 20 else 0) +
      (if s.params.cfg.initMux.any (·.length == 4) then 1 else 0)) +
    (if i = .resume ∧ s.snapValid = true then 4 else 0) := by
  have hrestore : (if i = .resume then restoreEvents s else []).countP Event.isWrite =
      if i = .resume ∧ s.snapValid = true then 4 else 0 := by
    by_cases hi : i = .resume <;> simp [hi, countP_restoreEvents]
  have h₁ : (bringupGroup1 s.params).countP Event.isWrite = 7 := rfl
  have h₂ : (bringupGroup2 s.params).countP Event.isWrite = 5 := rfl
  simp only [bringupAll, bringupMiddle, List.countP_append, countP_bringupStart, h₁, countP_bringupDrc, countP_bringupEq,
    countP_bringupMux, h₂, countP_bringupEnd, hrestore]
  omega

/-! ### Lines, states and errors -/

/-- The events between the waits are transactions and logs. -/
theorem onBus_bringupMiddle (s : State) : ∀ e ∈ bringupMiddle s, e.onBus = true := by
  have hdrc : ∀ e ∈ bringupDrc s, e.onBus = true := by
    unfold bringupDrc
    split
    · simp
    · simp [Event.onBus]
    · exact onBus_wroteAll _
  have heq : ∀ e ∈ bringupEq s, e.onBus = true := by
    unfold bringupEq
    split
    · simp
    · simp [Event.onBus]
    · exact onBus_wroteAll _
  have hmux : ∀ e ∈ bringupMux s.params, e.onBus = true := by
    unfold bringupMux
    split
    · simp
    · split <;> simp [Event.wrote, Event.onBus]
  simp only [bringupMiddle, List.forall_mem_append]
  exact ⟨⟨⟨⟨by simp [bringupGroup1, Event.wroteReg, Event.wrote, Event.onBus], hdrc⟩, heq⟩, hmux⟩,
    by simp [bringupGroup2, Event.wroteReg, Event.wrote, Event.onBus]⟩

theorem onBus_restoreEvents (i : Instr) (s : State) : ∀ e ∈ (if i = .resume then restoreEvents s else []), e.onBus = true := by
  split
  · unfold restoreEvents
    split
    · simp [Event.wrote, Event.onBus]
    · simp
  · simp

theorem logged_restoreEvents (i : Instr) (s : State) :
    (if i = .resume then restoreEvents s else []).filterMap Event.logged? = [] := by
  split
  · unfold restoreEvents
    split
    · simp [Event.wrote, Event.logged?]
    · rfl
  · rfl

theorem levelAfter_append (l : Line) (es fs : List Event) (x : PinLevel) :
    levelAfter l (es ++ fs) x = levelAfter l fs (levelAfter l es x) := List.foldl_append ..

theorem stateAfter_bringupAll (i : Instr) (s : State) (d : DeviceState) : stateAfter (bringupAll i s) d = .running := by
  simp only [bringupAll, stateAfter_append, stateAfter_onBus (onBus_restoreEvents i s)]
  rfl

theorem levelAfter_bringupAll (i : Instr) (s : State) (l : Line) (x : PinLevel) : levelAfter l (bringupAll i s) x =
    if pinsBound s.params then .driven (lineLevel s.params l false) else x := by
  have hend : ∀ y, levelAfter l (bringupEnd s.params) y = y := fun y =>
    levelAfter_of_no_pin (by simp [bringupEnd, Event.wroteReg, Event.wrote, Event.isPin]) l y
  simp only [bringupAll, levelAfter_append, levelAfter_onBus (onBus_restoreEvents i s), hend,
    levelAfter_onBus (onBus_bringupMiddle s)]
  cases hb : pinsBound s.params <;> cases l <;> simp [bringupStart, hb, levelAfter, Event.level?, Event.wroteReg, Event.wrote]

theorem countP_isPin_bringupAll (i : Instr) (s : State) :
    (bringupAll i s).countP Event.isPin = if pinsBound s.params then 4 else 0 := by
  have hend : (bringupEnd s.params).countP Event.isPin = 0 := rfl
  simp only [bringupAll, List.countP_append, countP_isPin_of_no_pin (noPin_of_onBus (onBus_restoreEvents i s)), hend,
    countP_isPin_of_no_pin (noPin_of_onBus (onBus_bringupMiddle s))]
  cases hb : pinsBound s.params <;> simp only [bringupStart, hb, Bool.false_eq_true, if_true, if_false] <;> rfl

/-- Nothing after the startup wait is logged. -/
theorem responseTo_bringupAll (i : Instr) (s : State) :
    responseTo [] (bringupAll i s) = responseTo [] (bringupStart s ++ bringupMiddle s) := by
  have hend : (bringupEnd s.params ++ (if i = .resume then restoreEvents s else [])).filterMap Event.logged? = [] := by
    rw [List.filterMap_append, logged_restoreEvents]
    rfl
  simp only [responseTo, bringupAll, List.filterMap_append (l := bringupStart s ++ bringupMiddle s), hend, List.append_nil]

/-- Settles O23: the events of `bringup_flows`, counted part by part. -/
theorem bringupTransactionCounts : Obligations.BringupTransactionCounts := by
  intro i s h hi g hu hd p r banks
  obtain ⟨t, es₁, es₂, es₃, hex, htr, u₁, u₂, u₃, a₁, a₂, hlock, hresp, hds, hrst, hpd, -, -⟩ := bringup_flows hi g hu hd
  rw [responseTo_bringupAll] at u₃ hresp
  have hall : (newEvents s t).map Event.untimed = bringupAll i s ++ [.resp h r.status r.info r.data 0] := by
    rw [newEvents_append htr, List.map_append, List.map_append, u₁, u₂, u₃, bringupAll]
    simp only [List.append_assoc]
    rfl
  have hwrites : (newEvents s t).countP Event.isWrite = (bringupAll i s).countP Event.isWrite := by
    rw [← countP_isWrite_untimed, hall, List.countP_append]
    rfl
  have hxfers : (newEvents s t).countP Event.isXfer = (bringupAll i s).countP Event.isXfer := by
    rw [← countP_isXfer_untimed, hall, List.countP_append]
    rfl
  have hpins : (newEvents s t).countP Event.isPin = (bringupAll i s).countP Event.isPin := by
    rw [← countP_isPin_untimed, hall, List.countP_append]
    rfl
  have hbanks : banks ≤ 35 := by
    have h₁ : ∀ b : Bool, (if b then 14 else 0) ≤ 14 := by decide
    have h₂ : ∀ b : Bool, (if b then 20 else 0) ≤ 20 := by decide
    have h₃ : ∀ b : Bool, (if b then 1 else 0) ≤ 1 := by decide
    exact Nat.add_le_add (Nat.add_le_add (h₁ _) (h₂ _)) (h₃ _)
  exact ⟨t, es₁, es₂, es₃, hex, htr, u₁, u₂, u₃, a₁, a₂, hds.trans (stateAfter_bringupAll i s _), hlock, hresp,
    hrst.trans (levelAfter_bringupAll i s .rst _), hpd.trans (levelAfter_bringupAll i s .pd _),
    hwrites.trans (countP_bringupAll i s), by rw [hxfers, hwrites, countP_isXfer_of_took (took_bringupAll i s)],
    Nat.le_add_right 18 banks, Nat.add_le_add_left hbanks 18, hpins.trans (countP_isPin_bringupAll i s), rfl, rfl, rfl⟩

/-! ### RESUME (R99) -/

/-- With no snapshot RESUME runs BRINGUP's rule. -/
theorem exec_resume_no_snapshot {s : State} (h : s.snapValid = false) : exec .resume s = exec .bringup s := by
  rw [exec_bringup_parts (.inr rfl), exec_bringup_parts (.inl rfl)]
  simp [bringupParts, bringupTail, h]

/-- Settles O25: both commands run as `bringup_flows` says, RESUME with the restore writes at its end. -/
theorem resumeRestoresTheSnapshot : Obligations.ResumeRestoresTheSnapshot := by
  refine ⟨?_, fun s => exec_resume_no_snapshot⟩
  intro s h g hu hd hv p
  obtain ⟨t, es₁, es₂, es₃, hex, htr, u₁, u₂, u₃, -, -, -, -, -, -, -, hvalid, hsnap⟩ := bringup_flows (.inr rfl) g hu hd
  obtain ⟨b, fs₁, fs₂, fs₃, hexb, htrb, v₁, v₂, v₃, -⟩ := bringup_flows (.inl rfl) g hu
    ((admits_bringup _).2 ((admits_resume _).1 hd))
  have hresp : responseTo [] (bringupAll .resume s) = responseTo [] (bringupAll .bringup s) := by
    rw [responseTo_bringupAll, responseTo_bringupAll]
  rw [hresp] at u₃
  refine ⟨t, b, bringupAll .bringup s, hex, hvalid.trans hv, hsnap, hexb, ?_, ?_⟩
  · rw [newEvents_append htrb, List.map_append, List.map_append, v₁, v₂, v₃, bringupAll]
    simp only [List.append_assoc]
  · refine traceGains_of htr ?_
    rw [List.map_append, List.map_append, u₁, u₂, u₃, bringupAll]
    simp only [restoreEvents, hv, List.append_assoc]
    rfl

end Sys2Proof.Machine

/-! Tier 1: a step and a placed word, the reset values, issue and grant, completion, the stage port, the invariants at
reset; and the block reset that abandons a command. -/

namespace Sys2Proof.Machine

/-! ### The step -/

theorem execWord_decoded {w : Word32} {i : Instr} (hd : decode w = .ok i) (s : State) : execWord w s = exec i s := by
  simp only [execWord, hd]

/-- Settles O5: `step_grants`, `step_held` and `step_idle` with the word decoded. -/
theorem stepRunsTheDecodedCommand : Obligations.StepRunsTheDecodedCommand := by
  refine ⟨fun s h w i ha hl hn hd => ?_, fun s h i ha hl hd => ?_, fun s ha hl hn => step_idle ha hl hn⟩
  · rw [step_grants ha hl hn, execWord_decoded hd]
  · rw [step_held ha hl, execWord_decoded hd]

theorem tableWord_toNat (w : Word32) : tableWord 32 w.toNat = w := by
  have hw := w.isLt
  apply BitVec.eq_of_toNat_eq
  simp only [tableWord, BitVec.toNat_ofNat]
  omega

theorem agentsAct_placeCommand (h : Nat) (w : Word32) (s : State) :
    agentsAct (placeCommand h w s) = nextSlot (placeCommand h w s) := rfl

theorem placeWord_host {hs : List HostPort} {h : Nat} (w : Word32) (hh : h < hs.length) :
    (placeWord h w hs)[h]? = some ⟨some w, none, []⟩ := by
  simp [placeWord, hh]

/-- The word placed is the only one pending. -/
theorem placeWord_pending {hs : List HostPort} {h j : Nat} {w v : Word32} {p : HostPort}
    (hp : (placeWord h w hs)[j]? = some p) (hv : p.pending = some v) : j = h ∧ v = w := by
  rw [placeWord, List.getElem?_mapIdx] at hp
  obtain ⟨q, hq, rfl⟩ := Option.map_eq_some_iff.1 hp
  by_cases hj : j = h
  · simp only [if_pos hj, Option.some.injEq] at hv
    exact ⟨hj, hv.symm⟩
  · simp [if_neg hj] at hv

/-- A placed word is the next command (R132). -/
theorem nextCommand_placed {s : State} {h : Nat} (w : Word32) (hh : h < s.hosts.length) :
    nextCommand (agentsAct (placeCommand h w s)) = some (h, w) := by
  have hport := placeWord_host w hh
  rw [agentsAct_placeCommand]
  cases hn : nextCommand (nextSlot (placeCommand h w s)) with
  | none => simpa using nextCommand_none.1 hn _ (List.mem_of_getElem? hport)
  | some c =>
    obtain ⟨j, v⟩ := c
    obtain ⟨p, hp, hv⟩ := nextCommand_some hn
    obtain ⟨rfl, rfl⟩ := placeWord_pending hp hv
    rfl

/-- Settles O6: host 0 is the one candidate, and its word decodes to the command it encodes. -/
theorem placedWordRunsNext : Obligations.PlacedWordRunsNext := by
  intro s i ha hne
  have hh : 0 < s.hosts.length := List.length_pos_iff.2 hne
  simp only [State.withFetchWord, tableWord_toNat]
  refine ⟨?_, ?_⟩
  · rw [step_grants (s := placeCommand 0 (encode i) s) ha rfl (nextCommand_placed _ hh),
      execWord_decoded (decode_of_encode rfl)]
  · refine ⟨rfl, ?_, rfl, rfl, rfl⟩
    simpa [grant, settled, agentsAct_placeCommand, placeWord] using hh

/-! ### Reset -/

theorem Stage.read_empty (i : Nat) : Stage.read [] i = none := rfl

/-- Settles O7: the fields of `State.powerOn`. -/
theorem resetLeavesTheStatedValues : Obligations.ResetLeavesTheStatedValues := by
  have idle : ∀ (p : Params) (h : Nat), h < p.numHosts → (State.powerOn p).hosts[h]? = some .idle := fun p h hh => by
    simp [State.powerOn, hh]
  exact ⟨fun p => ⟨rfl, rfl, rfl, rfl, rfl, rfl, Stage.read_empty, rfl, idle p, rfl, rfl, rfl, rfl, rfl⟩,
    fun r => ⟨rfl, rfl, rfl, rfl, rfl, rfl, Stage.read_empty, rfl, idle r.params, rfl, rfl, rfl, rfl, rfl⟩⟩

theorem fixture_admitted : Config.fixture.admitted = true := by decide

/-- Settles O53: power-on leaves an empty trace and an empty stage. -/
theorem resetMeetsTheInvariants : Obligations.ResetMeetsTheInvariants := by
  have base : ∀ p, let s := State.powerOn p
      Stamped s ∧ s.lock = none ∧ serialEnd s.trace = some s.lock ∧ answers s = true ∧ stable s.ds = true ∧
      lifeEnd s.trace = some s.ds ∧ guardEnd p s.trace = some .shut ∧ (p.admitted = true → WellKept s) := by
    intro p
    refine ⟨⟨rfl, fun e he => nomatch he⟩, rfl, rfl, rfl, rfl, rfl, rfl, fun ha => ⟨ha, ?_, ?_, rfl⟩⟩
    · exact List.length_replicate
    · exact fun h hl => by cases hl
  refine ⟨base, ?_⟩
  obtain ⟨hst, hl, hse, han, hd, hli, hg, hk⟩ := base Config.fixture
  exact ⟨hst, hl, hse, han, hd, hli, hg, hk fixture_admitted, by decide⟩

/-! ### Issue and grant -/

theorem issueReady_iff {s : State} {h : Nat} {p : HostPort} (hp : s.hosts[h]? = some p) :
    issueReady s h = true ↔ p.pending = none ∧ s.lock ≠ some h := by
  simp [issueReady, hp]

/-- Settles O9: the issue is taken exactly where `issueReady` holds. -/
theorem issueTakesOneCommandPerHost : Obligations.IssueTakesOneCommandPerHost := by
  intro s h w
  refine ⟨fun p hp hpend hlock => ?_, fun p hp hbusy => ?_, fun hp => ?_⟩
  · have hr : issueReady s h = true := (issueReady_iff hp).2 ⟨hpend, hlock⟩
    obtain ⟨hh, _⟩ := List.getElem?_eq_some_iff.1 hp
    refine ⟨?_, fun j hj => ?_, issue_trace .., issue_lock .., issue_ds ..⟩
    · simp [issue, hr, hh]
    · simp [issue, hr, List.getElem?_set_ne (Ne.symm hj)]
  · have hr : issueReady s h ≠ true := fun hr => by
      obtain ⟨hpend, hlock⟩ := (issueReady_iff hp).1 hr
      exact hbusy.elim (· hpend) hlock
    exact if_neg hr
  · simp [issue, issueReady, hp]

/-- Each candidate is the choice of some schedule (R132). -/
theorem nextCommand_of_candidate {s : State} {h : Nat} {w : Word32} (hc : (h, w) ∈ candidates s) :
    ∃ n : Nat, nextCommand { s with env := { s.env with picks := [n] } } = some (h, w) := by
  obtain ⟨n, hn⟩ := List.mem_iff_getElem?.1 hc
  have hlt : n < (candidates s).length := (List.getElem?_eq_some_iff.1 hn).1
  refine ⟨n, ?_⟩
  change (candidates s)[n % (candidates s).length]? = some (h, w)
  rwa [Nat.mod_eq_of_lt hlt]

/-- Settles O10: the candidates are the pending hosts, and the grant touches the port of one of them. -/
theorem grantServesAnyPendingHost : Obligations.GrantServesAnyPendingHost := by
  intro s h w
  refine ⟨nextCommand_some, fun p hp hw => nextCommand_of_candidate (mem_candidates.2 ⟨p, hp, hw⟩), nextCommand_none,
    fun p hp => ⟨rfl, rfl, ?_, fun j hj => ?_, rfl, rfl, rfl, rfl, rfl⟩⟩
  · simp [grant, hp]
  · simp [grant, Ne.symm hj]

/-! ### Completion -/

theorem word_info (r : Response) : r.word.extractLsb' 16 16 = r.info := by
  apply BitVec.eq_of_getLsbD_eq
  intro k hk
  have hc : r.status.code.getLsbD (16 + k) = false := BitVec.getLsbD_of_ge _ _ (by omega)
  have hin : 16 + k < 32 ∧ k < 32 := by omega
  simp [Response.word, hc, hk, hin]

theorem word_reserved (r : Response) : r.word.extractLsb' 4 12 = 0 := by
  apply BitVec.eq_of_getLsbD_eq
  intro k hk
  have hlow : 4 + k < 16 := by omega
  simp [Response.word, hk, hlow]

theorem word_status (r : Response) : r.word.extractLsb' 0 4 = r.status.code := by
  apply BitVec.eq_of_getLsbD_eq
  intro k hk
  have hlow : k < 16 ∧ k < 32 := by omega
  simp [Response.word, hk, hlow]

/-- Settles O11: `complete_spec` with the response of R134, and the fields of the response word. -/
theorem completionWritesTheResponse : Obligations.CompletionWritesTheResponse := by
  refine ⟨run_nil 0, fun _ _ => rfl, fun _ _ _ => rfl, fun s hc => (settled_spec hc).ready, fun s h hl hh => ?_,
    fun r => ⟨word_info r, word_reserved r, word_status r⟩, rfl⟩
  obtain ⟨hr, ht, ho, _⟩ := complete_spec hl hh
  exact ⟨hr, by simp [complete, hl], ht, by simp [complete, hl], ho⟩

/-! ### A block reset before a micro-step (R162) -/

/-- The block is as a reset left it, and the trace has gained Reset events alone since `s`. -/
structure ResetSince (s t : State) : Prop where
  params : t.params = s.params
  lock : t.lock = none
  ds : t.ds = .uninitialized
  eqEnabled : t.eqEnabled = true
  eqPreset : t.eqPreset = s.params.cfg.initialPresetIndex
  pinRst : t.pinRst = .z
  pinPd : t.pinPd = .z
  snapValid : t.snapValid = false
  seqPc : t.seqPc = 0
  firstErr : t.firstErr = none
  waitUntil : t.waitUntil = 0
  now : s.now ≤ t.now
  resp : ∀ h, respAt t h = none
  trace : ∃ es, t.trace = s.trace ++ es ∧ es ≠ [] ∧ ∀ e ∈ es, ∃ τ, e = .reset τ ∧ s.now ≤ τ ∧ τ ≤ t.now

/-- Where the trace has gained Reset events alone, a block reset leaves the reset values (R161). -/
theorem ResetSince.blockReset {s u : State} {es : List Event} (hp : u.params = s.params) (hn : s.now ≤ u.now)
    (ht : u.trace = s.trace ++ es) (hes : ∀ e ∈ es, ∃ τ, e = .reset τ ∧ s.now ≤ τ ∧ τ ≤ u.now) :
    ResetSince s (blockReset u) := by
  constructor
  case trace =>
    refine ⟨es ++ [.reset u.now], ?_, by simp, fun e he => ?_⟩
    · rw [← List.append_assoc, ← ht]; rfl
    · rcases List.mem_append.1 he with he | he
      · exact hes e he
      · exact ⟨u.now, by simpa using he, hn, le_refl _⟩
  case resp =>
    intro h
    simp only [respAt, Machine.blockReset, State.powerOn, List.getElem?_replicate]
    split <;> rfl
  case params => exact hp
  case eqPreset => exact congrArg (fun p : Params => p.cfg.initialPresetIndex) hp
  case now => exact hn
  all_goals rfl

/-- No act gives a host a response. -/
theorem respAt_applyAct {a : Act} {s : State} (h : Nat) (hr : respAt s h = none) : respAt (applyAct a s) h = none := by
  cases a with
  | tick d => exact hr
  | stageWrite i v =>
    simp only [respAt, applyAct, hostStageWrite, List.getElem?_mapIdx] at hr ⊢
    cases hp : s.hosts[h]? with
    | none => rfl
    | some p =>
      rw [hp] at hr
      simp only [Option.map_some, Option.bind_some] at hr ⊢
      split <;> exact hr
  | issue g w =>
    simp only [applyAct, issue]
    split
    · simp only [respAt, List.getElem?_set]
      split
      · split <;> rfl
      · exact hr
    · exact hr
  | reset =>
    simp only [respAt, applyAct, blockReset, State.powerOn, List.getElem?_replicate]
    split <;> rfl

/-- After a reset the other agents leave the block at its reset values. -/
theorem ResetSince.act {s t : State} (h : ResetSince s t) (a : Act) : ResetSince s (applyAct a t) := by
  obtain ⟨es, ht, hne, hes⟩ := h.trace
  by_cases ha : a = .reset
  · subst ha
    exact ResetSince.blockReset h.params h.now ht hes
  · have p := applyAct_passes ha t
    exact
      { params := p.params.trans h.params, lock := p.lock.trans h.lock, ds := p.ds.trans h.ds
        eqEnabled := p.eqEnabled.trans h.eqEnabled, eqPreset := p.eqPreset.trans h.eqPreset
        pinRst := p.pinRst.trans h.pinRst, pinPd := p.pinPd.trans h.pinPd, snapValid := p.snapValid.trans h.snapValid
        seqPc := p.seqPc.trans h.seqPc, firstErr := p.firstErr.trans h.firstErr
        waitUntil := p.waitUntil.trans h.waitUntil, now := h.now.trans p.now
        resp := fun j => respAt_applyAct j (h.resp j)
        trace := ⟨es, p.trace.trans ht, hne, fun e he => by
          obtain ⟨τ, rfl, h₁, h₂⟩ := hes e he
          exact ⟨τ, rfl, h₁, h₂.trans p.now⟩⟩ }

theorem agentsAct_resetSince {s : State} (hc : calm s = false) : ResetSince s (agentsAct s) :=
  agentsAct_abandoned (P := Passes (nextSlot s)) hc (Passes.refl _) (fun _ u ha hu => hu.trans (applyAct_passes ha u))
    (fun _ hu => ResetSince.blockReset (es := []) hu.params hu.now (by simpa using hu.trace) (by simp))
    (fun a _ hu => hu.act a)

/-- Where a block reset comes before the next micro-step, nothing of a rule is run (R162). -/
theorem run_reset {s : State} (hc : calm s = false) (rule : List Micro) : run rule 0 s = agentsAct s := by
  cases rule with
  | nil => exact microStep_reset hc complete
  | cons m rest => rw [run_cons]; exact microStep_reset hc _

/-- Settles O8: every run and every micro-step is then `agentsAct`, which leaves the reset values. -/
theorem blockResetAbandonsTheCommand : Obligations.BlockResetAbandonsTheCommand := by
  intro s hc
  have r := agentsAct_resetSince hc
  exact ⟨microStep_reset hc, run_reset hc, r.lock, r.ds, r.eqEnabled, r.eqPreset, r.pinRst, r.pinPd, r.snapValid,
    r.seqPc, r.firstErr, r.waitUntil, r.now, r.resp, r.trace⟩

/-! ### The stage -/

/-- Settles O33: `Stage.read_write` and `Stage.wf_write`. -/
theorem stageWritePortSetsOneByte : Obligations.StageWritePortSetsOneByte := by
  intro s i v hw
  have hp := ((Stage.wf_iff _).1 hw).1
  refine ⟨?_, fun j hj => ?_, hostStageWrite_trace .., Stage.wf_write i v hw⟩
  · exact (Stage.read_write _ _ _ v hp).trans (if_pos rfl)
  · exact (Stage.read_write _ _ _ v hp).trans (if_neg hj)

theorem racedNow_eq {s : State} {h : Nat} {p : HostPort} (hl : s.lock = some h) (hp : s.hosts[h]? = some p) :
    racedNow s = p.raced := by
  simp [racedNow, hl, hp]

/-- A host's stage write races every outstanding command (R64). -/
theorem hostStageWrite_outstanding {s : State} {h : Nat} {p : HostPort} (i : StageIx) (v : Byte)
    (hp : s.hosts[h]? = some p) (ho : outstandingAt s h p = true) :
    (hostStageWrite i v s).hosts[h]? = some { p with raced := i :: p.raced } := by
  simp [hostStageWrite, hp, ho]

theorem stageByte_free {s : State} {i : Nat} (h : stageValue s i = none) :
    (stageByte i s).1 = Config.freeByte s.env.draws := by
  simp only [stageByte, h]

theorem stageValue_raced {s : State} {i : StageIx} (h : i ∈ racedNow s) : stageValue s i.toNat = none := by
  have : (racedNow s).any (fun r => r.toNat == i.toNat) = true := List.any_eq_true.2 ⟨i, h, by simp⟩
  simp [stageValue, this]

theorem stageValue_unwritten {s : State} {i : Nat} (h : Stage.read s.stage i = none) : stageValue s i = none := by
  simp [stageValue, h]

theorem stageValue_unraced {s : State} {i : Nat} (h : ∀ r ∈ racedNow s, r.toNat ≠ i) :
    stageValue s i = Stage.read s.stage i := by
  have : (racedNow s).any (fun r => r.toNat == i) = false := by simpa using h
  simp [stageValue, this]

/-- Settles O34: the stage value is `none` exactly at the raced and the unwritten offsets. -/
theorem racedStageBytesAreUnconstrained : Obligations.RacedStageBytesAreUnconstrained := by
  refine ⟨fun s i v h p hp => ⟨fun hl => ?_, fun hw => ?_⟩, fun s i hi => stageByte_free (stageValue_raced hi),
    fun s i hi => stageByte_free (stageValue_unwritten hi), fun s i b hr hb => ?_⟩
  · have ho : outstandingAt s h p = true := by simp [outstandingAt, hl]
    have hport := hostStageWrite_outstanding i v hp ho
    rw [racedNow_eq (s := hostStageWrite i v s) hl hport]
    exact List.mem_cons_self
  · have ho : outstandingAt s h p = true := by
      obtain ⟨w, hw⟩ := Option.ne_none_iff_exists'.1 hw
      simp [outstandingAt, hw]
    exact ⟨_, hostStageWrite_outstanding i v hp ho, rfl⟩
  · exact stageByte_known ((stageValue_unraced hr).trans hb)

/-! ### A Device that never answers (R103) -/

/-- `t` is `s` with a transaction outstanding. -/
structure Hangs (s t : State) : Prop where
  lock : t.lock = s.lock
  seqPc : t.seqPc = s.seqPc
  trace : t.trace = s.trace
  ds : t.ds = s.ds
  outstanding : t.scratch.outstanding = true

/-- A transaction that the Device does not answer. -/
theorem transact_hangs {s : State} (h : s.scratch.outstanding = true ∨ nextAnswer s = .silent) :
    ∃ t, transact s = .waiting t ∧ Hangs s t := by
  cases ho : s.scratch.outstanding with
  | true => exact ⟨s, transact_outstanding ho, rfl, rfl, rfl, rfl, ho⟩
  | false =>
    have ha : nextAnswer s = .silent := h.resolve_left (by simp [ho])
    exact ⟨awaiting (drawn s), transact_silent ho ha, rfl, rfl, rfl, rfl, rfl⟩

/-- A read or write that the Device does not answer waits. -/
theorem perform_hangs {m : Micro} {s : State} (hm : (∃ a v f, m = .write a v f) ∨ ∃ a n, m = .read a n)
    (h : s.scratch.outstanding = true ∨ nextAnswer s = .silent) : ∃ t, perform m s = .waiting t ∧ Hangs s t := by
  obtain ⟨t, ht, hg⟩ := transact_hangs h
  refine ⟨t, ?_, hg⟩
  obtain ⟨a, v, f, rfl⟩ | ⟨a, n, rfl⟩ := hm
  · simp [perform, memWrite, ht]
  · simp [perform, memRead, ht]

/-- Settles O30: the run stops where its transaction waits. -/
theorem silentDeviceHoldsTheCommand : Obligations.SilentDeviceHoldsTheCommand := by
  intro s m rest hn hm h
  have h' : (settled s).scratch.outstanding = true ∨ nextAnswer (settled s) = .silent := by
    rwa [settled_scratch hn, settled_nextAnswer hn]
  obtain ⟨t, ht, hg⟩ := perform_hangs hm h'
  simp only [run_waiting hn rest ht]
  exact ⟨hg.lock.trans (settled_lock hn), hg.seqPc.trans (settled_seqPc hn), hg.trace.trans (settled_trace hn),
    hg.ds.trans (settled_ds hn), hg.outstanding⟩

/-! ### The blocks of an image -/

theorem loadEq_fits (p : Params) {blob : Bytes} {img : Image} (h : loadEq blob = some img) :
    ∀ q ∈ img, regmap p q.1 = some q.2.length := by
  unfold loadEq at h
  split at h
  case isFalse => cases h
  case isTrue hb =>
    obtain rfl := Option.some.inj h
    simp only [List.forall_mem_map]
    intro q hq
    obtain ⟨a, k⟩ := q
    have hk : k < 0 + eqAddrs.length := by simpa using (List.mem_zipIdx hq).2.1
    have h18 : eqAddrs.length = 18 := rfl
    have hlen : 20 * k + 20 ≤ blob.length := by simp only [Config.eqBlobBytes] at hb; omega
    rw [regmap_eq p (List.fst_mem_of_mem_zipIdx hq), slice_length hlen]

theorem loadDrc_fits (p : Params) {main tko : Bytes} {img : Image} (h : loadDrc main tko = some img) :
    ∀ q ∈ img, regmap p q.1 = some q.2.length := by
  unfold loadDrc at h
  split at h
  case isFalse => cases h
  case isTrue hb =>
    obtain ⟨hm, ht⟩ := hb
    obtain rfl := Option.some.inj h
    simp only [List.forall_mem_append, List.forall_mem_map]
    refine ⟨fun q hq => ?_, fun q hq => ?_⟩
    · have hlen : 8 * (q.2 % 3) + 8 ≤ main.length := by simp only [Config.drcMainBytes] at hm; omega
      rw [regmap_drcMain p (List.fst_mem_of_mem_zipIdx hq), slice_length hlen]
    · have hlen : 4 * (q.2 % 3) + 4 ≤ tko.length := by simp only [Config.drcTkoBytes] at ht; omega
      rw [regmap_drcTko p (List.fst_mem_of_mem_zipIdx hq), slice_length hlen]

theorem parsePatch_fits (p : Params) {text : Bytes} {img : Image} (h : parsePatch text = .ok img) :
    ∀ q ∈ img, regmap p q.1 = some q.2.length :=
  fun q hq => patchBlock_length p ((parsePatch_ok h).2 q hq)

/-- Settles O37: every slice lies inside its table, and a block read has its register's width. -/
theorem imageBlocksFitTheirRegisters : Obligations.ImageBlocksFitTheirRegisters := fun p =>
  ⟨fun _ _ h => loadEq_fits p h, fun _ _ _ h => loadDrc_fits p h,
    fun _ _ h => ⟨(parsePatch_ok h).1, parsePatch_fits p h⟩⟩

end Sys2Proof.Machine

/-! Frames: the fields each statement of a rule can write, so each command; the stage and the other hosts' ports; the
addresses a command writes to. -/

namespace Sys2Proof.Machine

/-! ### The parts of the state a statement can write -/

/-- The fields of the block that only some statements write. -/
inductive Part where
  | ds | eqEnabled | eqPreset | snap | snapValid | pinRst | pinPd | waitUntil
deriving DecidableEq

/-- `t` has that field of `s`. -/
def Part.Same (x : Part) (s t : State) : Prop :=
  match x with
  | .ds => t.ds = s.ds
  | .eqEnabled => t.eqEnabled = s.eqEnabled
  | .eqPreset => t.eqPreset = s.eqPreset
  | .snap => t.snap = s.snap
  | .snapValid => t.snapValid = s.snapValid
  | .pinRst => t.pinRst = s.pinRst
  | .pinPd => t.pinPd = s.pinPd
  | .waitUntil => t.waitUntil = s.waitUntil

theorem Part.Same.refl (x : Part) (s : State) : x.Same s s := by cases x <;> rfl

theorem Part.Same.trans {x : Part} {s t u : State} (h : x.Same s t) (g : x.Same t u) : x.Same s u := by
  cases x <;> exact Eq.trans g h

theorem same_of_passes {s t : State} (h : Passes s t) (x : Part) : x.Same s t := by
  cases x
  case ds => exact h.ds
  case eqEnabled => exact h.eqEnabled
  case eqPreset => exact h.eqPreset
  case snap => exact h.snap
  case snapValid => exact h.snapValid
  case pinRst => exact h.pinRst
  case pinPd => exact h.pinPd
  case waitUntil => exact h.waitUntil

theorem same_settled {s : State} (hn : noReset s = true) (x : Part) : x.Same s (settled s) :=
  Part.Same.trans (t := nextSlot s) (by cases x <;> rfl) (same_of_passes (settled_spec (calm_of_noReset hn)).passes x)

theorem same_emit (e : Event) (s : State) (x : Part) : x.Same s (emit e s) := by cases x <;> rfl

theorem same_drawn (s : State) (x : Part) : x.Same s (drawn s) := by cases x <;> rfl

theorem same_awaiting (s : State) (x : Part) : x.Same s (awaiting s) := by cases x <;> rfl

theorem same_withDraws (n : Nat) (s : State) (x : Part) : x.Same s (withDraws n s) := by cases x <;> rfl

theorem same_scratch (c : Scratch) (s : State) (x : Part) : x.Same s { s with scratch := c } := by cases x <;> rfl

theorem same_logErr (e : Err) (s : State) (x : Part) : x.Same s (logErr e s) := by cases x <;> rfl

theorem same_advance (n : Nat) (s : State) (x : Part) : x.Same s (advance n s) := by cases x <;> rfl

theorem same_complete (s : State) (x : Part) : x.Same s (complete s) := by
  unfold complete
  split
  · exact .refl x s
  · cases x <;> rfl

theorem same_setState {x : Part} (hx : x ≠ .ds) (d : DeviceState) (s : State) : x.Same s (setState d s) := by
  cases x
  case ds => exact absurd rfl hx
  all_goals rfl

/-- The line's field. -/
def Line.part : Line → Part
  | .rst => .pinRst
  | .pd => .pinPd

/-- The fields a statement can write, its recovery step included. -/
def Micro.parts : Micro → List Part
  | .setState _ | .unmute | .write _ _ (.raiseTo _) => [.ds]
  | .gpio l _ => [l.part]
  | .wait _ => [.waitUntil]
  | .saveSnap => [.snap]
  | .markSnap => [.snapValid]
  | .setEnabled _ => [.eqEnabled]
  | .setPreset _ => [.eqPreset]
  | _ => []

theorem same_transact (s : State) (x : Part) :
    (∃ b, transact s = .ok b (drawn s)) ∨ transact s = .fail (drawn s) ∨
    ∃ t, transact s = .waiting t ∧ x.Same s t := by
  rcases transact_cases s with h | h | h | h
  · exact .inl h
  · exact .inr (.inl h)
  · exact .inr (.inr ⟨_, h, .refl x s⟩)
  · exact .inr (.inr ⟨_, h, (same_drawn s x).trans (same_awaiting _ x)⟩)

theorem same_onFailure (a : Byte) (f : OnFail) (s : State) (x : Part) : x.Same s (onFailure a f s).state := by
  cases f
  case logFail n => exact same_scratch _ s x
  all_goals exact .refl x s

theorem same_write (a : Byte) (v : Source) (f : OnFail) (s : State) (x : Part) :
    x.Same s (perform (.write a v f) s).state := by
  rcases same_transact s x with ⟨b, h⟩ | h | ⟨t, h, ht⟩
  all_goals simp only [perform, memWrite, h, Effect.state]
  · exact (same_drawn s x).trans (same_emit _ _ x)
  · exact ((same_drawn s x).trans (same_emit _ _ x)).trans (same_onFailure a f _ x)
  · exact ht

theorem same_read (a : Byte) (n : Nat) (s : State) (x : Part) : x.Same s (perform (.read a n) s).state := by
  rcases same_transact s x with ⟨b, h⟩ | h | ⟨t, h, ht⟩
  all_goals simp only [perform, memRead, h, Effect.state]
  · exact ((same_drawn s x).trans (same_withDraws _ _ x)).trans ((same_emit _ _ x).trans (same_scratch _ _ x))
  · exact (same_drawn s x).trans (same_emit _ _ x)
  · exact ht

theorem same_gpio {l : Line} {x : Part} (hx : x ≠ l.part) (v : Bool) (s : State) : x.Same s (gpio l v s) := by
  cases l <;> cases x
  case rst.pinRst => exact absurd rfl hx
  case pd.pinPd => exact absurd rfl hx
  all_goals rfl

/-- A statement writes no field but its own. -/
theorem perform_same {m : Micro} {x : Part} (hx : x ∉ m.parts) (s : State) : x.Same s (perform m s).state := by
  cases m
  case require l => simp only [perform]; split <;> exact .refl x s
  case raise e => exact .refl x s
  case log e => exact same_logErr e s x
  case setState d => exact same_setState (List.ne_of_not_mem_cons hx) d s
  case unmute =>
    simp only [perform, Effect.state]
    split
    · exact same_setState (List.ne_of_not_mem_cons hx) _ s
    · exact .refl x s
  case gpio l a => exact same_gpio (List.ne_of_not_mem_cons hx) _ s
  case write a v f => exact same_write a v f s x
  case read a n => exact same_read a n s x
  case loadStage n =>
    simp only [perform, Effect.state]
    rw [stageRead_state]
    exact (same_withDraws _ s x).trans (same_scratch _ _ x)
  case parse => simp only [perform]; split; exacts [same_scratch _ s x, .refl x s]
  case wait d =>
    cases x
    case waitUntil => exact absurd List.mem_cons_self hx
    all_goals rfl
  case saveSnap =>
    cases x
    case snap => exact absurd List.mem_cons_self hx
    all_goals rfl
  case markSnap =>
    cases x
    case snapValid => exact absurd List.mem_cons_self hx
    all_goals rfl
  case setEnabled e =>
    cases x
    case eqEnabled => exact absurd List.mem_cons_self hx
    all_goals rfl
  case setPreset i =>
    cases x
    case eqPreset => exact absurd List.mem_cons_self hx
    all_goals rfl
  case begin => exact same_scratch _ s x
  case ifOk n => exact .refl x s
  case answerBuf => exact same_scratch _ s x
  case answerStatus => exact same_scratch _ s x

/-- A statement with a recovery step (R149) writes `ds`. -/
theorem ds_mem_parts {m : Micro} {s t : State} {d : DeviceState} {e : Err} (h : perform m s = .raised (some d) e t) :
    .ds ∈ m.parts := by
  cases m
  case write a v f =>
    rcases perform_write_cases a v f s with hw | hw | hw | hw
    all_goals rw [hw] at h
    case inr.inl =>
      cases f
      case raiseTo d' => exact List.mem_cons_self
      all_goals cases h
    all_goals cases h
  case read a n =>
    rcases memRead_cases a n s with ⟨b, -, k, hr⟩ | hr | hr | hr
    all_goals simp only [perform, hr] at h; cases h
  case require l => simp only [perform] at h; split at h <;> cases h
  case parse => simp only [perform] at h; split at h <;> cases h
  all_goals cases h

/-- A rule keeps the fields that none of its statements writes, in any run that no block reset cuts short. -/
theorem run_same {x : Part} {ms : List Micro} (hm : ∀ m ∈ ms, x ∉ m.parts) {s : State} (hn : noReset s = true) :
    x.Same s (run ms 0 s) := by
  have c : Carries ms (fun u => noReset u = true ∧ x.Same s u) (x.Same s) :=
    { settled := fun u hu _ => ⟨noReset_settled hu.1, hu.2.trans (same_settled hu.1 x)⟩
      abandoned := fun u hu hc => absurd (calm_of_noReset hu.1) (by simp [hc])
      perform := fun m hmm u hu => ⟨(perform_works m u).noReset hu.1, hu.2.trans (perform_same (hm m hmm) u)⟩
      waiting := fun m hmm u t hu ht => by
        have := perform_same (hm m hmm) u
        rw [ht] at this
        exact hu.2.trans this
      log := fun e u hu => ⟨by simpa using hu.1, hu.2.trans (same_logErr e u x)⟩
      recover := fun m hmm u d e t _ ht v hv _ =>
        ⟨by simpa using hv.1, hv.2.trans (same_setState (fun hx : x = .ds => hm m hmm (hx ▸ ds_mem_parts ht)) d v)⟩
      advance := fun n u hu => ⟨by simpa using hu.1, hu.2.trans (same_advance n u x)⟩
      complete := fun u hu => hu.2.trans (same_complete u x) }
  exact run_carries c 0 s ⟨hn, .refl x s⟩

/-- What every command leaves of the block's own bookkeeping. -/
structure Framed (s t : State) : Prop where
  params : t.params = s.params
  cur : t.cur = s.cur
  count : t.hosts.length = s.hosts.length
  now : s.now ≤ t.now
  trace : ∃ es, t.trace = s.trace ++ es

theorem Kept.framed {s t : State} (k : Kept s t) : Framed s t := ⟨k.params, k.cur, k.count, k.now, k.trace⟩

theorem complete_framed {s u : State} (k : Kept s u) : Framed s (complete u) := by
  obtain ⟨es, ht⟩ := k.trace
  refine ⟨by simpa using k.params, by simpa using k.cur, ?_, by simpa using k.now, ?_⟩
  · rw [← k.count]
    unfold complete
    split
    · rfl
    · exact List.length_modify ..
  · unfold complete
    split
    · exact ⟨es, ht⟩
    · exact ⟨es ++ [_], by rw [emit_trace, ht, List.append_assoc]⟩

theorem run_framed (ms : List Micro) {s : State} (hn : noReset s = true) : Framed s (run ms 0 s) := by
  have c : Carries ms (fun u => noReset u = true ∧ Kept s u) (Framed s) :=
    { settled := fun u hu _ => ⟨noReset_settled hu.1, hu.2.trans (settled_kept hu.1)⟩
      abandoned := fun u hu hc => absurd (calm_of_noReset hu.1) (by simp [hc])
      perform := fun m _ u hu => ⟨(perform_works m u).noReset hu.1, hu.2.trans (perform_works m u).kept⟩
      waiting := fun m _ u t hu ht => by
        have := (perform_works m u).kept
        rw [ht] at this
        exact (hu.2.trans this).framed
      log := fun e u hu => ⟨by simpa using hu.1, hu.2.trans (logErr_works e u).kept⟩
      recover := fun _ _ _ d _ _ _ _ v hv _ => ⟨by simpa using hv.1, hv.2.trans (setState_works d v).kept⟩
      advance := fun n u hu => ⟨by simpa using hu.1, hu.2.trans (advance_works n u).kept⟩
      complete := fun u hu => complete_framed hu.2 }
  exact run_carries c 0 s ⟨hn, .refl s⟩

/-! ### The parts of each command's rule -/

/-- The statements write these fields at most. -/
def Within (ps : List Part) (ms : List Micro) : Prop := ∀ m ∈ ms, m.parts ⊆ ps

theorem within_nil (ps : List Part) : Within ps [] := fun _ h => nomatch h

theorem within_cons {ps : List Part} {m : Micro} {ms : List Micro} :
    Within ps (m :: ms) ↔ m.parts ⊆ ps ∧ Within ps ms := List.forall_mem_cons

theorem within_append {ps : List Part} {as bs : List Micro} :
    Within ps (as ++ bs) ↔ Within ps as ∧ Within ps bs := List.forall_mem_append

theorem within_imageWrites (ps : List Part) (img : List (Byte × Source)) : Within ps (imageWrites img) := by
  induction img with
  | nil => exact within_nil ps
  | cons q rest ih => exact within_cons.2 ⟨List.nil_subset _, ih⟩

/-- A bracket writes no field of the block. -/
theorem within_bracket (ps : List Part) (p : Params) (k : Kind) (img : List (Byte × Source)) :
    Within ps (bracket p k img) := by
  simp [bracket, closingWrite, within_append, within_cons, within_nil, within_imageWrites, Micro.parts]

theorem within_muteGuard (p : Params) : Within [.ds] (muteGuard p) := by
  simp [muteGuard, guardedBrackets, within_append, within_cons, within_nil, within_bracket, Micro.parts]

/-- What the pin sequences may write. -/
def pinParts : List Part := [.ds, .pinRst, .pinPd, .waitUntil]

theorem within_powerDown (ps : List Part) (h : pinParts ⊆ ps) (p : Params) : Within ps (powerDown p) := by
  simp only [pinParts, List.cons_subset] at h
  unfold powerDown
  split <;> simp [within_cons, within_nil, Micro.parts, Line.part, h]

theorem within_powerUp (p : Params) : Within pinParts (powerUp p) := by
  unfold powerUp
  split <;> simp [within_cons, within_nil, Micro.parts, Line.part, pinParts]

theorem within_banks (ps : List Part) (p : Params) (i : Byte) :
    Within ps (drcAtBringup p) ∧ Within ps (eqAtBringup p i) := by
  constructor
  · unfold drcAtBringup; split <;> simp [within_cons, within_nil, within_bracket, Micro.parts]
  · unfold eqAtBringup; split <;> simp [within_cons, within_nil, within_bracket, Micro.parts]

theorem within_initMux (ps : List Part) (p : Params) : Within ps (initMuxOverride p) := by
  unfold initMuxOverride
  split
  · exact within_nil ps
  · split <;> simp [within_cons, within_nil, cw, Micro.parts]

theorem within_ite {ps : List Part} {c : Prop} [Decidable c] {ms : List Micro} (h : Within ps ms) :
    Within ps (if c then ms else []) := by
  split
  · exact h
  · exact within_nil ps

theorem within_bringupBody (p : Params) (i : Byte) : Within pinParts (bringupBody p i) := by
  obtain ⟨hdrc, heq⟩ := within_banks pinParts p i
  simp only [bringupBody, within_append, within_cons, within_nil, within_powerUp, within_initMux, within_ite hdrc,
    within_ite heq, configGroup1, configGroup2, runningEntry, cwReg, cw, Micro.parts]
  simp [pinParts]

/-- The fields a command may write. -/
def Instr.parts : Instr → List Part
  | .bringup | .resume | .shutdown => pinParts
  | .suspend => .snap :: .snapValid :: pinParts
  | .rstPulse => [.ds, .pinRst, .waitUntil]
  | .patchApply _ => [.ds]
  | .setEnabled _ => [.eqEnabled]
  | .selectPreset _ => [.eqPreset]
  | .regRead _ _ | .regWrite _ _ | .status => []

theorem within_require {ps : List Part} {l : List DeviceState} {ms : List Micro} (h : Within ps ms) :
    Within ps (.require l :: ms) := within_cons.2 ⟨List.nil_subset _, h⟩

/-- Each command is the run of a rule that writes its own fields at most. -/
theorem rule_within (i : Instr) (s : State) :
    ∃ rule, exec i s = runRule rule s ∧ Within (Instr.parts i) rule := by
  cases i
  case bringup => exact ⟨_, rfl, within_require (within_bringupBody _ _)⟩
  case resume =>
    refine ⟨_, rfl, within_require (within_append.2 ⟨within_bringupBody _ _, within_ite ?_⟩)⟩
    simp [restoreSnapshot, cw, within_cons, within_nil, Micro.parts]
  case shutdown => exact ⟨_, rfl, within_require (within_powerDown _ (List.Subset.refl _) _)⟩
  case suspend =>
    refine ⟨_, rfl, within_require ?_⟩
    have hdown := within_powerDown (Instr.parts .suspend) (by simp [Instr.parts]) s.params
    split
    · refine within_append.2 ⟨?_, hdown⟩
      simp [takeSnapshot, within_cons, within_nil, Micro.parts, Instr.parts]
    · simp [within_cons, within_nil, Micro.parts]
  case rstPulse =>
    refine ⟨_, rfl, within_require ?_⟩
    unfold resetPulse
    split <;> simp [within_cons, within_nil, Micro.parts, Line.part, Instr.parts]
  case regRead a l =>
    refine ⟨_, rfl, within_require ?_⟩
    split <;> simp [within_cons, within_nil, Micro.parts]
  case regWrite a l =>
    refine ⟨_, rfl, within_require ?_⟩
    split <;> simp [within_cons, within_nil, Micro.parts]
  case setEnabled e =>
    exact ⟨_, rfl, within_require (by simp [within_cons, within_nil, Micro.parts, Instr.parts])⟩
  case selectPreset a =>
    refine ⟨_, rfl, within_require ?_⟩
    split <;> simp [within_append, within_cons, within_nil, within_bracket, Micro.parts, Instr.parts]
  case patchApply l =>
    refine ⟨_, rfl, within_require ?_⟩
    split
    · simp [within_cons, within_nil, Micro.parts]
    · simp [within_cons, within_muteGuard, Micro.parts, Instr.parts]
  case status => exact ⟨_, rfl, by simp [statusRule, within_cons, within_nil, Micro.parts]⟩

theorem exec_framed {i : Instr} {s t : State} (hn : noReset s = true) (ht : exec i s = .next t) : Framed s t := by
  obtain ⟨rule, hrule⟩ := exec_eq_runRule i s
  obtain ⟨-, rfl⟩ := runRule_next (hrule.symm.trans ht)
  exact run_framed _ hn

/-- A command keeps every field that is not its own. -/
theorem exec_same {i : Instr} {s t : State} (hn : noReset s = true) (ht : exec i s = .next t) {x : Part}
    (hx : x ∉ Instr.parts i) : x.Same s t := by
  obtain ⟨rule, hrule, hw⟩ := rule_within i s
  obtain ⟨-, rfl⟩ := runRule_next (hrule.symm.trans ht)
  exact run_same (fun m hm h => hx (hw m (List.mem_of_mem_drop hm) h)) hn

/-- Settles O51: `rule_within` lists the fields each command may write. -/
theorem commandsKeepTheirFrames : Obligations.CommandsKeepTheirFrames := by
  intro i s t hn ht
  have f := exec_framed hn ht
  have keeps : ∀ x, x ∉ Instr.parts i → x.Same s t := fun x hx => exec_same hn ht hx
  refine ⟨f.params, f.cur, f.count, f.now, f.trace, fun hi => keeps .eqEnabled ?_, fun hi => keeps .eqPreset ?_,
    fun hi => ⟨keeps .snap ?_, keeps .snapValid ?_⟩, fun h₁ h₂ h₃ h₄ => ⟨keeps .pinPd ?_, fun h₅ =>
      ⟨keeps .pinRst ?_, keeps .waitUntil ?_, fun h₆ => keeps .ds ?_⟩⟩⟩
  all_goals cases i
  all_goals simp_all [Instr.parts, pinParts]

/-! ### The stage and the other hosts' ports -/

/-- While only time passes: the stage and the ports as in `s`, the lock still `h`'s. -/
structure InPlace (h : Nat) (s u : State) : Prop where
  time : onlyTime u = true
  lock : u.lock = some h
  stage : u.stage = s.stage
  hosts : u.hosts = s.hosts

/-- The stage and the ports, the response of host `h` apart, as in `s`. -/
structure Spares (h : Nat) (s t : State) : Prop where
  stage : t.stage = s.stage
  others : ∀ j, j ≠ h → t.hosts[j]? = s.hosts[j]?
  holder : ∀ p, s.hosts[h]? = some p → ∃ q, t.hosts[h]? = some q ∧ q.pending = p.pending ∧ q.raced = p.raced

theorem InPlace.works {h : Nat} {s u v : State} (i : InPlace h s u) (w : Works u v) : InPlace h s v :=
  ⟨(onlyTime_congr w.world).trans i.time, w.lock.trans i.lock, w.stage.trans i.stage, w.hosts.trans i.hosts⟩

theorem InPlace.settled {h : Nat} {s u : State} (i : InPlace h s u) : InPlace h s (settled u) := by
  have q := settled_ticks i.time
  exact ⟨onlyTime_settled i.time, (settled_lock (noReset_of_onlyTime i.time)).trans i.lock, q.stage.trans i.stage,
    q.hosts.trans i.hosts⟩

theorem InPlace.spares {h : Nat} {s u : State} (i : InPlace h s u) : Spares h s u :=
  ⟨i.stage, fun j _ => by rw [i.hosts], fun p hp => ⟨p, i.hosts ▸ hp, rfl, rfl⟩⟩

/-- Completion writes the response of the lock's holder (R134). -/
theorem InPlace.complete {h : Nat} {s u : State} (i : InPlace h s u) : Spares h s (complete u) := by
  have hhosts : (Machine.complete u).hosts = s.hosts.modify h fun p => { p with resp := some (responseOf u) } := by
    simp only [Machine.complete, i.lock, emit_hosts, i.hosts]
  refine ⟨by simpa using i.stage, fun j hj => ?_, fun p hp => ?_⟩
  · simp [hhosts, Ne.symm hj]
  · exact ⟨{ p with resp := some (responseOf u) }, by simp [hhosts, hp], rfl, rfl⟩

/-- Whatever its rule, a command writes no stage byte and no port but its host's response. -/
theorem runRule_spares {rule : List Micro} {h : Nat} {s t : State} (ho : onlyTime s = true) (hl : s.lock = some h)
    (ht : runRule rule s = .next t) : Spares h s t := by
  obtain ⟨-, rfl⟩ := runRule_next ht
  have c : Carries (rule.drop s.seqPc) (InPlace h s) (Spares h s) :=
    { settled := fun u i _ => i.settled
      abandoned := fun u i hc => absurd (calm_of_noReset (noReset_of_onlyTime i.time)) (by simp [hc])
      perform := fun m _ u i => i.works (perform_works m u)
      waiting := fun m _ u v i hv => by
        have w := perform_works m u
        rw [hv] at w
        exact (i.works w).spares
      log := fun e u i => i.works (logErr_works e u)
      recover := fun _ _ _ d _ _ _ _ v i _ => i.works (setState_works d v)
      advance := fun n u i => i.works (advance_works n u)
      complete := fun _ i => i.complete }
  exact run_carries c 0 s ⟨ho, hl, rfl, rfl⟩

/-- Settles O52: legal or not, a word is the run of one rule. -/
theorem commandsKeepTheStageAndOtherHosts : Obligations.CommandsKeepTheStageAndOtherHosts := by
  intro s t h ho hl hx
  have k : Spares h s t := by
    obtain ⟨i, hi⟩ | ⟨w, hw⟩ := hx
    · obtain ⟨rule, hrule⟩ := exec_eq_runRule i s
      exact runRule_spares ho hl (hrule.symm.trans hi)
    · exact runRule_spares ho hl hw
  exact ⟨fun a => by rw [k.stage], k.others, k.holder⟩

/-! ### The addresses a command writes to -/

/-- The trace has grown since `s`, by writes to addresses of `A` alone and other events. -/
def WritesTo (A : Byte → Prop) (s t : State) : Prop :=
  ∃ es, t.trace = s.trace ++ es ∧ ∀ q ∈ writesOf es, A q.1

section
variable {A : Byte → Prop} {s t u : State}

theorem WritesTo.refl (A : Byte → Prop) (s : State) : WritesTo A s s := ⟨[], by simp, fun _ h => nomatch h⟩

theorem WritesTo.trans (h : WritesTo A s t) (g : WritesTo A t u) : WritesTo A s u := by
  obtain ⟨es, ht, hes⟩ := h
  obtain ⟨fs, hu, hfs⟩ := g
  refine ⟨es ++ fs, by rw [hu, ht, List.append_assoc], fun q hq => ?_⟩
  rw [writesOf, List.filterMap_append] at hq
  exact (List.mem_append.1 hq).elim (hes q) (hfs q)

theorem WritesTo.same (h : t.trace = s.trace) : WritesTo A s t := ⟨[], by simp [h], fun _ h => nomatch h⟩

/-- One more event, which is no write. -/
theorem WritesTo.other {e : Event} (h : t.trace = s.trace ++ [e]) (he : writesOf [e] = []) : WritesTo A s t :=
  ⟨[e], h, fun q hq => by rw [he] at hq; cases hq⟩

theorem WritesTo.wrote {a : Byte} {v : Bytes} {ok : Bool} {τ : Nat} (ha : A a)
    (h : t.trace = s.trace ++ [.xfer .write a v ok τ]) : WritesTo A s t :=
  ⟨_, h, fun q hq => by obtain rfl := List.mem_singleton.1 hq; exact ha⟩

end

theorem applyAct_writesTo (A : Byte → Prop) (a : Act) (s : State) : WritesTo A s (applyAct a s) := by
  by_cases ha : a = .reset
  · subst ha
    exact .other (blockReset_trace s) rfl
  · exact .same (applyAct_passes ha s).trace

theorem agentsAct_writesTo (A : Byte → Prop) (s : State) : WritesTo A s (agentsAct s) :=
  List.foldlRecOn (motive := WritesTo A s) (actsNow s) _ (.same rfl) fun u hu a _ => hu.trans (applyAct_writesTo A a u)

theorem onFailure_trace (a : Byte) (f : OnFail) (s : State) : (onFailure a f s).state.trace = s.trace := by
  cases f <;> rfl

/-- A statement writes to its own address alone. -/
theorem perform_writesTo {A : Byte → Prop} {m : Micro} (hm : ∀ a v f, m = .write a v f → A a) (s : State) :
    WritesTo A s (perform m s).state := by
  cases m
  case write a v f =>
    have ha := hm a v f rfl
    rcases perform_write_cases a v f s with h | h | h | h
    all_goals rw [h]
    · exact .wrote ha rfl
    · exact .wrote ha (onFailure_trace ..)
    · exact .refl A s
    · exact .same rfl
  case read a n =>
    simp only [perform]
    rcases memRead_cases a n s with ⟨b, -, k, h⟩ | h | h | h
    all_goals rw [h]
    · exact .other rfl rfl
    · exact .other rfl rfl
    · exact .refl A s
    · exact .same rfl
  case log e => exact .other rfl rfl
  case setState d => exact .other rfl rfl
  case unmute => simp only [perform, Effect.state]; split; exacts [.other rfl rfl, .refl A s]
  case gpio l a => exact .other (gpio_trace ..) rfl
  case require l => simp only [perform]; split <;> exact .refl A s
  case loadStage n =>
    simp only [perform, Effect.state]
    rw [stageRead_state]
    exact .same rfl
  case parse => simp only [perform]; split; exacts [.same rfl, .refl A s]
  all_goals exact .same rfl

theorem complete_writesTo (A : Byte → Prop) (s : State) : WritesTo A s (complete s) := by
  unfold complete
  split
  · exact .refl A s
  · exact .other rfl rfl

/-- A run writes to the addresses of its rule alone, whatever the Device and the other agents do. -/
theorem run_writesTo {A : Byte → Prop} {ms : List Micro} (hm : ∀ a v f, .write a v f ∈ ms → A a) (s : State) :
    WritesTo A s (run ms 0 s) := by
  have c : Carries ms (WritesTo A s) (WritesTo A s) :=
    { settled := fun u hu hc => hu.trans (.same (by simpa using (settled_spec hc).passes.trace))
      abandoned := fun u hu _ => hu.trans (agentsAct_writesTo A u)
      perform := fun m hmm u hu => hu.trans (perform_writesTo (fun a v f h => hm a v f (h ▸ hmm)) u)
      waiting := fun m hmm u v hu hv => by
        have := perform_writesTo (fun a v f h => hm a v f (h ▸ hmm)) u
        rw [hv] at this
        exact hu.trans this
      log := fun _ _ hu => hu.trans (.other rfl rfl)
      recover := fun _ _ _ _ _ _ _ _ v hv _ => hv.trans (.other rfl rfl)
      advance := fun _ _ hu => hu
      complete := fun u hu => hu.trans (complete_writesTo A u) }
  exact run_carries c 0 s (.refl A s)

/-- The one write of REG_WRITE comes after its check (R110). -/
theorem regWriteRule_unprotected {p : Params} {a b : Byte} {l : Half} {v : Source} {f : OnFail}
    (h : .write b v f ∈ regWriteRule p a l) : isProtected p b = false := by
  simp only [regWriteRule, List.mem_cons, reduceCtorEq, false_or] at h
  split at h
  · simp at h
  next hw =>
    obtain ⟨rfl, -, -⟩ : b = a ∧ v = .buf ∧ f = .raise := by simpa using h
    exact writableOperand_unprotected hw

/-- Settles O29: REG_WRITE has one write, to an address it has checked. -/
theorem regWriteSparesProtectedAddresses : Obligations.RegWriteSparesProtectedAddresses := by
  intro s h a l t g ht
  obtain rfl : run (regWriteRule s.params a l) 0 s = t := Host.Outcome.next.inj ((runRule_granted g _).symm.trans ht)
  obtain ⟨es, htr, hes⟩ := run_writesTo (A := fun b => isProtected s.params b = false)
    (fun b v f hb => regWriteRule_unprotected hb) s
  rw [newEvents, htr, List.drop_left]
  exact hes

end Sys2Proof.Machine

/-! Transactions move whole registers (R51): an observer that knows what a rule has read goes through every rule. -/

namespace Sys2Proof.Machine

/-! ### The observer -/

/-- What a rule has read: nothing, `n` bytes of the stage, or the blocks of a patch. -/
inductive Load where
  | empty
  | text (n : Nat)
  | blocks

/-- What a rule has read is in the command's locals. -/
def Load.Holds (p : Params) : Load → State → Prop
  | .empty, _ => True
  | .text n, s => s.scratch.buf.length = n
  | .blocks, s => ∀ a ∈ patchMarkers, regmap p a = some (blockOf s.scratch.blocks a).length

/-- The bytes of a write to `a` have its register's width (R51). -/
def Source.Fits (p : Params) (a : Byte) (x : Load) : Source → Prop
  | .lit v => regmap p a = some v.length
  | .buf => ∃ n, x = .text n ∧ regmap p a = some n
  | .block b => x = .blocks ∧ b = a ∧ a ∈ patchMarkers
  | .closing k => ∀ e, regmap p a = some (ctrlVal p k e).2.length

/-- A statement moves whole registers and leaves what the rule has read. -/
def Micro.Fits (p : Params) (x : Load) : Micro → Prop
  | .write a v _ => v.Fits p a x
  | .read a n => x = .empty ∧ regmap p a = some n
  | .loadStage _ => False
  | .parse => False
  | _ => True

/-- The observer of the transactions. -/
def fitWatch (p : Params) : Watch Load where
  asks m x on out :=
    match m with
    | .require _ => on 0 x ∧ out x
    | .loadStage n => on 0 (.text n)
    | .parse => on 0 .blocks ∧ out x
    | m => m.Fits p x ∧ (∀ n, on n x) ∧ out x
  ends _ := True

/-- Statements that fit pass, wherever a `goto` leads among them. -/
theorem fitWatch_passes {p : Params} {x : Load} {ms : List Micro} (hm : ∀ m ∈ ms, m.Fits p x) (k : Nat) :
    (fitWatch p).Passes ms k x := by
  induction ms generalizing k with
  | nil => exact trivial
  | cons m rest ih =>
    obtain ⟨hfit, hrest⟩ := List.forall_mem_cons.1 hm
    cases k with
    | succ k => exact ih hrest k
    | zero =>
      cases m
      case loadStage | parse => exact hfit.elim
      case require => exact ⟨ih hrest 0, trivial⟩
      all_goals exact ⟨hfit, ih hrest, trivial⟩

/-! ### What the observer knows stays right -/

/-- The trace has grown since `tr` by events that move whole registers. -/
def Fitting (p : Params) (tr : List Event) (s : State) : Prop :=
  ∃ es, s.trace = tr ++ es ∧ ∀ e ∈ es, e.fits p = true

section
variable {p : Params} {tr : List Event} {x : Load} {s t : State}

theorem fitting_start (p : Params) (s : State) : Fitting p s.trace s := ⟨[], by simp, by simp⟩

theorem Fitting.same (h : Fitting p tr s) (ht : t.trace = s.trace) : Fitting p tr t := by
  obtain ⟨es, hes, hf⟩ := h
  exact ⟨es, ht.trans hes, hf⟩

theorem Fitting.event {e : Event} (h : Fitting p tr s) (ht : t.trace = s.trace ++ [e]) (he : e.fits p = true) :
    Fitting p tr t := by
  obtain ⟨es, hes, hf⟩ := h
  refine ⟨es ++ [e], by rw [ht, hes, List.append_assoc], ?_⟩
  simpa [or_imp, forall_and] using ⟨hf, he⟩

/-- An act of another agent makes at most a Reset event. -/
theorem Fitting.act (a : Act) (h : Fitting p tr s) : Fitting p tr (applyAct a s) := by
  by_cases ha : a = .reset
  · subst ha
    exact h.event (blockReset_trace s) rfl
  · exact h.same (applyAct_passes ha s).trace

theorem Fitting.agentsAct (h : Fitting p tr s) : Fitting p tr (agentsAct s) :=
  List.foldlRecOn (motive := Fitting p tr) (actsNow s) _ (h.same rfl) fun _ hu a _ => hu.act a

/-- The parameters are `p`, the rule has read `x`, and every event since `tr` moves a whole register. -/
structure Measured (p : Params) (tr : List Event) (x : Load) (s : State) : Prop where
  params : s.params = p
  load : x.Holds p s
  fitting : Fitting p tr s

/-- What the rule has read stays where neither buffer nor blocks change. -/
theorem Load.Holds.keep (h : x.Holds p s) (hb : t.scratch.buf = s.scratch.buf)
    (hk : t.scratch.blocks = s.scratch.blocks) : x.Holds p t := by
  cases x with
  | empty => trivial
  | text n => exact (congrArg List.length hb).trans h
  | blocks => exact fun a ha => hk.symm ▸ h a ha

theorem Measured.keep (h : Measured p tr x s) (hp : t.params = s.params) (hc : t.scratch.buf = s.scratch.buf)
    (hk : t.scratch.blocks = s.scratch.blocks) (ht : Fitting p tr t) : Measured p tr x t :=
  ⟨hp.trans h.params, h.load.keep hc hk, ht⟩

theorem Measured.quiet (h : Measured p tr x s) (hp : t.params = s.params) (hc : t.scratch.buf = s.scratch.buf)
    (hk : t.scratch.blocks = s.scratch.blocks) (ht : t.trace = s.trace) : Measured p tr x t :=
  h.keep hp hc hk (h.fitting.same ht)

theorem Measured.logErr (h : Measured p tr x s) (e : Err) : Measured p tr x (logErr e s) :=
  h.keep rfl rfl rfl (h.fitting.event rfl rfl)

theorem Measured.setState (h : Measured p tr x s) (d : DeviceState) : Measured p tr x (setState d s) :=
  h.keep rfl rfl rfl (h.fitting.event rfl rfl)

theorem Measured.settled (h : Measured p tr x s) (hc : calm s = true) : Measured p tr x (settled s) := by
  have q := (settled_spec hc).passes
  exact h.quiet q.params (congrArg Scratch.buf q.scratch) (congrArg Scratch.blocks q.scratch) q.trace

/-- The bytes a fitting write sends have the width of its register. -/
theorem Source.Fits.bytes {a : Byte} {v : Source} (h : v.Fits p a x) (hs : Measured p tr x s) :
    regmap p a = some (v.bytes s).length := by
  cases v with
  | lit v => exact h
  | buf =>
    obtain ⟨n, rfl, hn⟩ := h
    rw [hn]
    exact congrArg some hs.load.symm
  | block b =>
    obtain ⟨rfl, rfl, hb⟩ := h
    exact hs.load b hb
  | closing k =>
    simp only [Source.bytes, closingValue, hs.params]
    exact h _

theorem fits_write {a : Byte} {v : Bytes} (h : regmap p a = some v.length) (ok : Bool) (n : Nat) :
    (Event.xfer .write a v ok n).fits p = true := by
  simp [Event.fits, h]

theorem measured_onFailure {a : Byte} {f : OnFail} {on : Nat → Load → Prop} {out : Load → Prop}
    (h : Measured p tr x s) (hon : ∀ n, on n x) (hout : out x) :
    (onFailure a f s).Within (Measured p tr) (Fitting p tr) on out := by
  have hlog : ∀ e u, Measured p tr x u → Measured p tr x (Machine.logErr e u) := fun e _ hu => hu.logErr e
  cases f with
  | log => exact ⟨x, x, h, hlog _, hon 0⟩
  | logSkip n => exact ⟨x, x, h, hlog _, hon n⟩
  | logFail n => exact ⟨x, x, h.quiet rfl rfl rfl rfl, hlog _, hon n⟩
  | raise => exact ⟨x, x, h, hlog _, hout⟩
  | raiseTo d => exact ⟨x, x, x, h, fun _ hu => hu.setState d, hlog _, hout⟩

theorem measured_write {a : Byte} {v : Source} {f : OnFail} {on : Nat → Load → Prop} {out : Load → Prop}
    (h : Measured p tr x s) (hv : v.Fits p a x) (hon : ∀ n, on n x) (hout : out x) :
    (perform (.write a v f) s).Within (Measured p tr) (Fitting p tr) on out := by
  have sent : ∀ ok, Measured p tr x (emit (.xfer .write a (v.bytes s) ok s.now) (drawn s)) := fun ok =>
    h.keep rfl rfl rfl (h.fitting.event rfl (fits_write (hv.bytes h) ok _))
  rcases perform_write_cases a v f s with hw | hw | hw | hw
  all_goals rw [hw]
  · exact ⟨x, hon 0, sent true⟩
  · exact measured_onFailure (sent false) hon hout
  · exact h.fitting
  · exact h.fitting.same rfl

theorem measured_read {a : Byte} {n : Nat} {on : Nat → Load → Prop} {out : Load → Prop}
    (h : Measured p tr .empty s) (ha : regmap p a = some n) (hon : ∀ n, on n .empty) (hout : out .empty) :
    (perform (.read a n) s).Within (Measured p tr) (Fitting p tr) on out := by
  simp only [perform]
  rcases memRead_cases a n s with ⟨b, hb, k, hr⟩ | hr | hr | hr
  all_goals rw [hr]
  · have hfit : (Event.xfer .read a b true s.now).fits p = true := by simp [Event.fits, ha, hb]
    exact ⟨.empty, hon 0, h.params, trivial, h.fitting.event rfl hfit⟩
  · exact ⟨.empty, .empty, h.keep rfl rfl rfl (h.fitting.event rfl rfl), fun _ hu => hu.logErr _, hout⟩
  · exact h.fitting
  · exact h.fitting.same rfl

theorem blockOf_parsed {text : Bytes} {img : Image} (hi : parsePatch text = .ok img) {a : Byte}
    (ha : a ∈ patchMarkers) : (a, blockOf img a) ∈ img := by
  have hmem : a ∈ img.map Prod.fst := (parsePatch_ok hi).1 ▸ ha
  cases hl : img.lookup a with
  | none =>
    obtain ⟨⟨b, v⟩, hb, rfl⟩ := List.mem_map.1 hmem
    have hne := List.lookup_eq_none_iff.1 hl _ hb
    simp at hne
  | some b =>
    obtain ⟨l₁, l₂, rfl, -⟩ := List.lookup_eq_some_iff.1 hl
    simp [blockOf, hl]

/-- The blocks ParsePatch gives fit their registers (R128). -/
theorem measured_parse {text : Bytes} {img : Image} (h : Measured p tr x s) (hi : parsePatch text = .ok img) :
    Measured p tr .blocks (setBlocks img s) :=
  ⟨h.params, fun _ ha => parsePatch_fits p hi _ (blockOf_parsed hi ha), h.fitting.same rfl⟩

theorem measured_perform (m : Micro) {on : Nat → Load → Prop} {out : Load → Prop} (h : Measured p tr x s)
    (hm : (fitWatch p).asks m x on out) : (perform m s).Within (Measured p tr) (Fitting p tr) on out := by
  have hlog : ∀ e u, Measured p tr x u → Measured p tr x (Machine.logErr e u) := fun e _ hu => hu.logErr e
  cases m
  case loadStage n =>
    refine ⟨.text n, hm, ?_⟩
    rw [stageRead_state]
    exact ⟨h.params, stageRead_length 0 n s, h.fitting.same rfl⟩
  case parse =>
    simp only [perform]
    split
    next img hi => exact ⟨.blocks, hm.1, measured_parse h hi⟩
    · exact ⟨x, x, h, hlog _, hm.2⟩
  case write a v f => exact measured_write h hm.1 hm.2.1 hm.2.2
  case read a n =>
    obtain ⟨⟨rfl, ha⟩, hon, hout⟩ := hm
    exact measured_read h ha hon hout
  case require l =>
    simp only [perform]
    split
    · exact ⟨x, hm.1, h⟩
    · exact ⟨x, x, h, hlog _, hm.2⟩
  all_goals obtain ⟨-, hon, hout⟩ := hm
  case raise e => exact ⟨x, x, h, hlog _, hout⟩
  case log e => exact ⟨x, hon 0, h.logErr e⟩
  case setState d => exact ⟨x, hon 0, h.setState d⟩
  case unmute =>
    refine ⟨x, hon 0, ?_⟩
    split
    · exact h.setState _
    · exact h
  case gpio l a =>
    exact ⟨x, hon 0, h.keep (gpio_params ..) (by rw [gpio_scratch]) (by rw [gpio_scratch])
      (h.fitting.event (gpio_trace ..) rfl)⟩
  case ifOk n => exact ⟨x, hon _, h⟩
  all_goals exact ⟨x, hon 0, h.quiet rfl rfl rfl rfl⟩

theorem Fitting.complete (h : Fitting p tr s) : Fitting p tr (complete s) := by
  unfold Machine.complete
  split
  · exact h
  · exact h.event rfl rfl

theorem fit_sound (p : Params) (tr : List Event) : (fitWatch p).Sound (Measured p tr) (Fitting p tr) where
  settled _ _ h hc := h.settled hc
  abandoned _ _ h _ := h.fitting.agentsAct
  advance _ _ _ h := h.quiet rfl rfl rfl rfl
  complete _ _ _ h := h.fitting.complete
  perform m _ _ _ _ h hm := measured_perform m h hm

end

/-! ### The rules -/

/-- What R14 says of the values of R11. -/
structure ValuesFit (p : Params) : Prop where
  values : ∀ e ∈ p.regs.entries, regmap p e.addr = some e.val.length
  inputMux : regmap p p.regs.inputMux.addr = some 4
  volume : ∀ k (hk : k < 4), regmap p p.regs.vol[k].addr = some 1

theorem valuesFit_of_admitted {p : Params} (h : p.admitted = true) : ValuesFit p := by
  simp only [Params.admitted, Bool.and_eq_true, Params.valuesFit, Params.inputMuxIsFour, Params.volumesAreOne,
    List.all_eq_true, beq_iff_eq] at h
  obtain ⟨⟨⟨⟨⟨⟨⟨⟨-, hval⟩, hmux⟩, hvol⟩, -⟩, -⟩, -⟩, -⟩, -⟩ := h
  exact ⟨hval, hmux, fun k hk => hvol _ (by simp)⟩

section
variable {p : Params} (v : ValuesFit p)
include v

theorem ValuesFit.vol (k : Nat) (hk : k < 4) : regmap p p.regs.vol[k].addr = some p.regs.vol[k].val.length :=
  v.values _ (by simp [ControlRegs.entries])

theorem ValuesFit.softMute :
    regmap p p.regs.softMute.addr = some p.regs.softMute.on.length ∧
    regmap p p.regs.softMute.addr = some p.regs.softMute.off.length :=
  ⟨v.values ⟨p.regs.softMute.addr, p.regs.softMute.on⟩ (by simp [ControlRegs.entries]),
    v.values ⟨p.regs.softMute.addr, p.regs.softMute.off⟩ (by simp [ControlRegs.entries])⟩

theorem ValuesFit.switch (k : Kind) (e : Bool) : regmap p (switchOf p k).addr = some (ctrlVal p k e).2.length :=
  v.values ⟨(switchOf p k).addr, (ctrlVal p k e).2⟩
    (by cases k <;> cases e <;> simp [ControlRegs.entries, ctrlVal, switchOf])

/-- The control registers of R11 that have one value, volumes apart. -/
theorem ValuesFit.registers :
    ∀ r ∈ [p.regs.oscTrim, p.regs.clockCtrl, p.regs.serialFmt, p.regs.sysCtrl, p.regs.errCtrl, p.regs.inputMux,
      p.regs.chSrc, p.regs.pwmMux, p.regs.volCfg, p.regs.startStop, p.regs.sdGroup, p.regs.modLimit, p.regs.exitSd,
      p.regs.stop], regmap p r.addr = some r.val.length :=
  fun r hr => v.values r (List.mem_append_left _ (List.mem_append_left _ hr))

omit v in
theorem fits_imageWrites {x : Load} {img : List (Byte × Source)} (hi : ∀ q ∈ img, q.2.Fits p q.1 x) :
    ∀ m ∈ imageWrites img, m.Fits p x := by
  induction img with
  | nil => exact fun _ h => nomatch h
  | cons q rest ih =>
    obtain ⟨hq, hr⟩ := List.forall_mem_cons.1 hi
    exact List.forall_mem_cons.2 ⟨hq, ih hr⟩

theorem fits_bracket {x : Load} (k : Kind) {img : List (Byte × Source)} (hi : ∀ q ∈ img, q.2.Fits p q.1 x) :
    ∀ m ∈ bracket p k img, m.Fits p x := by
  have hoff : (Source.lit (ctrlVal p k false).2).Fits p (ctrlVal p k false).1 x := v.switch k false
  have hclose : (closingWrite p k).Fits p x := fun e => v.switch k e
  simp only [bracket, List.forall_mem_append, List.forall_mem_cons]
  exact ⟨⟨⟨trivial, hoff, nofun⟩, fits_imageWrites hi⟩, hclose, nofun⟩

omit v in
theorem fits_litImage {x : Load} {img : Image} (hi : ∀ q ∈ img, regmap p q.1 = some q.2.length) :
    ∀ q ∈ litImage img, q.2.Fits p q.1 x := by
  intro q hq
  obtain ⟨r, hr, rfl⟩ := List.mem_map.1 hq
  exact hi r hr

omit v in
theorem fits_patchImage (k : Kind) : ∀ q ∈ patchImage k, q.2.Fits p q.1 .blocks := by
  intro q hq
  obtain ⟨a, ha, rfl⟩ := List.mem_map.1 hq
  refine ⟨rfl, rfl, ?_⟩
  revert a
  cases k <;> decide

theorem fits_muteGuard : ∀ m ∈ muteGuard p, m.Fits p .blocks := by
  obtain ⟨hon, hoff⟩ := v.softMute
  simp only [muteGuard, guardedBrackets, List.forall_mem_append, List.forall_mem_cons]
  exact ⟨⟨⟨hon, trivial, nofun⟩, ⟨fits_bracket v .drc (fits_patchImage .drc), trivial, nofun⟩,
    fits_bracket v .eq (fits_patchImage .eq)⟩, hoff, trivial, nofun⟩

theorem fits_powerDown : ∀ m ∈ powerDown p, m.Fits p .empty := by
  have hstop : regmap p p.regs.stop.addr = some p.regs.stop.val.length := v.registers _ (by simp)
  unfold powerDown
  split <;> simp [Micro.Fits, Source.Fits, hstop]

theorem fits_takeSnapshot : ∀ m ∈ takeSnapshot p, m.Fits p .empty := by
  simp [takeSnapshot, Micro.Fits, v.volume]

omit v in
theorem fits_powerUp : ∀ m ∈ powerUp p, m.Fits p .empty := by
  unfold powerUp
  split <;> simp [Micro.Fits]

omit v in
theorem platformDrc_fits {img : Image} (h : platformDrc p = some img) :
    ∀ q ∈ img, regmap p q.1 = some q.2.length := by
  unfold platformDrc at h
  split at h
  · exact loadDrc_fits p h
  · cases h

omit v in
theorem platformEq_fits {i : Byte} {img : Image} (h : platformEq p i = some img) :
    ∀ q ∈ img, regmap p q.1 = some q.2.length := by
  unfold platformEq at h
  split at h
  · cases h
  · exact loadEq_fits p h

theorem fits_bankRules (i : Byte) : ∀ m ∈ bankRules p i, m.Fits p .empty := by
  have hdrc : ∀ m ∈ drcAtBringup p, m.Fits p .empty := by
    unfold drcAtBringup
    split
    · simp [Micro.Fits]
    next hd => exact fits_bracket v .drc (fits_litImage (platformDrc_fits hd))
  have heq : ∀ m ∈ eqAtBringup p i, m.Fits p .empty := by
    unfold eqAtBringup
    split
    · simp [Micro.Fits]
    next hd => exact fits_bracket v .eq (fits_litImage (platformEq_fits hd))
  simp only [bankRules, List.forall_mem_append]
  constructor
  · split
    · exact hdrc
    · exact nofun
  · split
    · exact heq
    · exact nofun

theorem fits_groups : (∀ m ∈ configGroup1 p, m.Fits p .empty) ∧ ∀ m ∈ configGroup2 p, m.Fits p .empty := by
  have hreg := v.registers
  simp only [List.forall_mem_cons] at hreg
  simp [configGroup1, configGroup2, cwReg, cw, Micro.Fits, Source.Fits, hreg]

theorem fits_initMux : ∀ m ∈ initMuxOverride p, m.Fits p .empty := by
  unfold initMuxOverride
  split
  · exact nofun
  · split
    next hl => simp [cw, Micro.Fits, Source.Fits, v.inputMux, hl]
    · simp [Micro.Fits]

theorem fits_runningEntry : ∀ m ∈ runningEntry p, m.Fits p .empty := by
  have hmaster : regmap p p.regs.vol[0].addr = some (masterVolume p).length := by
    unfold masterVolume
    split
    · exact v.volume 0 (by omega)
    · exact v.vol 0 (by omega)
  simp [runningEntry, cwReg, cw, Micro.Fits, Source.Fits, hmaster, v.vol, v.softMute.2]

theorem fits_restore (snap : Vector Byte 4) : ∀ m ∈ restoreSnapshot p snap, m.Fits p .empty := by
  simp [restoreSnapshot, cw, Micro.Fits, Source.Fits, v.volume]

theorem fits_bringupBody (i : Byte) : ∀ m ∈ bringupBody p i, m.Fits p .empty := by
  have hbanks := fits_bankRules v i
  simp only [bankRules, List.forall_mem_append] at hbanks
  simp only [bringupBody, List.forall_mem_append, List.forall_mem_cons]
  obtain ⟨hg1, hg2⟩ := fits_groups v
  exact ⟨⟨⟨⟨⟨⟨⟨⟨⟨⟨trivial, nofun⟩, fits_powerUp⟩, trivial, nofun⟩, hg1⟩, hbanks.1⟩, hbanks.2⟩, fits_initMux v⟩, hg2⟩,
    trivial, nofun⟩, fits_runningEntry v⟩

end

theorem registerOperand_width {p : Params} {a : Byte} {l : Half} {w : Nat} (h : registerOperand p a l = .ok w) :
    regmap p a = some w := by
  unfold registerOperand at h
  split at h
  · cases h
  · split at h
    · cases h; assumption
    · cases h

theorem writableOperand_width {p : Params} {a : Byte} {l : Half} {w : Nat} (h : writableOperand p a l = .ok w) :
    regmap p a = some w := by
  unfold writableOperand at h
  split at h
  · cases h
  next hw =>
    split at h
    · cases h
    · cases h; exact registerOperand_width hw

theorem fits_preset {p : Params} {a : Byte} {blob : Bytes} (h : presetOperand p a = .ok blob) :
    ∀ q ∈ (loadEq blob).getD [], regmap p q.1 = some q.2.length := by
  have hload := loadEq_some (presetOperand_ok h)
  rw [hload]
  exact loadEq_fits p hload

/-- Every command's rule moves whole registers. -/
theorem fit_rule (i : Instr) (s : State) (v : ValuesFit s.params) :
    ∃ rule, exec i s = runRule rule s ∧ (fitWatch s.params).Passes rule 0 .empty := by
  cases i
  case bringup => exact ⟨_, rfl, fitWatch_passes (fits_bringupBody v _) 0, trivial⟩
  case resume =>
    refine ⟨_, rfl, fitWatch_passes (List.forall_mem_append.2 ⟨fits_bringupBody v _, ?_⟩) 0, trivial⟩
    split
    · exact fits_restore v _
    · exact nofun
  case shutdown => exact ⟨_, rfl, fitWatch_passes (fits_powerDown v) 0, trivial⟩
  case rstPulse =>
    refine ⟨_, rfl, fitWatch_passes ?_ 0, trivial⟩
    unfold resetPulse
    split <;> simp [Micro.Fits]
  case suspend =>
    refine ⟨_, rfl, fitWatch_passes ?_ 0, trivial⟩
    split
    · exact List.forall_mem_append.2 ⟨fits_takeSnapshot v, fits_powerDown v⟩
    · simp [Micro.Fits]
  case regRead a l =>
    refine ⟨_, rfl, fitWatch_passes ?_ 0, trivial⟩
    split
    · simp [Micro.Fits]
    next hw => simp [Micro.Fits, registerOperand_width hw]
  case regWrite a l =>
    refine ⟨_, rfl, ?_, trivial⟩
    split
    · exact fitWatch_passes (by simp [Micro.Fits]) 0
    next w hw =>
      have hwrite : ∀ m ∈ [Micro.write a .buf .raise], m.Fits s.params (.text w) := by
        simp [Micro.Fits, Source.Fits, writableOperand_width hw]
      exact fitWatch_passes hwrite 0
  case setEnabled e =>
    refine ⟨_, rfl, fitWatch_passes ?_ 0, trivial⟩
    simp only [List.forall_mem_cons]
    exact ⟨v.switch .eq e, v.switch .drc e, trivial, nofun⟩
  case selectPreset a =>
    refine ⟨_, rfl, fitWatch_passes ?_ 0, trivial⟩
    split
    · simp [Micro.Fits]
    next hb =>
      have hbracket := fits_bracket v (x := .empty) .eq (fits_litImage (fits_preset hb))
      exact List.forall_mem_append.2 ⟨hbracket, by simp [Micro.Fits]⟩
  case patchApply l =>
    refine ⟨_, rfl, ?_, trivial⟩
    split
    · exact fitWatch_passes (by simp [Micro.Fits]) 0
    · exact ⟨fitWatch_passes (fits_muteGuard v) 0, trivial⟩
  case status => exact ⟨_, rfl, fitWatch_passes (by simp [statusRule, Micro.Fits]) 0⟩

/-! ### The step -/

theorem execWord_fitting {w : Word32} {s t : State} (v : ValuesFit s.params) (hpc : s.seqPc = 0)
    {tr : List Event} (h : Measured s.params tr .empty s) (ht : execWord w s = .next t) : Fitting s.params tr t := by
  have hrule : ∃ rule, execWord w s = runRule rule s ∧ (fitWatch s.params).Passes rule 0 .empty := by
    unfold execWord
    split
    · exact fit_rule _ s v
    · exact ⟨_, rfl, fitWatch_passes (by simp [illegalRule, Micro.Fits]) 0⟩
  obtain ⟨rule, hx, hp⟩ := hrule
  obtain ⟨-, rfl⟩ := runRule_next (hx.symm.trans ht)
  rw [hpc, List.drop_zero]
  exact run_watched (fit_sound s.params tr) hp h

theorem agentsAct_params (s : State) : (agentsAct s).params = s.params :=
  List.foldlRecOn (motive := fun u : State => u.params = s.params) (actsNow s) _ rfl fun u hu a _ => by
    by_cases ha : a = .reset
    · subst ha; exact hu
    · exact (applyAct_passes ha u).params.trans hu

/-- Settles O31: the observer passes every rule of admitted parameters (`fit_rule`). -/
theorem transactionsMoveWholeRegisters : Obligations.TransactionsMoveWholeRegisters := by
  intro s t hadm hl ht
  have hfit : Fitting s.params s.trace t := by
    have ha := (fitting_start s.params s).agentsAct
    obtain ⟨g, hg, -⟩ | ⟨-, rfl⟩ | ⟨g, w, -, -, hx⟩ := step_next ht
    · exact absurd (hg.symm.trans hl) nofun
    · exact ha
    · have hp : (grant g w (settled s)).params = s.params := agentsAct_params s
      have hgrant : Fitting s.params s.trace (grant g w (settled s)) :=
        (ha.same (t := settled s) rfl).event (grant_trace ..) rfl
      have v := valuesFit_of_admitted hadm
      rw [← hp] at v hgrant ⊢
      exact execWord_fitting v rfl ⟨rfl, trivial, hgrant⟩ hx
  obtain ⟨es, htr, hes⟩ := hfit
  rw [newEvents, htr, List.drop_left]
  exact hes

end Sys2Proof.Machine

/-! The mute guard (R136): every coefficient write of a PATCH_APPLY lies between its SOFT_MUTE_ON and its SOFT_MUTE_OFF
write. -/

namespace Sys2Proof.Machine

/-! ### An automaton that reads the guard off the trace -/

/-- Where a trace stands with respect to the mute: not muted yet, muted, or with a coefficient written since the mute
was last released. -/
inductive Mute where
  | before
  | muted
  | dirty

/-- A write; `none` is a coefficient written before the mute. -/
def Mute.write (m : SwitchReg) (a : Byte) (v : Bytes) (ok : Bool) : Mute → Option Mute
  | .before =>
    if isCoefficient a then none else if a = m.addr ∧ v = m.on ∧ ok = true then some .muted else some .before
  | .muted => if isCoefficient a then some .dirty else some .muted
  | .dirty => if isCoefficient a then some .dirty else if a = m.addr ∧ v = m.off then some .muted else some .dirty

/-- One event. -/
def muteStep (m : SwitchReg) (q : Option Mute) (e : Event) : Option Mute :=
  match q, e with
  | some q, .xfer .write a v ok _ => q.write m a v ok
  | q, _ => q

section
variable {m : SwitchReg}

theorem foldl_muteStep_none (es : List Event) : es.foldl (muteStep m) none = none := by
  induction es with
  | nil => rfl
  | cons e es ih => exact ih

/-- From before the mute only the mute itself leads on. -/
theorem muteStep_before (e : Event) :
    muteStep m (some .before) e = some .before ∨ muteStep m (some .before) e = none ∨
    (muteStep m (some .before) e = some .muted ∧ ∃ τ, e = .xfer .write m.addr m.on true τ) := by
  cases e
  case xfer d a v ok τ =>
    cases d
    case read => exact .inl rfl
    case write =>
      simp only [muteStep, Mute.write]
      split
      · exact .inr (.inl rfl)
      · split
        next h =>
          obtain ⟨rfl, rfl, rfl⟩ := h
          exact .inr (.inr ⟨rfl, τ, rfl⟩)
        · exact .inl rfl
  all_goals exact .inl rfl

/-- From a written bank only the release leads on. -/
theorem muteStep_dirty (e : Event) :
    muteStep m (some .dirty) e = some .dirty ∨
    (muteStep m (some .dirty) e = some .muted ∧ ∃ ok τ, e = .xfer .write m.addr m.off ok τ) := by
  cases e
  case xfer d a v ok τ =>
    cases d
    case read => exact .inl rfl
    case write =>
      simp only [muteStep, Mute.write]
      split
      · exact .inl rfl
      · split
        next h =>
          obtain ⟨rfl, rfl⟩ := h
          exact .inr ⟨rfl, ok, τ, rfl⟩
        · exact .inl rfl
  all_goals exact .inl rfl

theorem mute_on_mem {es : List Event} {q : Mute} (h : es.foldl (muteStep m) (some .before) = some q) (hq : q ≠ .before) :
    ∃ τ, .xfer .write m.addr m.on true τ ∈ es := by
  induction es with
  | nil => cases h; exact absurd rfl hq
  | cons e es ih =>
    rw [List.foldl_cons] at h
    obtain he | he | ⟨-, τ, rfl⟩ := muteStep_before (m := m) e
    · rw [he] at h
      obtain ⟨τ, hτ⟩ := ih h
      exact ⟨τ, List.mem_cons_of_mem _ hτ⟩
    · rw [he, foldl_muteStep_none] at h
      cases h
    · exact ⟨τ, List.mem_cons_self⟩

theorem mute_off_mem {es : List Event} {q : Mute} (h : es.foldl (muteStep m) (some .dirty) = some q) (hq : q ≠ .dirty) :
    ∃ ok τ, .xfer .write m.addr m.off ok τ ∈ es := by
  induction es with
  | nil => cases h; exact absurd rfl hq
  | cons e es ih =>
    rw [List.foldl_cons] at h
    obtain he | ⟨-, ok, τ, rfl⟩ := muteStep_dirty (m := m) e
    · rw [he] at h
      obtain ⟨ok, τ, hτ⟩ := ih h
      exact ⟨ok, τ, List.mem_cons_of_mem _ hτ⟩
    · exact ⟨ok, τ, List.mem_cons_self⟩

/-- A trace that the automaton accepts has every coefficient write under the mute guard. -/
theorem mute_guarded {pre post : List Event} {a : Byte} {v : Bytes} {ok : Bool} {τ : Nat} {q : Mute}
    (h : (pre ++ .xfer .write a v ok τ :: post).foldl (muteStep m) (some .before) = some q) (hq : q ≠ .dirty)
    (ha : isCoefficient a = true) :
    (∃ τ₁, .xfer .write m.addr m.on true τ₁ ∈ pre) ∧ ∃ ok₂ τ₂, .xfer .write m.addr m.off ok₂ τ₂ ∈ post := by
  rw [List.foldl_append, List.foldl_cons] at h
  cases hp : pre.foldl (muteStep m) (some .before) with
  | none =>
    rw [hp] at h
    exact absurd (h.symm.trans (foldl_muteStep_none post)) nofun
  | some p =>
    rw [hp] at h
    have hne : p ≠ .before := by
      rintro rfl
      rw [show muteStep m (some .before) (.xfer .write a v ok τ) = none by simp only [muteStep, Mute.write, if_pos ha]] at h
      exact absurd (h.symm.trans (foldl_muteStep_none post)) nofun
    have hd : muteStep m (some p) (.xfer .write a v ok τ) = some .dirty := by
      cases p
      case before => exact absurd rfl hne
      all_goals simp only [muteStep, Mute.write, if_pos ha]
    rw [hd] at h
    exact ⟨mute_on_mem hp hne, mute_off_mem h hq⟩

end

/-! ### The observer -/

/-- What the observer knows: the chip is not muted yet, may be written, or no coefficient waits for the release. -/
inductive Cover where
  | before
  | under
  | released

def Cover.Holds : Cover → Mute → Prop
  | .before, q => q = .before
  | .under, q => q ≠ .before
  | .released, q => q ≠ .dirty

/-- What a write asks: it is the mute, lies under it, or releases it. -/
def coverWrite (m : SwitchReg) (b : Byte) (v : Source) (ok bad : Cover → Prop) (x : Cover) : Prop :=
  (x = .before ∧ b = m.addr ∧ v = .lit m.on ∧ ok .under ∧ bad .before) ∨
  (x = .under ∧ ok .under ∧ bad .under) ∨
  (b = m.addr ∧ v = .lit m.off ∧ ok .released ∧ bad .released)

/-- The observer of the mute guard. -/
def coverWatch (m : SwitchReg) : Watch Cover where
  asks i x on out :=
    match i with
    | .require _ => on 0 x ∧ out x
    | .raise _ => out x
    | .write b v f => coverWrite m b v (on 0) (f.next on out) x
    | .read _ _ => False
    | .parse => on 0 x ∧ out x
    | .ifOk n => on 0 x ∧ on n x
    | _ => on 0 x
  ends x := x ≠ .under

section
variable {m : SwitchReg} {tr : List Event} {x : Cover} {s t : State}

/-- The run is not disturbed, and the events since `tr` are where the observer knows. -/
structure Covered (m : SwitchReg) (tr : List Event) (x : Cover) (s : State) : Prop where
  noReset : noReset s = true
  answers : answers s = true
  reads : ∃ q, x.Holds q ∧ Reads (muteStep m) tr (some .before) (some q) s

/-- The events since `tr` leave no coefficient without its release. -/
def Released (m : SwitchReg) (tr : List Event) (s : State) : Prop :=
  ∃ q, q ≠ .dirty ∧ Reads (muteStep m) tr (some .before) (some q) s

theorem muteStep_other (q : Mute) {e : Event} (he : e.isWrite = false) : muteStep m (some q) e = some q := by
  cases e
  case xfer d a v ok τ =>
    cases d
    case read => rfl
    case write => cases he
  all_goals rfl

theorem Covered.same (h : Covered m tr x s) (hw : Machine.noReset t = true) (ha : Machine.answers t = true)
    (ht : t.trace = s.trace) : Covered m tr x t := by
  obtain ⟨q, hq, hr⟩ := h.reads
  exact ⟨hw, ha, q, hq, hr.same ht⟩

theorem Covered.other {e : Event} (h : Covered m tr x s) (he : e.isWrite = false)
    (hw : Machine.noReset t = true) (ha : Machine.answers t = true) (ht : t.trace = s.trace ++ [e]) :
    Covered m tr x t := by
  obtain ⟨q, hq, hr⟩ := h.reads
  exact ⟨hw, ha, q, hq, muteStep_other (m := m) q he ▸ hr.event ht⟩

theorem Covered.logErr (h : Covered m tr x s) (e : Err) : Covered m tr x (logErr e s) :=
  h.other (e := .log e s.now) rfl (by simpa using h.noReset) h.answers rfl

theorem Covered.setState (h : Covered m tr x s) (d : DeviceState) : Covered m tr x (setState d s) :=
  h.other (e := .state d s.now) rfl (by simpa using h.noReset) h.answers rfl

theorem Covered.xfer {y : Cover} {a : Byte} {v : Bytes} {ok : Bool} (h : Covered m tr x s)
    (he : ∀ q, x.Holds q → ∃ q', muteStep m (some q) (.xfer .write a v ok s.now) = some q' ∧ y.Holds q') :
    Covered m tr y (emit (.xfer .write a v ok s.now) (drawn s)) := by
  obtain ⟨q, hq, hr⟩ := h.reads
  obtain ⟨q', hstep, hq'⟩ := he q hq
  exact ⟨by simpa using h.noReset, (transact_answers h.answers).1, q', hq', hstep ▸ hr.event rfl⟩

/-- A write that is no mute, no release: it stays under the mute. -/
theorem muteStep_under {q : Mute} (hq : q ≠ .before) (a : Byte) (v : Bytes) (ok : Bool) (τ : Nat) :
    ∃ q', muteStep m (some q) (.xfer .write a v ok τ) = some q' ∧ q' ≠ .before := by
  cases q
  case before => exact absurd rfl hq
  all_goals
    simp only [muteStep, Mute.write]
    repeat' split
    all_goals exact ⟨_, rfl, nofun⟩

theorem muteStep_release (hm : isCoefficient m.addr = false) (q : Mute) (ok : Bool) (τ : Nat) :
    ∃ q', muteStep m (some q) (.xfer .write m.addr m.off ok τ) = some q' ∧ q' ≠ .dirty := by
  cases q
  all_goals simp only [muteStep, Mute.write, hm, Bool.false_eq_true, if_false, and_self, if_true]
  case before => split <;> exact ⟨_, rfl, nofun⟩
  all_goals exact ⟨_, rfl, nofun⟩

theorem muteStep_mute (hm : isCoefficient m.addr = false) (τ : Nat) :
    muteStep m (some .before) (.xfer .write m.addr m.on true τ) = some .muted ∧
    muteStep m (some .before) (.xfer .write m.addr m.on false τ) = some .before := by
  simp [muteStep, Mute.write, hm]

/-- A write the observer allows does to the guard what it was told. -/
theorem Covered.write (hm : isCoefficient m.addr = false) {a : Byte} {v : Source} {ok bad : Cover → Prop}
    (h : Covered m tr x s) (hw : coverWrite m a v ok bad x) :
    (∃ y, ok y ∧ Covered m tr y (emit (.xfer .write a (v.bytes s) true s.now) (drawn s))) ∧
    ∃ y, bad y ∧ Covered m tr y (emit (.xfer .write a (v.bytes s) false s.now) (drawn s)) := by
  obtain ⟨rfl, rfl, rfl, hok, hbad⟩ | ⟨rfl, hok, hbad⟩ | ⟨rfl, rfl, hok, hbad⟩ := hw
  · obtain ⟨hmute, hfail⟩ := muteStep_mute hm s.now
    refine ⟨⟨.under, hok, h.xfer ?_⟩, .before, hbad, h.xfer ?_⟩
    · rintro q rfl
      exact ⟨.muted, hmute, nofun⟩
    · rintro q rfl
      exact ⟨.before, hfail, rfl⟩
  · exact ⟨⟨.under, hok, h.xfer fun _ hq => muteStep_under hq ..⟩, .under, hbad, h.xfer fun _ hq => muteStep_under hq ..⟩
  · exact ⟨⟨.released, hok, h.xfer fun q _ => muteStep_release hm q ..⟩, .released, hbad,
      h.xfer fun q _ => muteStep_release hm q ..⟩

theorem Covered.onFailure (h : Covered m tr x s) (a : Byte) (f : OnFail) {on : Nat → Cover → Prop} {out : Cover → Prop}
    (hf : f.next on out x) : (onFailure a f s).Within (Covered m tr) (Released m tr) on out := by
  have hlog : ∀ e u, Covered m tr x u → Covered m tr x (Machine.logErr e u) := fun e _ hu => hu.logErr e
  cases f with
  | log => exact ⟨x, x, h, hlog _, hf⟩
  | logSkip n => exact ⟨x, x, h, hlog _, hf⟩
  | logFail n => exact ⟨x, x, h.same (by simpa using h.noReset) h.answers rfl, hlog _, hf⟩
  | raise => exact ⟨x, x, h, hlog _, hf⟩
  | raiseTo d => exact ⟨x, x, x, h, fun _ hu => hu.setState d, hlog _, hf⟩

theorem covered_perform (hm : isCoefficient m.addr = false) (i : Micro) {on : Nat → Cover → Prop} {out : Cover → Prop}
    (h : Covered m tr x s) (hi : (coverWatch m).asks i x on out) :
    (perform i s).Within (Covered m tr) (Released m tr) on out := by
  have hlog : ∀ e u, Covered m tr x u → Covered m tr x (Machine.logErr e u) := fun e _ hu => hu.logErr e
  have hkeep := (perform_works i s).noReset h.noReset
  have hquiet : i.unseen = true → on 0 x → (perform i s).Within (Covered m tr) (Released m tr) on out := by
    intro hu hon
    obtain ⟨t, ht, ut⟩ := perform_unseen hu s
    rw [ht] at hkeep ⊢
    exact ⟨x, hon, h.same hkeep (ut.answers.trans h.answers) ut.trace⟩
  cases i
  case require l =>
    simp only [perform]
    split
    · exact ⟨x, hi.1, h⟩
    · exact ⟨x, x, h, hlog _, hi.2⟩
  case raise e => exact ⟨x, x, h, hlog _, hi⟩
  case log e => exact ⟨x, hi, h.logErr e⟩
  case setState d => exact ⟨x, hi, h.setState d⟩
  case unmute =>
    refine ⟨x, hi, ?_⟩
    split
    · exact h.setState _
    · exact h
  case gpio l a =>
    refine ⟨x, hi, h.other (e := .pin l _ s.now) rfl hkeep ?_ (gpio_trace s l _)⟩
    simpa only [answers, gpio_scratch, gpio_env] using h.answers
  case write a v f =>
    obtain ⟨⟨y, hy, hok⟩, z, hz, hbad⟩ := h.write hm hi
    simp only [perform, memWrite]
    obtain ⟨-, ⟨b, ht⟩ | ht⟩ := transact_answers h.answers
    · rw [ht]
      exact ⟨y, hy, hok⟩
    · rw [ht]
      exact hbad.onFailure a f hz
  case read => exact hi.elim
  case parse =>
    simp only [perform]
    split
    · exact ⟨x, hi.1, h.same (by simpa using h.noReset) h.answers rfl⟩
    · exact ⟨x, x, h, hlog _, hi.2⟩
  case ifOk n =>
    refine ⟨x, ?_, h⟩
    split
    · exact hi.1
    · exact hi.2
  all_goals exact hquiet rfl hi

theorem Covered.complete (h : Covered m tr x s) (hx : x ≠ .under) : Released m tr (complete s) := by
  obtain ⟨q, hq, hr⟩ := h.reads
  have hne : q ≠ .dirty := by
    cases x
    case before => rintro rfl; cases hq
    case under => exact absurd rfl hx
    case released => exact hq
  refine ⟨q, hne, ?_⟩
  unfold Machine.complete
  split
  · exact hr
  · exact muteStep_other (m := m) q (e := .resp ..) rfl ▸ hr.event rfl

theorem cover_sound (hm : isCoefficient m.addr = false) (tr : List Event) :
    (coverWatch m).Sound (Covered m tr) (Released m tr) where
  settled _ _ h _ := h.same (noReset_settled h.noReset) ((settled_answers h.noReset).trans h.answers)
    (settled_trace h.noReset)
  abandoned _ _ h hc := absurd (calm_of_noReset h.noReset) (by simp [hc])
  advance _ _ _ h := h.same (by simpa using h.noReset) h.answers rfl
  complete _ _ he h := h.complete he
  perform i _ _ _ _ h hi := covered_perform hm i h hi

end

/-! ### The rule -/

section
variable {p : Params}

theorem cover_imageWrites (m : SwitchReg) (img : List (Byte × Source)) :
    (coverWatch m).Leads (imageWrites img) .under .under := by
  induction img with
  | nil => exact Watch.leads_nil _
  | cons q img ih =>
    exact fun rest h => .inr (.inl ⟨rfl, ih rest h, imageWrites_length img ▸ Watch.passes_append_length h⟩)

/-- A bracket stays under the mute. -/
theorem cover_bracket (m : SwitchReg) (k : Kind) (img : List (Byte × Source)) :
    (coverWatch m).Leads (bracket p k img) .under .under := by
  intro rest h
  have hclose : (coverWatch m).Passes (closingWrite p k :: rest) 0 .under := .inr (.inl ⟨rfl, h, h⟩)
  simp only [bracket, List.append_assoc, List.cons_append, List.nil_append]
  exact .inr (.inl ⟨rfl, cover_imageWrites m img _ hclose, imageWrites_length img ▸ Watch.passes_append_length hclose⟩)

theorem cover_guardedBrackets (m : SwitchReg) : (coverWatch m).Leads (guardedBrackets p) .under .under := by
  refine (cover_bracket m .drc _).append (bs := .ifOk _ :: bracket p .eq _) fun rest h => ?_
  exact ⟨cover_bracket m .eq _ rest h, Watch.passes_append_length h⟩

/-- The release write comes whether the mute write succeeded or not. -/
theorem cover_muteGuard : (coverWatch p.regs.softMute).Passes (muteGuard p) 0 .before := by
  have hlast : ∀ x, (coverWatch p.regs.softMute).Passes
      [.write p.regs.softMute.addr (.lit p.regs.softMute.off) .log, .unmute] 0 x := fun x =>
    .inr (.inr ⟨rfl, rfl, nofun, nofun⟩)
  simp only [muteGuard, List.cons_append, List.nil_append]
  refine .inl ⟨rfl, rfl, rfl, cover_guardedBrackets _ _ (hlast .under), ?_⟩
  show (coverWatch _).Passes (_ :: _) (1 + _) _
  rw [Nat.add_comm]
  exact Watch.passes_append_length (hlast .before)

theorem cover_patchApplyRule (l : Half) : (coverWatch p.regs.softMute).Passes (patchApplyRule p l) 0 .before := by
  refine ⟨?_, nofun⟩
  split
  · exact nofun
  · exact ⟨cover_muteGuard, nofun⟩

end

/-- Settles O48: the observer passes the rule (`cover_patchApplyRule`), so the trace is one the automaton accepts. -/
theorem patchWritesAreMuteGuarded : Obligations.PatchWritesAreMuteGuarded := by
  intro s h l t pre a v ok τ post g hu hm ht hes ha
  obtain rfl : run (patchApplyRule s.params l) 0 s = t := Host.Outcome.next.inj ((runRule_granted g _).symm.trans ht)
  obtain ⟨q, hq, es, htr, hread⟩ := run_watched (cover_sound hm s.trace) (cover_patchApplyRule l)
    ⟨hu.1, hu.2, .before, rfl, reads_start s⟩
  rw [newEvents_append htr] at hes
  subst hes
  exact mute_guarded hread hq ha

end Sys2Proof.Machine

/-! SELECT_PRESET (R125) under every answering Device: `eq_preset` changes exactly where nothing failed, and the answer
is the first error logged. -/

namespace Sys2Proof.Machine

/-! ### The first error logged -/

/-- The run has gone on from `s` undisturbed, `first_err` is the first error logged since, and no data is answered. -/
structure Tells (s u : State) : Prop where
  noReset : noReset u = true
  answers : answers u = true
  kept : Kept s u
  data : u.scratch.data = []
  logs : ∃ es, u.trace = s.trace ++ es ∧ u.firstErr = (es.filterMap Event.logged?).head?

section
variable {s t u : State}

theorem tells_start {h : Nat} (g : Granted h s) (hu : Undisturbed s) : Tells s s := by
  obtain ⟨-, -, -, hf, hsc⟩ := g
  exact ⟨hu.1, hu.2, .refl s, by rw [hsc]; rfl, [], by simp, hf⟩

theorem Tells.quiet (h : Tells s t) (k : Kept t u) (hn : Machine.noReset u = true) (ha : Machine.answers u = true)
    (hd : u.scratch.data = t.scratch.data) (ht : u.trace = t.trace) (hf : u.firstErr = t.firstErr) : Tells s u := by
  obtain ⟨es, htr, hfe⟩ := h.logs
  exact ⟨hn, ha, h.kept.trans k, hd.trans h.data, es, ht.trans htr, hf.trans hfe⟩

theorem Tells.settled (h : Tells s t) : Tells s (settled t) :=
  h.quiet (settled_kept h.noReset) (noReset_settled h.noReset) ((settled_answers h.noReset).trans h.answers)
    (by rw [settled_scratch h.noReset]) (settled_trace h.noReset) (settled_firstErr h.noReset)

theorem Tells.logErr (h : Tells s t) (e : Err) : Tells s (logErr e t) := by
  obtain ⟨es, htr, hfe⟩ := h.logs
  refine ⟨by simpa using h.noReset, h.answers, h.kept.trans (logErr_works e t).kept, h.data, es ++ [.log e t.now], ?_, ?_⟩
  · rw [logErr_trace, htr, List.append_assoc]
  · rw [logErr_firstErr, hfe, List.filterMap_append, List.head?_append]
    rfl

theorem Tells.xfer (h : Tells s t) (a : Byte) (v : Bytes) (ok : Bool) :
    Tells s (emit (.xfer .write a v ok t.now) (drawn t)) := by
  obtain ⟨es, htr, hfe⟩ := h.logs
  have w : Works t (emit (.xfer .write a v ok t.now) (drawn t)) := (drawn_works t).trans (emit_works rfl rfl)
  refine ⟨by simpa using h.noReset, (transact_answers h.answers).1, h.kept.trans w.kept, h.data,
    es ++ [.xfer .write a v ok t.now], ?_, ?_⟩
  · rw [← List.append_assoc, ← htr]
    rfl
  · rw [List.filterMap_append, List.filterMap_cons_none rfl, List.filterMap_nil, List.append_nil]
    exact hfe

/-- Completion answers with the first error logged (R134). -/
theorem Tells.complete {h : Nat} (g : Granted h s) (i : Tells s u) :
    respAt (complete u) h = some (responseOf u) ∧ responseOf u = responseTo [] (newEvents s (complete u)) := by
  obtain ⟨hl, hh, -, -, -⟩ := g
  obtain ⟨es, htr, hfe⟩ := i.logs
  obtain ⟨hresp, htrace, -, -⟩ := complete_spec (i.kept.lock.trans hl) (by rw [i.kept.count]; exact hh)
  refine ⟨hresp, ?_⟩
  rw [htr, List.append_assoc] at htrace
  rw [newEvents_append htrace, responseTo, List.filterMap_append, List.filterMap_cons_none rfl, List.filterMap_nil,
    List.append_nil]
  cases hlog : es.filterMap Event.logged? with
  | nil => simp [responseOf, hfe, hlog, i.data]
  | cons e rest => simp [responseOf, hfe, hlog]

end

/-! ### The observer -/

/-- How far a commit has come: nothing failed yet; `ok` is true; a write has failed and its Log is to come; `ok` is false;
the command is to end with an error; the preset is set. -/
inductive Commit where
  | begun
  | good
  | failing
  | bad
  | raised
  | done

/-- The command has logged an error, whose status is not OK. -/
def Blamed (u : State) : Prop := ∃ e, u.firstErr = some e ∧ e.code ≠ .ok

/-- What each means of the state; `old` and `new` are the preset before and the one asked for. -/
def Commit.Holds (old new : Byte) (x : Commit) (u : State) : Prop :=
  match x with
  | .begun => u.firstErr = none ∧ u.eqPreset = old
  | .good => u.firstErr = none ∧ u.eqPreset = old ∧ u.scratch.ok = true
  | .failing => (u.firstErr = none ∨ Blamed u) ∧ u.eqPreset = old ∧ u.scratch.ok = false
  | .bad => Blamed u ∧ u.eqPreset = old ∧ u.scratch.ok = false
  | .raised => Blamed u ∧ u.eqPreset = old
  | .done => u.firstErr = none ∧ u.eqPreset = new

/-- The observer of the commit. -/
def commitWatch (new : Byte) : Watch Commit where
  asks m x on out :=
    match m with
    | .require _ => x = .begun ∧ on 0 .begun ∧ out .raised
    | .raise e => x = .begun ∧ e.code ≠ .ok ∧ out .raised
    | .begin => x = .begun ∧ on 0 .good
    | .write _ _ (.logFail n) => (x = .good ∨ x = .bad) ∧ on 0 x ∧ on n .bad
    | .ifOk n => (x = .good ∧ on 0 .good) ∨ (x = .bad ∧ on n .bad)
    | .setPreset i => i = new ∧ x = .good ∧ on 0 .done
    | _ => False
  ends x := x = .bad ∨ x = .raised ∨ x = .done

section
variable {s t : State} {new : Byte} {x : Commit}

/-- The run tells what it logs, and has come as far as `x`. -/
structure Commits (s : State) (new : Byte) (x : Commit) (u : State) : Prop where
  tells : Tells s u
  holds : x.Holds s.eqPreset new u

/-- The command has completed, with the preset set and no error or with an error and the preset kept. -/
def Committed (s : State) (new : Byte) (t : State) : Prop :=
  ∃ u, t = complete u ∧ Tells s u ∧
    ((u.firstErr = none ∧ u.eqPreset = new) ∨ (Blamed u ∧ u.eqPreset = s.eqPreset))

theorem Commit.Holds.congr {old : Byte} (h : x.Holds old new s) (hf : t.firstErr = s.firstErr)
    (hp : t.eqPreset = s.eqPreset) (hc : t.scratch.ok = s.scratch.ok) : x.Holds old new t := by
  cases x <;> simpa only [Commit.Holds, Blamed, hf, hp, hc] using h

theorem Commits.settled (h : Commits s new x t) : Commits s new x (settled t) :=
  ⟨h.tells.settled, h.holds.congr (settled_firstErr h.tells.noReset) (settled_eqPreset h.tells.noReset)
    (by rw [settled_scratch h.tells.noReset])⟩

theorem Commits.advance (h : Commits s new x t) (n : Nat) : Commits s new x (advance n t) :=
  ⟨h.tells.quiet (advance_works n t).kept (by simpa using h.tells.noReset) h.tells.answers rfl rfl rfl,
    h.holds.congr rfl rfl rfl⟩

theorem Commits.setOk (h : Tells s t) {y : Commit} {b : Bool} (hy : y.Holds s.eqPreset new (setOk b t)) :
    Commits s new y (setOk b t) :=
  ⟨h.quiet (Works.kept (by apply Works.quiet <;> rfl)) (by simpa using h.noReset) h.answers rfl rfl rfl, hy⟩

theorem blamed_logErr {e : Err} (he : e.code ≠ .ok) (h : t.firstErr = none ∨ Blamed t) : Blamed (logErr e t) := by
  obtain h | ⟨f, hf, hc⟩ := h
  · exact ⟨e, by rw [logErr_firstErr, h]; rfl, he⟩
  · exact ⟨f, by rw [logErr_firstErr, hf]; rfl, hc⟩

/-- A raise of a command that has logged nothing. -/
theorem Commits.raise {e : Err} (he : e.code ≠ .ok) (h : Commits s new .begun t) :
    Commits s new .raised (logErr e t) :=
  ⟨h.tells.logErr e, blamed_logErr he (.inl h.holds.1), h.holds.2⟩

theorem Commits.fail {e : Err} (he : e.code ≠ .ok) (h : Commits s new .failing t) : Commits s new .bad (logErr e t) :=
  ⟨h.tells.logErr e, blamed_logErr he h.holds.1, h.holds.2.1, h.holds.2.2⟩

/-- A write of the bracket: it succeeds, or its failure clears `ok` and is logged (R122). -/
theorem commits_write (h : Commits s new x t) (hx : x = .good ∨ x = .bad) (a : Byte) (v : Source) (n : Nat)
    {on : Nat → Commit → Prop} {out : Commit → Prop} (hon : on 0 x) (hbad : on n .bad) :
    (perform (.write a v (.logFail n)) t).Within (Commits s new) (Committed s new) on out := by
  have sent : ∀ ok, Commits s new x (emit (.xfer .write a (v.bytes t) ok t.now) (drawn t)) := fun ok =>
    ⟨h.tells.xfer .., h.holds.congr rfl rfl rfl⟩
  simp only [perform, memWrite]
  obtain ⟨-, ⟨b, ht⟩ | ht⟩ := transact_answers h.tells.answers
  · rw [ht]
    exact ⟨x, hon, sent true⟩
  · rw [ht]
    refine ⟨.failing, .bad, Commits.setOk (sent false).tells ?_, fun _ hu => hu.fail nofun, hbad⟩
    obtain rfl | rfl := hx
    · exact ⟨.inl h.holds.1, h.holds.2.1, rfl⟩
    · exact ⟨.inr h.holds.1, h.holds.2.1, rfl⟩

theorem commits_perform (m : Micro) {on : Nat → Commit → Prop} {out : Commit → Prop} (h : Commits s new x t)
    (hm : (commitWatch new).asks m x on out) : (perform m t).Within (Commits s new) (Committed s new) on out := by
  cases m
  case require l =>
    obtain ⟨rfl, hon, hout⟩ := hm
    simp only [perform]
    split
    · exact ⟨.begun, hon, h⟩
    · exact ⟨.begun, .raised, h, fun _ hu => hu.raise nofun, hout⟩
  case raise e =>
    obtain ⟨rfl, he, hout⟩ := hm
    exact ⟨.begun, .raised, h, fun _ hu => hu.raise he, hout⟩
  case begin =>
    obtain ⟨rfl, hon⟩ := hm
    exact ⟨.good, hon, Commits.setOk h.tells ⟨h.holds.1, h.holds.2, rfl⟩⟩
  case write a v f =>
    cases f
    case logFail n => exact commits_write h hm.1 a v n hm.2.1 hm.2.2
    all_goals exact hm.elim
  case ifOk n =>
    obtain ⟨rfl, hon⟩ | ⟨rfl, hon⟩ := hm
    · exact ⟨.good, by rw [h.holds.2.2]; exact hon, h⟩
    · exact ⟨.bad, by rw [h.holds.2.2]; exact hon, h⟩
  case setPreset i =>
    obtain ⟨rfl, rfl, hon⟩ := hm
    refine ⟨.done, hon, h.tells.quiet ?_ (by simpa using h.tells.noReset) h.tells.answers rfl rfl rfl, h.holds.1, rfl⟩
    exact Works.kept (by apply Works.quiet <;> rfl)
  all_goals exact hm.elim

theorem commit_sound (s : State) (new : Byte) : (commitWatch new).Sound (Commits s new) (Committed s new) where
  settled _ _ h _ := h.settled
  abandoned _ _ h hc := absurd (calm_of_noReset h.tells.noReset) (by simp [hc])
  advance _ n _ h := h.advance n
  complete x u he h := by
    refine ⟨u, rfl, h.tells, ?_⟩
    obtain rfl | rfl | rfl := he
    · exact .inr ⟨h.holds.1, h.holds.2.1⟩
    · exact .inr h.holds
    · exact .inl h.holds
  perform m _ _ _ _ h hm := commits_perform m h hm

end

/-! ### The rule -/

section
variable {p : Params} {new : Byte}

/-- The image writes with the closing write, from either value of `ok`: both ends of it meet what follows. -/
theorem commit_imageWrites (k : Kind) (img : List (Byte × Source)) {rest : List Micro}
    (hgood : (commitWatch new).Passes rest 0 .good) (hbad : (commitWatch new).Passes rest 0 .bad) :
    (commitWatch new).Passes (imageWrites img ++ closingWrite p k :: rest) 0 .good := by
  have hclose : ∀ x, x = .good ∨ x = .bad → (commitWatch new).Passes rest 0 x →
      (commitWatch new).Passes (closingWrite p k :: rest) 0 x := fun x hx h => ⟨hx, h, hbad⟩
  induction img with
  | nil => exact hclose _ (.inl rfl) hgood
  | cons q img ih =>
    exact ⟨.inl rfl, ih, imageWrites_length img ▸ Watch.passes_append_length (hclose _ (.inr rfl) hbad)⟩

theorem commit_bracket (k : Kind) (img : List (Byte × Source)) {rest : List Micro}
    (hgood : (commitWatch new).Passes rest 0 .good) (hbad : (commitWatch new).Passes rest 0 .bad) :
    (commitWatch new).Passes (bracket p k img ++ rest) 0 .begun := by
  have hclose : (commitWatch new).Passes (closingWrite p k :: rest) 0 .bad := ⟨.inr rfl, hbad, hbad⟩
  simp only [bracket, List.append_assoc, List.cons_append, List.nil_append]
  exact ⟨rfl, .inl rfl, commit_imageWrites k img hgood hbad,
    imageWrites_length img ▸ Watch.passes_append_length hclose⟩

theorem commit_selectPresetRule (a : Byte) : (commitWatch a).Passes (selectPresetRule p a) 0 .begun := by
  refine ⟨rfl, ?_, .inr (.inl rfl)⟩
  split
  next he => exact ⟨rfl, ((Status.late_iff _).1 (presetOperand_error he)).2, .inr (.inl rfl)⟩
  · exact commit_bracket .eq _ (.inl ⟨rfl, rfl, rfl, .inr (.inr rfl)⟩) (.inr ⟨rfl, .inl rfl⟩)

end

/-- Settles O44: the observer passes the rule (`commit_selectPresetRule`); one broken write is `selectPreset_broken`. -/
theorem selectPresetKeepsThePresetOnFailure : Obligations.SelectPresetKeepsThePresetOnFailure := by
  refine ⟨fun s h a t r g hu ht hr => ?_, fun s h a q img n w oks b later g hn hd hq hi hw hoks hdev =>
    selectPreset_broken g hn hd hq hi hw hoks hdev⟩
  obtain rfl : run (selectPresetRule s.params a) 0 s = t := Host.Outcome.next.inj ((runRule_granted g _).symm.trans ht)
  obtain ⟨u, hrun, htell, hend⟩ := run_watched (commit_sound s a) (commit_selectPresetRule a)
    ⟨tells_start g hu, g.2.2.2.1, rfl⟩
  rw [hrun] at hr ⊢
  obtain ⟨hresp, htold⟩ := htell.complete g
  obtain rfl : responseOf u = r := Option.some.inj (hresp.symm.trans hr)
  rw [complete_eqPreset]
  refine ⟨htold, ?_⟩
  obtain ⟨hf, hp⟩ | ⟨⟨e, hf, hc⟩, hp⟩ := hend
  · rw [responseOf_ok hf]
    exact ⟨fun _ => hp, fun hne => absurd rfl hne⟩
  · rw [responseOf_err hf]
    exact ⟨fun he => absurd he hc, fun _ => hp⟩

end Sys2Proof.Machine

/-! ParsePatch (R128) against the lexical rules, and the lowest address that fails. -/

namespace Sys2Proof.Machine

/-- The addresses of a patch rise. -/
theorem patchMarkers_rise : patchMarkers.Pairwise fun a b => a.toNat < b.toNat := by decide

/-- Over rising addresses the first that fails is the lowest. -/
theorem patchBlocks_error_iff {t : Bytes} {as : List Byte} (hs : as.Pairwise fun a b => a.toNat < b.toNat) (a : Byte) :
    patchBlocks t as = .error a ↔
      a ∈ as ∧ patchBlock a t = none ∧ ∀ b ∈ as, b.toNat < a.toNat → patchBlock b t ≠ none := by
  induction as with
  | nil => simp [patchBlocks]
  | cons c rest ih =>
    obtain ⟨hlow, hrest⟩ := List.pairwise_cons.1 hs
    have ih := ih hrest
    cases hc : patchBlock c t with
    | none =>
      have hcons : patchBlocks t (c :: rest) = .error c := by simp only [patchBlocks, hc]
      rw [hcons]
      constructor
      · intro h
        obtain rfl : c = a := Except.error.inj h
        refine ⟨List.mem_cons_self, hc, fun b hb hlt => ?_⟩
        obtain rfl | hb := List.mem_cons.1 hb
        · exact absurd hlt (lt_irrefl _)
        · exact absurd (hlow b hb) (by omega)
      · rintro ⟨hmem, -, hmin⟩
        obtain rfl | hmem := List.mem_cons.1 hmem
        · rfl
        · exact absurd hc (hmin c List.mem_cons_self (hlow a hmem))
    | some blk =>
      have hcons : patchBlocks t (c :: rest) = .error a ↔ patchBlocks t rest = .error a := by
        simp only [patchBlocks, hc]
        cases patchBlocks t rest <;> simp
      have hne : patchBlock a t = none → a ≠ c := by rintro h rfl; rw [hc] at h; cases h
      rw [hcons, ih]
      constructor
      · rintro ⟨hmem, ha, hmin⟩
        exact ⟨List.mem_cons_of_mem _ hmem, ha, List.forall_mem_cons.2 ⟨fun _ => by simp [hc], hmin⟩⟩
      · rintro ⟨hmem, ha, hmin⟩
        exact ⟨(List.mem_cons.1 hmem).resolve_left (hne ha), ha, (List.forall_mem_cons.1 hmin).2⟩

theorem width_pos (w : Width) : 0 < w.bytes := by cases w <;> decide

/-- A block is a run of tokens right after the first marker. -/
theorem patchBlock_iff (a : Byte) (t b : Bytes) : patchBlock a t = some b ↔
    ∃ w rest, coefficientWidth a = some w ∧ afterMarker a t = some rest ∧ byteTokens w.bytes rest = some b := by
  unfold patchBlock
  cases afterMarker a t <;> cases coefficientWidth a <;> simp

/-- No third digit follows the last token. -/
theorem not_hex_iff (o : Option Byte) : (∀ c ∈ o, isHex c = false) ↔ ∀ c ∈ o, ∀ n, ¬ IsDigit c n := by
  refine forall₂_congr fun c _ => ?_
  simp only [isDigit_iff, not_and, Bool.eq_false_iff]
  exact ⟨fun h _ hx => absurd hx h, fun h hx => h _ hx rfl⟩

theorem patchBlock_isBlock (a : Byte) (t b : Bytes) : patchBlock a t = some b ↔ IsBlock a t b := by
  rw [patchBlock_iff]
  constructor
  · rintro ⟨w, rest, hw, hrest, hb⟩
    obtain ⟨pre, m, rfl, hm, hmin⟩ := (afterMarker_iff _ _ _).1 hrest
    obtain ⟨us, post, rfl, hlen, htok, hpost⟩ := (byteTokens_iff _ _ _ (width_pos w)).1 hb
    exact ⟨w, pre, m, us, post, hw, by simp only [List.append_assoc], hm, hmin, hlen, htok, (not_hex_iff _).1 hpost⟩
  · rintro ⟨w, pre, m, us, post, hw, ht, hm, hmin, hlen, htok, hpost⟩
    exact ⟨w, us.flatten ++ post, hw, (afterMarker_iff _ _ _).2 ⟨pre, m, by rw [ht, List.append_assoc], hm, hmin⟩,
      (byteTokens_iff _ _ _ (width_pos w)).2 ⟨us, post, rfl, hlen, htok, (not_hex_iff _).2 hpost⟩⟩

/-- Settles O49: ParsePatch takes the addresses in rising order, and a block is what the grammar says. -/
theorem parsePatchReportsTheLowestAddress : Obligations.ParsePatchReportsTheLowestAddress := by
  intro t
  refine ⟨patchBlocks_error_iff patchMarkers_rise, fun img hi a ha => ?_, fun a ha => ?_,
    fun a b => patchBlock_isBlock a t b⟩
  · exact (parsePatch_ok hi).2 _ (blockOf_parsed hi ha)
  · simp only [patchBlock, ha]

end Sys2Proof.Machine

/-! The assembler (R79, R80): the command of a line, the texts of each form, and what a host does to run a line. -/

namespace Sys2Proof.Machine

/-! ### Commands -/

theorem toNat_half {n : Nat} (h : n ≤ 4096) : (BitVec.ofNat 16 n).toNat = n := by
  rw [BitVec.toNat_ofNat]; omega

/-- The width of a register fits the `L` field. -/
theorem regmap_le {p : Params} {a : Byte} {w : Nat} (h : regmap p a = some w) : w ≤ 4096 := by
  have hw : ∀ x : Width, x.bytes ≤ 4096 := by intro x; cases x <;> decide
  unfold regmap at h
  split at h
  · cases h; exact hw _
  · split at h
    · cases h
    · obtain ⟨x, -, rfl⟩ := Option.map_eq_some_iff.1 h
      exact hw x

theorem regWrite_command (p : Params) (a : Byte) {b : Bytes} (h : b.length ≤ 4096) :
    ∃ l, (AsmLine.regWrite a b).command p = some (.regWrite a l) ∧ l.toNat = b.length ∧
      (encode (.regWrite a l)).toNat = 0x11 + 256 * a.toNat + 65536 * b.length := by
  refine ⟨BitVec.ofNat 16 b.length, if_pos h, toNat_half h, ?_⟩
  have hv : rowRegWrite.value.toNat < 256 := by decide
  rw [encode, toNat_word_al hv, toNat_half h]
  rfl

theorem patchApply_command (p : Params) {t : Bytes} (h : t.length ≤ 4096) :
    ∃ l, (AsmLine.patchApply t).command p = some (.patchApply l) ∧ l.toNat = t.length ∧
      (encode (.patchApply l)).toNat = 0x22 + 65536 * t.length := by
  refine ⟨BitVec.ofNat 16 t.length, if_pos h, toNat_half h, ?_⟩
  have hv : rowPatchApply.value.toNat < 256 := by decide
  rw [encode, toNat_word_l hv, toNat_half h]
  rfl

/-- A line that assembles has a payload the stage holds. -/
theorem payload_length {p : Params} {l : AsmLine} {i : Instr} (h : l.command p = some i) : l.payload.length ≤ 4096 := by
  cases l
  case regWrite a b =>
    have hb : ¬ ¬ b.length ≤ Config.stageBytes := fun hb => by
      rw [AsmLine.command, if_neg hb] at h
      cases h
    exact not_not.1 hb
  case patchApply t =>
    have ht : ¬ ¬ t.length ≤ Config.stageBytes := fun ht => by
      rw [AsmLine.command, if_neg ht] at h
      cases h
    exact not_not.1 ht
  all_goals exact Nat.zero_le _

/-! ### Texts -/

/-- The bytes that part two words (R79). -/
def partsWords (c : Byte) : Bool := isWS c || c == 0x2C

theorem word_of_hex {c : Byte} (h : isHex c = true) : partsWords c = false ∧ (c != 0x3B) = true := by
  revert c
  decide

/-- A word before a blank, and a last word (R79). -/
theorem asmWords_pair {v w : Bytes} (hv : ∀ c ∈ v, partsWords c = false) (hw : ∀ c ∈ w, partsWords c = false)
    (hv' : v ≠ []) (hw' : w ≠ []) : asmWords (v ++ 0x20 :: w) = [v, w] := by
  have hsplit : (v ++ 0x20 :: w).splitOnP partsWords = [v, w] := by
    rw [List.splitOnP_append_cons_of_forall_mem (by simpa using hv) _ (by decide),
      List.splitOnP_eq_singleton (by simpa using hw)]
  have hfilter : [v, w].filter (fun w => !w.isEmpty) = [v, w] := by simp [hv', hw']
  exact (congrArg _ hsplit).trans hfilter

theorem asmHex_pair {c d : Byte} {m n : Nat} (hc : IsDigit c m) (hd : IsDigit d n) :
    asmHex [0x30, 0x78, c, d] = some (BitVec.ofNat 8 (m * 16 + n)) := by
  obtain ⟨hxc, rfl⟩ := (isDigit_iff _ _).1 hc
  obtain ⟨hxd, rfl⟩ := (isDigit_iff _ _).1 hd
  have hall : ([c, d].all isHex && !List.isEmpty [c, d] && decide ([c, d].length ≤ 2)) = true := by simp [hxc, hxd]
  have hval : [c, d].foldl (fun n c => 16 * n + hexVal c) 0 = hexVal c * 16 + hexVal d := by
    simp only [List.foldl_cons, List.foldl_nil]
    omega
  exact (if_pos hall).trans (congrArg (fun n => some (BitVec.ofNat 8 n)) hval)

/-- REG_READ with its address in hex. -/
theorem asmParse_regRead (texts : List (Bytes × Bytes)) {c d : Byte} {m n : Nat} (hc : IsDigit c m) (hd : IsDigit d n) :
    asmParse texts (ascii "REG_READ 0x" ++ [c, d]) = some (some (.regRead (BitVec.ofNat 8 (m * 16 + n)))) := by
  obtain ⟨hwc, hsc⟩ := word_of_hex ((isDigit_iff _ _).1 hc).1
  obtain ⟨hwd, hsd⟩ := word_of_hex ((isDigit_iff _ _).1 hd).1
  have hline : (ascii "REG_READ 0x" ++ [c, d]).takeWhile (· != 0x3B) = mnRegRead ++ 0x20 :: [0x30, 0x78, c, d] := by
    have hcd : [c, d].takeWhile (· != 0x3B) = [c, d] := by
      refine List.takeWhile_eq_self_iff.2 ?_
      simp only [List.forall_mem_cons]
      exact ⟨hsc, hsd, nofun⟩
    exact congrArg (ascii "REG_READ 0x" ++ ·) hcd
  have hwords : asmWords (mnRegRead ++ 0x20 :: [0x30, 0x78, c, d]) = [mnRegRead, [0x30, 0x78, c, d]] := by
    refine asmWords_pair (by decide) ?_ nofun nofun
    simp only [List.forall_mem_cons]
    exact ⟨rfl, rfl, hwc, hwd, nofun⟩
  have hparse : asmParse texts (ascii "REG_READ 0x" ++ [c, d]) =
      (asmSimple (asmWords ((ascii "REG_READ 0x" ++ [c, d]).takeWhile (· != 0x3B)))).map some := rfl
  have hsimple : asmSimple [mnRegRead, [0x30, 0x78, c, d]] = (asmHex [0x30, 0x78, c, d]).map .regRead := rfl
  rw [hparse, hline, hwords, hsimple, asmHex_pair hc hd]
  rfl

/-- A quoted text ends at the next quote (log 18). -/
theorem asmQuoted_text {t : Bytes} (h : 0x22 ∉ t) : asmQuoted (t ++ [0x22]) = some t := by
  have hne : ∀ c ∈ t, (c != 0x22) = true := fun c hc => bne_iff_ne.2 fun he => h (he ▸ hc)
  have htake : (t ++ [0x22]).takeWhile (· != 0x22) = t :=
    (List.takeWhile_append_of_pos hne).trans (List.append_nil t)
  have hdrop : (t ++ [0x22]).dropWhile (· != 0x22) = [0x22] := List.dropWhile_append_of_pos hne
  have hclosed : ((t ++ [0x22]).contains 0x22 && asmBlank (((t ++ [0x22]).dropWhile (· != 0x22)).drop 1)) = true := by
    rw [hdrop, List.contains_iff_mem.2 (List.mem_append_right _ List.mem_cons_self)]
    rfl
  rw [asmQuoted, if_pos hclosed, htake]

theorem asmParse_patchApply (texts : List (Bytes × Bytes)) {t : Bytes} (h : 0x22 ∉ t) :
    asmParse texts (ascii "PATCH_APPLY " ++ 0x22 :: t ++ [0x22]) = some (some (.patchApply t)) := by
  have hparse : asmParse texts (ascii "PATCH_APPLY " ++ 0x22 :: t ++ [0x22]) =
      (asmQuoted (t ++ [0x22])).map fun x => some (.patchApply x) := rfl
  rw [hparse, asmQuoted_text h]
  rfl

/-! ### What a host does to run a line -/

/-- The stage writes of a payload from offset `k` on. -/
def payloadActs (b : Bytes) (k : Nat) : List Act := (b.zipIdx k).map fun q => .stageWrite (BitVec.ofNat 12 q.2) q.1

/-- The payload lies in the stage from offset `k` on, what lies before it is as in `s`, and the host may issue as it
could. -/
structure Laid (b : Bytes) (k : Nat) (s t : State) : Prop where
  wf : Stage.wf t.stage = true
  payload : ∀ j < b.length, Stage.read t.stage (k + j) = b[j]?
  before : ∀ i < k, Stage.read t.stage i = Stage.read s.stage i
  ready : ∀ h, issueReady t h = issueReady s h
  trace : t.trace = s.trace

theorem issueReady_hostStageWrite (i : StageIx) (v : Byte) (s : State) (h : Nat) :
    issueReady (hostStageWrite i v s) h = issueReady s h := by
  simp only [issueReady, hostStageWrite, List.getElem?_mapIdx]
  cases s.hosts[h]? with
  | none => rfl
  | some p => simp only [Option.map_some]; split <;> rfl

theorem laid_payload (b : Bytes) (k : Nat) {s : State} (hw : Stage.wf s.stage = true) (hk : k + b.length ≤ 4096) :
    Laid b k s (applyActs (payloadActs b k) s) := by
  induction b generalizing k s with
  | nil => exact ⟨hw, nofun, fun _ _ => rfl, fun _ => rfl, rfl⟩
  | cons v b ih =>
    rw [List.length_cons] at hk
    have hix : (BitVec.ofNat 12 k : StageIx).toNat = k := by rw [BitVec.toNat_ofNat]; omega
    have hread := Stage.read_write s.stage k
    have hrise := ((Stage.wf_iff _).1 hw).1
    have ht := ih (k + 1) (s := hostStageWrite (BitVec.ofNat 12 k) v s) (Stage.wf_write _ v hw) (by omega)
    have hstage : ∀ i, Stage.read (hostStageWrite (BitVec.ofNat 12 k) v s).stage i =
        if i = k then some v else Stage.read s.stage i := fun i => by
      rw [hostStageWrite_stage, hix, hread i v hrise]
    refine ⟨ht.wf, fun j hj => ?_, fun i hi => ?_, fun h => ?_, ht.trace⟩
    · cases j with
      | zero => exact (ht.before k (by omega)).trans ((hstage k).trans (if_pos rfl))
      | succ j =>
        have := ht.payload j (by simpa using hj)
        rwa [Nat.add_right_comm] at this
    · exact (ht.before i (by omega)).trans ((hstage i).trans (if_neg (by omega)))
    · exact (ht.ready h).trans (issueReady_hostStageWrite ..)

theorem issue_ready {s : State} {h : Nat} (w : Word32) (hr : issueReady s h = true) :
    (issue h w s).hosts[h]? = some ⟨some w, none, []⟩ := by
  have hh : h < s.hosts.length := by
    by_contra hge
    simp [issueReady, List.getElem?_eq_none (Nat.not_lt.1 hge)] at hr
  simp [issue, hr, hh]

/-- A host that runs a line has its payload in the stage and its word pending. -/
theorem line_issues {p : Params} {h : Nat} {l : AsmLine} {acts : List Act} {s : State} (ha : l.acts p h = some acts)
    (hr : issueReady s h = true) (hw : Stage.wf s.stage = true) :
    ∃ i, l.command p = some i ∧ (applyActs acts s).hosts[h]? = some ⟨some (encode i), none, []⟩ ∧
      (∀ k < l.payload.length, Stage.read (applyActs acts s).stage k = l.payload[k]?) ∧
      (applyActs acts s).trace = s.trace := by
  obtain ⟨i, hi, rfl⟩ := Option.map_eq_some_iff.1 ha
  have hlaid := laid_payload l.payload 0 hw (by simpa using payload_length hi)
  have hacts : applyActs
      ((l.payload.zipIdx.map fun q => .stageWrite (BitVec.ofNat 12 q.2) q.1) ++ [.issue h (encode i)]) s =
      issue h (encode i) (applyActs (payloadActs l.payload 0) s) := List.foldl_append
  rw [hacts]
  refine ⟨i, hi, issue_ready _ ((hlaid.ready h).trans hr), fun k hk => ?_, ?_⟩
  · rw [issue_stage]
    simpa using hlaid.payload k hk
  · rw [issue_trace, hlaid.trace]

/-- Settles O35: the fixed texts compute; the others are read word by word. -/
theorem assembledLineIssuesItsCommand : Obligations.AssembledLineIssuesItsCommand := by
  refine ⟨fun p => ⟨rfl, rfl, rfl, rfl, rfl, rfl, rfl, rfl⟩, fun _ _ => rfl, fun _ _ => rfl,
    fun p a => ⟨rfl, fun w hw => toNat_half (regmap_le hw)⟩, fun p a b hb => regWrite_command p a hb,
    fun p t ht => patchApply_command p ht, fun p => ⟨rfl, rfl⟩,
    fun texts => ⟨rfl, rfl, rfl, rfl, rfl, rfl, rfl, rfl, rfl, rfl, rfl, rfl⟩,
    fun texts c d m n hc hd => asmParse_regRead texts hc hd, fun texts t ht => asmParse_patchApply texts ht,
    fun texts t => rfl, fun p h l acts s ha hr hw => ?_⟩
  obtain ⟨i, hi, hport, hpay, htr⟩ := line_issues ha hr hw
  exact ⟨⟨i, _, hi, hport, rfl, rfl, rfl⟩, hpay, htr⟩

end Sys2Proof.Machine
